-- ==== Sys2Proof/Word.lean ====
section
/-! DEFINITION. The words of the processor bus and the plainest arithmetic on them. -/

namespace Sys2Proof

/-- A 16-bit word of the processor bus (00 section 7.1). -/
abbrev Word := BitVec 16

/-- An 8-bit byte: a lane of a word, a character of a deck link. -/
abbrev Byte := BitVec 8

/-- A 24-bit byte address of the processor bus (00 section 7.1). -/
abbrev Addr := BitVec 24

/-- A track mask: V in bit 0, A1 in bit 1, A2 in bit 2, TC in bit 3 (11, opening). -/
abbrev Tracks := BitVec 4

/-- Bits 15–8, the byte at the even address. -/
def hiByte (w : Word) : Byte := (w >>> 8).setWidth 8

/-- Bits 7–0, the byte at the odd address. -/
def loByte (w : Word) : Byte := w.setWidth 8

/-- The word whose lanes are the two bytes. -/
def mkWord (hi lo : Byte) : Word := hi ++ lo

/-- Increment, saturating at `top`. -/
def satSucc (top n : Nat) : Nat := if n < top then n + 1 else top

/-- Increment, wrapping to 0 after `top`. -/
def wrapSucc (top n : Nat) : Nat := if n < top then n + 1 else 0

/-- `clamp(x, lo..hi)` of 00 section 7.6, on naturals. -/
def clampNat (lo hi x : Nat) : Nat := if x < lo then lo else if hi < x then hi else x

/-- A clamp to the range `lo..hi` (00 section 7.6), on integers. -/
def clampInt (lo hi x : Int) : Int := if x < lo then lo else if hi < x then hi else x

end Sys2Proof
end

