-- ==== Sys2Proof/Syntax.lean ====
section
/-! DEFINITION. The commands of the block: one constructor of `Instr` for each row of spec/opcode_table.json,
with the operands the model gives the row (the table gives it no bits). -/

namespace Sys2Proof

/-- A transport: one deck on one deck port (00 section 7.7). -/
inductive Transport where
  | t0 | t1 | t2 | t3 | t4 | t5
  deriving DecidableEq, Repr

/-- The byte strobes of a cycle (00 section 7.1). -/
inductive Strobes where
  | upper | lower | both
  deriving DecidableEq, Repr

/-- How memory ends a cycle that the part forwards to it (01 R1). -/
inductive MemEnd where
  | completes | faults
  deriving DecidableEq, Repr

/-- An interrupt-acknowledge cycle as the processor drives it, with its level on address lines 3–1, and how memory ends it
where it is forwarded (01 R1). -/
structure AckCycle where
  addr : Addr
  lanes : Strobes
  mem : MemEnd
  deriving DecidableEq, Repr

/-- The word of a store, and how memory ends it where it is forwarded (01 R1). -/
structure StoreData where
  value : Word
  mem : MemEnd
  deriving DecidableEq, Repr

/-- A full-word read of a reply port's take word, and how memory ends it where it is forwarded (01 R1, R17). -/
structure TakeRead where
  port : Transport
  mem : MemEnd
  deriving DecidableEq, Repr

/-- One character on a receive line (04 R59): its data bits, and whether its parity and stop bits were right. -/
structure RxChar where
  byte : Byte
  parityOk : Bool
  stopOk : Bool
  deriving DecidableEq, Repr

/-- What makes a frame boundary: the phase counter's wrap (02 R23), the generation for a missing pulse (02 R29),
or a frame pulse (02 R28, R29). -/
inductive FrameCause where
  | wrap | generated | pulse
  deriving DecidableEq, Repr

/-- What makes a field boundary: a frame boundary, the point of 02 R25 at which field 2 is due, or a field pulse. -/
inductive FieldCause where
  | frame (c : FrameCause) | point | pulse
  deriving DecidableEq, Repr

/-- The slots whose command word names a command (11.3). -/
inductive SlotName where
  | transport (n : Transport) | chase (n : Transport) | run | switcher
  deriving DecidableEq, Repr

/-- The parameter words 6–12 of a chase slot (11.3). -/
structure ParamWords where
  gains : Word
  corrLimit : Word
  slewWindow : Word
  countGain : Word
  approach : Word
  shuttleMax : Word
  holdLimit : Word
  deriving DecidableEq, Repr

/-- The argument words 2–12 of a CHASE_START record (11.3). -/
structure ChaseArgs where
  master : Word
  sign : Word
  labelHi : Word
  labelLo : Word
  params : ParamWords
  deriving DecidableEq, Repr

/-- The commands, in the order of spec/opcode_table.json.  A slot command carries the words of its record that its
kind uses (log 7); a bus cycle carries what the processor drives and what memory answers where the cycle is forwarded
(logs 10 and 43); a row that names a step of a boundary carries what makes that boundary (log 11). -/
inductive Instr where
  | systemReset (straps : BitVec 2)
  | acknowledgeCycle (cycle : AckCycle)
  | setupTake (value : Word) (mem : MemEnd)
  | watchedWordStore (addr : Addr) (lanes : Strobes) (value : Word) (mem : MemEnd)
  | readModifyWrite (addr : Addr) (lanes : Strobes) (value : Word) (readMem writeMem : MemEnd)
  | overlayStore (offset : BitVec 14) (lanes : Strobes) (data : StoreData)
  | eventWordStore (event : Fin 64) (word : Fin 32) (lanes : Strobes) (value : Word) (mem : MemEnd)
  | kindWordStore (event : Fin 64) (lanes : Strobes) (value : Word) (mem : MemEnd)
  | serviceDone (value : Word) (mem : MemEnd)
  | crosspointStore (entry : Fin 8) (lanes : Strobes) (value : Word) (mem : MemEnd)
  | levelStore (source : Fin 16) (lanes : Strobes) (value : Word) (mem : MemEnd)
  | take (read : TakeRead)
  | holdTimeout
  | halt (n : Transport) (tag : Word)
  | run (n : Transport) (tag : Word)
  | speed (n : Transport) (tag value : Word)
  | locate (n : Transport) (tag labelHi labelLo : Word)
  | arm (n : Transport) (tag mask : Word)
  | insertOn (n : Transport) (tag mask : Word)
  | insertOff (n : Transport) (tag mask : Word)
  | sense (n : Transport) (tag : Word)
  | standby (n : Transport) (tag setting : Word)
  | clearErrors (n : Transport) (tag : Word)
  | deckReset (n : Transport) (tag : Word)
  | parameterTake (n : Transport) (tag latency tolerance timeout : Word)
  | chaseStart (n : Transport) (tag : Word) (args : ChaseArgs)
  | chaseStop (n : Transport) (tag : Word)
  | params (n : Transport) (tag : Word) (set : ParamWords)
  | startRun (tag first mode autoRoll margin limit : Word)
  | roll (tag : Word)
  | stop (tag : Word)
  | abort (tag : Word)
  | clearFault (tag : Word)
  | setNext (tag next : Word)
  | clearAll (tag : Word)
  | setSuiteClock (tag labelHi labelLo : Word)
  | mixerSet (tag a b level pattern : Word)
  | autoTrans (tag kind length curve pattern : Word)
  | gpiPulse (tag line width : Word)
  | framePulse
  | fieldPulse
  | acquireTimeout
  | generatedBoundary
  | referenceLost
  | frameBoundary
  | field2Boundary
  | timecodeWord (n : Transport) (bits : BitVec 80)
  | readerCoasting (n : Transport) (cause : FrameCause)
  | readerLost (n : Transport) (cause : FrameCause)
  | deckReply (n : Transport) (chars : List RxChar)
  | gapError (n : Transport)
  | notice (n : Transport) (code : Byte)
  | transmitComplete (n : Transport)
  | replyTimeout (n : Transport)
  | breakEnd (n : Transport)
  | probeIntervalExpiry (n : Transport) (cause : FrameCause)
  | holdExpired (n : Transport) (cause : FrameCause)
  | chaseLock (n : Transport) (cause : FrameCause)
  | chaseSlip (n : Transport) (cause : FrameCause)
  | sensePoll (n : Transport) (cause : FrameCause)
  | cueTimeout (cause : FrameCause)
  | lookaheadCueTimeout (cause : FrameCause)
  | transitionEnd (cause : FieldCause)
  | switcherFrameSent
  | gpiPulseEnd (line : Fin 8) (cause : FrameCause)
  | reservedCommand (slot : SlotName) (command tag : Word)
  deriving DecidableEq, Repr

end Sys2Proof
end

