-- ==== Sys2Proof/Config.lean ====
section
/-! DEFINITION. What the spec fixes as a number, the unit of time of the model, and the free values: what the spec
leaves open inside one step, as constants without a body. -/

namespace Sys2Proof.Config

/-- Clock units of 1/48 µs in one millisecond (log 3).  In this unit a nominal phase unit of each standard, a
character of each link, 16 µs and 1 ms are all whole numbers. -/
def msUnits : Nat := 48000

/-- Clock units in one unit of the hold limit, 16 µs (01 R13). -/
def holdUnits : Nat := 768

/-- Clock units in one bit time of a deck link, at 38,400 bit/s (04 R59). -/
def deckBitUnits : Nat := 1250

/-- Clock units in one bit time of the switcher link, at 76,800 bit/s (09 R180). -/
def switcherBitUnits : Nat := 625

/-- Clock units in one character of a deck link, 11 bit times at 38,400 bit/s (04 R59). -/
def deckByteUnits : Nat := 13750

/-- Clock units in one switcher frame, 8 characters of 11 bit times at 76,800 bit/s (09 R180). -/
def switcherFrameUnits : Nat := 8 * 6875

/-- The break of a link reset, 100 ms (04 R79). -/
def breakUnits : Nat := 100 * msUnits

/-- The receiver's gap limit, 2 ms (04 R71). -/
def gapUnits : Nat := 2 * msUnits

/-- FREE VALUE (log 4): clock units in the phase unit now passing while the reference is LOCKED.  02 R22 gives the
synthesiser's aim and not its rate. -/
opaque lockedPu : Nat → Nat

/-- FREE VALUE (log 5): whether a link departure reaches the run before the chase fault it causes.  08 R170 allows
either. -/
opaque departureFirst : Nat → Bool

/-- FREE VALUE (log 6): whether the chase context of the given transport computes before the run's timed actions
of the same boundary.  08 R155 and R167 allow either. -/
opaque chaseFirst : Nat → Transport → Bool

end Sys2Proof.Config
end

