-- ==== Sys2Proof/Machine/State.lean ====
section
/-! DEFINITION. The state of the part as plain data, block by block, and its value after system reset. -/

namespace Sys2Proof.Machine

/-! ## Shapes used by several blocks -/

/-- One value for each transport T0–T5. -/
structure Six (α : Type) where
  t0 : α
  t1 : α
  t2 : α
  t3 : α
  t4 : α
  t5 : α
  deriving DecidableEq, Repr

/-- The same value for every transport. -/
def Six.replicate {α : Type} (a : α) : Six α := ⟨a, a, a, a, a, a⟩

/-- A frame standard (00 section 7.2). -/
inductive Standard where
  | std25 | std30n | std30d
  deriving DecidableEq, Repr

/-- A timecode label as four binary bytes (00 section 7.3). -/
structure Label where
  hh : Byte
  mm : Byte
  ss : Byte
  ff : Byte
  deriving DecidableEq, Repr

/-- A direction of tape motion (03 section 3.2). -/
inductive Dir where
  | forward | reverse
  deriving DecidableEq, Repr

/-- A mixer source (09 section 9.2): a transport, BLACK or MATTE. -/
inductive MixSource where
  | deck (n : Transport) | black | matte
  deriving DecidableEq, Repr

/-- A list of (number, word) pairs; an unlisted number holds 0.  `WordMap.wf` (Ops) is its canonical form. -/
abbrev WordMap := List (Nat × Word)

/-! ## The Pass-Through Unit (01) -/

/-- The setup record in force (01 R13, as R15 treats it). -/
structure Setup where
  regionBase : BitVec 10
  standard : Standard
  vectorBase : Byte
  holdLimit : Byte
  coastLimit : Byte
  requireReference : Bool
  frameAllowed : Bool
  deriving DecidableEq, Repr

/-- What only bus stores, the setup take and reset change: the setup record in force (absent while UNCONFIGURED),
the straps, the capture latches, and the part's copy of the edit table. -/
structure PartConfig where
  setup : Option Setup
  straps : BitVec 2
  /-- capture latches of the watched words, by region offset (01 R2) -/
  latches : WordMap
  /-- capture latches of the setup block, by word number (01 R14) -/
  setupLatches : WordMap
  /-- the part's copy of the edit table, by region offset (01 R6, 07 R132) -/
  eventWords : WordMap
  deriving DecidableEq, Repr

/-- Why the PTU refused a store (01 R11). -/
inductive AccessReason where
  | overlayStore | eventArmed | serviceEmpty | setupStandard | setupOverlap | setupRunActive | setupChaseActive
  deriving DecidableEq, Repr

/-- The access fault record (01 R11).  `reason` and `lanes` are absent until the first refusal. -/
structure AccessRecord where
  reason : Option AccessReason
  addr : Addr
  readModifyWrite : Bool
  lanes : Option Strobes
  frame : Word
  count : Nat
  deriving DecidableEq, Repr

/-- A held read (01 R18): the port, the time left in clock units, and for the read half of a read-modify-write the
strobes of the write half that follows (01 R19). -/
structure Hold where
  port : Transport
  left : Nat
  writeHalf : Option Strobes
  deriving DecidableEq, Repr

/-- A cycle forwarded to the memory side (01 R1). -/
structure Forwarded where
  addr : Addr
  store : Bool
  lanes : Strobes
  data : Word
  deriving DecidableEq, Repr

/-- How the latest processor cycle ended (log 10). -/
inductive CycleEnd where
  | none       -- no cycle yet
  | byMemory   -- forwarded, and memory completed it
  | memFault   -- forwarded, and memory's bus fault passed back
  | answered   -- answered by the part
  | refused    -- ended by the part with a bus fault
  | held       -- still open, 01 R18
  | abandoned  -- cut by a system reset, 01 R21
  deriving DecidableEq, Repr

/-- The processor-side and memory-side bus as the latest cycle left it (log 10). -/
structure Bus where
  ending : CycleEnd
  /-- the word with which the part last answered a read or an acknowledge -/
  data : Option Word
  /-- what the latest cycle forwarded to memory, in order -/
  forwarded : List Forwarded
  deriving DecidableEq, Repr

/-- The outcome of a reply FIFO entry (05 R101). -/
inductive EntryOutcome where
  | reply | timeout | linkFailed
  deriving DecidableEq, Repr

/-- The command kinds of a deck link (04 R61). -/
inductive LinkKind where
  | halt | run | speed | locate | arm | insertOn | insertOff | sense | standby
  deriving DecidableEq, Repr

/-- The reply kinds of a deck link, notices apart (04 R62). -/
inductive ReplyKind where
  | ack | nak | senseReply
  deriving DecidableEq, Repr

/-- An entry of a reply FIFO (05 R101).  A notice entry has no tag and no command, and `notice` set. -/
structure FifoEntry where
  tag : Option Word
  outcome : EntryOutcome
  command : Option LinkKind
  reply : Option ReplyKind
  notice : Bool
  seq : Option Nat
  payload : List Byte
  arrival : Word
  deriving DecidableEq, Repr

/-- The rest of the PTU: hold state, reply ports, access fault record, bus. -/
structure Ptu where
  hold : Option Hold
  lastHeader : Six Word
  view : Six (Option FifoEntry)
  access : AccessRecord
  bus : Bus
  deriving DecidableEq, Repr

/-! ## Slot results (01 R3, 11.6) -/

/-- The result codes of the slot result words (11.6). -/
inductive SlotCode where
  | accepted | queueFull | held | malformed | linkDown | arg | state | busy
  deriving DecidableEq, Repr

/-- A slot result: `none` code until the first record is decided. -/
structure SlotResult where
  code : Option SlotCode
  parameters : Bool
  command : Word
  tag : Word
  deriving DecidableEq, Repr

/-- The zero result word of a reset. -/
def SlotResult.zero : SlotResult := ⟨none, false, 0, 0⟩

/-! ## The Reference Timing Unit (02) -/

/-- Reference states (02 section 2.3). -/
inductive RefState where
  | absent | acquiring | locked | free
  deriving DecidableEq, Repr

/-- A frame boundary event (02 R24): what the RTU hands to every block at a boundary. -/
structure FrameEvent where
  frames : BitVec 32
  clock : Nat
  length : Nat
  short : Bool
  state : RefState
  deriving DecidableEq, Repr

structure Rtu where
  state : RefState
  phase : Nat
  pulseTimer : Nat
  owed : Bool
  goodRun : Nat
  disturbanceRun : Nat
  field2Made : Bool
  /-- field parity is 2 -/
  parity2 : Bool
  frames : BitVec 32
  clock : Nat
  shortFrames : Nat
  disturbances : Nat
  /-- the event of the latest frame boundary; absent until the first -/
  event : Option FrameEvent
  deriving DecidableEq, Repr

/-! ## The Timecode Readers (03) -/

/-- Reader states (03 section 3.3). -/
inductive ReaderState where
  | silent | seeded | acquiring | reading | coasting | lost
  deriving DecidableEq, Repr

/-- The last accepted word (03 section 3.3). -/
structure Accepted where
  index : Nat
  dir : Dir
  phase : Nat
  deriving DecidableEq, Repr

/-- A candidate or jump candidate (03 section 3.3). -/
structure Candidate where
  index : Nat
  dir : Dir
  deriving DecidableEq, Repr

/-- The counts of 03 R56. -/
structure ReaderCounts where
  accepted : Nat
  badWord : Nat
  badLabel : Nat
  flagMismatch : Nat
  discarded : Nat
  jump : Nat
  seed : Nat
  loss : Nat
  deriving DecidableEq, Repr

structure Reader where
  state : ReaderState
  last : Option Accepted
  /-- a word has been accepted since the latest boundary (03 R50 step 2) -/
  fresh : Bool
  elapsed : Nat
  candidate : Option Candidate
  jump : Option Candidate
  quiet : Nat
  /-- the held position of a SEEDED reader (03 R49, log 19) -/
  seed : Option Nat
  /-- the position published at the latest boundary -/
  position : Option Nat
  speed : Int
  /-- the speed published at the latest boundary (log 19) -/
  pubSpeed : Int
  ring : List Nat
  counts : ReaderCounts
  changeFlag : Bool
  changeCount : Nat
  deriving DecidableEq, Repr

/-! ## The Deck Link Controllers (04) -/

/-- Link states (04 section 4.3). -/
inductive LinkState where
  | unprobed | up | failed
  deriving DecidableEq, Repr

/-- Who an entry belongs to (04 section 4.4); LINK is the link's own probe. -/
inductive Source where
  | processor | run | chase | link
  deriving DecidableEq, Repr

/-- The argument of an entry (04 R61). -/
inductive Arg where
  | none | label (l : Label) | mask (m : Tracks) | setting (on : Bool) | speed (v : Int)
  deriving DecidableEq, Repr

/-- A command queue entry (04 section 4.4); also a speed or a probe once it is in flight. -/
structure Entry where
  source : Source
  kind : LinkKind
  arg : Arg
  tag : Option Word
  urgent : Bool
  abort : Bool
  deriving DecidableEq, Repr

/-- The speed slot's contents (04 R68, 05 R95). -/
structure SlotSpeed where
  value : Int
  source : Source
  tag : Option Word
  deriving DecidableEq, Repr

/-- Where the transmission of the frame in flight stands (04 R70, log 16). -/
inductive SendPhase where
  | waiting | sending | sent
  deriving DecidableEq, Repr

/-- The frame in flight (04 opening table).  The sequence is absent until the first transmission begins. -/
structure InFlight where
  entry : Entry
  seq : Option Nat
  sends : Nat
  orphan : Bool
  phase : SendPhase
  deriving DecidableEq, Repr

/-- A frame on the transmit line and the clock units until its last byte has gone. -/
structure Transmission where
  bytes : List Byte
  left : Nat
  deriving DecidableEq, Repr

/-- The receiver (04 R71): the bytes received after the start byte of a frame in assembly. -/
inductive Receiver where
  | hunt | frame (bytes : List Byte)
  deriving DecidableEq, Repr

/-- Link error kinds (04 R78). -/
inductive ErrKind where
  | parity | framing | gap | check | format | timeout | overrun
  deriving DecidableEq, Repr

/-- The captured fields of a frozen error record (04 R78). -/
structure ErrCapture where
  kind : ErrKind
  frame : Option LinkKind
  seq : Option Nat
  sends : Option Nat
  frameCount : Word
  deriving DecidableEq, Repr

/-- The seven error counts (04 R78). -/
structure ErrCounts where
  parity : Nat
  framing : Nat
  gap : Nat
  check : Nat
  format : Nat
  timeout : Nat
  overrun : Nat
  deriving DecidableEq, Repr

structure Link where
  state : LinkState
  breakLeft : Option Nat
  nextSeq : Nat
  inFlight : Option InFlight
  replyTimer : Option Nat
  lastSpeed : Bool
  queue : List Entry
  slot : Option SlotSpeed
  probeInterval : Nat
  silence : Nat
  receiver : Receiver
  gapLeft : Option Nat
  tx : Option Transmission
  err : Option ErrCapture
  additional : Bool
  counts : ErrCounts
  stale : Nat
  superseded : Nat
  probeMiss : Nat
  deriving DecidableEq, Repr

/-! ## The Transport Context Table (05) -/

inductive Owner where
  | free | chase | run
  deriving DecidableEq, Repr

/-- Deck modes (05 opening tables). -/
inductive DeckMode where
  | unknown | stopped | playing | vari | shuttling | locating | noTape | standbyOff | loc
  deriving DecidableEq, Repr

structure Context where
  owner : Owner
  mode : DeckMode
  insertMask : Tracks
  lastSpeed : Int
  sensedFlags : Option (BitVec 4)
  sensedPos : Option Nat
  sensedAt : Word
  latency : Nat
  tolerance : Nat
  replyTimeout : Nat
  fifo : List FifoEntry
  linkChange : Bool
  errFrozen : Bool
  result : SlotResult
  /-- the six counts of 05 R105: they wrap, so each is a word -/
  taken : Word
  delivered : Word
  lost : Word
  cancelled : Word
  noticesDelivered : Word
  noticesLost : Word
  deriving DecidableEq, Repr

/-! ## The Chase Unit (06) -/

/-- Chase states (06 opening table). -/
inductive ChaseState where
  | idle | seek | approach | locked | hold | fault
  deriving DecidableEq, Repr

inductive Origin where
  | processor | run
  deriving DecidableEq, Repr

inductive Master where
  | transport (n : Transport) | suiteClock | editClock
  deriving DecidableEq, Repr

inductive ClampEnd where
  | none | plus | minus
  deriving DecidableEq, Repr

inductive ChaseCause where
  | holdExpired | nak | link
  deriving DecidableEq, Repr

/-- The ten chase parameters (06 R108). -/
structure ChaseParams where
  kp : Nat
  ki : Nat
  corrLimit : Nat
  slew : Nat
  lockWindow : Nat
  lockCount : Nat
  approachWindow : Nat
  shuttleGain : Nat
  shuttleMax : Nat
  holdLimit : Nat
  deriving DecidableEq, Repr

/-- The defaults of 06 R108. -/
def ChaseParams.default : ChaseParams := ⟨48, 4, 102, 32, 16, 10, 150, 16, 16384, 50⟩

structure Chase where
  state : ChaseState
  origin : Origin
  master : Master
  offset : Int
  params : ChaseParams
  pending : Option ChaseParams
  acc : Int
  vPrev : Int
  lastClamp : ClampEnd
  inRun : Nat
  outRun : Nat
  nakRun : Nat
  holdCount : Nat
  slips : Nat
  cause : Option ChaseCause
  /-- the last error: e in pu and Ef in frames -/
  lastError : Option (Int × Int)
  changeFlag : Bool
  changeCount : Nat
  result : SlotResult
  deriving DecidableEq, Repr

/-! ## The Edit Table (07) -/

inductive EventState where
  | empty | draft | loaded | armed | done
  deriving DecidableEq, Repr

inductive TransKind where
  | none | cut | mix | wipe
  deriving DecidableEq, Repr

inductive Curve where
  | linear | s
  deriving DecidableEq, Repr

/-- A GPI cue entry of an event (07 section 7.2). -/
structure Cue where
  line : Fin 8
  width : Nat
  offset : Int
  deriving DecidableEq, Repr

/-- The places of the armed set (07 R144). -/
inductive Place where
  | current | lookahead
  deriving DecidableEq, Repr

/-- The armed copy of an event (07 R143).  `place` is the place it was armed into, and stands when the event moves to the
current place. -/
structure Armed where
  event : Fin 64
  place : Place
  noLookahead : Bool
  kind : TransKind
  curve : Curve
  recorder : Transport
  mask : Tracks
  sourceA : MixSource
  sourceB : Option MixSource
  recordIn : Nat
  sourceAIn : Option Nat
  sourceBIn : Option Nat
  duration : Nat
  preroll : Nat
  postroll : Nat
  t0 : Nat
  length : Nat
  pattern : Nat
  split : Option Int
  link : Option (Fin 64)
  cues : List Cue
  latency : Nat
  margin : Nat
  deriving DecidableEq, Repr

structure EditTable where
  states : Vector EventState 64
  current : Option Armed
  lookahead : Option Armed
  deriving DecidableEq, Repr

/-! ## The Run Sequencer (08) -/

inductive RunState where
  | idle | cueing | ready | preroll | edit | postroll | aborting | faulted
  deriving DecidableEq, Repr

inductive RunMode where
  | preview | record
  deriving DecidableEq, Repr

inductive Lookahead where
  | notYet | armed | faultPending | none
  deriving DecidableEq, Repr

inductive Progress where
  | none | locating | waiting | cued
  deriving DecidableEq, Repr

/-- The cue of one transport (08 R156).  `unplaced`: its LOCATE was refused QUEUE_FULL and waits for the next
boundary (08 R158, log 24). -/
structure CueState where
  progress : Progress
  locates : Nat
  polls : Nat
  senseOut : Bool
  unplaced : Bool
  deriving DecidableEq, Repr

/-- No cue (08 R156). -/
def CueState.zero : CueState := ⟨.none, 0, 0, false, false⟩

/-- An awaited insert (08 R164): its kind and mask. -/
structure Awaited where
  off : Bool
  mask : Tracks
  deriving DecidableEq, Repr

inductive AbortCause where
  | none | fault | processorAbort | processorHalt | stopped | cleared
  deriving DecidableEq, Repr

inductive EndCause where
  | none | completed | stopped | aborted | processorHalt | cleared | faulted
  deriving DecidableEq, Repr

/-- Why an event record failed its checks (07 R138 to R142). -/
inductive ArmReason where
  | fieldRange | sameTransport | badLabel | transitionRange | prerollShort | splitRange | cueRange
  deriving DecidableEq, Repr

/-- Run fault kinds (08 R172), in the order of its table.  The reason of DECK_REFUSED is the NAK's reason byte. -/
inductive FaultKind where
  | eventInvalid (reason : ArmReason) | eventNotLoaded | eventRepeated | cueTimeout | cueMissed | deckProtected
  | deckRefused (reason : Byte) | linkFailed | notLocked | lockLost | lateInsert | chaseFault | deckNotice | refLost
  deriving DecidableEq, Repr

/-- A run fault without its additional count (08 R172). -/
structure FaultRecord where
  kind : FaultKind
  event : Fin 64
  transport : Option Transport
  clock : Option Int
  fromLookahead : Bool
  deriving DecidableEq, Repr

structure Run where
  state : RunState
  mode : RunMode
  autoRoll : Bool
  margin : Nat
  cueLimit : Nat
  requireReference : Bool
  /-- the successor; `none` is END -/
  successor : Option (Fin 64)
  lookahead : Lookahead
  stopRequested : Bool
  rollRequested : Bool
  clock : Int
  cueCount : Nat
  laCueCount : Nat
  cues : Six CueState
  syncPassed : Bool
  insertsOn : Tracks
  awaited : List Awaited
  outstanding : Nat
  abortCause : AbortCause
  fault : Option FaultRecord
  /-- the additional count of the fault record (it counts with no record too, 08 R172) -/
  faultExtra : Nat
  pendingFault : Option FaultRecord
  pendingExtra : Nat
  endCause : EndCause
  lockLosses : Nat
  notices : Nat
  result : SlotResult
  deriving DecidableEq, Repr

/-! ## The Transition Generator (09) -/

inductive MixOwner where
  | free | processor | run
  deriving DecidableEq, Repr

/-- A transition in progress (09 opening table); `kind` is CUT, MIX or WIPE. -/
structure Transition where
  kind : TransKind
  curve : Curve
  fields : Nat
  k : Nat
  byProcessor : Bool
  deriving DecidableEq, Repr

inductive TransOutcome where
  | completed | preempted | frozen | replaced | cleared
  deriving DecidableEq, Repr

structure LastTransition where
  kind : TransKind
  byProcessor : Bool
  outcome : TransOutcome
  deriving DecidableEq, Repr

/-- What the Run Sequencer hands for a boundary (09 R183). -/
inductive Handed where
  | take (a : MixSource)
  | pulse (line : Fin 8) (width : Nat)
  | start (kind : TransKind) (curve : Curve) (length pattern : Nat) (b : MixSource)
  deriving DecidableEq, Repr

/-- The switcher transmitter (09 R180): the frame being sent with the clock units left, and a waiting frame. -/
inductive SwitcherTx where
  | idle
  | sending (frame : List Byte) (left : Nat) (waiting : Option (List Byte))
  deriving DecidableEq, Repr

structure Mixer where
  owner : MixOwner
  frozen : Bool
  aBus : MixSource
  bBus : MixSource
  level : Nat
  pattern : Nat
  transition : Option Transition
  last : Option LastTransition
  crosspoints : Vector (BitVec 5) 8
  pendingCross : Vector (Option (BitVec 5)) 8
  tx : SwitcherTx
  timers : Vector Nat 8
  pulses : Vector Nat 8
  retriggers : Vector Nat 8
  handed : List Handed
  result : SlotResult
  deriving DecidableEq, Repr

/-! ## The Interrupt Unit (10) -/

/-- The sixteen sources (10 R192). -/
inductive Irq where
  | frame | reference | deck (n : Transport) | reader | chase | runPhase | runFault | access | slot | transition | gpi
  deriving DecidableEq, Repr

/-- An interrupt level 0–7. -/
abbrev Level := Fin 8

structure Iru where
  levels : Vector Level 16
  pending : Vector Bool 16
  /-- the in-service stack, its top first -/
  stack : List (Level × Irq)
  request : Level
  /-- the driven set: level m is in it when entry m is true -/
  driven : Vector Bool 8
  lastVector : Byte
  spurious : Nat
  deriving DecidableEq, Repr

/-! ## Marks of a boundary (log 11) -/

/-- The steps of a boundary that are rows of the table in their own right. -/
inductive Mark where
  | readerCoasting (n : Transport) | readerLost (n : Transport) | probe (n : Transport)
  | holdExpired (n : Transport) | chaseLock (n : Transport) | chaseSlip (n : Transport)
  | sensePoll (n : Transport) | cueTimeout | lookaheadCueTimeout | transitionEnd | gpiPulseEnd (line : Fin 8)
  deriving DecidableEq, Repr

/-! ## The whole state -/

structure State where
  /-- the commands that are waiting, first in, first out -/
  pending : List Instr
  /-- index of the next free value (the model's own) -/
  free : Nat
  /-- the steps that came about at the latest boundary (the model's own, log 11) -/
  marks : List Mark
  cfg : PartConfig
  ptu : Ptu
  rtu : Rtu
  readers : Six Reader
  links : Six Link
  ctxs : Six Context
  chases : Six Chase
  et : EditTable
  run : Run
  mixer : Mixer
  iru : Iru
  deriving DecidableEq, Repr

/-- Faults of the machine.  No command of this part stops it: what the spec calls a fault (a bus fault, a link
error, a run or chase fault) is an effect on `State`.  No constructor, so no meaning can raise one (log 41). -/
inductive Fault where
  deriving DecidableEq, Repr

/-- Refusals of the model. -/
inductive Refusal where
  /-- raised by `exec` alone, for a row that has no meaning yet; safe.  No arm of this model uses it. -/
  | notModelled (mnemonic : String)
  deriving DecidableEq, Repr

/-! ## System reset -/

/-- 02 R36, first column. -/
def Rtu.reset : Rtu := ⟨.absent, 0, 0, false, 0, 0, false, false, 0, 0, 0, 0, none⟩

/-- 03 R58, first column. -/
def Reader.reset : Reader :=
  ⟨.silent, none, false, 0, none, none, 0, none, none, 0, 0, [], ⟨0, 0, 0, 0, 0, 0, 0, 0⟩, false, 0⟩

/-- The seven counts at zero. -/
def ErrCounts.zero : ErrCounts := ⟨0, 0, 0, 0, 0, 0, 0⟩

/-- 04 R83, first column. -/
def Link.reset : Link :=
  ⟨.unprobed, none, 0, none, none, false, [], none, 0, 0, .hunt, none, none, none, false, .zero, 0, 0, 0⟩

/-- 05 R107, first column. -/
def Context.reset : Context :=
  ⟨.free, .unknown, 0, 0, none, none, 0, 5, 2, 10, [], false, false, .zero, 0, 0, 0, 0, 0, 0⟩

/-- 06 R131, first column: the master is the transport itself. -/
def Chase.reset (n : Transport) : Chase :=
  ⟨.idle, .processor, .transport n, 0, .default, none, 0, 0, .none, 0, 0, 0, 0, 0, none, none, false, 0, .zero⟩

/-- 07 R147, first column. -/
def EditTable.reset : EditTable := ⟨Vector.replicate 64 .empty, none, none⟩

/-- 08 R177. -/
def Run.reset : Run :=
  { state := .idle, mode := .preview, autoRoll := false, margin := 12, cueLimit := 1500, requireReference := false,
    successor := none, lookahead := .none, stopRequested := false, rollRequested := false, clock := 0, cueCount := 0,
    laCueCount := 0, cues := .replicate .zero, syncPassed := false, insertsOn := 0, awaited := [], outstanding := 0,
    abortCause := .none, fault := none, faultExtra := 0, pendingFault := none, pendingExtra := 0, endCause := .none,
    lockLosses := 0, notices := 0, result := .zero }

/-- 09 R191, first column. -/
def Mixer.reset : Mixer :=
  { owner := .free, frozen := false, aBus := .black, bBus := .black, level := 0, pattern := 0, transition := none,
    last := none, crosspoints := Vector.replicate 8 0, pendingCross := Vector.replicate 8 none, tx := .idle,
    timers := Vector.replicate 8 0, pulses := Vector.replicate 8 0, retriggers := Vector.replicate 8 0, handed := [],
    result := .zero }

/-- 10 R201, first column. -/
def Iru.reset : Iru :=
  ⟨Vector.replicate 16 0, Vector.replicate 16 false, [], 0, Vector.replicate 8 false, 0, 0⟩

/-- 01 R20: the PTU's part, with the bus as `ending` says. -/
def Ptu.reset (ending : CycleEnd) : Ptu :=
  ⟨none, .replicate 0, .replicate none, ⟨none, 0, false, none, 0, 0⟩, ⟨ending, none, []⟩⟩

/-- 01 R20: UNCONFIGURED, no setup record, all latches zero; 07 R147: all event words zero. -/
def PartConfig.reset (straps : BitVec 2) : PartConfig := ⟨none, straps, [], [], []⟩

/-- The whole part after a system reset that samples `straps`; the queue and the free index are the model's. -/
def State.resetWith (pending : List Instr) (free : Nat) (straps : BitVec 2) (ending : CycleEnd) : State :=
  { pending, free, marks := [], cfg := .reset straps, ptu := .reset ending, rtu := .reset,
    readers := .replicate .reset, links := .replicate .reset, ctxs := .replicate .reset,
    chases := ⟨.reset .t0, .reset .t1, .reset .t2, .reset .t3, .reset .t4, .reset .t5⟩,
    et := .reset, run := .reset, mixer := .reset, iru := .reset }

/-- The part right after system reset: straps 00 (log 30), nothing waiting, no cycle yet. -/
def State.reset : State := .resetWith [] 0 0 .none

end Sys2Proof.Machine
end

