-- ==== Sys2Proof/Machine/Ops.lean ====
section
/-! DEFINITION. Named operations over the containers and fields of `State`: one value per transport, word maps,
byte lanes, field updates, and the passing of time. -/

namespace Sys2Proof

/-- T0–T5 in number order. -/
def Transport.all : List Transport := [.t0, .t1, .t2, .t3, .t4, .t5]

/-- The transport's number (00 section 7.7). -/
def Transport.num : Transport → Nat
  | .t0 => 0 | .t1 => 1 | .t2 => 2 | .t3 => 3 | .t4 => 4 | .t5 => 5

/-- The transport with a number, if there is one. -/
def Transport.ofNum? : Nat → Option Transport
  | 0 => some .t0 | 1 => some .t1 | 2 => some .t2 | 3 => some .t3 | 4 => some .t4 | 5 => some .t5 | _ => none

end Sys2Proof

namespace Sys2Proof.Machine

/-! ## One value per transport -/

/-- The value of one transport. -/
def Six.get {α : Type} (x : Six α) : Transport → α
  | .t0 => x.t0 | .t1 => x.t1 | .t2 => x.t2 | .t3 => x.t3 | .t4 => x.t4 | .t5 => x.t5

/-- Replace the value of one transport. -/
def Six.set {α : Type} (x : Six α) (n : Transport) (a : α) : Six α :=
  match n with
  | .t0 => { x with t0 := a } | .t1 => { x with t1 := a } | .t2 => { x with t2 := a }
  | .t3 => { x with t3 := a } | .t4 => { x with t4 := a } | .t5 => { x with t5 := a }

/-- Apply a function to every transport's value. -/
def Six.map {α β : Type} (f : α → β) (x : Six α) : Six β := ⟨f x.t0, f x.t1, f x.t2, f x.t3, f x.t4, f x.t5⟩

/-- The values in number order. -/
def Six.toList {α : Type} (x : Six α) : List α := [x.t0, x.t1, x.t2, x.t3, x.t4, x.t5]

/-! ## Word maps -/

/-- Canonical form: numbers strictly rising and no listed word 0. -/
def WordMap.wf : WordMap → Bool
  | [] => true
  | (_, v) :: [] => v != 0
  | (a, v) :: (b, w) :: rest => v != 0 && decide (a < b) && WordMap.wf ((b, w) :: rest)

/-- The word at a number; an unlisted number reads 0. -/
def WordMap.read (m : WordMap) (k : Nat) : Word :=
  match m with
  | [] => 0
  | (a, v) :: rest => if a = k then v else WordMap.read rest k

/-- Store a word at a number; storing 0 removes the entry. -/
def WordMap.write (m : WordMap) (k : Nat) (v : Word) : WordMap :=
  match m with
  | [] => if v = 0 then [] else [(k, v)]
  | (a, w) :: rest =>
    if k < a then (if v = 0 then (a, w) :: rest else (k, v) :: (a, w) :: rest)
    else if k = a then (if v = 0 then rest else (k, v) :: rest)
    else (a, w) :: WordMap.write rest k v

/-- The word that a store of `new` leaves over `old` (01 R2). -/
def mergeLanes (lanes : Strobes) (old new : Word) : Word :=
  match lanes with
  | .both => new
  | .upper => mkWord (hiByte new) (loByte old)
  | .lower => mkWord (hiByte old) (loByte new)

/-- The lane of a word that a byte read returns, in its place; the other lane reads 0 (01 R8). -/
def selectLanes (lanes : Strobes) (w : Word) : Word :=
  match lanes with
  | .both => w
  | .upper => mkWord (hiByte w) 0
  | .lower => mkWord 0 (loByte w)

/-! ## Field access and update -/

namespace State

def reader (s : State) (n : Transport) : Reader := s.readers.get n
def link (s : State) (n : Transport) : Link := s.links.get n
def ctx (s : State) (n : Transport) : Context := s.ctxs.get n
def chase (s : State) (n : Transport) : Chase := s.chases.get n

def setReader (s : State) (n : Transport) (r : Reader) : State := { s with readers := s.readers.set n r }
def setLink (s : State) (n : Transport) (l : Link) : State := { s with links := s.links.set n l }
def setCtx (s : State) (n : Transport) (c : Context) : State := { s with ctxs := s.ctxs.set n c }
def setChase (s : State) (n : Transport) (c : Chase) : State := { s with chases := s.chases.set n c }

def setRun (s : State) (r : Run) : State := { s with run := r }
def setMixer (s : State) (m : Mixer) : State := { s with mixer := m }
def setEt (s : State) (e : EditTable) : State := { s with et := e }
def setPtu (s : State) (p : Ptu) : State := { s with ptu := p }
def setRtu (s : State) (r : Rtu) : State := { s with rtu := r }
def setIru (s : State) (u : Iru) : State := { s with iru := u }
def setCfg (s : State) (c : PartConfig) : State := { s with cfg := c }

/-- Record that a step of the boundary came about (log 11). -/
def mark (s : State) (m : Mark) : State := { s with marks := s.marks ++ [m] }

/-- The part is CONFIGURED (01 R15). -/
def configured (s : State) : Bool := s.cfg.setup.isSome

/-- The frame standard in force; UNCONFIGURED has none and nothing asks for one (01 R15). -/
def standard (s : State) : Standard := match s.cfg.setup with | some u => u.standard | none => .std25

/-- The low 16 bits of the suite frame counter, stamped on records (01 R11, 04 R78, 05 R101). -/
def stamp (s : State) : Word := s.rtu.frames.setWidth 16

/-- A processor cycle can start: no held read occupies the bus (01 R18). -/
def busFree (s : State) : Bool := s.ptu.hold.isNone

end State

/-- Apply a state update for each transport of a list, in order. -/
def forTransports (ts : List Transport) (f : Transport → State → State) (s : State) : State :=
  ts.foldl (fun s n => f n s) s

/-! ## Transports of armed events -/

/-- The transport of a mixer source, if it is one. -/
def MixSource.transport? : MixSource → Option Transport
  | .deck n => some n
  | _ => none

/-- The in-point index of a transport in an armed copy, if the event names it (07 section 7.2). -/
def Armed.inPoint? (a : Armed) (n : Transport) : Option Nat :=
  if a.recorder = n then some a.recordIn
  else if a.sourceA = .deck n then a.sourceAIn
  else if a.sourceB = some (.deck n) then a.sourceBIn
  else none

/-- The event names the transport. -/
def Armed.names (a : Armed) (n : Transport) : Bool :=
  a.recorder = n || a.sourceA = .deck n || a.sourceB = some (.deck n)

/-- The transports of the event, in number order. -/
def Armed.transports (a : Armed) : List Transport := Transport.all.filter a.names

namespace EditTable

/-- The event in the current place names the transport. -/
def currentNames (e : EditTable) (n : Transport) : Bool := match e.current with | some a => a.names n | none => false

/-- The event in the look-ahead place names the transport. -/
def lookaheadNames (e : EditTable) (n : Transport) : Bool := match e.lookahead with | some a => a.names n | none => false

/-- The transport is armed: named by either place (08 R156, R170). -/
def names (e : EditTable) (n : Transport) : Bool := e.currentNames n || e.lookaheadNames n

/-- The transport is named by the look-ahead only (08 R169, R170). -/
def lookaheadOnly (e : EditTable) (n : Transport) : Bool := e.lookaheadNames n && !e.currentNames n

end EditTable

/-- The run is in one of the states in which it works events (08 R172). -/
def RunState.active : RunState → Bool
  | .cueing | .ready | .preroll | .edit | .postroll => true
  | .idle | .aborting | .faulted => false

/-- The run is rolling: the edit clock runs (08 R154). -/
def RunState.rolling : RunState → Bool
  | .preroll | .edit | .postroll => true
  | .idle | .cueing | .ready | .aborting | .faulted => false

/-! ## Characters on a line (04 R59, 09 R180) -/

/-- The odd parity bit of a byte: with it the ones are odd in number. -/
def oddParity (b : Byte) : Bool := decide ((List.range 8).countP b.getLsbD % 2 = 0)

/-- The 11 bit times of a character, `true` for mark: a start bit, the data bits from the least significant, the odd
parity bit and the stop bit. -/
def charBits (b : Byte) : List Bool := false :: (List.range 8).map b.getLsbD ++ [oddParity b, true]

/-- The level of a transmit line on which `bytes` began `gone` clock units ago: their characters with no gap, then mark. -/
def lineLevel (bitUnits : Nat) (bytes : List Byte) (gone : Nat) : Bool := (bytes.flatMap charBits).getD (gone / bitUnits) true

/-- The transmit line of a deck link: space through a break, the characters of a frame, and mark when nothing is sent
(04 R59, R79). -/
def Link.line (l : Link) : Bool :=
  if l.breakLeft.isSome then false
  else
    match l.tx with
    | some t => lineLevel Config.deckBitUnits t.bytes (t.bytes.length * Config.deckByteUnits - t.left)
    | none => true

/-- The switcher line: the characters of a frame, and mark when nothing is sent (09 R180). -/
def SwitcherTx.line : SwitcherTx → Bool
  | .idle => true
  | .sending f left _ => lineLevel Config.switcherBitUnits f (Config.switcherFrameUnits - left)

/-! ## The passing of time (logs 1 to 4) -/

/-- The nominal phase unit of a standard in clock units: 625 µs, 1/1920 s, 1001/1920000 s (02 R22). -/
def Standard.puUnits : Standard → Nat
  | .std25 => 30000
  | .std30n => 25000
  | .std30d => 25025

/-- The reference state is one in which boundaries come from the free-running phase counter (02 R23). -/
def RefState.freeRunning : RefState → Bool
  | .locked => false
  | .absent | .acquiring | .free => true

/-- The phase counter and the pulse timer after `k` more phase units (02 R22).  Both stay in the ranges of the
opening table of 02: a counter at its last point waits there for the event that is due. -/
def Rtu.elapse (r : Rtu) (k : Nat) : Rtu :=
  { r with
    phase := if r.state.freeRunning then max r.phase (min 64 (r.phase + k)) else max r.phase (min 72 (r.phase + k))
    pulseTimer :=
      match r.state with
      | .acquiring => max r.pulseTimer (min 128 (r.pulseTimer + k))
      | .locked => max r.pulseTimer (min 72 (r.pulseTimer + k))
      | .absent | .free => r.pulseTimer }

/-- A link's timers after `d` more clock units. -/
def Link.elapse (d : Nat) (l : Link) : Link :=
  { l with
    breakLeft := l.breakLeft.map (· - d), replyTimer := l.replyTimer.map (· - d), gapLeft := l.gapLeft.map (· - d),
    tx := l.tx.map fun t => { t with left := t.left - d } }

/-- The switcher transmitter after `d` more clock units. -/
def SwitcherTx.elapse (d : Nat) : SwitcherTx → SwitcherTx
  | .idle => .idle
  | .sending f left w => .sending f (left - d) w

/-- `k` phase units pass (02 R22): nothing while UNCONFIGURED.  While LOCKED the length of a phase unit is a free
value (log 4). -/
def elapse (k : Nat) (s : State) : State :=
  if !s.configured || k = 0 then s
  else
    let d := k * (if s.rtu.state = .locked then Config.lockedPu s.free else s.standard.puUnits)
    { s with
      free := if s.rtu.state = .locked then s.free + 1 else s.free
      rtu := s.rtu.elapse k
      links := s.links.map (Link.elapse d)
      ptu := { s.ptu with hold := s.ptu.hold.map fun h => { h with left := h.left - d } }
      mixer := { s.mixer with tx := s.mixer.tx.elapse d } }

end Sys2Proof.Machine
end

