-- ==== Sys2Proof/Machine/Timecode.lean ====
section
/-! DEFINITION. The arithmetic of timecode that all blocks share: legality, labels and indices, wrapped differences
(03 section 3.1), and the decoding of a timecode word (11.9). -/

namespace Sys2Proof.Machine

/-- The frame rate R of a standard (00 section 7.2). -/
def Standard.rate : Standard → Nat
  | .std25 => 25
  | .std30n => 30
  | .std30d => 30

/-- The frame count N of a standard: frames in 24 hours (00 section 7.2). -/
def Standard.day : Standard → Nat
  | .std25 => 2160000
  | .std30n => 2592000
  | .std30d => 2589408

/-- The label in two words of a record (00 section 7.3). -/
def Label.ofWords (hi lo : Word) : Label := ⟨hiByte hi, loByte hi, hiByte lo, loByte lo⟩

/-- The first word of a label. -/
def Label.hiWord (l : Label) : Word := mkWord l.hh l.mm

/-- The second word of a label. -/
def Label.loWord (l : Label) : Word := mkWord l.ss l.ff

/-- A label is legal under a standard (03 R37). -/
def Label.legal (std : Standard) (l : Label) : Bool :=
  decide (l.hh.toNat ≤ 23) && decide (l.mm.toNat ≤ 59) && decide (l.ss.toNat ≤ 59) && decide (l.ff.toNat < std.rate) &&
    !(std = .std30d && l.ss.toNat = 0 && decide (l.ff.toNat ≤ 1) && l.mm.toNat % 10 ≠ 0)

/-- The index of a legal label (03 R38). -/
def Label.index (std : Standard) (l : Label) : Nat :=
  let h := l.hh.toNat
  let m := l.mm.toNat
  match std with
  | .std25 => 90000 * h + 1500 * m + 25 * l.ss.toNat + l.ff.toNat
  | .std30n => 108000 * h + 1800 * m + 30 * l.ss.toNat + l.ff.toNat
  | .std30d =>
    let M := 60 * h + m
    108000 * h + 1800 * m + 30 * l.ss.toNat + l.ff.toNat - 2 * (M - M / 10)

/-- The label whose four fields are the numbers. -/
def Label.ofNats (h m s f : Nat) : Label := ⟨BitVec.ofNat 8 h, BitVec.ofNat 8 m, BitVec.ofNat 8 s, BitVec.ofNat 8 f⟩

/-- The label count n of a STD30D index (03 R39). -/
def dropCount (i : Nat) : Nat :=
  let D := i / 17982
  let r := i % 17982
  if r < 2 then i + 18 * D else i + 18 * D + 2 * ((r - 2) / 1798)

/-- The label of an index (03 R39). -/
def Label.ofIndex (std : Standard) (i : Nat) : Label :=
  match std with
  | .std25 => .ofNats (i / 90000) (i / 1500 % 60) (i / 25 % 60) (i % 25)
  | .std30n => .ofNats (i / 108000) (i / 1800 % 60) (i / 30 % 60) (i % 30)
  | .std30d =>
    let n := dropCount i
    .ofNats (n / 108000) (n / 1800 % 60) (n / 30 % 60) (n % 30)

/-- Reduce a position modulo `m` (03 R40). -/
def reduce (m : Nat) (x : Int) : Nat := (x % (m : Int)).toNat

/-- The wrapped difference modulo `m`: the value congruent to `x` in [−m/2, m/2) (00 section 7.5, 03 R40). -/
def wrap (m : Nat) (x : Int) : Int := (x + (m / 2 : Nat)) % (m : Int) - (m / 2 : Nat)

/-- The label of a position in pu (03 R39: the frame containing the position). -/
def Label.ofPu (std : Standard) (p : Nat) : Label := .ofIndex std (p / 64)

/-! ## Timecode words (11.9) -/

/-- What the input stage delivers (03 section 3.2): a label, the drop flag and the direction. -/
structure TapeWord where
  label : Label
  drop : Bool
  dir : Dir
  deriving DecidableEq, Repr

/-- The sync field of bits 64–79: 0 0, twelve 1s, 0, 1 (11.9). -/
def syncField : BitVec 16 := 0xBFFC#16

/-- The bits in the order of the table of 11.9, with the direction, from eighty bits in order of arrival; `none`
when neither orientation carries the sync field, so that no word is found. -/
def orientWord (bits : BitVec 80) : Option (BitVec 80 × Dir) :=
  if bits.extractLsb' 64 16 = syncField then some (bits, .forward)
  else if bits.reverse.extractLsb' 64 16 = syncField then some (bits.reverse, .reverse)
  else none

/-- The number in `len` bits from bit `at`. -/
def digit (w : BitVec 80) (at_ len : Nat) : Nat := (w.extractLsb' at_ len).toNat

/-- The word has a units digit above 9 (03 R41, 11.9). -/
def badDigit (w : BitVec 80) : Bool :=
  decide (9 < digit w 0 4) || decide (9 < digit w 16 4) || decide (9 < digit w 32 4) || decide (9 < digit w 48 4)

/-- The fields of a word (11.9): each label field is ten times its tens digit plus its units digit. -/
def readWord (w : BitVec 80) (d : Dir) : TapeWord :=
  { label := .ofNats (10 * digit w 56 2 + digit w 48 4) (10 * digit w 40 3 + digit w 32 4)
      (10 * digit w 24 3 + digit w 16 4) (10 * digit w 8 2 + digit w 0 4)
    drop := w.getLsbD 10
    dir := d }

end Sys2Proof.Machine
end

