-- ==== Sys2Proof/Machine/Operands.lean ====
section
/-! DEFINITION. Every field of a stored record and every code of chapter 11, read from words and written into words. -/

namespace Sys2Proof.Machine

/-! ## Small packers -/

/-- A word holding a natural number (its low 16 bits). -/
def wordOf (n : Nat) : Word := BitVec.ofNat 16 n

/-- A word holding a signed number in two's complement. -/
def wordOfInt (x : Int) : Word := BitVec.ofInt 16 x

/-- 1 or 0 at a bit place. -/
def bitAt (b : Bool) (k : Nat) : Word := if b then wordOf (2 ^ k) else 0

/-- A number placed at a bit of a word. -/
def placed (n k : Nat) : Word := wordOf (n * 2 ^ k)

/-- The words of a 32-bit quantity: which = 0 is the high half, in the lower-addressed word (11, opening). -/
def half32 (x : BitVec 32) (which : Nat) : Word := if which = 0 then (x >>> 16).setWidth 16 else x.setWidth 16

/-- A word of a two-word number. -/
def halfNat (n which : Nat) : Word := half32 (BitVec.ofNat 32 n) which

/-- A word of a two-word signed number. -/
def halfInt (x : Int) (which : Nat) : Word := half32 (BitVec.ofInt 32 x) which

/-- A word of a label. -/
def Label.word (l : Label) (which : Nat) : Word := if which = 0 then l.hiWord else l.loWord

/-! ## Setup block (11.2) -/

/-- The frame standard of a code; 3 is reserved. -/
def Standard.ofCode? (c : Nat) : Option Standard :=
  match c with
  | 0 => some .std25 | 1 => some .std30n | 2 => some .std30d | _ => none

/-- The code of a frame standard. -/
def Standard.code : Standard → Nat
  | .std25 => 0 | .std30n => 1 | .std30d => 2

/-- The setup record in setup words 0–5, treated as 01 R15 treats it; `none` when the standard is reserved. -/
def Setup.ofWords (w : Nat → Word) : Option Setup :=
  (Standard.ofCode? ((w 1).toNat % 4)).map fun std =>
    { regionBase := (w 0).setWidth 10
      standard := std
      vectorBase := loByte (w 2) &&& 0xE0
      holdLimit := loByte (w 3)
      coastLimit := if loByte (w 4) = 0 then 25 else loByte (w 4)
      requireReference := (w 5).getLsbD 0
      frameAllowed := (w 5).getLsbD 1 }

/-- The setup record in force as setup words 0–5 (11.6, part group). -/
def Setup.word (u : Setup) (k : Nat) : Word :=
  match k with
  | 0 => u.regionBase.setWidth 16
  | 1 => wordOf u.standard.code
  | 2 => u.vectorBase.setWidth 16
  | 3 => u.holdLimit.setWidth 16
  | 4 => u.coastLimit.setWidth 16
  | _ => bitAt u.requireReference 0 ||| bitAt u.frameAllowed 1

/-! ## Source codes (11.2) -/

/-- The mixer source of a source code 0–7. -/
def MixSource.ofCode? (c : Nat) : Option MixSource :=
  match Transport.ofNum? c with
  | some n => some (.deck n)
  | none => if c = 6 then some .black else if c = 7 then some .matte else none

/-- The source code of a mixer source; also its crosspoint entry (09 R179). -/
def MixSource.code : MixSource → Fin 8
  | .deck .t0 => 0 | .deck .t1 => 1 | .deck .t2 => 2 | .deck .t3 => 3 | .deck .t4 => 4 | .deck .t5 => 5
  | .black => 6 | .matte => 7

/-! ## Deck link codes (11.7) -/

def LinkKind.code : LinkKind → Nat
  | .halt => 0x10 | .run => 0x11 | .speed => 0x12 | .locate => 0x13 | .arm => 0x14 | .insertOn => 0x15
  | .insertOff => 0x16 | .sense => 0x17 | .standby => 0x18

def ReplyKind.code : ReplyKind → Nat
  | .ack => 0x20 | .nak => 0x21 | .senseReply => 0x22

/-- The kind code of a notice. -/
def noticeCode : Nat := 0x2F

/-- The reply kind of a code, notices apart. -/
def ReplyKind.ofCode? (c : Nat) : Option ReplyKind :=
  if c = 0x20 then some .ack else if c = 0x21 then some .nak else if c = 0x22 then some .senseReply else none

/-- The payload length of a reply kind (04 R62). -/
def ReplyKind.length : ReplyKind → Nat
  | .ack => 0 | .nak => 1 | .senseReply => 6

/-- The deck mode of a SENSE_REPLY mode code (05 R87): UNKNOWN for a code outside the list. -/
def DeckMode.ofCode (c : Nat) : DeckMode :=
  match c with
  | 1 => .stopped | 2 => .playing | 3 => .vari | 4 => .shuttling | 5 => .locating | 6 => .noTape | 7 => .standbyOff
  | 8 => .loc | _ => .unknown

def DeckMode.code : DeckMode → Nat
  | .unknown => 0 | .stopped => 1 | .playing => 2 | .vari => 3 | .shuttling => 4 | .locating => 5 | .noTape => 6
  | .standbyOff => 7 | .loc => 8

/-! ## Transport slot (11.3) -/

/-- A track mask: bits 3–0 of a word. -/
def maskOf (w : Word) : Tracks := w.setWidth 4

/-- The deck parameters of a parameter record, each clamped by 05 R90: latency, tolerance, reply timeout. -/
def deckParams (latency tolerance timeout : Word) : Nat × Nat × Nat :=
  (min latency.toNat 15, min tolerance.toNat 15, clampNat 2 40 timeout.toNat)

/-! ## Chase slot (11.3) -/

/-- The parameter set of words 6–12, each value clamped by 06 R108. -/
def ChaseParams.ofWords (p : ParamWords) : ChaseParams :=
  { kp := (hiByte p.gains).toNat
    ki := min (loByte p.gains).toNat 63
    corrLimit := min p.corrLimit.toNat 512
    slew := clampNat 1 255 (hiByte p.slewWindow).toNat
    lockWindow := clampNat 1 63 (loByte p.slewWindow).toNat
    lockCount := clampNat 1 63 (hiByte p.countGain).toNat
    approachWindow := clampNat 2 999 p.approach.toNat
    shuttleGain := clampNat 1 64 (loByte p.countGain).toNat
    shuttleMax := clampNat 1024 32767 p.shuttleMax.toNat
    holdLimit := clampNat 1 255 p.holdLimit.toNat }

/-- A parameter set packed as chase slot words 6–12 (11.6, chase group); `k` counts from 0. -/
def ChaseParams.word (p : ChaseParams) (k : Nat) : Word :=
  match k with
  | 0 => placed p.kp 8 ||| wordOf p.ki
  | 1 => wordOf p.corrLimit
  | 2 => placed p.slew 8 ||| wordOf p.lockWindow
  | 3 => placed p.lockCount 8 ||| wordOf p.shuttleGain
  | 4 => wordOf p.approachWindow
  | 5 => wordOf p.shuttleMax
  | _ => wordOf p.holdLimit

/-- The master of chase slot word 2; `none` for a reserved kind and for TRANSPORT 6 or 7 (06 R109). -/
def Master.ofWord? (w : Word) : Option Master :=
  match (w.toNat / 256) % 4 with
  | 0 => (Transport.ofNum? (w.toNat % 8)).map .transport
  | 1 => some .suiteClock
  | 2 => some .editClock
  | _ => none

/-- The master as chase slot word 2. -/
def Master.word : Master → Word
  | .transport n => wordOf n.num
  | .suiteClock => 0x0100
  | .editClock => 0x0200

/-- The offset sign of chase slot word 3: whether it is minus; `none` for a reserved value. -/
def signOf? (w : Word) : Option Bool := if w = 0 then some false else if w = 1 then some true else none

/-! ## Run control slot (11.3) -/

/-- An event number 0–63 in a whole word. -/
def eventOf? (w : Word) : Option (Fin 64) := if h : w.toNat < 64 then some ⟨w.toNat, h⟩ else none

/-- A link or successor field: `some none` is END; `none` is a value that is neither. -/
def linkOf? (w : Word) : Option (Option (Fin 64)) :=
  if w = 0xFFFF then some none else (eventOf? w).map some

/-- The run mode of START_RUN's word 3. -/
def RunMode.ofWord? (w : Word) : Option RunMode := if w = 0 then some .preview else if w = 1 then some .record else none

/-- The sync margin (08 R149): 0 is the default 12, else clamped into 2–60. -/
def marginOf (w : Word) : Nat := if w = 0 then 12 else clampNat 2 60 w.toNat

/-- The cue limit (08 R149): 0 is the default 1500, else clamped into 100–9999. -/
def cueLimitOf (w : Word) : Nat := if w = 0 then 1500 else clampNat 100 9999 w.toNat

/-! ## Event words (11.4) -/

/-- The transition kind of a code. -/
def TransKind.ofCode? (c : Nat) : Option TransKind :=
  match c with
  | 0 => some .none | 1 => some .cut | 2 => some .mix | 3 => some .wipe | _ => none

def TransKind.code : TransKind → Nat
  | .none => 0 | .cut => 1 | .mix => 2 | .wipe => 3

def Curve.ofCode? (c : Nat) : Option Curve :=
  match c with
  | 0 => some .linear | 1 => some .s | _ => none

def Curve.code : Curve → Nat
  | .linear => 0 | .s => 1

/-- A kind that ramps, so that length and curve are read (07 R136). -/
def TransKind.ramps : TransKind → Bool
  | .mix | .wipe => true
  | .none | .cut => false

/-! ## Slot results (11.6) -/

def SlotCode.code : SlotCode → Nat
  | .accepted => 1 | .queueFull => 2 | .held => 3 | .malformed => 4 | .linkDown => 5 | .arg => 6 | .state => 7
  | .busy => 8

/-- The result word: result in bits 15–12, PARAMETERS in bit 11, command as stored in bits 7–0 (log 31). -/
def SlotResult.word (r : SlotResult) : Word :=
  placed (match r.code with | some c => c.code | none => 0) 12 ||| bitAt r.parameters 11 ||| (loByte r.command).setWidth 16

/-! ## Reply port (11.5) -/

def EntryOutcome.code : EntryOutcome → Nat
  | .reply => 1 | .timeout => 2 | .linkFailed => 3

/-- The reply kind code of an entry; 0 when absent. -/
def FifoEntry.replyCode (e : FifoEntry) : Nat :=
  if e.notice then noticeCode else match e.reply with | some k => k.code | none => 0

/-- The command kind code of an entry; 0 when absent. -/
def FifoEntry.commandCode (e : FifoEntry) : Nat := match e.command with | some k => k.code | none => 0

/-- The kind in a header (05 R102): the reply kind, NOTICE, or for TIMEOUT and LINK_FAILED the command kind. -/
def FifoEntry.headerKind (e : FifoEntry) : Nat :=
  match e.outcome with
  | .reply => e.replyCode
  | .timeout | .linkFailed => e.commandCode

/-- Exit causes of a take (01 R17, R18). -/
inductive ExitCause where
  | none | reply | timeout | interrupt
  deriving DecidableEq, Repr

def ExitCause.code : ExitCause → Nat
  | .none => 0 | .reply => 1 | .timeout => 2 | .interrupt => 3

/-- The header word of an entry just removed, with `rest` entries remaining. -/
def FifoEntry.header (e : FifoEntry) (rest : Nat) (x : ExitCause) : Word :=
  placed e.outcome.code 14 ||| placed e.headerKind 4 ||| placed rest 2 ||| wordOf x.code

/-- The header word of an EMPTY take. -/
def emptyHeader (x : ExitCause) : Word := wordOf x.code

/-- Reply view words 1–15 (11.5); a view that no take has filled reads 0 (01 R20). -/
def viewWord (v : Option FifoEntry) (k : Nat) : Word :=
  match v with
  | none => 0
  | some e =>
    match k with
    | 1 => bitAt e.tag.isSome 15 ||| bitAt e.command.isSome 14 ||| bitAt (e.notice || e.reply.isSome) 13 |||
        bitAt e.seq.isSome 12 ||| wordOf (e.payload.length % 16)
    | 2 => e.tag.getD 0
    | 3 => placed e.outcome.code 14 ||| wordOf e.commandCode
    | 4 => placed e.replyCode 8 ||| wordOf (e.seq.getD 0)
    | 11 => e.arrival
    | k => if 5 ≤ k ∧ k ≤ 10 then mkWord (e.payload.getD (2 * (k - 5)) 0) (e.payload.getD (2 * (k - 5) + 1) 0) else 0

end Sys2Proof.Machine
end

