-- ==== Sys2Proof/Machine/Flags.lean ====
section
/-! DEFINITION. Interrupt causes: raises, conditions, the request level and the driven set (10), and with them the
completion of a held read (01 R18) and the refusal of a store (01 R11). -/

namespace Sys2Proof.Machine

/-! ## Sources -/

/-- The number of a source (10 R192). -/
def Irq.num : Irq → Fin 16
  | .frame => 0 | .reference => 1
  | .deck .t0 => 2 | .deck .t1 => 3 | .deck .t2 => 4 | .deck .t3 => 5 | .deck .t4 => 6 | .deck .t5 => 7
  | .reader => 8 | .chase => 9 | .runPhase => 10 | .runFault => 11 | .access => 12 | .slot => 13 | .transition => 14
  | .gpi => 15

/-- The sixteen sources in number order. -/
def Irq.all : List Irq :=
  [.frame, .reference, .deck .t0, .deck .t1, .deck .t2, .deck .t3, .deck .t4, .deck .t5, .reader, .chase, .runPhase,
    .runFault, .access, .slot, .transition, .gpi]

/-- The source is a condition source (10 R192). -/
def Irq.condition : Irq → Bool
  | .deck _ | .runFault => true
  | _ => false

/-! ## The Interrupt Unit -/

namespace Iru

/-- The level of a source. -/
def level (u : Iru) (i : Irq) : Level := u.levels[i.num]

/-- The source is pending. -/
def isPending (u : Iru) (i : Irq) : Bool := u.pending[i.num]

/-- Set or clear the pending flag of a source. -/
def setPending (u : Iru) (i : Irq) (b : Bool) : Iru := { u with pending := u.pending.set i.num b }

/-- The level at the top of the in-service stack; 0 when it is empty (10 R194). -/
def top (u : Iru) : Level := match u.stack with | (l, _) :: _ => l | [] => 0

/-- The source takes part in the request: pending, and its level above the top (10 R194). -/
def asks (u : Iru) (i : Irq) : Bool := u.isPending i && decide (u.top < u.level i)

/-- The higher of two levels. -/
def higher (a b : Level) : Level := if a < b then b else a

/-- The request level by 10 R194: the highest level among the sources that ask, 0 when none does. -/
def formed (u : Iru) : Level := (Irq.all.filter u.asks).foldl (fun m i => higher m (u.level i)) 0

/-- The request level formed again and, unless 0, added to the driven set (10 R194). -/
def reform (u : Iru) : Iru :=
  { u with request := u.formed, driven := if u.formed = 0 then u.driven else u.driven.set u.formed true }

/-- A raise of an event source (10 R192): disregarded at level 0. -/
def raise (u : Iru) (i : Irq) : Iru := if u.level i = 0 then u else (u.setPending i true).reform

/-- A condition handed by its owner (10 R192). -/
def follow (u : Iru) (i : Irq) (b : Bool) : Iru := (u.setPending i b).reform

/-- A level stored for a source (10 R193). -/
def setLevel (u : Iru) (i : Irq) (l : Level) : Iru :=
  let u := { u with levels := u.levels.set i.num l }
  (if l = 0 && !i.condition then u.setPending i false else u).reform

/-- The top entry popped (10 R197). -/
def pop (u : Iru) : Iru := ({ u with stack := u.stack.tail } : Iru).reform

end Iru

/-! ## Conditions -/

/-- The condition of DECKn (05 R104). -/
def Context.deckCondition (c : Context) : Bool := !c.fifo.isEmpty || c.errFrozen || c.linkChange

namespace State

/-- A raise that reaches the Interrupt Unit while no read is held. -/
def raiseFree (s : State) (i : Irq) : State := if s.configured then s.setIru (s.iru.raise i) else s

/-- A condition that reaches the Interrupt Unit while no read is held. -/
def followFree (s : State) (i : Irq) (b : Bool) : State := if s.configured then s.setIru (s.iru.follow i b) else s

/-- The DECK condition of a transport as its context now stands, handed while no read is held. -/
def deckFree (s : State) (n : Transport) : State := s.followFree (.deck n) (s.ctx n).deckCondition

/-! ## The PTU's part -/

/-- How the cycle in progress ends. -/
def endCycle (s : State) (e : CycleEnd) : State := s.setPtu { s.ptu with bus := { s.ptu.bus with ending := e } }

/-- The part answers a read or an acknowledge with a word. -/
def answer (s : State) (w : Word) : State :=
  s.setPtu { s.ptu with bus := { s.ptu.bus with ending := .answered, data := some w } }

/-- Refuse a store (01 R11): the record is written, ACCESS is raised while CONFIGURED, the cycle ends with a bus
fault. -/
def refuse (s : State) (reason : AccessReason) (addr : Addr) (lanes : Strobes) (rmw : Bool) : State :=
  let rec' : AccessRecord :=
    { reason := some reason, addr, readModifyWrite := rmw, lanes := some lanes, frame := s.stamp,
      count := satSucc 65535 s.ptu.access.count }
  ((s.setPtu { s.ptu with access := rec' }).raiseFree .access).endCycle .refused

/-- The base address of the suite region (01 R12); UNCONFIGURED has none. -/
def regionBase (s : State) : Addr :=
  match s.cfg.setup with
  | some u => u.regionBase.setWidth 24 <<< 14
  | none => 0

/-- The address of a reply port's take word (01 R12). -/
def takeAddr (s : State) (n : Transport) : Addr := s.regionBase + BitVec.ofNat 24 (0x2800 + 32 * n.num)

/-- A take completes with a header word (01 R17, 05 R102): the port's last header is kept and the link change counts
as seen, so a DECK condition that held by it alone falls at once, and its level stays in the driven set (log 50). -/
def completeTake (s : State) (n : Transport) (header : Word) : State :=
  let s := s.setPtu { s.ptu with lastHeader := s.ptu.lastHeader.set n header }
  ((s.setCtx n { s.ctx n with linkChange := false }).deckFree n).answer header

/-- The write half that follows the read half of a read-modify-write cycle on a take word: refused (01 R9, R10). -/
def takeWriteHalf (s : State) (n : Transport) (half : Option Strobes) : State :=
  match half with
  | some lanes => s.refuse .overlayStore (s.takeAddr n) lanes true
  | none => s

/-- A held read completes (01 R18): the hold ends, then the write half of its cycle follows, if it has one. -/
def completeHold (s : State) (h : Hold) (header : Word) : State :=
  ((s.setPtu { s.ptu with hold := none }).completeTake h.port header).takeWriteHalf h.port h.writeHalf

/-- A held read ends when the request level has risen above the top of the in-service stack (01 R18, 10 R198). -/
def yieldHold (s : State) : State :=
  match s.ptu.hold with
  | some h => if s.iru.top < s.iru.request then s.completeHold h (emptyHeader .interrupt) else s
  | none => s

/-! ## What the blocks hand to the Interrupt Unit -/

/-- Raise an event source. -/
def raise (s : State) (i : Irq) : State := (s.raiseFree i).yieldHold

/-- Hand a condition. -/
def follow (s : State) (i : Irq) (b : Bool) : State := (s.followFree i b).yieldHold

/-- The DECK condition of a transport as its context now stands (05 R104). -/
def syncDeck (s : State) (n : Transport) : State := s.follow (.deck n) (s.ctx n).deckCondition

/-- The RUN_FAULT condition (08 R172). -/
def syncRunFault (s : State) : State := s.follow .runFault (s.run.state = .faulted)

end State

end Sys2Proof.Machine
end

