-- ==== Sys2Proof/Machine/DeckLink.lean ====
section
/-! DEFINITION. The Deck Link Controllers, what a link does by itself (04): frames, transmission, arbitration, the
queue and the slot, probes, the error record; and the reply FIFO of its transport (05 R101 to R103). -/

namespace Sys2Proof.Machine

/-! ## Frames (04 R60, R61) -/

/-- The start byte of every frame. -/
def startByte : Byte := 0xC3

/-- The byte that brings a sum to 0 modulo 256 (04 R60). -/
def checkByte (bs : List Byte) : Byte := 0 - bs.sum

/-- A frame: start, kind, sequence and length, payload, check. -/
def frameOf (kind seq : Nat) (payload : List Byte) : List Byte :=
  let body := BitVec.ofNat 8 kind :: BitVec.ofNat 8 (16 * seq + payload.length) :: payload
  startByte :: body ++ [checkByte body]

/-- The payload of a command frame (04 R61). -/
def Arg.payload : Arg → List Byte
  | .none => []
  | .label l => [l.hh, l.mm, l.ss, l.ff]
  | .mask m => [m.setWidth 8]
  | .setting on => [if on then 1 else 0]
  | .speed v => [hiByte (wordOfInt v), loByte (wordOfInt v)]

/-- The command frame of an entry (04 R60, R61). -/
def Entry.frame (e : Entry) (seq : Nat) : List Byte := frameOf e.kind.code seq e.arg.payload

/-- The probe of a link (04 R65). -/
def probeEntry : Entry := ⟨.link, .sense, .none, none, false, false⟩

/-- The entry that a speed of the slot becomes in flight. -/
def SlotSpeed.entry (v : SlotSpeed) : Entry := ⟨v.source, .speed, .speed v.value, v.tag, false, false⟩

/-- One more error of a kind. -/
def ErrCounts.add (c : ErrCounts) : ErrKind → ErrCounts
  | .parity => { c with parity := satSucc 255 c.parity }
  | .framing => { c with framing := satSucc 255 c.framing }
  | .gap => { c with gap := satSucc 255 c.gap }
  | .check => { c with check := satSucc 255 c.check }
  | .format => { c with format := satSucc 255 c.format }
  | .timeout => { c with timeout := satSucc 255 c.timeout }
  | .overrun => { c with overrun := satSucc 255 c.overrun }

/-- Count an entry placed in, or dropped at, the reply FIFO (05 R101). -/
def Context.countEntry (c : Context) (notice placed : Bool) : Context :=
  match notice, placed with
  | false, true => { c with delivered := c.delivered + 1 }
  | false, false => { c with lost := c.lost + 1 }
  | true, true => { c with noticesDelivered := c.noticesDelivered + 1 }
  | true, false => { c with noticesLost := c.noticesLost + 1 }

/-- What a link answers to an offer of an entry (04 R67). -/
inductive OfferAnswer where
  | placed | queueFull | linkDown
  deriving DecidableEq, Repr

namespace Link

/-! ## Transmission (04 R63, R70) -/

/-- Begin the transmission of the frame in flight if it is waiting and the transmitter is free (log 16): a new frame
takes the next sequence, a retry keeps its own. -/
def begin (l : Link) : Link :=
  match l.inFlight, l.tx with
  | some f, none =>
    if f.phase = .waiting then
      let q := f.seq.getD l.nextSeq
      let bytes := f.entry.frame q
      { l with
        inFlight := some { f with seq := some q, phase := .sending }
        nextSeq := if f.seq.isNone then wrapSucc 14 l.nextSeq else l.nextSeq
        lastSpeed := f.entry.kind = .speed
        tx := some ⟨bytes, bytes.length * Config.deckByteUnits⟩ }
    else l
  | _, _ => l

/-- A new frame in flight, send count 1 (04 R69). -/
def launch (l : Link) (e : Entry) : Link := ({ l with inFlight := some ⟨e, none, 1, false, .waiting⟩ } : Link).begin

/-- The frame in flight sent again, send count 2 (04 R66, R75). -/
def resend (l : Link) (f : InFlight) : Link :=
  ({ l with inFlight := some { f with sends := 2, phase := .waiting }, replyTimer := none } : Link).begin

/-- No frame in flight (04 R70): the reply timer is cleared. -/
def idle (l : Link) : Link := { l with inFlight := none, replyTimer := none }

/-- The arbiter's choice (04 R69). -/
def choose (l : Link) : Link :=
  if l.state = .up && l.inFlight.isNone then
    match l.queue, l.slot with
    | e :: rest, some v =>
      if e.urgent || l.lastSpeed then ({ l with queue := rest } : Link).launch e
      else ({ l with slot := none } : Link).launch v.entry
    | e :: rest, none => ({ l with queue := rest } : Link).launch e
    | [], some v => ({ l with slot := none } : Link).launch v.entry
    | [], none => l
  else l

/-! ## Offers (04 R67) -/

/-- Place an entry in a queue with room. -/
def place (q : List Entry) (e : Entry) : List Entry :=
  if e.urgent then q.takeWhile (·.urgent) ++ e :: q.dropWhile (·.urgent) else q ++ [e]

/-- The newest non-urgent entry, and the queue without it. -/
def displace : List Entry → Option (Entry × List Entry)
  | [] => none
  | e :: rest =>
    match displace rest with
    | some (d, rest') => some (d, e :: rest')
    | none => if e.urgent then none else some (e, rest)

/-! ## Probes (04 R65) -/

/-- The link may start a probe. -/
def canProbe (l : Link) : Bool := l.state != .up && l.breakLeft.isNone && l.inFlight.isNone

/-- Send a probe; the interval starts again. -/
def probe (l : Link) : Link := ({ l with probeInterval := 0 } : Link).launch probeEntry

/-- The probe interval falls due at this boundary. -/
def probeDue (l : Link) : Bool := l.canProbe && decide (31 ≤ l.probeInterval)

/-- A boundary: the interval is incremented, and at 32 a probe is sent. -/
def probeTick (l : Link) : Link :=
  if l.probeDue then l.probe else if l.canProbe then { l with probeInterval := l.probeInterval + 1 } else l

/-- A take of the setup block (04 R65). -/
def setupTaken (l : Link) : Link := if l.canProbe then l.probe else l

/-! ## The error record (04 R78) -/

/-- The error counted, and captured or marked as additional. -/
def addError (l : Link) (k : ErrKind) (stamp : Word) : Link :=
  match l.err with
  | none =>
    { l with
      counts := l.counts.add k, additional := false
      err := some ⟨k, l.inFlight.map (·.entry.kind), l.inFlight.bind (·.seq), l.inFlight.map (·.sends), stamp⟩ }
  | some _ => { l with counts := l.counts.add k, additional := true }

/-- The record and the seven counts cleared. -/
def clearErrors (l : Link) : Link := { l with err := none, additional := false, counts := .zero }

end Link

namespace State

/-- Apply a change to one link. -/
def onLink (s : State) (n : Transport) (f : Link → Link) : State := s.setLink n (f (s.link n))

/-- Apply a change to one transport context. -/
def onCtx (s : State) (n : Transport) (f : Context → Context) : State := s.setCtx n (f (s.ctx n))

/-- A link error (04 R78): a capture freezes the record, and the freeze is handed to the transport context. -/
def linkError (s : State) (n : Transport) (k : ErrKind) : State :=
  let frozen := (s.link n).err.isSome
  let s := s.onLink n (·.addError k s.stamp)
  if frozen then s else (s.onCtx n ({ · with errFrozen := true })).syncDeck n

/-- The error record cleared, and the clearing handed on (04 R78). -/
def clearLinkErrors (s : State) (n : Transport) : State :=
  ((s.onLink n Link.clearErrors).onCtx n ({ · with errFrozen := false })).syncDeck n

/-! ## The reply FIFO (05 R101 to R103) -/

/-- Remove the head entry into the reply view (05 R102); the header is the caller's. -/
def popFifo (s : State) (n : Transport) (e : FifoEntry) (rest : List FifoEntry) : State :=
  (s.onCtx n ({ · with fifo := rest })).setPtu { s.ptu with view := s.ptu.view.set n (some e) }

/-- A placed entry ends a read held on this port, which takes it at once (01 R18, log 15). -/
def entryPlaced (s : State) (n : Transport) : State :=
  match s.ptu.hold, (s.ctx n).fifo with
  | some h, e :: rest =>
    if h.port = n then (s.popFifo n e rest).completeHold h (e.header rest.length .reply) else s.syncDeck n
  | _, _ => s.syncDeck n

/-- Offer an entry to the reply FIFO (05 R101). -/
def fifoOffer (s : State) (n : Transport) (e : FifoEntry) : State :=
  if (s.ctx n).fifo.length < 3 then
    (s.onCtx n fun c => { c.countEntry e.notice true with fifo := c.fifo ++ [e] }).entryPlaced n
  else (s.onCtx n (·.countEntry e.notice false)).linkError n .overrun

/-- Empty the reply FIFO (05 R103). -/
def emptyFifo (s : State) (n : Transport) : State := (s.onCtx n ({ · with fifo := [] })).syncDeck n

/-! ## Entries that a block gives up: CANCELLED with no more to route (05 R99, R100) -/

/-- Sense outstanding ends at any completion of the SENSE, while the run works events (08 R158, R170). -/
def senseEnds (s : State) (n : Transport) : State :=
  if s.run.state.active && s.et.names n then
    s.setRun { s.run with cues := s.run.cues.set n { s.run.cues.get n with senseOut := false } }
  else s

/-- An entry that was queued or in the slot completes as CANCELLED to its source (05 R99, R100; 06 R129; 08 R170). -/
def cancelled (s : State) (n : Transport) (src : Source) (kind : LinkKind) : State :=
  match src with
  | .processor => s.onCtx n fun c => { c with cancelled := c.cancelled + 1 }
  | .run => if kind = .sense then s.senseEnds n else s
  | .chase | .link => s

/-- Entries of a queue complete as CANCELLED, in queue order. -/
def cancelAll (s : State) (n : Transport) (es : List Entry) : State :=
  es.foldl (fun s e => s.cancelled n e.source e.kind) s

/-- Cancel the queued entries of one source (04 R67). -/
def cancelSource (s : State) (n : Transport) (src : Source) : State :=
  let q := (s.link n).queue
  (s.onLink n ({ · with queue := q.filter (·.source != src) })).cancelAll n (q.filter (·.source = src))

/-- Withdraw the waiting speed (04 R68): the slot empties, and a processor speed completes as CANCELLED (05 R95). -/
def withdrawSpeed (s : State) (n : Transport) : State :=
  match (s.link n).slot with
  | some v => (s.onLink n ({ · with slot := none })).cancelled n v.source .speed
  | none => s

/-! ## Offers -/

/-- The queue after an entry is placed, and the arbiter's choice. -/
def placeEntry (s : State) (n : Transport) (q : List Entry) (e : Entry) : State :=
  s.onLink n fun l => ({ l with queue := Link.place q e } : Link).choose

/-- Offer an entry to a link's command queue (04 R67). -/
def offerEntry (s : State) (n : Transport) (e : Entry) : OfferAnswer × State :=
  let l := s.link n
  if l.state ≠ .up then (.linkDown, s)
  else if l.queue.length < 4 then (.placed, s.placeEntry n l.queue e)
  else if e.urgent then
    match Link.displace l.queue with
    | some (d, q) =>
      (.placed, ((s.onLink n ({ · with queue := q })).cancelled n d.source d.kind).placeEntry n q e)
    | none => (.queueFull, s)
  else (.queueFull, s)

/-- Offer a speed to a link's slot (04 R68): refused only when the link is not UP. -/
def offerSpeed (s : State) (n : Transport) (v : SlotSpeed) : Bool × State :=
  let l := s.link n
  if l.state ≠ .up then (false, s)
  else
    match l.slot with
    | none => (true, s.onLink n fun l => ({ l with slot := some v } : Link).choose)
    | some old =>
      (true, (s.onLink n fun l =>
        ({ l with slot := some v, superseded := satSucc 65535 l.superseded } : Link).choose).cancelled n old.source .speed)

end State

end Sys2Proof.Machine
end

