-- ==== Sys2Proof/Machine/Readers.lean ====
section
/-! DEFINITION. The Timecode Readers (03): words, seeds, and the work of a reader at a frame boundary. -/

namespace Sys2Proof.Machine

/-- A count of 03 R56 incremented. -/
def readerCount (n : Nat) : Nat := satSucc 65535 n

/-- The next index in a direction (03 R45). -/
def nextIndex (std : Standard) (i : Nat) : Dir → Nat
  | .forward => reduce std.day (i + 1)
  | .reverse => reduce std.day ((i : Int) - 1)

/-- A word continues a candidate (03 R45). -/
def continues (std : Standard) (c : Option Candidate) (i : Nat) (d : Dir) : Bool :=
  match c with
  | some c => decide (d = c.dir) && decide (i = nextIndex std c.index d)
  | none => false

/-- Play speed in a direction. -/
def playSpeed : Dir → Int
  | .forward => 1024
  | .reverse => -1024

namespace Reader

/-- A change of state sets the change flag and the change count (03 R55). -/
def enter (r : Reader) (st : ReaderState) : Reader :=
  if r.state = st then r
  else { r with state := st, changeFlag := true, changeCount := wrapSucc 255 r.changeCount }

/-- A word is accepted: it becomes the last accepted word (03 R45 to R47). -/
def accept (r : Reader) (i : Nat) (d : Dir) (phase : Nat) : Reader :=
  { r with
    last := some ⟨i, d, phase⟩, fresh := true, elapsed := 0, quiet := 0
    counts := { r.counts with accepted := readerCount r.counts.accepted } }

/-- A word arrives at a SILENT, SEEDED or LOST reader (03 R44). -/
def startAcquiring (r : Reader) (i : Nat) (d : Dir) : Reader :=
  { r with
    candidate := some ⟨i, d⟩, ring := [], speed := 0, quiet := 0, last := none, jump := none, seed := none, fresh := false
  }.enter .acquiring

/-- A word arrives at an ACQUIRING reader (03 R45). -/
def acquire (std : Standard) (r : Reader) (i : Nat) (d : Dir) (phase : Nat) : Reader :=
  if continues std r.candidate i d then
    ({ r.accept i d phase with speed := playSpeed d, candidate := none, ring := [] } : Reader).enter .reading
  else { r with candidate := some ⟨i, d⟩, quiet := 0 }

/-- The word is consistent (03 R46). -/
def consistent (std : Standard) (r : Reader) (i : Nat) : Bool :=
  match r.last with
  | some a => decide ((wrap std.day ((i : Int) - a.index)).natAbs ≤ 2 + r.speed.natAbs / 512)
  | none => false

/-- A word arrives at a READING or COASTING reader (03 R46, R47). -/
def followWord (std : Standard) (r : Reader) (i : Nat) (d : Dir) (phase : Nat) : Reader :=
  if r.consistent std i then
    ({ r.accept i d phase with jump := none, ring := if r.state = .coasting then [] else r.ring } : Reader).enter .reading
  else if continues std r.jump i d then
    let r := r.accept i d phase
    ({ r with
       ring := [], jump := none, speed := playSpeed d
       counts := { r.counts with jump := readerCount r.counts.jump } } : Reader).enter .reading
  else { r with jump := some ⟨i, d⟩, counts := { r.counts with discarded := readerCount r.counts.discarded } }

/-- A legal word by the reader's state (03 R43 to R47). -/
def takeIndex (std : Standard) (r : Reader) (i : Nat) (d : Dir) (phase : Nat) : Reader :=
  match r.state with
  | .silent | .seeded | .lost => r.startAcquiring i d
  | .acquiring => acquire std r i d phase
  | .reading | .coasting => followWord std r i d phase

/-- The drop flag compared with the standard (03 R43). -/
def checkFlag (std : Standard) (r : Reader) (drop : Bool) : Reader :=
  if drop = decide (std = .std30d) then r
  else { r with counts := { r.counts with flagMismatch := readerCount r.counts.flagMismatch } }

/-- A label found illegal (03 R43, R49). -/
def badLabel (r : Reader) : Reader := { r with counts := { r.counts with badLabel := readerCount r.counts.badLabel } }

/-- A word with a digit above 9 (03 R41). -/
def badWord (r : Reader) : Reader := { r with counts := { r.counts with badWord := readerCount r.counts.badWord } }

/-- A delivered word (03 R43). -/
def takeWord (std : Standard) (r : Reader) (w : TapeWord) (phase : Nat) : Reader :=
  if w.label.legal std then takeIndex std (r.checkFlag std w.drop) (w.label.index std) w.dir phase else r.badLabel

/-- A seed (03 R49). -/
def takeSeed (std : Standard) (r : Reader) (l : Label) : Reader :=
  match r.state with
  | .silent | .seeded | .lost =>
    if l.legal std then
      ({ r with
         seed := some (64 * l.index std), speed := 0
         counts := { r.counts with seed := readerCount r.counts.seed } } : Reader).enter .seeded
    else r.badLabel
  | .acquiring | .reading | .coasting => r

/-! ## The work at a frame boundary (03 R50) -/

/-- Entry to LOST (03 R48). -/
def lose (r : Reader) : Reader :=
  { r with
    candidate := none, last := none, jump := none, ring := [], speed := 0, quiet := 0, fresh := false
    counts := { r.counts with loss := readerCount r.counts.loss } }.enter .lost

/-- Step 1: the quiet count and the state change (03 R48). -/
def quietStep (coast : Nat) (r : Reader) : Reader :=
  let q := satSucc 255 r.quiet
  match r.state with
  | .silent | .seeded | .lost => r
  | .acquiring | .coasting => if coast < q then r.lose else { r with quiet := q }
  | .reading => if 3 ≤ q then ({ r with quiet := q } : Reader).enter .coasting else { r with quiet := q }

/-- Step 2: elapsed (03 R50); with no accepted word it is held at its value (log 45). -/
def elapsedStep (len : Nat) (r : Reader) : Reader :=
  match r.last with
  | some a => { r with elapsed := min 65535 (r.elapsed + if r.fresh then len - a.phase else len), fresh := false }
  | none => { r with fresh := false }

/-- The position of a READING reader (03 R51). -/
def readingPosition (std : Standard) (r : Reader) (a : Accepted) : Nat :=
  let run : Int := (r.elapsed * r.speed.natAbs / 1024 : Nat)
  match a.dir with
  | .forward => reduce (64 * std.day) (64 * ((a.index : Int) + 1) + run)
  | .reverse => reduce (64 * std.day) (64 * (a.index : Int) - run)

/-- Step 3: the position (03 R50 to R52). -/
def positionNow (std : Standard) (r : Reader) : Option Nat :=
  match r.state with
  | .reading => r.last.map (readingPosition std r)
  | .coasting => r.position.map fun p => reduce (64 * std.day) ((p : Int) + r.speed.tdiv 16)
  | .seeded => r.seed
  | .silent | .acquiring | .lost => none

/-- The estimate of 03 R54. -/
def estimate (std : Standard) (r : Reader) (p : Nat) : Int :=
  match r.ring with
  | [] => r.speed
  | oldest :: _ =>
    let k := r.ring.length
    let d := wrap (64 * std.day) ((p : Int) - oldest)
    clampInt (-32767) 32767 (if 8 ≤ k then 2 * d else (16 * d).tdiv k)

/-- Steps 3 to 6: position, speed, ring, publication. -/
def publish (std : Standard) (r : Reader) : Reader :=
  match r.state, positionNow std r with
  | .reading, some p =>
    let v := estimate std r p
    { r with
      position := some p, speed := v, pubSpeed := v
      ring := (if 8 ≤ r.ring.length then r.ring.tail else r.ring) ++ [p] }
  | .seeded, p => { r with position := p, speed := 0, pubSpeed := 0 }
  | _, p => { r with position := p, pubSpeed := r.speed }

/-- The whole work of a reader at a boundary of frame length `len` (03 R50). -/
def boundary (std : Standard) (coast len : Nat) (r : Reader) : Reader :=
  ((r.quietStep coast).elapsedStep len).publish std

/-- A standard-change retake (03 R58). -/
def restart (r : Reader) : Reader := { Reader.reset with changeFlag := r.changeFlag || r.state != .silent }

end Reader

namespace State

/-- Replace a reader, and raise READER if its state has changed (03 R55). -/
def putReader (s : State) (n : Transport) (r : Reader) : State :=
  if (s.reader n).state = r.state then s.setReader n r else (s.setReader n r).raise .reader

/-- A seed handed to a reader (03 R49). -/
def seedReader (s : State) (n : Transport) (l : Label) : State := s.putReader n (Reader.takeSeed s.standard (s.reader n) l)

/-- Eighty bits on a timecode input (03 R41 to R43): no word is found without the sync field (log 28). -/
def tapeWord (s : State) (n : Transport) (bits : BitVec 80) : State :=
  if s.configured then
    match orientWord bits with
    | some (w, d) =>
      if badDigit w then s.setReader n (s.reader n).badWord
      else s.putReader n (Reader.takeWord s.standard (s.reader n) (readWord w d) s.rtu.phase)
    | none => s
  else s

/-- The coast limit in force (01 R13). -/
def coastLimit (s : State) : Nat := match s.cfg.setup with | some u => u.coastLimit.toNat | none => 25

/-- One reader's work at a boundary of frame length `len` (03 R50), with its marks (log 11). -/
def readerBoundary (len : Nat) (n : Transport) (s : State) : State :=
  let r := s.reader n
  let r' := r.boundary s.standard s.coastLimit len
  let s := s.putReader n r'
  if r.state = .reading ∧ r'.state = .coasting then s.mark (.readerCoasting n)
  else if r.state ≠ .lost ∧ r'.state = .lost then s.mark (.readerLost n)
  else s

end State

end Sys2Proof.Machine
end

