-- ==== Sys2Proof/Machine/Transport.lean ====
section
/-! DEFINITION. The Transport Context Table (05): what it learns from a deck, the owner of a transport, and the slot
result; with the stops of a chase context that an owner change asks for (06 R113, R115, R116). -/

namespace Sys2Proof.Machine

/-! ## What the part learns from a deck (05 R86, R87, R88) -/

/-- The label in four payload bytes from place `k`. -/
def labelAt (p : List Byte) (k : Nat) : Label := ⟨p.getD k 0, p.getD (k + 1) 0, p.getD (k + 2) 0, p.getD (k + 3) 0⟩

/-- The deck mode of an acknowledged speed, the tests in the order of 05 R86. -/
def speedMode (v : Int) : DeckMode :=
  if v = 0 then .stopped else if v = 1024 then .playing else if (v - 1024).natAbs ≤ 512 then .vari else .shuttling

namespace Context

/-- An acknowledged command (05 R86). -/
def acknowledged (c : Context) (kind : LinkKind) (arg : Arg) : Context :=
  match kind, arg with
  | .halt, _ => { c with mode := .stopped, insertMask := 0, lastSpeed := 0 }
  | .run, _ => { c with mode := .playing, lastSpeed := 1024 }
  | .speed, .speed v => { c with mode := speedMode v, lastSpeed := v }
  | .locate, _ => { c with mode := .locating }
  | .insertOn, .mask m => { c with insertMask := c.insertMask ||| m }
  | .insertOff, .mask m => { c with insertMask := c.insertMask &&& ~~~m }
  | .standby, .setting true => { c with mode := .stopped }
  | .standby, .setting false => { c with mode := .standbyOff, insertMask := 0 }
  | _, _ => c

/-- A refused command: only NO_TAPE and LOCAL tell the part anything (05 R86). -/
def refusedBy (c : Context) (reason : Byte) : Context :=
  if reason = 2 then { c with mode := .noTape, insertMask := 0 } else if reason = 4 then { c with mode := .loc } else c

/-- A SENSE_REPLY, the seed apart (05 R87). -/
def sensed (c : Context) (std : Standard) (p : List Byte) (stamp : Word) : Context :=
  let m := DeckMode.ofCode (p.getD 0 0).toNat
  let l := labelAt p 2
  { c with
    mode := m
    insertMask := if m = .noTape ∨ m = .standbyOff then 0 else c.insertMask
    sensedFlags := some ((p.getD 1 0).setWidth 4)
    sensedAt := stamp
    sensedPos := if (p.getD 1 0).getLsbD 3 && l.legal std then some (l.index std) else none }

/-- The tracking of a notice (05 R88, step 1). -/
def noticed (c : Context) (code : Byte) : Context :=
  match code.toNat with
  | 1 | 2 => { c with mode := .stopped, lastSpeed := 0 }
  | 3 => { c with mode := .noTape, insertMask := 0 }
  | 4 => { c with mode := .loc }
  | _ => c

end Context

namespace State

/-- A SENSE_REPLY taken, the position handed to the reader as a seed when it is marked valid (05 R87). -/
def senseTaken (s : State) (n : Transport) (p : List Byte) : State :=
  let s := s.onCtx n (·.sensed s.standard p s.stamp)
  if (p.getD 1 0).getLsbD 3 then s.seedReader n (labelAt p 2) else s

/-- Tracking of a completion with outcome REPLY (05 R86). -/
def track (s : State) (n : Transport) (kind : LinkKind) (arg : Arg) (reply : ReplyKind) (p : List Byte) : State :=
  match reply with
  | .ack => s.onCtx n (·.acknowledged kind arg)
  | .nak => s.onCtx n (·.refusedBy (p.getD 0 0))
  | .senseReply => s.senseTaken n p

/-- The outcome of a transport slot record is written and SLOT raised (05 R98, 01 R3). -/
def transportResult (s : State) (n : Transport) (code : SlotCode) (parameters : Bool) (command tag : Word) : State :=
  (s.onCtx n ({ · with result := ⟨some code, parameters, command, tag⟩ })).raise .slot

/-! ## Chase contexts that change state (06 R126) -/

/-- A change of a chase context's state. -/
def chaseChanged (c : Chase) (st : ChaseState) : Chase :=
  { c with state := st, changeFlag := true, changeCount := wrapSucc 255 c.changeCount }

/-- Apply a change to one chase context. -/
def onChase (s : State) (n : Transport) (f : Chase → Chase) : State := s.setChase n (f (s.chase n))

/-- A context goes to IDLE without a HALT: its waiting speed is withdrawn and CHASE raised. -/
def idleChase (s : State) (n : Transport) : State :=
  ((s.onChase n (chaseChanged · .idle)).withdrawSpeed n).raise .chase

/-- A processor-origin context is running. -/
def processorChase (s : State) (n : Transport) : Bool :=
  (s.chase n).state != .idle && (s.chase n).origin = .processor

/-- A RUN-origin context is running. -/
def runChase (s : State) (n : Transport) : Bool := (s.chase n).state != .idle && (s.chase n).origin = .run

/-- Stop a processor-origin context (06 R116). -/
def stopProcessorChase (s : State) (n : Transport) : State := if s.processorChase n then s.idleChase n else s

/-- Stop a RUN-origin context (06 R115). -/
def stopRunChase (s : State) (n : Transport) : State := if s.runChase n then s.idleChase n else s

/-! ## Owners (05 R84, R85) -/

/-- Change the owner field. -/
def setOwner (s : State) (n : Transport) (o : Owner) : State := s.onCtx n ({ · with owner := o })

/-- A chase stop asked of the transport context: CHASE becomes FREE (05 R84). -/
def freeFromChase (s : State) (n : Transport) : State := if (s.ctx n).owner = .chase then s.setOwner n .free else s

/-- A processor speed waiting in the slot is withdrawn (05 R85). -/
def withdrawProcessorSpeed (s : State) (n : Transport) : State :=
  match (s.link n).slot with
  | some v => if v.source = .processor then s.withdrawSpeed n else s
  | none => s

/-- A run take (05 R85). -/
def runTake (s : State) (n : Transport) : State :=
  if (s.ctx n).owner = .run then s
  else
    let s := if (s.ctx n).owner = .chase then s.stopProcessorChase n else s
    ((s.cancelSource n .processor).withdrawProcessorSpeed n).setOwner n .run

/-- The cue of one transport. -/
def setCue (s : State) (n : Transport) (c : CueState) : State := s.setRun { s.run with cues := s.run.cues.set n c }

/-- A run release: RUN becomes FREE, and the transport's cue progress returns to NONE (05 R84, 08 R156). -/
def runRelease (s : State) (n : Transport) : State :=
  (if (s.ctx n).owner = .run then s.setOwner n .free else s).setCue n .zero

end State

end Sys2Proof.Machine
end

