-- ==== Sys2Proof/Machine/EditTable.lean ====
section
/-! DEFINITION. The Edit Table (07): event states under stores, the checks of arming, the armed copy, completion and
release. -/

namespace Sys2Proof.Machine

/-! ## Event words -/

/-- The number of a word in the part's copy: its region offset. -/
def eventOffset (event : Fin 64) (word : Nat) : Nat := 64 * event.val + 2 * word

/-- Word `w` of an event, from the part's copy. -/
def PartConfig.eventWord (c : PartConfig) (event : Fin 64) (w : Nat) : Word := c.eventWords.read (eventOffset event w)

/-- The state that a completed store to word 0 leaves (07 R134). -/
def kindState (lanes : Strobes) (stored : Word) : EventState :=
  match lanes with
  | .both =>
    if loByte stored = 1 then .loaded else if loByte stored = 0 then .empty else .draft
  | .upper | .lower => .draft

/-- The state that a completed store to a word leaves (07 R133, R134). -/
def storedState (word : Nat) (lanes : Strobes) (stored : Word) : EventState :=
  if word = 0 then kindState lanes stored else .draft

/-! ## Reading a record (07 R136, 11.4) -/

/-- The fields of an event record before its checks: codes and numbers as stored. -/
structure EventFields where
  noLookahead : Bool
  kindCode : Nat
  curveCode : Nat
  recorderCode : Nat
  mask : Tracks
  aCode : Nat
  bCode : Nat
  recordIn : Label
  aIn : Label
  bIn : Label
  duration : Nat
  preroll : Nat
  postroll : Nat
  t0 : Nat
  length : Nat
  pattern : Nat
  link : Word
  cueCount : Nat
  splitPresent : Bool
  split : Int
  /-- line, width and offset of the three cue entries -/
  cues : List (Nat × Nat × Int)
  deriving DecidableEq, Repr

/-- The fields of an event's 32 words (11.4). -/
def EventFields.ofWords (w : Nat → Word) : EventFields :=
  { noLookahead := (w 1).getLsbD 0
    kindCode := (hiByte (w 2)).toNat
    curveCode := (loByte (w 2)).toNat
    recorderCode := (hiByte (w 3)).toNat
    mask := maskOf (w 3)
    aCode := (hiByte (w 4)).toNat
    bCode := (loByte (w 4)).toNat
    recordIn := .ofWords (w 5) (w 6)
    aIn := .ofWords (w 7) (w 8)
    bIn := .ofWords (w 9) (w 10)
    duration := (w 11).toNat
    preroll := (w 12).toNat
    postroll := (w 13).toNat
    t0 := (w 14).toNat
    length := (w 15).toNat
    pattern := (w 16).toNat
    link := w 17
    cueCount := (w 18).toNat
    splitPresent := (w 20).getLsbD 0
    split := (w 21).toInt
    cues := [22, 24, 26].map fun k => ((hiByte (w k)).toNat, (loByte (w k)).toNat, (w (k + 1)).toInt) }

/-- The cue entries that are counted (07 R136). -/
def EventFields.counted (f : EventFields) : List (Nat × Nat × Int) := f.cues.take f.cueCount

/-- A cue entry in range (07 R138). -/
def cueOf? (c : Nat × Nat × Int) : Option Cue :=
  if h : c.1 < 8 then
    if 1 ≤ c.2.1 ∧ c.2.1 ≤ 15 then some ⟨⟨c.1, h⟩, c.2.1, c.2.2⟩ else none
  else none

/-- The enumerated fields of a record, decoded; the source B of `none` is NONE. -/
structure EventCodes where
  kind : TransKind
  curve : Curve
  recorder : Transport
  sourceA : MixSource
  sourceB : Option MixSource
  link : Option (Fin 64)
  cues : List Cue
  deriving DecidableEq, Repr

/-- Source B of a code: `some none` is NONE. -/
def sourceBOf? (c : Nat) : Option (Option MixSource) := if c = 8 then some none else (MixSource.ofCode? c).map some

/-- The curve, read for MIX and WIPE only (07 R136). -/
def curveFor? (kind : TransKind) (c : Nat) : Option Curve := if kind.ramps then Curve.ofCode? c else some .linear

/-- The enumerated fields; `none` when a code that is read lies outside its list (07 R138). -/
def EventFields.codes? (f : EventFields) : Option EventCodes := do
  let kind ← TransKind.ofCode? f.kindCode
  let curve ← curveFor? kind f.curveCode
  let recorder ← Transport.ofNum? f.recorderCode
  let sourceA ← MixSource.ofCode? f.aCode
  let sourceB ← sourceBOf? f.bCode
  let link ← linkOf? f.link
  let cues ← f.counted.mapM cueOf?
  return { kind, curve, recorder, sourceA, sourceB, link, cues }

/-- t0 as the armed copy holds it (07 R136). -/
def EventFields.t0For (f : EventFields) (k : TransKind) : Nat := if k = .none then 0 else f.t0

/-- The length as the armed copy holds it (07 R136). -/
def EventFields.lengthFor (f : EventFields) (k : TransKind) : Nat := if k.ramps then f.length else 0

/-- The pattern as the armed copy holds it (07 R136). -/
def EventFields.patternFor (f : EventFields) (k : TransKind) : Nat := if k = .wipe then f.pattern else 0

/-- The split, present or absent. -/
def EventFields.split? (f : EventFields) : Option Int := if f.splitPresent then some f.split else none

/-! ## The checks of a record (07 R138 to R142) -/

/-- The numeric part of FIELD_RANGE (07 R138). -/
def EventFields.numbersOk (f : EventFields) (k : TransKind) : Bool :=
  f.mask != 0 && decide (1 ≤ f.duration) && decide (f.preroll ≤ 2999) && decide (f.postroll ≤ 999) &&
    decide (f.lengthFor k ≤ 999) && decide (f.patternFor k ≤ 63) && decide (f.cueCount ≤ 3)

/-- Two transports of the event are the same (07 R139). -/
def EventCodes.sameTransport (c : EventCodes) : Bool :=
  let a := c.sourceA.transport?
  let b := c.sourceB.bind MixSource.transport?
  decide (a = some c.recorder) || decide (b = some c.recorder) || (a.isSome && decide (a = b))

/-- A label that is read is illegal (07 R139). -/
def EventFields.badLabel (f : EventFields) (c : EventCodes) (std : Standard) : Bool :=
  !f.recordIn.legal std || (c.sourceA.transport?.isSome && !f.aIn.legal std) ||
    ((c.sourceB.bind MixSource.transport?).isSome && !f.bIn.legal std)

/-- TRANSITION_RANGE (07 R140). -/
def EventFields.transitionRange (f : EventFields) (c : EventCodes) : Bool :=
  decide (f.duration < f.t0For c.kind + f.lengthFor c.kind) || (c.sourceB.isNone && c.kind != .none) ||
    (c.sourceB.isSome && decide (c.kind = .none)) || (c.kind.ramps && decide (f.lengthFor c.kind = 0))

/-- PREROLL_SHORT (07 R141). -/
def EventFields.prerollShort (f : EventFields) (margin latency : Nat) : Bool :=
  decide (f.preroll < margin + 1) || decide (margin < latency + 2)

/-- The mask holds V together with A1 or A2 (07 R141). -/
def splitMask (m : Tracks) : Bool := m.getLsbD 0 && (m.getLsbD 1 || m.getLsbD 2)

/-- SPLIT_RANGE (07 R141). -/
def EventFields.splitRange (f : EventFields) (margin latency : Nat) : Bool :=
  match f.split? with
  | none => false
  | some s =>
    !splitMask f.mask || decide (s < -((margin : Int) - latency - 2)) || decide ((f.duration : Int) - 1 < s) ||
      decide (s < -99) || decide (99 < s)

/-- CUE_RANGE (07 R142). -/
def EventFields.cueRange (f : EventFields) (c : EventCodes) : Bool :=
  c.cues.any fun q =>
    decide (q.offset < -(f.preroll : Int)) || decide ((f.duration : Int) + f.postroll - 1 < q.offset)

/-- The checks in rule order: the decoded fields, or the reason of the first that fails (07 R137, check 4). -/
def EventFields.check (f : EventFields) (std : Standard) (margin : Nat) (latency : Transport → Nat) : Except ArmReason EventCodes :=
  match f.codes? with
  | none => .error .fieldRange
  | some c =>
    if !f.numbersOk c.kind then .error .fieldRange
    else if c.sameTransport then .error .sameTransport
    else if f.badLabel c std then .error .badLabel
    else if f.transitionRange c then .error .transitionRange
    else if f.prerollShort margin (latency c.recorder) then .error .prerollShort
    else if f.splitRange margin (latency c.recorder) then .error .splitRange
    else if f.cueRange c then .error .cueRange
    else .ok c

/-- The armed copy (07 R143). -/
def EventFields.armed (f : EventFields) (c : EventCodes) (event : Fin 64) (place : Place) (std : Standard)
    (margin latency : Nat) : Armed :=
  { event, place, noLookahead := f.noLookahead, kind := c.kind, curve := c.curve, recorder := c.recorder, mask := f.mask
    sourceA := c.sourceA, sourceB := c.sourceB
    recordIn := f.recordIn.index std
    sourceAIn := c.sourceA.transport?.map fun _ => f.aIn.index std
    sourceBIn := (c.sourceB.bind MixSource.transport?).map fun _ => f.bIn.index std
    duration := f.duration, preroll := f.preroll, postroll := f.postroll
    t0 := f.t0For c.kind, length := f.lengthFor c.kind, pattern := f.patternFor c.kind
    split := f.split?, link := c.link, cues := c.cues, latency, margin }

/-- The cue target of a transport of an armed event: its in-point less the preroll (07 R143). -/
def Armed.cueTarget? (a : Armed) (std : Standard) (n : Transport) : Option Nat :=
  (a.inPoint? n).map fun p => reduce std.day ((p : Int) - a.preroll)

/-! ## Requests of the Run Sequencer (07 R137, R144, R145) -/

/-- What the Edit Table answers to a refused arming (07 R137). -/
def armRefusal (st : EventState) (mode : RunMode) : Option FaultKind :=
  match st with
  | .empty | .draft => some .eventNotLoaded
  | .armed => some .eventRepeated
  | .done => if mode = .record then some .eventRepeated else none
  | .loaded => none

namespace State

/-- The event's state. -/
def eventState (s : State) (e : Fin 64) : EventState := s.et.states[e]

/-- Set the event's state. -/
def setEventState (s : State) (e : Fin 64) (x : EventState) : State :=
  s.setEt { s.et with states := s.et.states.set e x }

/-- Put an armed copy in a place and make its event ARMED. -/
def placeArmed (s : State) (p : Place) (a : Armed) : State :=
  let s := s.setEventState a.event .armed
  match p with
  | .current => s.setEt { s.et with current := some a }
  | .lookahead => s.setEt { s.et with lookahead := some a }

/-- The answer to an arming request (07 R137): the armed copy placed, or the refusal. -/
def arm (s : State) (e : Fin 64) (p : Place) (mode : RunMode) (margin : Nat) : Except FaultKind (Armed × State) :=
  match armRefusal (s.eventState e) mode with
  | some k => .error k
  | none =>
    let f := EventFields.ofWords (s.cfg.eventWord e)
    match f.check s.standard margin (fun n => (s.ctx n).latency) with
    | .error r => .error (.eventInvalid r)
    | .ok c =>
      let a := f.armed c e p s.standard margin (s.ctx c.recorder).latency
      .ok (a, s.placeArmed p a)

/-- The event of a place becomes `x` and leaves the set. -/
def leavePlace (s : State) (p : Place) (x : EventState) : State :=
  match p with
  | .current =>
    match s.et.current with
    | some a => let s := s.setEventState a.event x; s.setEt { s.et with current := none }
    | none => s
  | .lookahead =>
    match s.et.lookahead with
    | some a => let s := s.setEventState a.event x; s.setEt { s.et with lookahead := none }
    | none => s

/-- The current event is complete: DONE, and an event in the look-ahead place moves to the current place (07 R144). -/
def completeEvent (s : State) : State :=
  match s.et.current with
  | some _ => let s := s.leavePlace .current .done; s.setEt { s.et with current := s.et.lookahead, lookahead := none }
  | none => s

/-- The event in a place is released: LOADED (07 R144). -/
def releasePlace (s : State) (p : Place) : State := s.leavePlace p .loaded

/-- Every DONE event becomes LOADED (07 R145). -/
def reloadDone (s : State) : State :=
  s.setEt { s.et with states := s.et.states.map fun x => if x = .done then .loaded else x }

/-- Every event becomes EMPTY (07 R147). -/
def emptyEvents (s : State) : State := s.setEt { s.et with states := Vector.replicate 64 .empty }

end State

end Sys2Proof.Machine
end

