-- ==== Sys2Proof/Machine/Mixer.lean ====
section
/-! DEFINITION. The Transition Generator (09): levels, transitions, the run's use of the mixer, GPI lines, switcher
frames, and the work at a field boundary. -/

namespace Sys2Proof.Machine

/-- The level of field k of F fields (09 R182). -/
def rampLevel (kind : TransKind) (curve : Curve) (F k : Nat) : Nat :=
  match kind, curve with
  | .cut, _ | .none, _ => 1023
  | _, .linear => (1023 * k + F / 2) / F
  | _, .s => (1023 * (3 * k ^ 2 * F - 2 * k ^ 3) + F ^ 3 / 2) / F ^ 3

/-- The fields a transition spans (09 section 9.4, R183). -/
def fieldCount (kind : TransKind) (length : Nat) : Nat := if kind.ramps then 2 * length else 1

namespace Mixer

/-- The transition in progress ends with an outcome (09 R183, R184, R187, R188). -/
def ended (m : Mixer) (t : Transition) (o : TransOutcome) : Mixer :=
  { m with transition := none, last := some ⟨t.kind, t.byProcessor, o⟩ }

/-- The buses flipped (09 R187). -/
def flip (m : Mixer) : Mixer := { m with aBus := m.bBus, bBus := m.aBus }

/-- The end of a transition after its last field (09 R183; for the processor's, R187). -/
def complete (m : Mixer) (t : Transition) : Mixer :=
  if t.byProcessor then { (m.ended t .completed).flip with level := 0, owner := .free } else m.ended t .completed

/-- The level for the field now beginning (09 R182). -/
def advance (m : Mixer) (t : Transition) : Mixer :=
  { m with level := rampLevel t.kind t.curve t.fields t.k, transition := some { t with k := t.k + 1 } }

/-- A pulse on a GPI line (09 R189). -/
def pulse (m : Mixer) (line : Fin 8) (width : Nat) : Mixer :=
  let m' := { m with timers := m.timers.set line width }
  if m.timers[line] = 0 then { m' with pulses := m.pulses.set line (satSucc 65535 m.pulses[line]) }
  else { m' with retriggers := m.retriggers.set line (satSucc 65535 m.retriggers[line]) }

/-- Every GPI line inactive (09 R189). -/
def endPulses (m : Mixer) : Mixer := { m with timers := Vector.replicate 8 0 }

/-- Every timer above 0 counted down (09 R189). -/
def countDown (m : Mixer) : Mixer := { m with timers := m.timers.map (· - 1) }

/-- Pending crosspoint entries adopted (09 R179). -/
def adopt (m : Mixer) : Mixer :=
  { m with
    crosspoints := Vector.zipWith (fun p c => p.getD c) m.pendingCross m.crosspoints
    pendingCross := Vector.replicate 8 none }

/-- A crosspoint word handed over: bits 4–0 become the pending entry (09 R179). -/
def crosspoint (m : Mixer) (entry : Fin 8) (w : Word) : Mixer :=
  { m with pendingCross := m.pendingCross.set entry (some (w.setWidth 5)) }

/-- The mixer input of a source in the table in force. -/
def input (m : Mixer) (x : MixSource) : BitVec 5 := m.crosspoints[x.code]

/-- The bytes after the start byte, the check byte apart (11.8). -/
def frameBody (m : Mixer) (parity2 : Bool) : List Byte :=
  [ (m.input m.aBus).setWidth 8, (m.input m.bBus).setWidth 8,
    BitVec.ofNat 8 (m.level / 256 + (if parity2 then 16 else 0) + (if m.transition.isSome then 32 else 0)),
    BitVec.ofNat 8 m.level, BitVec.ofNat 8 m.pattern,
    BitVec.ofNat 8 (match m.transition with | some t => t.kind.code | none => 0) ]

/-- The switcher frame (09 R180, 11.8). -/
def frame (m : Mixer) (parity2 : Bool) : List Byte :=
  let body := m.frameBody parity2
  0xC3 :: body ++ [0 - body.sum]

/-- A formed frame begins, or waits in place of any that waits (09 R180). -/
def send (m : Mixer) (f : List Byte) : Mixer :=
  { m with
    tx := match m.tx with
      | .idle => .sending f Config.switcherFrameUnits none
      | .sending g left _ => .sending g left (some f) }

/-- The last byte of a frame has gone (09 R180). -/
def sent (m : Mixer) : Mixer :=
  { m with
    tx := match m.tx with
      | .sending _ _ (some w) => .sending w Config.switcherFrameUnits none
      | _ => .idle }

end Mixer

namespace State

/-- Apply a change to the Transition Generator. -/
def onMixer (s : State) (f : Mixer → Mixer) : State := s.setMixer (f s.mixer)

/-- The transition in progress, if any, ends with an outcome and TRANSITION is raised. -/
def endTransition (s : State) (o : TransOutcome) : State :=
  match s.mixer.transition with
  | some t => (s.onMixer (·.ended t o)).raise .transition
  | none => s

/-- A processor transition cut short by the run's take (09 R188). -/
def preempt (s : State) : State :=
  match s.mixer.transition with
  | some t =>
    if t.byProcessor then (s.onMixer fun m => { (m.ended t .preempted).flip with level := 1023 }).raise .transition else s
  | none => s

/-- The run takes the mixer (09 R183). -/
def takeMixer (s : State) (a : MixSource) : State :=
  s.preempt.onMixer fun m => { m with owner := .run, aBus := a, level := 0, frozen := false }

/-- A transition handed by the run starts (09 R183). -/
def startTransition (s : State) (kind : TransKind) (curve : Curve) (length pattern : Nat) (b : MixSource) : State :=
  (s.endTransition .replaced).onMixer fun m =>
    { m with bBus := b, pattern := pattern, transition := some ⟨kind, curve, fieldCount kind length, 1, false⟩ }

/-- One thing the run has handed for this boundary (09 R181 step 3). -/
def applyHanded (s : State) : Handed → State
  | .take a => s.takeMixer a
  | .pulse line width => (s.onMixer (·.pulse line width)).raise .gpi
  | .start kind curve length pattern b => s.startTransition kind curve length pattern b

/-- Everything the run has handed, in the order handed. -/
def applyAllHanded (s : State) : State :=
  s.mixer.handed.foldl applyHanded (s.onMixer ({ · with handed := [] }))

/-- The run hands something for this boundary. -/
def hand (s : State) (h : Handed) : State := s.onMixer fun m => { m with handed := m.handed ++ [h] }

/-- The freeze of the level, while the owner is RUN (09 R184). -/
def freezeLevel (s : State) : State :=
  if s.mixer.owner = .run then (s.onMixer ({ · with frozen := true })).endTransition .frozen else s

/-- The abort path's freeze and end of the GPI pulses; both discard what is handed and not yet applied (09 R184). -/
def freezeMixer (s : State) : State := s.freezeLevel.onMixer fun m => { m.endPulses with handed := [] }

/-- The run releases the mixer (09 R184). -/
def releaseMixer (s : State) : State :=
  if s.mixer.owner = .run then s.onMixer ({ · with owner := .free, frozen := false }) else s

/-- The suite clear work of the Transition Generator (09 R184). -/
def clearMixer (s : State) : State :=
  (s.endTransition .cleared).onMixer fun m => { m.endPulses with owner := .free, frozen := false }

/-- The lines whose timers reach 0 at this boundary are marked (log 11). -/
def markPulseEnds (s : State) : State :=
  (List.finRange 8).foldl (fun s l => if s.mixer.timers[l] = 1 then s.mark (.gpiPulseEnd l) else s) s

/-- Step 4 of 09 R181: a transition in progress advances or ends. -/
def transitionField (s : State) : State :=
  match s.mixer.transition with
  | some t =>
    if t.k ≤ t.fields then s.onMixer (·.advance t)
    else ((s.onMixer (·.complete t)).raise .transition).mark .transitionEnd
  | none => s

/-- The Transition Generator's work at a field boundary (09 R181). -/
def fieldWork (s : State) (parity2 : Bool) : State :=
  let s := s.onMixer Mixer.adopt
  let s := if parity2 then s else (s.markPulseEnds.onMixer Mixer.countDown).applyAllHanded
  s.transitionField.onMixer fun m => m.send (m.frame parity2)

/-- The outcome of a switcher slot record is written and SLOT raised (09 R185). -/
def switcherResult (s : State) (code : SlotCode) (command tag : Word) : State :=
  (s.onMixer ({ · with result := ⟨some code, false, command, tag⟩ })).raise .slot

end State

end Sys2Proof.Machine
end

