-- ==== Sys2Proof/Machine/RunPath.lean ====
section
/-! DEFINITION. The Run Sequencer's shared operations (08): its state, its offers, faults, the abort path and its end,
and the suite clear work it hands on. -/

namespace Sys2Proof.Machine

namespace State

/-- Apply a change to the Run Sequencer. -/
def onRun (s : State) (f : Run → Run) : State := s.setRun (f s.run)

/-- The run enters a state: RUN_PHASE is raised for a change, and the RUN_FAULT condition follows (08 R154, R172), in this
order (log 51). -/
def runEnter (s : State) (st : RunState) : State :=
  if s.run.state = st then s else ((s.onRun ({ · with state := st })).raise .runPhase).syncRunFault

/-- The event in the current place; event 0 stands where there is none. -/
def currentEvent (s : State) : Fin 64 := match s.et.current with | some a => a.event | none => 0

/-- The event in the look-ahead place; event 0 stands where there is none. -/
def lookaheadEvent (s : State) : Fin 64 := match s.et.lookahead with | some a => a.event | none => 0

/-- The transports of the event in the current place. -/
def currentTransports (s : State) : List Transport := match s.et.current with | some a => a.transports | none => []

/-- The armed transports, current and look-ahead, in number order (08 R173). -/
def armedTransports (s : State) : List Transport := Transport.all.filter s.et.names

/-! ## Entries of the run -/

/-- An entry of source RUN. -/
def runEntry (kind : LinkKind) (arg : Arg) (urgent abort : Bool) : Entry := ⟨.run, kind, arg, none, urgent, abort⟩

/-- A HALT, source RUN and non-urgent, then the release of the transport (08 R167, R171). -/
def haltAndRelease (n : Transport) (s : State) : State :=
  (s.offerEntry n (runEntry .halt .none false false)).2.runRelease n

/-- An abort command: urgent, abort yes, counted when the link places it (08 R173). -/
def offerAbort (s : State) (n : Transport) (kind : LinkKind) (arg : Arg) : State :=
  let (a, s) := s.offerEntry n (runEntry kind arg true true)
  if a = .placed then s.onRun fun r => { r with outstanding := r.outstanding + 1 } else s

/-! ## The suite clear work (04 R81, 06 R116, 07 R147, 08 R174, 09 R184) -/

/-- The work of one link at suite clear (04 R81): its queue and slot cancelled, its reply FIFO emptied, an entry or a
speed in flight made an orphan. -/
def clearLink (n : Transport) (s : State) : State :=
  let l := s.link n
  let orphaned := l.inFlight.map fun f => if f.entry.source = .link then f else { f with orphan := true }
  let s := (s.onLink n ({ · with queue := [], inFlight := orphaned })).cancelAll n l.queue
  (s.withdrawSpeed n).emptyFifo n

/-- Suite clear of one chase context (06 R116). -/
def clearChase (n : Transport) (s : State) : State :=
  if (s.chase n).state = .idle then s
  else if (s.chase n).origin = .processor then (s.idleChase n).freeFromChase n
  else s.idleChase n

/-- The suite clear work handed on by the run (08 R174, step 5). -/
def suiteClear (s : State) : State :=
  let s := forTransports Transport.all clearLink s
  let s := forTransports Transport.all clearChase s
  (s.clearMixer.emptyEvents).onRun ({ · with fault := none, faultExtra := 0, lockLosses := 0, notices := 0 })

/-! ## The abort path (08 R173, R174) -/

/-- The end cause of a path that a cause began (08 R174). -/
def endCauseOf : AbortCause → EndCause
  | .none => .none | .fault => .faulted | .processorAbort => .aborted | .processorHalt => .processorHalt
  | .stopped => .stopped | .cleared => .cleared

/-- Release every transport owned by RUN (08 R174, step 1). -/
def releaseAll (s : State) : State :=
  forTransports Transport.all (fun n s => if (s.ctx n).owner = .run then s.runRelease n else s) s

/-- Steps 1 to 4 of 08 R174. -/
def endRun (s : State) (st : RunState) (cause : EndCause) : State :=
  let s := ((s.releaseAll.releasePlace .current).releasePlace .lookahead).releaseMixer
  (s.onRun ({ · with endCause := cause })).runEnter st

/-- The end of the abort path (08 R174). -/
def abortEnd (s : State) : State :=
  let cause := s.run.abortCause
  let s := s.endRun (if cause = .fault then .faulted else .idle) (endCauseOf cause)
  if cause = .cleared then s.suiteClear else s

/-- Steps 1 and 2 of 08 R173. -/
def abortStops (s : State) : State :=
  let s := forTransports Transport.all (fun n s => s.stopRunChase n) s
  forTransports s.armedTransports (fun n s => s.cancelSource n .run) s

/-- Step 3 of 08 R173: the recorder is switched out of insert. -/
def abortInserts (s : State) : State :=
  match s.et.current with
  | some a =>
    let m := s.run.insertsOn ||| (s.ctx a.recorder).insertMask
    if m = 0 then s else s.offerAbort a.recorder .insertOff (.mask m)
  | none => s

/-- Step 6 of 08 R173: a pending fault is discarded; it adds 1 when the run's own fault stands (log 22). -/
def discardPending (s : State) : State :=
  s.onRun fun r =>
    { r with
      lookahead := .none, pendingFault := none, pendingExtra := 0
      faultExtra := if r.pendingFault.isSome && r.fault.isSome then satSucc 255 r.faultExtra else r.faultExtra }

/-- The abort path (08 R173). -/
def abortPath (s : State) (cause : AbortCause) : State :=
  let s := s.onRun ({ · with abortCause := cause, awaited := [] })
  let s := (s.runEnter .aborting).abortStops.abortInserts
  let s := forTransports s.armedTransports (fun n s => s.offerAbort n .halt .none) s
  let s := s.freezeMixer.discardPending
  if s.run.outstanding = 0 then s.abortEnd else s

/-! ## Faults (08 R169, R172) -/

/-- The clock a fault carries: absent before the event's first roll (log 23). -/
def faultClock (s : State) : Option Int := if s.run.state.rolling then some s.run.clock else none

/-- A fault of the run (08 R172): in IDLE there is no run to fault. -/
def runFault (s : State) (f : FaultRecord) : State :=
  if s.run.state.active then (s.onRun ({ · with fault := some f })).abortPath .fault
  else if s.run.state = .aborting || s.run.state = .faulted then s.onRun fun r => { r with faultExtra := satSucc 255 r.faultExtra }
  else s

/-- A fault of the current event. -/
def currentFault (s : State) (kind : FaultKind) (n : Option Transport) : State :=
  s.runFault ⟨kind, s.currentEvent, n, s.faultClock, false⟩

/-- A fault of the look-ahead, held back (08 R169). -/
def holdFault (s : State) (kind : FaultKind) (event : Fin 64) (n : Option Transport) : State :=
  s.onRun fun r =>
    match r.pendingFault with
    | none =>
      { r with
        pendingFault := some ⟨kind, event, n, s.faultClock, true⟩, pendingExtra := 0, lookahead := .faultPending }
    | some _ => { r with pendingExtra := satSucc 255 r.pendingExtra }

/-- A fault on a transport: held when only the look-ahead names it (08 R169, R170). -/
def transportFault (s : State) (kind : FaultKind) (n : Transport) : State :=
  if s.run.state.active && s.et.lookaheadOnly n then s.holdFault kind s.lookaheadEvent (some n)
  else s.currentFault kind (some n)

/-! ## Cues (08 R158) -/

/-- The armed event whose cue a transport follows: the current event's, if it names it (08 R156). -/
def cueEvent? (s : State) (n : Transport) : Option Armed := if s.et.currentNames n then s.et.current else s.et.lookahead

/-- The cue target of a transport. -/
def cueTarget? (s : State) (n : Transport) : Option Nat :=
  (s.cueEvent? n).bind fun a => a.cueTarget? s.standard n

/-- Cue commands may be offered for a transport: the run works events, and for a pre-cue no look-ahead fault is held
(08 R169). -/
def mayCue (s : State) (n : Transport) : Bool :=
  s.run.state.active && (!s.et.lookaheadOnly n || s.run.lookahead = .armed)

/-- Offer the LOCATE of a cue whose progress stands at LOCATING (08 R158). -/
def offerLocate (s : State) (n : Transport) : State :=
  match s.cueTarget? n with
  | some t =>
    let (a, s) := s.offerEntry n (runEntry .locate (.label (Label.ofIndex s.standard t)) false false)
    match a with
    | .placed => s.setCue n { s.run.cues.get n with unplaced := false }
    | .queueFull => s.setCue n { s.run.cues.get n with unplaced := true }
    | .linkDown => s.transportFault .linkFailed n
  | none => s

/-- The cue of a transport begins, or its re-locate (08 R158). -/
def beginCue (s : State) (n : Transport) (count : Nat) : State :=
  if s.mayCue n then
    (s.setCue n { s.run.cues.get n with progress := .locating, locates := count, unplaced := false }).offerLocate n
  else s

/-- Every transport of the current event is CUED. -/
def allCued (s : State) : Bool := s.currentTransports.all fun n => (s.run.cues.get n).progress = .cued

/-- The run enters READY, AUTO_ROLL setting roll requested (08 R159). -/
def enterReady (s : State) : State :=
  (s.onRun fun r => { r with rollRequested := r.rollRequested || r.autoRoll }).runEnter .ready

/-- A CUEING run whose transports are all CUED enters READY (08 R159). -/
def checkReady (s : State) : State := if s.run.state = .cueing && s.allCued then s.enterReady else s

end State

end Sys2Proof.Machine
end

