-- ==== Sys2Proof/Machine/Chase.lean ====
section
/-! DEFINITION. The Chase Unit (06): parameter adoption, starts, faults, the computation at a frame boundary, and the
completions of its speeds. -/

namespace Sys2Proof.Machine

namespace Chase

/-- Adopt a pending parameter set (06 R108). -/
def adopt (c : Chase) : Chase :=
  match c.pending with
  | some p => { c with params := p, pending := none }
  | none => c

/-- The fields every start sets (06 R112, step 3). -/
def cleared (c : Chase) : Chase :=
  { c with
    acc := 0, lastClamp := .none, inRun := 0, outRun := 0, nakRun := 0, holdCount := 0, slips := 0, cause := none
    lastError := none }

/-- The last speed from which a context starts (06 R112, step 4). -/
def startSpeed (t : Context) : Int :=
  match t.mode with
  | .stopped => 0
  | .playing => 1024
  | _ => t.lastSpeed

/-- Entering SEEK, or APPROACH from SEEK, clears both runs (06 R120). -/
def clearRuns (c : Chase) : Chase := { c with inRun := 0, outRun := 0 }

/-- A departure from LOCKED (06 opening table). -/
def slipped (c : Chase) : Chase := { c with slips := satSucc 65535 c.slips }

/-- The window decision (06 R120) on |Ef|. -/
def window (c : Chase) (ef : Nat) : Chase :=
  let w := c.params.approachWindow
  match c.state with
  | .seek => if ef ≤ w then State.chaseChanged c.clearRuns .approach else c
  | .approach => if w + w / 4 < ef then State.chaseChanged c.clearRuns .seek else c
  | .locked => if w < ef then State.chaseChanged c.clearRuns.slipped .seek else c
  | _ => c

/-- The shuttle speed (06 R121). -/
def shuttle (c : Chase) (masterSpeed ef : Int) : Int :=
  clampInt (-32767) 32767
    (masterSpeed + clampInt (-(c.params.shuttleMax : Int)) c.params.shuttleMax (ef * c.params.shuttleGain))

/-- The integrator is held (06 R122). -/
def heldIntegrator (c : Chase) (coasting : Bool) (e : Int) : Bool :=
  coasting || (c.lastClamp = .plus && decide (0 < e)) || (c.lastClamp = .minus && decide (e < 0))

/-- The integrator updated (06 R122). -/
def integrate (c : Chase) (coasting : Bool) (e : Int) : Chase :=
  if c.heldIntegrator coasting e then c else { c with acc := clampInt (-65535) 65535 (c.acc + e) }

/-- The correction before its clamp (06 R123): the quotient is rounded toward −∞. -/
def correction (c : Chase) (e : Int) : Int := ((c.params.kp : Int) * e + (c.params.ki : Int) * c.acc).fdiv 256

/-- The end at which a correction is limited (06 R123). -/
def clampEnd (c : Chase) (corr : Int) : ClampEnd :=
  if (c.params.corrLimit : Int) < corr then .plus else if corr < -(c.params.corrLimit : Int) then .minus else .none

/-- The loop speed, in its three limits (06 R123). -/
def loopSpeed (c : Chase) (masterSpeed e : Int) : Int :=
  let corr := clampInt (-(c.params.corrLimit : Int)) c.params.corrLimit (c.correction e)
  clampInt (-32767) 32767 (clampInt (c.vPrev - c.params.slew) (c.vPrev + c.params.slew) (masterSpeed + corr))

/-- The test for lock or slip (06 R124) on |e|. -/
def lockTest (c : Chase) (e : Nat) : Chase :=
  match c.state with
  | .approach =>
    let n := if e ≤ c.params.lockWindow then c.inRun + 1 else 0
    if c.params.lockCount ≤ n then State.chaseChanged c.clearRuns .locked else { c with inRun := n }
  | .locked =>
    let n := if 4 * c.params.lockWindow < e then c.outRun + 1 else 0
    if 3 ≤ n then State.chaseChanged c.clearRuns.slipped .approach else { c with outRun := n }
  | _ => c

/-- The stages of 06 R119 to R124 with both positions present: the context and the speed it offers. -/
def compute (std : Standard) (c : Chase) (P M : Nat) (masterSpeed : Int) (coasting : Bool) : Chase × Int :=
  let day := 64 * std.day
  let T := reduce day ((M : Int) + 64 * c.offset)
  let e := wrap day ((T : Int) - P)
  let ef := e.tdiv 64
  let c := ({ c with lastError := some (e, ef) } : Chase).window ef.natAbs
  if c.state = .seek then ({ c with lastClamp := .none }, c.shuttle masterSpeed ef)
  else
    let c := c.integrate coasting e
    let v := c.loopSpeed masterSpeed e
    (({ c with lastClamp := c.clampEnd (c.correction e) } : Chase).lockTest e.natAbs, v)

/-- Entry to HOLD (06 R127). -/
def hold (c : Chase) : Chase :=
  let c' := State.chaseChanged { c.clearRuns with holdCount := 1, lastClamp := .none } .hold
  if c.state = .locked then c'.slipped else c'

/-- The context computes: neither IDLE nor FAULT (06 section 6.4). -/
def computes (c : Chase) : Bool := c.state != .idle && c.state != .fault

end Chase

namespace State

/-! ## Starts -/

/-- Steps 3 to 5 of a start (06 R112, R115). -/
def beginChase (s : State) (n : Transport) (c : Chase) : State :=
  (s.setChase n (chaseChanged { c.cleared with vPrev := Chase.startSpeed (s.ctx n) } .seek)).raise .chase

/-- A RUN-origin start (06 R115). -/
def startRunChase (s : State) (n : Transport) (inPoint : Nat) : State :=
  s.beginChase n { s.chase n with origin := .run, master := .editClock, offset := inPoint }

/-! ## Faults -/

/-- A context enters FAULT (06 R128), the run not yet told. -/
def faultChase (s : State) (n : Transport) (cause : ChaseCause) : State :=
  let c := s.chase n
  let c := if c.state = .locked then c.slipped else c
  ((s.setChase n (chaseChanged { c with cause := some cause } .fault)).withdrawSpeed n).raise .chase

/-- The run is told of a RUN-origin context's entry into FAULT (06 R128, 08 R170). -/
def tellChaseFault (s : State) (n : Transport) : State :=
  if s.run.state.active || s.run.state = .aborting then s.transportFault .chaseFault n else s

/-- A context enters FAULT, and a RUN-origin one tells the run at once (06 R128). -/
def failChase (s : State) (n : Transport) (cause : ChaseCause) : State :=
  if (s.chase n).computes then
    let origin := (s.chase n).origin
    let s := s.faultChase n cause
    if origin = .run then s.tellChaseFault n else s
  else s

/-! ## The boundary -/

/-- Parameter adoption of every context (06 R108). -/
def adoptParams (s : State) : State := { s with chases := s.chases.map Chase.adopt }

/-- The master position and speed (06 R118). -/
def masterOf (s : State) : Master → Option Nat × Int
  | .transport m => ((s.reader m).position, (s.reader m).pubSpeed)
  | .suiteClock => (some (64 * s.rtu.clock), 1024)
  | .editClock => (some (64 * reduce s.standard.day s.run.clock), if s.run.state.rolling then 1024 else 0)

/-- The marks of a computation (log 11): only 06 R124 takes a context into LOCKED, or from LOCKED to APPROACH. -/
def chaseMarks (n : Transport) (before after : ChaseState) (s : State) : State :=
  if before ≠ .locked ∧ after = .locked then s.mark (.chaseLock n)
  else if before = .locked ∧ after = .approach then s.mark (.chaseSlip n)
  else s

/-- The end of a computation: the speed is offered, and a refusal is a fault of cause LINK (06 R125). -/
def offerChaseSpeed (s : State) (n : Transport) (v : Int) : State :=
  let (taken, s) := s.offerSpeed n ⟨v, .chase, none⟩
  if taken then s.onChase n ({ · with vPrev := v }) else s.failChase n .link

/-- CHASE is raised when a context's change count has moved (06 R126). -/
def putChase (s : State) (n : Transport) (c : Chase) : State :=
  if (s.chase n).changeCount = c.changeCount then s.setChase n c else (s.setChase n c).raise .chase

/-- A context with both positions present (06 R119 to R125, and R127 on leaving HOLD). -/
def chaseLoop (s : State) (n : Transport) (P M : Nat) (masterSpeed : Int) : State :=
  let c := s.chase n
  let c := if c.state = .hold then chaseChanged { c with holdCount := 0 } .approach else c
  let (c', v) := c.compute s.standard P M masterSpeed ((s.reader n).state = .coasting)
  (chaseMarks n c.state c'.state (s.putChase n c')).offerChaseSpeed n v

/-- A context with a position missing (06 R127). -/
def chaseHold (s : State) (n : Transport) : State :=
  let c := s.chase n
  if c.state = .hold then
    if c.holdCount < c.params.holdLimit then s.setChase n { c with holdCount := c.holdCount + 1 }
    else (s.mark (.holdExpired n)).failChase n .holdExpired
  else s.putChase n c.hold

/-- One context's computation at a frame boundary (06 R117, R118). -/
def chaseBoundary (n : Transport) (s : State) : State :=
  if (s.chase n).computes then
    match (s.reader n).position, s.masterOf (s.chase n).master with
    | some P, (some M, v) => s.chaseLoop n P M v
    | _, _ => s.chaseHold n
  else s

/-! ## Completions (06 R129) -/

/-- A completion of a chase entry with a reply: the third NAK in a row is FAULT, and leaves the run at 2 (log 47). -/
def chaseReply (s : State) (n : Transport) (kind : LinkKind) (reply : ReplyKind) : State :=
  if kind = .speed && (s.chase n).computes then
    if reply = .nak then
      if 2 ≤ (s.chase n).nakRun then s.failChase n .nak
      else s.onChase n fun c => { c with nakRun := c.nakRun + 1 }
    else s.onChase n ({ · with nakRun := 0 })
  else s

end State

end Sys2Proof.Machine
end

