-- ==== Sys2Proof/Machine/Run.lean ====
section
/-! DEFINITION. The Run Sequencer at work (08): arming, cueing, the roll, timed actions, completion and chaining, what
reaches it from the links, and its steps at a frame boundary. -/

namespace Sys2Proof.Machine

namespace State

/-! ## Arming the current event (08 R157) -/

/-- The look-ahead status that a newly current event starts with (08 R157, step 2). -/
def startStatus (a : Armed) : Lookahead := if a.noLookahead || a.link.isNone then .none else .notYet

/-- Steps 1 to 3 of 08 R157, the state apart. -/
def adoptEvent (s : State) (a : Armed) : State :=
  s.onRun fun r => { r with successor := a.link, lookahead := startStatus a, cueCount := 0 }

/-- Steps 1 to 5 of 08 R157 for an armed event. -/
def takeCurrent (s : State) (a : Armed) : State :=
  let s := ((s.adoptEvent a).onRun ({ · with syncPassed := false })).runEnter .cueing
  let s := forTransports a.transports (fun n s => s.runTake n) s
  forTransports a.transports (fun n s => if (s.run.cues.get n).progress = .cued then s else s.beginCue n 1) s

/-- Arm an event as current (08 R157): the refusal, or its armed copy and the state with its cues begun. -/
def armCurrent (s : State) (e : Fin 64) : Except FaultKind (Armed × State) :=
  match s.arm e .current s.run.mode s.run.margin with
  | .ok (a, s) => .ok (a, (s.takeCurrent a).checkReady)
  | .error k => .error k

/-- A refused arming is a fault of its kind with the requested event number (08 R157). -/
def armFault (s : State) (k : FaultKind) (e : Fin 64) : State := s.runFault ⟨k, e, none, none, false⟩

/-! ## The look-ahead (08 R168, R171) -/

/-- The look-ahead is armed at edit-in (08 R168). -/
def armLookahead (s : State) : State :=
  match s.run.lookahead, s.run.successor with
  | .notYet, some e =>
    match s.arm e .lookahead s.run.mode s.run.margin with
    | .error k => s.holdFault k e none
    | .ok (a, s) =>
      let s := s.onRun ({ · with lookahead := .armed, laCueCount := 0 })
      forTransports (a.transports.filter s.et.lookaheadOnly) (fun n s => (s.runTake n).beginCue n 1) s
  | _, _ => s

/-- A waiting look-ahead is cancelled (08 R171). -/
def cancelLookahead (s : State) : State :=
  let s := s.onRun ({ · with lookahead := .none, pendingFault := none, pendingExtra := 0 })
  (forTransports (Transport.all.filter s.et.lookaheadOnly) haltAndRelease s).releasePlace .lookahead

/-! ## The cue test (08 R159) -/

/-- The deck stands within tolerance of the cue target (08 R159, test 2). -/
def cueMet (s : State) (n : Transport) : Bool :=
  match (s.ctx n).sensedPos, s.cueTarget? n with
  | some p, some t => decide ((wrap s.standard.day ((p : Int) - t)).natAbs ≤ (s.ctx n).tolerance)
  | _, _ => false

/-- The transport is the recorder of its event and shows record inhibit (08 R159, test 1). -/
def isProtected (s : State) (n : Transport) : Bool :=
  match s.cueEvent? n, (s.ctx n).sensedFlags with
  | some a, some f => a.recorder = n && f.getLsbD 1
  | _, _ => false

/-- The test of a SENSE_REPLY for a transport in WAITING (08 R159). -/
def cueTest (s : State) (n : Transport) : State :=
  let q := s.run.cues.get n
  if s.run.mode = .record && s.isProtected n then s.transportFault .deckProtected n
  else if (s.ctx n).mode = .stopped then
    if s.cueMet n then (s.setCue n { q with progress := .cued }).checkReady
    else if q.locates = 1 then s.beginCue n 2
    else s.transportFault .cueMissed n
  else s

/-! ## Completions of the run's entries (08 R158, R164, R170, R174) -/

/-- An acknowledged INSERT_OFF removes its mask from the inserts on set (08 R164, R174). -/
def insertsOffAcked (s : State) (arg : Arg) : State :=
  match arg with
  | .mask m => s.onRun fun r => { r with insertsOn := r.insertsOn &&& ~~~m }
  | _ => s

/-- The first awaited insert of a kind and mask is removed (08 R164, log 25). -/
def insertAcked (s : State) (off : Bool) (arg : Arg) : State :=
  match arg with
  | .mask m => s.onRun fun r => { r with awaited := r.awaited.erase ⟨off, m⟩ }
  | _ => s

/-- A LOCATE answered otherwise than by NAK moves LOCATING to WAITING (08 R158). -/
def locateAccepted (s : State) (n : Transport) : State :=
  let q := s.run.cues.get n
  if q.progress = .locating then s.setCue n { q with progress := .waiting, polls := 0, senseOut := false } else s

/-- An acknowledged entry other than an abort command, by kind. -/
def runAcked (s : State) (n : Transport) (e : Entry) : State :=
  match e.kind with
  | .insertOn => s.insertAcked false e.arg
  | .insertOff => (s.insertAcked true e.arg).insertsOffAcked e.arg
  | .locate => s.locateAccepted n
  | _ => s

/-- A reply to a run entry while the run works events (08 R170). -/
def runReplyActive (s : State) (n : Transport) (e : Entry) (reply : ReplyKind) (p : List Byte) : State :=
  let s := if e.kind = .sense then s.senseEnds n else s
  match reply with
  | .nak => s.transportFault (.deckRefused (p.getD 0 0)) n
  | .ack => s.runAcked n e
  | .senseReply =>
    match e.kind with
    | .locate => s.locateAccepted n
    | .sense => if (s.run.cues.get n).progress = .waiting then s.cueTest n else s
    | _ => s

/-- One abort command less is outstanding; at 0 the path ends (08 R174). -/
def abortCompleted (s : State) : State :=
  let s := s.onRun fun r => { r with outstanding := r.outstanding - 1 }
  if s.run.outstanding = 0 then s.abortEnd else s

/-- A reply to an abort command (08 R174). -/
def abortReply (s : State) (e : Entry) (reply : ReplyKind) : State :=
  match reply, e.kind with
  | .nak, _ => s.onRun fun r => { r with faultExtra := satSucc 255 r.faultExtra }
  | .ack, .insertOff => s.insertsOffAcked e.arg
  | _, _ => s

/-- A run entry completes with a reply (08 R170, R174). -/
def runReply (s : State) (n : Transport) (e : Entry) (reply : ReplyKind) (p : List Byte) : State :=
  if s.run.state = .aborting then (if e.abort then (s.abortReply e reply).abortCompleted else s)
  else if s.run.state.active && s.et.names n then s.runReplyActive n e reply p
  else s

/-- A run entry completes without a reply (08 R158, R170, R174). -/
def runUnanswered (s : State) (n : Transport) (e : Entry) : State :=
  if s.run.state = .aborting then (if e.abort then s.abortCompleted else s)
  else if e.kind = .sense then s.senseEnds n
  else s

/-- A departure from UP of a transport's link reaches the run (08 R170). -/
def runDeparture (s : State) (n : Transport) : State :=
  if (s.run.state.active || s.run.state = .aborting) && s.et.names n then s.transportFault .linkFailed n else s

/-- A notice from a transport owned by RUN (08 R165). -/
def runNotice (s : State) (n : Transport) : State :=
  if s.run.state = .edit && s.et.currentNames n then
    match s.run.mode with
    | .record => s.currentFault .deckNotice (some n)
    | .preview => s.onRun fun r => { r with notices := satSucc 65535 r.notices }
  else s

/-- A change of reference state reaches the run (08 R166). -/
def runReference (s : State) (old new : RefState) : State :=
  if s.run.mode = .record && s.run.requireReference && (s.run.state = .preroll || s.run.state = .edit) && old = .locked &&
      new != .locked then
    s.currentFault .refLost none
  else s

/-! ## The roll (08 R160) -/

/-- Steps 1 to 5 of the roll. -/
def rollEvent (s : State) (a : Armed) : State :=
  let s := s.onRun ({ · with rollRequested := false })
  let s := forTransports a.transports (fun n s => s.setCue n .zero) s
  let s := (s.onRun ({ · with clock := -(a.preroll : Int), syncPassed := false, insertsOn := 0, awaited := [] })).runEnter .preroll
  forTransports a.transports (fun n s => match a.inPoint? n with | some p => s.startRunChase n p | none => s)
    (s.hand (.take a.sourceA))

/-- The roll. -/
def roll (s : State) : State :=
  match s.et.current with
  | some a =>
    let s := s.rollEvent a
    if s.run.mode = .record && s.run.requireReference && s.rtu.state != .locked then s.currentFault .refLost none else s
  | none => s

/-! ## Timed actions (08 R161, R164) -/

/-- A timed insert command: urgent, awaited whether placed or refused (08 R164). -/
def timedInsert (s : State) (n : Transport) (off : Bool) (m : Tracks) : State :=
  let s := (s.offerEntry n (runEntry (if off then .insertOff else .insertOn) (.mask m) true false)).2
  s.onRun fun r =>
    { r with awaited := r.awaited ++ [⟨off, m⟩], insertsOn := if off then r.insertsOn else r.insertsOn ||| m }

/-- The split counts as one when it is present and not 0 (07 R136, 08 R164). -/
def splitOf (a : Armed) : Option Int := a.split.filter (· ≠ 0)

/-- The mask of the first group (08 R164). -/
def firstGroup (a : Armed) : Tracks := if (splitOf a).isSome then a.mask &&& 0b1001 else a.mask

/-- An action made only while the run is still rolling: a fault ends the boundary's work (08 R155). -/
def whileRolling (s : State) (b : Bool) (f : State → State) : State := if b && s.run.state.rolling then f s else s

/-- The first five rows of the table of 08 R161: cues, INSERT_ON of both groups, edit-in, the transition. -/
def earlyActions (s : State) (a : Armed) (c : Int) : State :=
  let lead : Int := a.latency + 1
  let on := s.run.mode = .record && s.run.syncPassed
  let s := (a.cues.filter (·.offset = c)).foldl (fun s q => s.hand (.pulse q.line q.width)) s
  let s := s.whileRolling (on && c = -lead) (·.timedInsert a.recorder false (firstGroup a))
  let s := s.whileRolling (on && (splitOf a).any fun x => c = x - lead) (·.timedInsert a.recorder false (a.mask &&& 0b0110))
  let s := s.whileRolling (c = 0) fun s => (s.runEnter .edit).armLookahead
  s.whileRolling (a.kind ≠ .none && c = a.t0) fun s =>
    match a.sourceB with
    | some b => s.hand (.start a.kind a.curve a.length a.pattern b)
    | none => s

/-! ## Completion (08 R167) -/

/-- The run ends after its last event (08 R174, last paragraph). -/
def finishRun (s : State) : State := s.endRun .idle (if s.run.stopRequested then .stopped else .completed)

/-- A held look-ahead fault becomes the run's fault (08 R167, step 3). -/
def promotePending (s : State) (f : FaultRecord) : State :=
  (s.onRun fun r => { r with pendingFault := none, pendingExtra := 0, faultExtra := r.pendingExtra }).runFault f

/-- Step 7 of 08 R167: the new current event's cues begin, and the run is CUEING or READY. -/
def continueRun (s : State) (b : Armed) : State :=
  let s := s.adoptEvent b
  if s.allCued then s.enterReady
  else
    forTransports b.transports (fun n s => if (s.run.cues.get n).progress = .none then s.beginCue n 1 else s) (s.runEnter .cueing)

/-- Transports of the completed event that the event now current, if any, does not name (08 R167, steps 3 and 6). -/
def leftOver (ts : List Transport) (b : Option Armed) : List Transport :=
  ts.filter fun n => !(b.any (·.names n))

/-- Steps 6 and 7 of 08 R167 for the new current event `b`; a fault of step 5 leaves step 6 to be done (log 26). -/
def chainEvent (s : State) (ts : List Transport) (b : Armed) : State :=
  let s := forTransports (leftOver ts (some b)) haltAndRelease s
  if s.run.state.active then s.continueRun b else s

/-- Steps 5 to 7 of 08 R167: the successor armed now, or armed ahead and now current. -/
def nextEvent (s : State) (ts : List Transport) (e : Fin 64) : State :=
  if s.run.lookahead = .none then
    match s.armCurrent e with
    | .error k => (forTransports ts haltAndRelease s).armFault k e
    | .ok (b, s) => s.chainEvent ts b
  else
    match s.et.current with
    | some b => s.chainEvent ts b
    | none => s

/-- The completion of the current event (08 R167). -/
def completeRunEvent (s : State) (a : Armed) : State :=
  let ts := a.transports
  let s := (forTransports ts (fun n s => s.stopRunChase n) s).completeEvent
  match s.run.pendingFault with
  | some f => (forTransports (leftOver ts s.et.current) haltAndRelease s).promotePending f
  | none =>
    match s.run.successor with
    | some e => if s.run.stopRequested then (forTransports ts haltAndRelease s).finishRun else s.nextEvent ts e
    | none => (forTransports ts haltAndRelease s).finishRun

/-- The last three rows of the table of 08 R161: INSERT_OFF, edit-out, completion. -/
def lateActions (s : State) (a : Armed) (c : Int) : State :=
  let s := s.whileRolling (s.run.mode = .record && c = (a.duration : Int) - (a.latency + 1)) fun s =>
    s.timedInsert a.recorder true s.run.insertsOn
  if c = a.duration ∧ a.postroll = 0 then s.whileRolling true (·.completeRunEvent a)
  else
    let s := s.whileRolling (c = a.duration) (·.runEnter .postroll)
    s.whileRolling (c = (a.duration : Int) + a.postroll) (·.completeRunEvent a)

/-- Step 3 of 08 R155: the actions due at the clock value now held. -/
def timedActions (s : State) : State :=
  match s.et.current with
  | some a => if s.run.state.rolling then (s.earlyActions a s.run.clock).lateActions a s.run.clock else s
  | none => s

/-! ## The steps of a boundary (08 R155) -/

/-- Step 1: an insert still awaited (08 R164). -/
def lateInserts (s : State) : State :=
  match s.run.awaited, s.et.current with
  | _ :: _, some a => if s.run.state.active then s.currentFault .lateInsert (some a.recorder) else s
  | _, _ => s

/-- The lowest-numbered transport of a list whose cue is not CUED. -/
def firstUncued (s : State) (ts : List Transport) : Option Transport := ts.find? fun n => (s.run.cues.get n).progress ≠ .cued

/-- The cue count of a CUEING run (08 R155, R159). -/
def countCueing (s : State) : State :=
  let s := s.onRun fun r => { r with cueCount := r.cueCount + 1 }
  if s.run.cueLimit < s.run.cueCount then
    (s.mark .cueTimeout).currentFault .cueTimeout (s.firstUncued s.currentTransports)
  else s

/-- The look-ahead cue count (08 R169), up to the top of its range; the time-out is found where it passes the limit
(log 21). -/
def countLookahead (s : State) : State :=
  match s.firstUncued (Transport.all.filter s.et.lookaheadOnly) with
  | some n =>
    if s.run.state.active then
      let passes := s.run.laCueCount = s.run.cueLimit
      let s := s.onRun fun r => { r with laCueCount := satSucc 10000 r.laCueCount }
      if passes then
        (s.mark .lookaheadCueTimeout).holdFault .cueTimeout s.lookaheadEvent (some n)
      else s
    else s
  | none => s

/-- A SENSE poll falls due (08 R158). -/
def pollDue (s : State) (n : Transport) : State :=
  let s := s.setCue n { s.run.cues.get n with polls := 0 }
  if (s.run.cues.get n).senseOut || !s.mayCue n then s
  else
    let (a, s) := s.offerEntry n (runEntry .sense .none false false)
    let s := s.mark (.sensePoll n)
    if a = .placed then s.setCue n { s.run.cues.get n with senseOut := true } else s

/-- Polls and LOCATE retries of one transport (08 R158). -/
def cueWork (n : Transport) (s : State) : State :=
  let q := s.run.cues.get n
  if !s.run.state.active then s
  else
    match q.progress with
    | .locating => if q.unplaced && s.mayCue n then s.offerLocate n else s
    | .waiting => if 7 ≤ q.polls then s.pollDue n else s.setCue n { q with polls := q.polls + 1 }
    | .none | .cued => s

/-- The part of step 2 that the run's state decides (08 R155): the clock, the roll, the cue count. -/
def advanceRun (s : State) : State :=
  match s.run.state with
  | .preroll | .edit | .postroll => s.onRun fun r => { r with clock := r.clock + 1 }
  | .ready => if s.run.rollRequested then s.roll else s
  | .cueing => s.countCueing
  | .idle | .aborting | .faulted => s

/-- Step 2 of 08 R155. -/
def clockAndState (s : State) : State :=
  let s := s.advanceRun.countLookahead
  forTransports s.armedTransports cueWork s

/-- The contexts of the event that hand something other than LOCKED. -/
def unlocked (s : State) (ts : List Transport) : List Transport := ts.filter fun n => (s.chase n).state ≠ .locked

/-- The sync check (08 R162). -/
def syncCheck (s : State) (ts : List Transport) : State :=
  match s.unlocked ts with
  | [] => s.onRun ({ · with syncPassed := true })
  | n :: _ => s.currentFault .notLocked (some n)

/-- The lock watch (08 R163); `before` holds the states handed for the previous boundary (log 38). -/
def lockWatch (s : State) (ts : List Transport) (before : Six Chase) : State :=
  match s.run.mode, s.unlocked ts with
  | .record, n :: _ => s.currentFault .lockLost (some n)
  | .preview, us =>
    (us.filter fun n => (before.get n).state = .locked).foldl
      (fun s _ => s.onRun fun r => { r with lockLosses := satSucc 65535 r.lockLosses }) s
  | .record, [] => s

/-- Step 4 of 08 R155. -/
def chaseStates (s : State) (before : Six Chase) : State :=
  match s.et.current with
  | some a =>
    if s.run.state.rolling then
      let c := s.run.clock
      let S : Int := a.margin
      if c = -S then s.syncCheck a.transports
      else if -S < c ∧ c < a.duration then s.lockWatch a.transports before
      else s
    else s
  | none => s

end State

end Sys2Proof.Machine
end

