-- ==== Sys2Proof/Machine/Routing.lean ====
section
/-! DEFINITION. The end of a frame in flight (04 R66, R73 to R77, R81), the routing of completions (05 R99), changes of
link state (04 R64, 05 R89), the link reset (04 R79), the receiver (04 R71, R72) and notices (05 R88). -/

namespace Sys2Proof.Machine

namespace State

/-! ## Completions (05 R99) -/

/-- A reply FIFO entry of a processor completion (05 R101). -/
def completionEntry (s : State) (e : Entry) (seq : Option Nat) (o : EntryOutcome) (reply : Option ReplyKind)
    (p : List Byte) : FifoEntry :=
  { tag := e.tag, outcome := o, command := some e.kind, reply, notice := false, seq, payload := p, arrival := s.stamp }

/-- A completion with outcome REPLY: tracked, then routed by its source (05 R86, R99). -/
def routeReply (s : State) (n : Transport) (e : Entry) (seq : Option Nat) (reply : ReplyKind) (p : List Byte) : State :=
  let s := s.track n e.kind e.arg reply p
  match e.source with
  | .processor => s.fifoOffer n (s.completionEntry e seq .reply (some reply) p)
  | .run => s.runReply n e reply p
  | .chase => s.chaseReply n e.kind reply
  | .link => s

/-- A completion with outcome TIMEOUT or LINK_FAILED, routed by its source (05 R99). -/
def routeUnanswered (s : State) (n : Transport) (e : Entry) (seq : Option Nat) (o : EntryOutcome) : State :=
  match e.source with
  | .processor => s.fifoOffer n (s.completionEntry e seq o none [])
  | .run => s.runUnanswered n e
  | .chase | .link => s

/-! ## Changes of link state (04 R64, 05 R89) -/

/-- A change handed to the transport context alone. -/
def linkChanged (s : State) (n : Transport) : State := (s.onCtx n ({ · with linkChange := true })).syncDeck n

/-- A departure from UP as the transport context takes it (05 R89). -/
def contextDeparture (s : State) (n : Transport) : State :=
  (s.onCtx n ({ · with linkChange := true, mode := .unknown })).syncDeck n

/-- The chase fault and the departure of an armed transport both reach the run, in the order the free value gives (log 5);
the first is the fault and the second adds to the count, also where the first has ended the run at once (08 R170, R172,
log 48). -/
def departBoth (s : State) (n : Transport) : State :=
  let first := Config.departureFirst s.free
  let s := ({ s with free := s.free + 1 } : State).faultChase n .link
  if first then (s.transportFault .linkFailed n).transportFault .chaseFault n
  else (s.transportFault .chaseFault n).transportFault .linkFailed n

/-- A departure from UP is handed on (04 R64): to the transport context, the Chase Unit and the Run Sequencer. -/
def linkDeparted (s : State) (n : Transport) : State :=
  let s := s.contextDeparture n
  if (s.chase n).computes && (s.chase n).origin = .run && s.run.state.active && s.et.names n then s.departBoth n
  else (s.failChase n .link).runDeparture n

/-- A link leaves UP for FAILED (04 R77); no frame is in flight at this point. -/
def failLink (s : State) (n : Transport) : State :=
  let l := s.link n
  let s := s.setLink n
    { l with
      state := .failed, queue := [], slot := none, silence := 0, probeInterval := 0, lastSpeed := false }
  let s := l.queue.foldl (fun s e => s.routeUnanswered n e none .linkFailed) s
  let s := match l.slot with | some v => s.routeUnanswered n v.entry none .linkFailed | none => s
  s.linkDeparted n

/-! ## A frame that ends without a reply (04 R66, R74 to R76, R81) -/

/-- An orphan ends (04 R81): CANCELLED to its source, and the arbiter chooses. -/
def endOrphan (s : State) (n : Transport) (f : InFlight) : State :=
  (s.onLink n fun l => l.idle.choose).cancelled n f.entry.source f.entry.kind

/-- A probe missed (04 R66). -/
def missProbe (s : State) (n : Transport) (f : InFlight) : State :=
  let s := s.onLink n fun l => { l with probeMiss := satSucc 65535 l.probeMiss }
  if f.sends < 2 then s.onLink n (·.resend f)
  else
    let was := (s.link n).state
    let s := s.onLink n fun l =>
      { l.idle with probeInterval := 0, state := if l.state = .unprobed then .failed else l.state }
    if was = .unprobed then s.linkChanged n else s

/-- A speed frame unanswered (04 R76). -/
def missSpeed (s : State) (n : Transport) (f : InFlight) : State :=
  let s := s.onLink n fun l => { l.idle with silence := min 4 (l.silence + 1) }
  if 4 ≤ (s.link n).silence then (s.routeUnanswered n f.entry f.seq .timeout).failLink n
  else (s.onLink n Link.choose).routeUnanswered n f.entry f.seq .timeout

/-- A command frame unanswered (04 R75). -/
def missCommand (s : State) (n : Transport) (f : InFlight) : State :=
  if f.sends < 2 then s.onLink n (·.resend f)
  else ((s.onLink n Link.idle).routeUnanswered n f.entry f.seq .timeout).failLink n

/-- The frame in flight treated as unanswered; `timer` tells an expiry of the reply timer, which records a TIMEOUT
error for a command or a speed (04 R74 to R76, R81). -/
def unanswered (s : State) (n : Transport) (timer : Bool) : State :=
  match (s.link n).inFlight with
  | none => s
  | some f =>
    if f.orphan then s.endOrphan n f
    else if f.entry.source = .link then s.missProbe n f
    else
      let s := if timer then s.linkError n .timeout else s
      if f.entry.kind = .speed then s.missSpeed n f else s.missCommand n f

/-! ## Replies (04 R66, R73) -/

/-- A reply matches a probe (04 R66): the link comes UP; a SENSE_REPLY is tracked. -/
def probeAnswered (s : State) (n : Transport) (reply : ReplyKind) (p : List Byte) : State :=
  let s := s.onLink n fun l => ({ l.idle with state := .up, probeInterval := 0, silence := 0 } : Link).choose
  let s := s.linkChanged n
  if reply = .senseReply then s.senseTaken n p else s

/-- A reply matches the frame in flight (04 R73, R81). -/
def matched (s : State) (n : Transport) (f : InFlight) (reply : ReplyKind) (p : List Byte) : State :=
  if f.orphan then (s.onLink n ({ · with silence := 0 })).endOrphan n f
  else if f.entry.source = .link then s.probeAnswered n reply p
  else (s.onLink n fun l => ({ l.idle with silence := 0 } : Link).choose).routeReply n f.entry f.seq reply p

/-- A reply that passed the receive tests (04 R73). -/
def replyFrame (s : State) (n : Transport) (reply : ReplyKind) (seq : Nat) (p : List Byte) : State :=
  match (s.link n).inFlight with
  | some f =>
    if f.seq = some seq then s.matched n f reply p
    else s.onLink n fun l => { l with stale := satSucc 65535 l.stale }
  | none => s.onLink n fun l => { l with stale := satSucc 65535 l.stale }

/-- A notice (05 R88). -/
def noticeFrame (s : State) (n : Transport) (code : Byte) : State :=
  let s := s.onCtx n (·.noticed code)
  let s := s.fifoOffer n
    { tag := none, outcome := .reply, command := none, reply := none, notice := true, seq := some 15, payload := [code]
      arrival := s.stamp }
  if (s.ctx n).owner = .run then s.runNotice n else s

/-! ## The receiver (04 R71, R72) -/

/-- A receive error (04 R72, R74): the receiver returns to HUNT, the error is recorded, and a frame in flight has its
reply garbled. -/
def receiveError (s : State) (n : Transport) (k : ErrKind) : State :=
  ((s.onLink n ({ · with receiver := .hunt, gapLeft := none })).linkError n k).unanswered n false

/-- A completed frame, kind byte first: the check, then the form test of 04 R62. -/
def frameReceived (s : State) (n : Transport) (bs : List Byte) : State :=
  let kind := (bs.getD 0 0).toNat
  let seq := (bs.getD 1 0).toNat / 16
  let len := (bs.getD 1 0).toNat % 16
  let p := (bs.drop 2).take len
  let hunting := s.onLink n ({ · with receiver := .hunt, gapLeft := none })
  if bs.sum ≠ 0 then s.receiveError n .check
  else if kind = noticeCode ∧ len = 1 ∧ seq = 15 then hunting.noticeFrame n (p.getD 0 0)
  else
    match ReplyKind.ofCode? kind with
    | some r => if len = r.length ∧ seq ≤ 14 then hunting.replyFrame n r seq p else s.receiveError n .format
    | none => s.receiveError n .format

/-- A byte inside a frame (04 R71): `bs` are the bytes so far with the new one. -/
def frameByte (s : State) (n : Transport) (bs : List Byte) : State :=
  let len := (bs.getD 1 0).toNat % 16
  if bs.length = 2 ∧ 12 < len then s.receiveError n .format
  else if bs.length = len + 3 then s.frameReceived n bs
  else s.onLink n ({ · with receiver := .frame bs, gapLeft := some Config.gapUnits })

/-- One character on the receive line (04 R71, R72). -/
def receiveChar (n : Transport) (s : State) (c : RxChar) : State :=
  match (s.link n).receiver with
  | .hunt =>
    if c.byte = startByte && c.parityOk && c.stopOk then
      s.onLink n ({ · with receiver := .frame [], gapLeft := some Config.gapUnits })
    else s
  | .frame bs =>
    if !c.parityOk then s.receiveError n .parity
    else if !c.stopOk then s.receiveError n .framing
    else s.frameByte n (bs ++ [c.byte])

/-- Characters in their order; an UNCONFIGURED part discards them (04 R59). -/
def receive (s : State) (n : Transport) (cs : List RxChar) : State :=
  if s.configured then cs.foldl (receiveChar n) s else s

/-- The characters of a notice frame (04 R60, R62, log 27). -/
def noticeChars (code : Byte) : List RxChar := (frameOf noticeCode 15 [code]).map (⟨·, true, true⟩)

/-! ## The link reset (04 R79) -/

/-- The link as a reset leaves it; the next sequence, the receiver and the three long counts are kept. -/
def resetLink (l : Link) : Link :=
  { l with
    state := .unprobed, inFlight := none, replyTimer := none, tx := none, queue := [], slot := none, silence := 0
    probeInterval := 0, lastSpeed := false, breakLeft := some Config.breakUnits }

/-- A link reset (04 R79), its completions and changes in the rule's order. -/
def linkReset (s : State) (n : Transport) : State :=
  let l := s.link n
  let s := s.onLink n resetLink
  let s := match l.inFlight with | some f => s.cancelled n f.entry.source f.entry.kind | none => s
  let s := s.cancelAll n l.queue
  let s := match l.slot with | some v => s.cancelled n v.source .speed | none => s
  let s := (s.emptyFifo n).clearLinkErrors n
  match l.state with
  | .up => s.linkDeparted n
  | .failed => s.linkChanged n
  | .unprobed => s

/-! ## Timers of a link -/

/-- The last byte of the frame on the line has gone (04 R70): the reply timer of the frame in flight is loaded, and a
frame that waited begins (log 16). -/
def transmitDone (s : State) (n : Transport) : State :=
  match (s.link n).tx with
  | none => s
  | some _ =>
    s.onLink n fun l =>
      let l := { l with tx := none }
      match l.inFlight with
      | some f =>
        if f.phase = .sending then
          { l with
            inFlight := some { f with phase := .sent }
            replyTimer := some ((s.ctx n).replyTimeout * Config.msUnits) }
        else l.begin
      | none => l

/-- The reply timer runs out (04 R75, R76). -/
def replyTimedOut (s : State) (n : Transport) : State :=
  match (s.link n).replyTimer with
  | some _ => (s.onLink n ({ · with replyTimer := none })).unanswered n true
  | none => s

/-- Two milliseconds without a byte inside a frame (04 R71). -/
def gapExpired (s : State) (n : Transport) : State :=
  match (s.link n).gapLeft with
  | some _ => s.receiveError n .gap
  | none => s

/-- The break has run its time (04 R80): a probe is sent by 04 R65, as at a setup take; during a break the link is
UNPROBED with nothing in flight, so one is always sent. -/
def breakEnded (s : State) (n : Transport) : State :=
  match (s.link n).breakLeft with
  | some _ => s.onLink n fun l => ({ l with breakLeft := none } : Link).setupTaken
  | none => s

/-- One link's probe interval at a frame boundary (04 R65), with its mark (log 11). -/
def linkBoundary (n : Transport) (s : State) : State :=
  let due := (s.link n).probeDue
  let s := s.onLink n Link.probeTick
  if due then s.mark (.probe n) else s

end State

end Sys2Proof.Machine
end

