-- ==== Sys2Proof/Machine/Boundary.lean ====
section
/-! DEFINITION. Field and frame boundaries (02 R24, R25): what every block does at one, in one fixed order (log 13),
and the events of the house reference (02 R26 to R31, R36). -/

namespace Sys2Proof.Machine

/-- The counters at a frame boundary, and its event; `short` is the event's short-frame flag (02 R24). -/
def Rtu.boundary (std : Standard) (short : Bool) (r : Rtu) : Rtu :=
  let clock := reduce std.day (r.clock + 1)
  { r with
    phase := 0, frames := r.frames + 1, clock, parity2 := false, field2Made := false
    event := some ⟨r.frames + 1, clock, r.phase, short, r.state⟩ }

namespace State

/-- Apply a change to the Reference Timing Unit. -/
def onRtu (s : State) (f : Rtu → Rtu) : State := s.setRtu (f s.rtu)

/-- The marks of an earlier boundary are dropped (log 11). -/
def dropMarks (s : State) : State := { s with marks := [] }

/-- The field-2 boundary (02 R25). -/
def field2Boundary (s : State) : State :=
  (s.dropMarks.onRtu ({ · with parity2 := true, field2Made := true })).fieldWork true

/-- FRAME is allowed by the setup record in force (02 R32). -/
def frameAllowed (s : State) : Bool := s.cfg.setup.any (·.frameAllowed)

/-- The RTU's part of a frame boundary: the counters, and FRAME while it is allowed (02 R24, R32). -/
def countFrame (s : State) (short : Bool) : State :=
  let s := s.onRtu (Rtu.boundary s.standard short)
  if s.frameAllowed then s.raise .frame else s

/-- The contexts that compute before the run's timed actions: free while the run is rolling (log 6). -/
def early (s : State) (ts : List Transport) : List Transport :=
  if s.run.state.rolling then ts.filter (Config.chaseFirst s.free) else []

/-- The run and the chase contexts at a frame boundary (08 R155, 06 R117): `ts` are the contexts that compute. -/
def runAndChase (s : State) (ts : List Transport) (before : Six Chase) : State :=
  let s := s.lateInserts.clockAndState
  let es := s.early ts
  let s := { s with free := if s.run.state.rolling then s.free + 1 else s.free }
  let s := (forTransports es chaseBoundary s).timedActions
  (forTransports (ts.filter fun n => !es.contains n) chaseBoundary s).chaseStates before

/-- A frame boundary (02 R24): every block's work for it, `log 13` giving the order between blocks; `short` is set for a
locking boundary that shortens its frame. -/
def frameBoundary (s : State) (short : Bool) : State :=
  let len := s.rtu.phase
  let s := s.dropMarks.countFrame short
  let s := forTransports Transport.all (readerBoundary len) s
  let s := (forTransports Transport.all linkBoundary s).adoptParams
  let s := s.runAndChase (Transport.all.filter fun n => (s.chase n).computes) s.chases
  s.fieldWork false

/-! ## Reference states (02 R26 to R32) -/

/-- The reference state changes: REFERENCE is raised and the run told (02 R32, 08 R166). -/
def enterReference (s : State) (r : Rtu) : State :=
  let old := s.rtu.state
  if old = r.state then s.setRtu r else ((s.setRtu r).raise .reference).runReference old r.state

/-- A boundary made at once when the counter of a part that free-runs stands at 64 or above (02 R31, R36). -/
def overdueBoundary (s : State) : State :=
  if s.rtu.state = .acquiring ∧ 64 ≤ s.rtu.phase then s.frameBoundary false else s

/-- The locking pulse (02 R28). -/
def lockPulse (s : State) : State :=
  let short := 1 ≤ s.rtu.phase ∧ s.rtu.phase ≤ 63
  let s := s.enterReference
    { s.rtu with
      state := .locked, pulseTimer := 0, owed := false, disturbanceRun := 0, goodRun := 0
      shortFrames := if short then satSucc 65535 s.rtu.shortFrames else s.rtu.shortFrames }
  if s.rtu.phase = 0 then s else s.frameBoundary (decide short)

/-- A frame pulse in ACQUIRING (02 R27). -/
def acquiringPulse (s : State) : State :=
  if 63 ≤ s.rtu.pulseTimer ∧ s.rtu.pulseTimer ≤ 65 then
    if 7 ≤ s.rtu.goodRun then s.lockPulse else s.onRtu fun r => { r with goodRun := r.goodRun + 1, pulseTimer := 0 }
  else s.onRtu ({ · with goodRun := 1, pulseTimer := 0 })

/-- An early pulse in LOCKED (02 R31). -/
def earlyPulse (s : State) : State :=
  let s := s.onRtu fun r => { r with disturbances := satSucc 65535 r.disturbances }
  if 2 ≤ s.rtu.disturbanceRun then
    (s.enterReference { s.rtu with state := .acquiring, disturbanceRun := 0, goodRun := 1, pulseTimer := 0 }).overdueBoundary
  else s.onRtu fun r => { r with disturbanceRun := r.disturbanceRun + 1 }

/-- A frame pulse in LOCKED (02 R29 to R31). -/
def lockedPulse (s : State) : State :=
  if s.rtu.owed then s.onRtu ({ · with owed := false, disturbanceRun := 0, pulseTimer := 0 })
  else if 63 ≤ s.rtu.pulseTimer then (s.onRtu ({ · with disturbanceRun := 0, pulseTimer := 0 })).frameBoundary false
  else s.earlyPulse

/-- A frame pulse (02 R22, R26 to R31). -/
def framePulse (s : State) : State :=
  if s.configured then
    match s.rtu.state with
    | .absent | .free => s.enterReference { s.rtu with state := .acquiring, goodRun := 1, pulseTimer := 0 }
    | .acquiring => s.acquiringPulse
    | .locked => s.lockedPulse
  else s

/-- A field pulse (02 R25). -/
def fieldPulse (s : State) : State :=
  if s.configured ∧ s.rtu.state = .locked ∧ 28 ≤ s.rtu.pulseTimer ∧ s.rtu.pulseTimer ≤ 36 ∧ s.rtu.field2Made = false then
    s.field2Boundary
  else s

/-! ## The points of the counters (02 R23, R25, R27, R29, R30; log 2) -/

/-- The phase counter reaches 64 while free-running (02 R23). -/
def wrapBoundary (s : State) : State :=
  if s.configured && s.rtu.state.freeRunning then (elapse (64 - s.rtu.phase) s).frameBoundary false else s

/-- The pulse timer reaches 64 in LOCKED with no pulse (02 R29). -/
def generatedBoundary (s : State) : State :=
  if s.configured && s.rtu.state = .locked && !s.rtu.owed then
    ((elapse (64 - s.rtu.pulseTimer) s).onRtu ({ · with owed := true })).frameBoundary false
  else s

/-- The pulse timer reaches 72 while a pulse is owed (02 R30). -/
def referenceLost (s : State) : State :=
  if s.configured && s.rtu.state = .locked && s.rtu.owed then
    let s := elapse (72 - s.rtu.pulseTimer) s
    s.enterReference { s.rtu with state := .free, pulseTimer := 0, owed := false, disturbanceRun := 0 }
  else s

/-- The pulse timer reaches 128 in ACQUIRING (02 R27). -/
def acquireTimeout (s : State) : State :=
  if s.configured && s.rtu.state = .acquiring then
    let s := elapse (128 - s.rtu.pulseTimer) s
    s.enterReference { s.rtu with state := .absent, goodRun := 0, pulseTimer := 0 }
  else s

/-- The point at which field 2 is due without a field pulse (02 R25). -/
def field2Point (s : State) : State :=
  if s.configured && !s.rtu.field2Made then
    if s.rtu.state.freeRunning then (if s.rtu.phase ≤ 32 then (elapse (32 - s.rtu.phase) s).field2Boundary else s)
    else if s.rtu.pulseTimer ≤ 36 then (elapse (36 - s.rtu.pulseTimer) s).field2Boundary
    else s
  else s

/-! ## A frame-standard retake (02 R36) -/

/-- The RTU's part of a retake that changes the standard: the boundary it may make at once is the caller's. -/
def restandard (s : State) : State :=
  s.enterReference
    { s.rtu with
      state := if s.rtu.state = .locked then .acquiring else s.rtu.state
      pulseTimer := 0, owed := false, goodRun := 0, disturbanceRun := 0, clock := 0 }

/-! ## Marked steps (log 11) -/

/-- The frame boundary of a cause. -/
def frameCause (s : State) : FrameCause → State
  | .wrap => s.wrapBoundary
  | .generated => s.generatedBoundary
  | .pulse => s.framePulse

/-- The field boundary of a cause. -/
def fieldCause (s : State) : FieldCause → State
  | .frame c => s.frameCause c
  | .point => s.field2Point
  | .pulse => s.fieldPulse

/-- The boundary of a cause, taken when the named step comes about at it; otherwise nothing happens (log 11). -/
def markedFrame (s : State) (c : FrameCause) (m : Mark) : State :=
  let s' := s.dropMarks.frameCause c
  if m ∈ s'.marks then s' else s

/-- As `markedFrame`, for a step of a field boundary. -/
def markedField (s : State) (c : FieldCause) (m : Mark) : State :=
  let s' := s.dropMarks.fieldCause c
  if m ∈ s'.marks then s' else s

end State

end Sys2Proof.Machine
end

