-- ==== Sys2Proof/Machine/Records.lean ====
section
/-! DEFINITION. What the owner of a slot does with a record handed over: the transport slot (05 R90 to R98), the chase
slot (06 R109 to R114), the run control slot (08 R148 to R153, R171), the switcher slot (09 R185 to R187). -/

namespace Sys2Proof.Machine

/-! ## The transport slot -/

/-- A command record by 05 R92: malformed, a link kind with its argument, or a local kind. -/
inductive DeckRecord where
  | malformed
  | link (kind : LinkKind) (arg : Arg)
  | clearErrors
  | deckReset
  deriving DecidableEq, Repr

/-- A record whose track mask must name a track (05 R92). -/
def maskRecord (kind : LinkKind) (w : Word) : DeckRecord :=
  if maskOf w = 0 then .malformed else .link kind (.mask (maskOf w))

/-- The record in words 0–3 of a transport slot (05 R92, 11.3). -/
def deckRecord (std : Standard) (command w2 w3 : Word) : DeckRecord :=
  match command.toNat with
  | 1 => .link .halt .none
  | 2 => .link .run .none
  | 3 => if w2 = 0x8000 then .malformed else .link .speed (.speed w2.toInt)
  | 4 => if (Label.ofWords w2 w3).legal std then .link .locate (.label (.ofWords w2 w3)) else .malformed
  | 5 => maskRecord .arm w2
  | 6 => maskRecord .insertOn w2
  | 7 => maskRecord .insertOff w2
  | 8 => .link .sense .none
  | 9 => if w2 = 0 then .link .standby (.setting false) else if w2 = 1 then .link .standby (.setting true) else .malformed
  | 10 => .clearErrors
  | 11 => .deckReset
  | _ => .malformed

/-- The motion kinds (05 R93). -/
def LinkKind.motion : LinkKind → Bool
  | .halt | .run | .speed | .locate => true
  | .arm | .insertOn | .insertOff | .sense | .standby => false

/-- The ownership check refuses the kind (05 R93). -/
def ownerRefuses (o : Owner) (k : LinkKind) : Bool := o = .run && k != .sense && k != .halt

namespace State

/-- A processor command placed: the taken count (05 R94, R95). -/
def countTaken (s : State) (n : Transport) : State := s.onCtx n fun c => { c with taken := c.taken + 1 }

/-- A processor motion command or DECK_RESET on a CHASE transport: the chase is stopped and the owner FREE
(05 R93, R97). -/
def takeFromChase (s : State) (n : Transport) : State :=
  if (s.ctx n).owner = .chase then (s.stopProcessorChase n).setOwner n .free else s

/-- A link command that has passed form, link and ownership is offered (05 R94, R95). -/
def offerCommand (s : State) (n : Transport) (kind : LinkKind) (arg : Arg) (tag : Word) (urgent : Bool) :
    SlotCode × State :=
  match kind, arg with
  | .speed, .speed v => (.accepted, (s.offerSpeed n ⟨v, .processor, some tag⟩).2.countTaken n)
  | _, _ =>
    match s.offerEntry n ⟨.processor, kind, arg, some tag, urgent, false⟩ with
    | (.placed, s) => (.accepted, s.countTaken n)
    | (.queueFull, s) => (.queueFull, s)
    | (.linkDown, s) => (.linkDown, s)

/-- An abort request of a processor HALT (08 R175). -/
def haltRequest (s : State) : State := if s.run.state.active then s.abortPath .processorHalt else s

/-- A link command that is well formed (05 R91). -/
def linkCommand (s : State) (n : Transport) (kind : LinkKind) (arg : Arg) (tag : Word) : SlotCode × State :=
  let owner := (s.ctx n).owner
  if (s.link n).state ≠ .up then (.linkDown, s)
  else if ownerRefuses owner kind then (.held, s)
  else
    let s := if kind.motion then s.takeFromChase n else s
    let urgent := owner = .run && kind = .halt
    let (code, s) := s.offerCommand n kind arg tag urgent
    (code, if urgent then s.haltRequest else s)

/-- DECK_RESET (05 R97). -/
def deckReset (s : State) (n : Transport) : SlotCode × State :=
  if (s.ctx n).owner = .run then (.held, s) else (.accepted, (s.takeFromChase n).linkReset n)

/-- A command record decided (05 R91, R96 to R98). -/
def transportRecord (s : State) (n : Transport) (command tag w2 w3 : Word) : State :=
  let (code, s) :=
    match deckRecord s.standard command w2 w3 with
    | .malformed => (SlotCode.malformed, s)
    | .link kind arg => s.linkCommand n kind arg tag
    | .clearErrors => (.accepted, s.clearLinkErrors n)
    | .deckReset => s.deckReset n
  s.transportResult n code false command tag

/-- A parameter record decided (05 R90). -/
def parameterRecord (s : State) (n : Transport) (tag latency tolerance timeout : Word) : State :=
  if (s.ctx n).owner = .run then s.transportResult n .held true 0 tag
  else
    let (l, t, r) := deckParams latency tolerance timeout
    (s.onCtx n ({ · with latency := l, tolerance := t, replyTimeout := r })).transportResult n .accepted true 0 tag

/-! ## The chase slot -/

/-- The outcome of a chase slot record is written and SLOT raised (06 R109). -/
def chaseResult (s : State) (n : Transport) (code : SlotCode) (command tag : Word) : State :=
  (s.onChase n ({ · with result := ⟨some code, false, command, tag⟩ })).raise .slot

/-- The walk of 06 R111 from `m` reaches `n`. -/
def walkReaches (s : State) (n : Transport) (m : Transport) (fuel : Nat) : Bool :=
  match fuel with
  | 0 => false
  | fuel + 1 =>
    if m = n then true
    else if (s.chase m).state = .idle then false
    else
      match (s.chase m).master with
      | .transport k => s.walkReaches n k fuel
      | .suiteClock | .editClock => false

/-- The form of a CHASE_START (06 R110, check 1): the master and the offset, or `none` for ARG. -/
def startForm? (s : State) (n : Transport) (a : ChaseArgs) : Option (Master × Int) :=
  let l := Label.ofWords a.labelHi a.labelLo
  match Master.ofWord? a.master, signOf? a.sign with
  | some m, some minus =>
    let bad :=
      match m with
      | .transport k => k = n || s.walkReaches n k 7
      | .suiteClock => false
      | .editClock => true
    if bad || !l.legal s.standard then none
    else some (m, if minus then -(l.index s.standard : Int) else l.index s.standard)
  | _, _ => none

/-- CHASE_START (06 R110, R112). -/
def chaseStart (s : State) (n : Transport) (a : ChaseArgs) : SlotCode × State :=
  match s.startForm? n a with
  | none => (.arg, s)
  | some (m, offset) =>
    if (s.link n).state ≠ .up then (.linkDown, s)
    else if (s.ctx n).owner = .run then (.held, s)
    else
      (.accepted, (s.setOwner n .chase).beginChase n
        { s.chase n with origin := .processor, master := m, offset, pending := some (.ofWords a.params) })

/-- CHASE_STOP (06 R113). -/
def chaseStop (s : State) (n : Transport) : SlotCode × State :=
  if (s.chase n).state = .idle then (.accepted, s)
  else if (s.chase n).origin = .run then (.held, s)
  else
    match ((s.idleChase n).freeFromChase n).offerEntry n ⟨.chase, .halt, .none, none, false, false⟩ with
    | (.placed, s) => (.accepted, s)
    | (.queueFull, s) => (.queueFull, s)
    | (.linkDown, s) => (.linkDown, s)

/-- PARAMS (06 R114). -/
def chaseParams (s : State) (n : Transport) (p : ParamWords) : State := s.onChase n ({ · with pending := some (.ofWords p) })

/-- A chase slot record decided (06 R109). -/
def chaseRecord (s : State) (n : Transport) (command tag : Word) (a : ChaseArgs) : State :=
  let (code, s) :=
    match command.toNat with
    | 1 => s.chaseStart n a
    | 2 => s.chaseStop n
    | 3 => (.accepted, s.chaseParams n a.params)
    | _ => (.arg, s)
  s.chaseResult n code command tag

/-! ## The run control slot -/

/-- The outcome of a run slot record is written and SLOT raised (08 R148). -/
def runResult (s : State) (code : SlotCode) (command tag : Word) : State :=
  (s.onRun ({ · with result := ⟨some code, false, command, tag⟩ })).raise .slot

/-- Steps 1 and 2 of 08 R149. -/
def clearRun (s : State) (mode : RunMode) (autoRoll : Bool) (margin limit : Nat) : State :=
  s.onRun fun r =>
    { r with
      fault := none, faultExtra := 0, pendingFault := none, pendingExtra := 0, lockLosses := 0, notices := 0
      endCause := .none, stopRequested := false, rollRequested := false, syncPassed := false, insertsOn := 0
      awaited := [], outstanding := 0, mode, autoRoll, margin, cueLimit := limit
      requireReference := s.cfg.setup.any (·.requireReference) }

/-- START_RUN accepted (08 R149). -/
def beginRun (s : State) (first : Fin 64) (mode : RunMode) (autoRoll : Bool) (margin limit : Nat) : State :=
  let s := (s.clearRun mode autoRoll margin limit).reloadDone.runEnter .cueing
  match s.armCurrent first with
  | .ok (_, s) => s
  | .error k => s.armFault k first

/-- START_RUN (08 R148, R149). -/
def startRun (s : State) (first mode autoRoll margin limit : Word) : SlotCode × State :=
  match eventOf? first, RunMode.ofWord? mode with
  | some e, some m =>
    if s.run.state = .idle then (.accepted, s.beginRun e m (autoRoll.getLsbD 0) (marginOf margin) (cueLimitOf limit))
    else (.state, s)
  | _, _ => (.arg, s)

/-- ROLL (08 R150). -/
def rollCommand (s : State) : SlotCode × State :=
  if s.run.state = .ready then (.accepted, s.onRun ({ · with rollRequested := true })) else (.state, s)

/-- STOP (08 R171). -/
def stopRun (s : State) : State :=
  match s.run.state with
  | .cueing | .ready => s.abortPath .stopped
  | .preroll | .edit | .postroll =>
    if s.run.stopRequested then s else (s.onRun ({ · with stopRequested := true })).cancelLookahead
  | .idle | .aborting | .faulted => s

/-- STOP, ABORT: accepted in any state but IDLE (08 R148). -/
def unlessIdle (s : State) (f : State → State) : SlotCode × State :=
  if s.run.state = .idle then (.state, s) else (.accepted, f s)

/-- ABORT (08 R151). -/
def abortRun (s : State) : State := if s.run.state.active then s.abortPath .processorAbort else s

/-- CLEAR_FAULT (08 R151). -/
def clearFault (s : State) : SlotCode × State :=
  if s.run.state = .faulted then (.accepted, s.runEnter .idle) else (.state, s)

/-- SET_NEXT is accepted in the state and look-ahead status that now stand (08 R148, R152). -/
def maySetNext (s : State) : Bool :=
  s.run.state.active && (s.run.lookahead = .notYet || s.run.lookahead = .none) && !s.run.stopRequested

/-- SET_NEXT (08 R152). -/
def setNext (s : State) (next : Word) : SlotCode × State :=
  match linkOf? next with
  | none => (.arg, s)
  | some e =>
    if s.maySetNext then
      (.accepted, s.onRun fun r =>
        { r with successor := e, lookahead := if e.isNone && r.lookahead = .notYet then .none else r.lookahead })
    else (.state, s)

/-- CLEAR_ALL (08 R153). -/
def clearAll (s : State) : State :=
  match s.run.state with
  | .cueing | .ready | .preroll | .edit | .postroll => s.abortPath .cleared
  | .aborting => s.onRun ({ · with abortCause := .cleared })
  | .faulted => (s.runEnter .idle).suiteClear
  | .idle => s.suiteClear

/-- SET_SUITE_CLOCK (08 R151, 02 R33). -/
def setSuiteClock (s : State) (hi lo : Word) : SlotCode × State :=
  let l := Label.ofWords hi lo
  if l.legal s.standard then (.accepted, s.onRtu ({ · with clock := l.index s.standard })) else (.arg, s)

/-- A run slot record decided (08 R148): `w` gives its words 2 to 6. -/
def runRecord (s : State) (command tag w2 w3 w4 w5 w6 : Word) : State :=
  let (code, s) :=
    match command.toNat with
    | 1 => s.startRun w2 w3 w4 w5 w6
    | 2 => s.rollCommand
    | 3 => s.unlessIdle stopRun
    | 4 => s.unlessIdle abortRun
    | 5 => s.clearFault
    | 6 => s.setNext w2
    | 7 => (.accepted, s.clearAll)
    | 8 => s.setSuiteClock w2 w3
    | _ => (.arg, s)
  s.runResult code command tag

/-! ## The switcher slot -/

/-- The answer of the mixer owner to MIXER_SET and AUTO_TRANS (09 R178). -/
def byOwner (s : State) (f : State → State) : SlotCode × State :=
  match s.mixer.owner with
  | .free => (.accepted, f s)
  | .run => (.held, s)
  | .processor => (.busy, s)

/-- MIXER_SET (09 R185, R186). -/
def mixerSet (s : State) (a b level pattern : Word) : SlotCode × State :=
  match MixSource.ofCode? a.toNat, MixSource.ofCode? b.toNat with
  | some a, some b =>
    if level.toNat ≤ 1023 ∧ pattern.toNat ≤ 63 then
      s.byOwner fun s => s.onMixer ({ · with aBus := a, bBus := b, level := level.toNat, pattern := pattern.toNat })
    else (.arg, s)
  | _, _ => (.arg, s)

/-- The kinds AUTO_TRANS may name (11.3). -/
def autoKind? (w : Word) : Option TransKind := if w = 2 then some .mix else if w = 3 then some .wipe else none

/-- AUTO_TRANS (09 R185, R187). -/
def autoTrans (s : State) (kind length curve pattern : Word) : SlotCode × State :=
  match autoKind? kind, Curve.ofCode? curve.toNat with
  | some k, some c =>
    if 1 ≤ length.toNat ∧ length.toNat ≤ 999 ∧ pattern.toNat ≤ 63 then
      s.byOwner fun s => s.onMixer fun m =>
        { m with
          owner := .processor, pattern := pattern.toNat
          transition := some ⟨k, c, fieldCount k length.toNat, 1, true⟩ }
    else (.arg, s)
  | _, _ => (.arg, s)

/-- GPI_PULSE (09 R185, R189). -/
def gpiPulse (s : State) (line width : Word) : SlotCode × State :=
  if h : line.toNat < 8 then
    if 1 ≤ width.toNat ∧ width.toNat ≤ 15 then (.accepted, s.onMixer (·.pulse ⟨line.toNat, h⟩ width.toNat)) else (.arg, s)
  else (.arg, s)

/-- A switcher slot record decided (09 R185). -/
def switcherRecord (s : State) (command tag w2 w3 w4 w5 : Word) : State :=
  let (code, s) :=
    match command.toNat with
    | 1 => s.mixerSet w2 w3 w4 w5
    | 2 => s.autoTrans w2 w3 w4 w5
    | 3 => s.gpiPulse w2 w3
    | _ => (.arg, s)
  s.switcherResult code command tag

end State

end Sys2Proof.Machine
end

