-- ==== Sys2Proof/Machine/Status.lean ====
section
/-! DEFINITION. The words of the status area (11.6) and of the reply ports (11.5), formed from the live state (01 R8).
An absent field reads 0 (log 32). -/

namespace Sys2Proof.Machine

/-! ## Codes of 11.6 -/

def AccessReason.code : AccessReason → Nat
  | .overlayStore => 1 | .eventArmed => 2 | .serviceEmpty => 3 | .setupStandard => 4 | .setupOverlap => 5
  | .setupRunActive => 6 | .setupChaseActive => 7

def strobesCode : Strobes → Nat
  | .lower => 1 | .upper => 2 | .both => 3

def RefState.code : RefState → Nat
  | .absent => 0 | .acquiring => 1 | .locked => 2 | .free => 3

def ReaderState.code : ReaderState → Nat
  | .silent => 0 | .seeded => 1 | .acquiring => 2 | .reading => 3 | .coasting => 4 | .lost => 5

def LinkState.code : LinkState → Nat
  | .unprobed => 0 | .up => 1 | .failed => 2

def Source.code : Source → Nat
  | .processor => 0 | .run => 1 | .chase => 2 | .link => 3

def ErrKind.code : ErrKind → Nat
  | .parity => 1 | .framing => 2 | .gap => 3 | .check => 4 | .format => 5 | .timeout => 6 | .overrun => 7

def Owner.code : Owner → Nat
  | .free => 0 | .chase => 1 | .run => 2

def ChaseState.code : ChaseState → Nat
  | .idle => 0 | .seek => 1 | .approach => 2 | .locked => 3 | .hold => 4 | .fault => 5

def ChaseCause.code : ChaseCause → Nat
  | .holdExpired => 1 | .nak => 2 | .link => 3

def ClampEnd.code : ClampEnd → Nat
  | .none => 0 | .plus => 1 | .minus => 2

def EventState.code : EventState → Nat
  | .empty => 0 | .draft => 1 | .loaded => 2 | .armed => 3 | .done => 4

def RunState.code : RunState → Nat
  | .idle => 0 | .cueing => 1 | .ready => 2 | .preroll => 3 | .edit => 4 | .postroll => 5 | .aborting => 6 | .faulted => 7

def EndCause.code : EndCause → Nat
  | .none => 0 | .completed => 1 | .stopped => 2 | .aborted => 3 | .processorHalt => 4 | .cleared => 5 | .faulted => 6

def AbortCause.code : AbortCause → Nat
  | .none => 0 | .fault => 1 | .processorAbort => 2 | .processorHalt => 3 | .stopped => 4 | .cleared => 5

def Lookahead.code : Lookahead → Nat
  | .notYet => 0 | .armed => 1 | .faultPending => 2 | .none => 3

def Progress.code : Progress → Nat
  | .none => 0 | .locating => 1 | .waiting => 2 | .cued => 3

def ArmReason.code : ArmReason → Nat
  | .fieldRange => 1 | .sameTransport => 2 | .badLabel => 3 | .transitionRange => 4 | .prerollShort => 5
  | .splitRange => 6 | .cueRange => 7

/-- The kind code 1–14 in the order of the table of 08 R172, and the reason. -/
def FaultKind.code : FaultKind → Nat × Nat
  | .eventInvalid r => (1, r.code) | .eventNotLoaded => (2, 0) | .eventRepeated => (3, 0) | .cueTimeout => (4, 0)
  | .cueMissed => (5, 0) | .deckProtected => (6, 0) | .deckRefused r => (7, r.toNat) | .linkFailed => (8, 0)
  | .notLocked => (9, 0) | .lockLost => (10, 0) | .lateInsert => (11, 0) | .chaseFault => (12, 0) | .deckNotice => (13, 0)
  | .refLost => (14, 0)

def MixOwner.code : MixOwner → Nat
  | .free => 0 | .processor => 1 | .run => 2

def TransOutcome.code : TransOutcome → Nat
  | .completed => 1 | .preempted => 2 | .frozen => 3 | .replaced => 4 | .cleared => 5

/-! ## Groups of words, in order -/

/-- The two words of an optional index and of its label (03 R39). -/
def indexWords (std : Standard) (i : Option Nat) : List Word :=
  match i with
  | some i => [halfNat i 0, halfNat i 1, (Label.ofIndex std i).hiWord, (Label.ofIndex std i).loWord]
  | none => [0, 0, 0, 0]

namespace State

/-- The part group. -/
def partWords (s : State) : List Word :=
  let a := s.ptu.access
  [bitAt s.configured 0 ||| placed s.cfg.straps.toNat 1]
    ++ (List.range 6).map (fun k => match s.cfg.setup with | some u => u.word k | none => 0)
    ++ [0, wordOf (match a.reason with | some r => r.code | none => 0), halfNat a.addr.toNat 0, halfNat a.addr.toNat 1,
        bitAt a.readModifyWrite 8 ||| wordOf (match a.lanes with | some l => strobesCode l | none => 0), a.frame, wordOf a.count]

/-- The slot results group: transport T0–T5, chase T0–T5, run, switcher. -/
def resultWords (s : State) : List Word :=
  ((s.ctxs.toList.map (·.result)) ++ (s.chases.toList.map (·.result)) ++ [s.run.result, s.mixer.result]).flatMap
    fun r => [r.word, r.tag]

/-- The reference group (02 R35). -/
def referenceWords (s : State) : List Word :=
  let r := s.rtu
  [wordOf r.state.code, wordOf r.phase, wordOf r.pulseTimer, bitAt r.owed 0 ||| bitAt r.parity2 1, wordOf r.goodRun,
    wordOf r.disturbanceRun, half32 r.frames 0, half32 r.frames 1] ++ indexWords s.standard (some r.clock)
    ++ [wordOf r.shortFrames, wordOf r.disturbances]

/-- The interrupts group (10 R200). -/
def interruptWords (s : State) : List Word :=
  let u := s.iru
  let entries := u.stack.reverse.map fun e => placed e.1.val 8 ||| wordOf e.2.num.val
  Irq.all.map (fun i => wordOf (u.level i).val)
    ++ [Irq.all.foldl (fun w i => w ||| bitAt (u.isPending i) i.num.val) 0, wordOf u.request.val,
        (List.finRange 8).foldl (fun w m => w ||| bitAt u.driven[m] m.val) 0, wordOf u.stack.length]
    ++ (List.range 7).map (entries.getD · 0)
    ++ [match s.cfg.setup with | some c => c.vectorBase.setWidth 16 | none => 0, u.lastVector.setWidth 16, wordOf u.spurious]

/-- The group of one reader (03 R57). -/
def readerWords (s : State) (n : Transport) : List Word :=
  let r := s.reader n
  let c := r.counts
  let rev := match r.last with | some a => decide (a.dir = .reverse) | none => false
  [wordOf r.state.code ||| bitAt r.changeFlag 15 ||| bitAt r.position.isSome 14 ||| bitAt r.last.isSome 13 ||| bitAt rev 12,
    wordOf r.changeCount]
    ++ (match r.position with
        | some p =>
          [halfNat p 0, halfNat p 1, (Label.ofPu s.standard p).hiWord, (Label.ofPu s.standard p).loWord]
        | none => [0, 0, 0, 0])
    ++ [wordOfInt r.pubSpeed]
    ++ (match r.last with
        | some a =>
          [(Label.ofIndex s.standard a.index).hiWord, (Label.ofIndex s.standard a.index).loWord, wordOf a.phase]
        | none => [0, 0, 0])
    ++ [wordOf r.elapsed, wordOf r.quiet, wordOf r.ring.length, wordOf c.accepted, wordOf c.badWord, wordOf c.badLabel,
        wordOf c.flagMismatch, wordOf c.discarded, wordOf c.jump, wordOf c.seed, wordOf c.loss]

/-- The word of a queue entry. -/
def queueWord (e : Entry) : Word := bitAt e.urgent 15 ||| placed e.source.code 8 ||| wordOf e.kind.code

/-- The words of a frozen error record. -/
def errorWords (l : Link) : List Word :=
  match l.err with
  | some e =>
    [bitAt true 15 ||| bitAt l.additional 14 ||| wordOf e.kind.code,
      wordOf (match e.frame with | some k => k.code | none => 0), placed (e.sends.getD 0) 8 ||| wordOf (e.seq.getD 0),
      e.frameCount]
  | none => [bitAt l.additional 14, 0, 0, 0]

/-- The group of one link (04 R82). -/
def linkWords (s : State) (n : Transport) : List Word :=
  let l := s.link n
  let c := l.counts
  [wordOf l.state.code ||| bitAt l.breakLeft.isSome 4 ||| bitAt l.lastSpeed 8]
    ++ (match l.inFlight with
        | some f =>
          [bitAt true 15 ||| bitAt f.orphan 14 ||| placed f.sends 12 ||| placed f.entry.source.code 8
              ||| wordOf (f.seq.getD 0), wordOf f.entry.kind.code]
        | none => [0, 0])
    ++ [wordOf l.queue.length] ++ (List.range 4).map (fun k => (l.queue.map queueWord).getD k 0)
    ++ [bitAt l.slot.isSome 15, match l.slot with | some v => wordOfInt v.value | none => 0, wordOf l.nextSeq,
        placed l.probeInterval 8 ||| wordOf l.silence]
    ++ errorWords l
    ++ [wordOf c.parity, wordOf c.framing, wordOf c.gap, wordOf c.check, wordOf c.format, wordOf c.timeout,
        wordOf c.overrun, wordOf l.stale, wordOf l.superseded, wordOf l.probeMiss]

/-- The group of one transport context (05 R106). -/
def contextWords (s : State) (n : Transport) : List Word :=
  let c := s.ctx n
  [wordOf c.owner.code ||| placed c.mode.code 8, c.insertMask.setWidth 16, wordOfInt c.lastSpeed,
    bitAt c.sensedFlags.isSome 15 ||| bitAt c.sensedPos.isSome 14 ||| (c.sensedFlags.getD 0).setWidth 16]
    ++ indexWords s.standard c.sensedPos
    ++ [c.sensedAt, wordOf c.latency, wordOf c.tolerance, wordOf c.replyTimeout,
        wordOf c.fifo.length ||| bitAt c.linkChange 8 ||| bitAt c.errFrozen 9 ||| bitAt c.deckCondition 10,
        c.taken, c.delivered, c.lost, c.cancelled, c.noticesDelivered,
        c.noticesLost]

/-- The group of one chase context (06 R130).  The offset's label is of its magnitude reduced under the standard now in
force (03 R39, log 46). -/
def chaseWords (s : State) (n : Transport) : List Word :=
  let c := s.chase n
  let l := Label.ofIndex s.standard (c.offset.natAbs % s.standard.day)
  let err := c.lastError.getD (0, 0)
  [wordOf c.state.code ||| bitAt (c.origin = .run) 4 ||| placed (match c.cause with | some x => x.code | none => 0) 6
      ||| placed c.lastClamp.code 8 ||| bitAt c.lastError.isSome 12 ||| bitAt c.pending.isSome 13 ||| bitAt c.changeFlag 15,
    c.master.word ||| bitAt (c.offset < 0) 15, l.hiWord, l.loWord, halfInt c.offset 0, halfInt c.offset 1]
    ++ (List.range 7).map c.params.word
    ++ (List.range 7).map (fun k => match c.pending with | some p => p.word k | none => 0)
    ++ [halfInt c.acc 0, halfInt c.acc 1, wordOfInt c.vPrev, halfInt err.1 0, halfInt err.1 1, halfInt err.2 0,
        halfInt err.2 1, placed c.inRun 8 ||| wordOf c.outRun, placed c.nakRun 8 ||| wordOf c.holdCount, wordOf c.slips,
        wordOf c.changeCount]

/-- One transport entry of an armed place: nine words (log 39). -/
def armedEntry (std : Standard) (a : Armed) (role : Nat) (n : Option Transport) (p : Option Nat) : List Word :=
  match n with
  | some n =>
    (placed role 8 ||| wordOf n.num)
      :: (indexWords std p ++ indexWords std (p.map fun x => reduce std.day ((x : Int) - a.preroll)))
  | none => List.replicate 9 0

/-- A place and its three transport entries. -/
def placeWords (std : Standard) (a : Option Armed) : List Word :=
  match a with
  | some a =>
    (bitAt true 15 ||| wordOf a.event.val) ::
      (armedEntry std a 1 (some a.recorder) (some a.recordIn) ++ armedEntry std a 2 a.sourceA.transport? a.sourceAIn
        ++ armedEntry std a 3 (a.sourceB.bind MixSource.transport?) a.sourceBIn)
  | none => List.replicate 28 0

/-- The word of four event states. -/
def stateWord (e : EditTable) (k : Nat) : Word :=
  (List.finRange 64).foldl
    (fun w i => if i.val / 4 = k then w ||| placed (e.states[i]).code (12 - 4 * (i.val % 4)) else w) 0

/-- The edit table group (07 R146). -/
def tableWords (s : State) : List Word :=
  let std := s.standard
  (List.range 16).map (stateWord s.et) ++ placeWords std s.et.current
    ++ (match s.et.current with
        | some a =>
          [wordOf a.duration, wordOf a.preroll, wordOf a.postroll, bitAt a.split.isSome 0, wordOfInt (a.split.getD 0),
            wordOf a.latency, wordOf a.margin, 0]
        | none => List.replicate 8 0)
    ++ placeWords std s.et.lookahead

/-- The four words of a fault record. -/
def faultWords (f : Option FaultRecord) (extra : Nat) : List Word :=
  match f with
  | some f =>
    [bitAt true 15 ||| placed f.kind.code.1 8 ||| wordOf f.kind.code.2,
      bitAt f.transport.isSome 15 ||| bitAt f.fromLookahead 14 ||| bitAt f.clock.isSome 13
        ||| placed (match f.transport with | some n => n.num | none => 0) 8 ||| wordOf f.event.val,
      wordOfInt (f.clock.getD 0), wordOf extra]
  | none => [0, 0, 0, wordOf extra]

/-- The word of one transport's cue. -/
def cueWord (q : CueState) : Word :=
  wordOf q.progress.code ||| placed q.locates 4 ||| bitAt q.senseOut 8 ||| placed q.polls 12

/-- The byte of an awaited insert. -/
def awaitedByte (a : Option Awaited) : Byte :=
  match a with
  | some a => (if a.off then 0x80 else 0) ||| a.mask.setWidth 8
  | none => 0

/-- The run group (08 R176).  An edit clock above 32,767 shows its low 16 bits, and so does a fault record's (log 49). -/
def runWords (s : State) : List Word :=
  let r := s.run
  [wordOf r.state.code ||| bitAt (r.mode = .record) 4 ||| bitAt r.autoRoll 5 ||| bitAt r.requireReference 6
      ||| bitAt r.stopRequested 8 ||| bitAt r.rollRequested 9 ||| placed r.endCause.code 12,
    wordOf r.margin, wordOf r.cueLimit, match r.successor with | some e => wordOf e.val | none => 0xFFFF,
    wordOf r.lookahead.code, wordOfInt r.clock, wordOf r.cueCount, wordOf r.laCueCount]
    ++ r.cues.toList.map cueWord
    ++ [bitAt r.syncPassed 15 ||| r.insertsOn.setWidth 16 ||| placed r.abortCause.code 8, wordOf (r.awaited.length % 4),
        wordOf r.outstanding]
    ++ faultWords r.fault r.faultExtra ++ faultWords r.pendingFault r.pendingExtra
    ++ [wordOf r.lockLosses, wordOf r.notices, mkWord (awaitedByte r.awaited[0]?) (awaitedByte r.awaited[1]?)]

/-- A bus: its source code and input. -/
def busWord (m : Mixer) (x : MixSource) : Word := placed x.code.val 8 ||| (m.input x).setWidth 16

/-- Two crosspoint entries in a word. -/
def crossPair (f : Nat → Word) (k : Nat) : Word := f (2 * k) <<< 8 ||| f (2 * k + 1)

/-- The transitions group (09 R190). -/
def transitionWords (s : State) : List Word :=
  let m := s.mixer
  let cross := fun k => (m.crosspoints.toList.getD k 0).setWidth 16
  let pend := fun k => ((m.pendingCross.toList.getD k none).getD 0).setWidth 16
  [wordOf m.owner.code ||| bitAt m.frozen 4 ||| bitAt m.transition.isSome 8 ||| bitAt m.last.isSome 9, busWord m m.aBus,
    busWord m m.bBus, wordOf m.level, wordOf m.pattern]
    ++ (match m.transition with
        | some t =>
          [placed t.kind.code 8 ||| placed t.curve.code 4 ||| bitAt t.byProcessor 0, wordOf t.fields, wordOf t.k]
        | none => [0, 0, 0])
    ++ [match m.last with | some t => placed t.kind.code 8 ||| bitAt t.byProcessor 4 ||| wordOf t.outcome.code | none => 0]
    ++ (List.range 4).map (crossPair cross) ++ (List.range 4).map (crossPair pend)
    ++ [(List.finRange 8).foldl (fun w k => w ||| bitAt (m.pendingCross[k]).isSome k.val) 0]
    ++ (List.range 4).map (crossPair fun k => wordOf (m.timers.toList.getD k 0))
    ++ m.pulses.toList.map wordOf ++ m.retriggers.toList.map wordOf

/-- The group of the transport whose run of 32 words holds word `k`, and the word within it. -/
def perUnit (f : Transport → List Word) (k : Nat) : Word :=
  match Transport.ofNum? (k / 32) with
  | some n => (f n).getD (k % 32) 0
  | none => 0

/-- Word `k` of the status area, counted from its start (11.6). -/
def statusWord (s : State) (k : Nat) : Word :=
  if k < 0x10 then s.partWords.getD k 0
  else if k < 0x30 then s.resultWords.getD (k - 0x10) 0
  else if k < 0x40 then s.referenceWords.getD (k - 0x30) 0
  else if k < 0x60 then s.interruptWords.getD (k - 0x40) 0
  else if k < 0x120 then perUnit s.readerWords (k - 0x60)
  else if k < 0x1E0 then perUnit s.linkWords (k - 0x120)
  else if k < 0x2A0 then perUnit s.contextWords (k - 0x1E0)
  else if k < 0x360 then perUnit s.chaseWords (k - 0x2A0)
  else if k < 0x3B0 then s.tableWords.getD (k - 0x360) 0
  else if k < 0x3D0 then s.runWords.getD (k - 0x3B0) 0
  else s.transitionWords.getD (k - 0x3D0) 0

/-- Word `w` of a reply port as a byte read or a view read returns it: word 0 is the last header (01 R17). -/
def portWord (s : State) (n : Transport) (w : Nat) : Word :=
  if w = 0 then s.ptu.lastHeader.get n else viewWord (s.ptu.view.get n) w

/-- The word that a full-word read of an overlay offset returns, a take word giving its last header (01 R8). -/
def overlayWord (s : State) (offset : Nat) : Word :=
  if offset < 0x2800 then s.statusWord ((offset - 0x2000) / 2)
  else
    match Transport.ofNum? ((offset - 0x2800) / 32) with
    | some n => s.portWord n ((offset - 0x2800) / 2 % 16)
    | none => 0

end State

end Sys2Proof.Machine
end

