-- ==== Sys2Proof/Machine/Bus.lean ====
section
/-! DEFINITION. The bus side of the Pass-Through Unit (01): classes of cycle, stores, takes, the setup take,
read-modify-writes, acknowledge cycles. -/

namespace Sys2Proof.Machine

/-! ## Classes (01 R1, R12, R13) -/

/-- A watched word by its place in the region map (01 R12). -/
inductive Watched where
  | transport (n : Transport) (k : Fin 16)
  | chase (n : Transport) (k : Fin 16)
  | run (k : Fin 16)
  | switcher (k : Fin 16)
  | crosspoint (k : Fin 8)
  | level (k : Fin 16)
  | service
  deriving DecidableEq, Repr

/-- The region offset of a watched word. -/
def Watched.offset : Watched → Nat
  | .transport n k => 0x1000 + 32 * n.num + 2 * k.val
  | .chase n k => 0x1100 + 32 * n.num + 2 * k.val
  | .run k => 0x1200 + 2 * k.val
  | .switcher k => 0x1220 + 2 * k.val
  | .crosspoint k => 0x1240 + 2 * k.val
  | .level k => 0x1260 + 2 * k.val
  | .service => 0x1280

/-- What the address of a cycle selects. -/
inductive Target where
  | pass
  | setup (k : Fin 16)
  | event (e : Fin 64) (w : Fin 32)
  | watched (w : Watched)
  | overlay (offset : Nat)
  deriving DecidableEq, Repr

/-- A slot of six, by transport number. -/
def slotTarget (f : Transport → Fin 16 → Watched) (off : Nat) : Target :=
  match Transport.ofNum? (off / 32) with
  | some n => .watched (f n (Fin.ofNat 16 (off / 2)))
  | none => .pass

/-- The class of an offset of the suite region (01 R12). -/
def regionTarget (off : Nat) : Target :=
  if off < 0x1000 then .event (Fin.ofNat 64 (off / 64)) (Fin.ofNat 32 (off / 2))
  else if off < 0x1100 then slotTarget .transport (off - 0x1000)
  else if off < 0x1200 then slotTarget .chase (off - 0x1100)
  else if off < 0x1220 then .watched (.run (Fin.ofNat 16 (off / 2)))
  else if off < 0x1240 then .watched (.switcher (Fin.ofNat 16 (off / 2)))
  else if off < 0x1250 then .watched (.crosspoint (Fin.ofNat 8 (off / 2)))
  else if off < 0x1260 then .pass
  else if off < 0x1280 then .watched (.level (Fin.ofNat 16 (off / 2)))
  else if off < 0x1282 then .watched .service
  else if off < 0x2000 then .pass
  else if off < 0x28C0 then .overlay (off / 2 * 2)
  else .pass

/-- The setup block address of the straps (01 R13). -/
def setupAddr (straps : BitVec 2) : Addr :=
  match straps.toNat with
  | 0 => 0xFFFFC0 | 1 => 0xFF7FC0 | 2 => 0x7FFFC0 | _ => 0x3FFFC0

/-- Bits 23–14 of an address. -/
def highBits (a : Addr) : BitVec 10 := a.extractLsb' 14 10

/-- An address with bit 0 clear: the word it lies in (log 18). -/
def wordAddr (a : Addr) : Addr := a &&& 0xFFFFFE

namespace State

/-- The class of a cycle other than an acknowledge cycle (01 R1, tests 2 to 4). -/
def classify (s : State) (a : Addr) : Target :=
  let d := (a - setupAddr s.cfg.straps).toNat
  if d < 32 then .setup (Fin.ofNat 16 (d / 2))
  else
    match s.cfg.setup with
    | some u => if highBits a = u.regionBase then regionTarget (a.setWidth 14).toNat else .pass
    | none => .pass

/-- The class of a word of the region: PASS while UNCONFIGURED, when the region does not exist (01 R12, log 9). -/
def inRegion (s : State) (t : Target) : Target := if s.configured then t else .pass

/-- The address of a region offset. -/
def regionAddr (s : State) (off : Nat) : Addr := s.regionBase + BitVec.ofNat 24 off

/-! ## Cycles on the bus (01 R1; log 10) -/

/-- A cycle starts: what the bus shows is this cycle's. -/
def newCycle (s : State) : State := s.setPtu { s.ptu with bus := ⟨.none, none, []⟩ }

/-- A cycle is forwarded to the memory side, and ends as memory ends it. -/
def forward (s : State) (f : Forwarded) (mem : MemEnd) : State :=
  s.setPtu
    { s.ptu with
      bus :=
        { s.ptu.bus with
          forwarded := s.ptu.bus.forwarded ++ [f]
          ending := match mem with | .completes => .byMemory | .faults => .memFault } }

/-! ## Captures (01 R2, R6) -/

/-- The latch of a watched word. -/
def latch (s : State) (w : Watched) : Word := s.cfg.latches.read w.offset

/-- Capture a completed store in the latch of a watched word. -/
def capture (s : State) (w : Watched) (lanes : Strobes) (value : Word) : State :=
  s.setCfg { s.cfg with latches := s.cfg.latches.write w.offset (mergeLanes lanes (s.latch w) value) }

/-- Capture a completed store in the latch of a setup word. -/
def captureSetup (s : State) (k : Fin 16) (lanes : Strobes) (value : Word) : State :=
  s.setCfg
    { s.cfg with
      setupLatches := s.cfg.setupLatches.write k.val (mergeLanes lanes (s.cfg.setupLatches.read k.val) value) }

/-- Copy a completed store into the part's edit table, with the change of event state (01 R6, 07 R133, R134). -/
def copyEvent (s : State) (e : Fin 64) (w : Fin 32) (lanes : Strobes) (value : Word) : State :=
  let k := eventOffset e w.val
  (s.setCfg { s.cfg with eventWords := s.cfg.eventWords.write k (mergeLanes lanes (s.cfg.eventWords.read k) value) }
    ).setEventState e (storedState w.val lanes value)

/-! ## Hand-over (01 R3, R4, R5) -/

/-- The parameter words 6–12 of a chase slot, from the latches. -/
def paramLatches (s : State) (n : Transport) : ParamWords :=
  ⟨s.latch (.chase n 6), s.latch (.chase n 7), s.latch (.chase n 8), s.latch (.chase n 9), s.latch (.chase n 10),
    s.latch (.chase n 11), s.latch (.chase n 12)⟩

/-- A full-word store to a go word or a take word has completed: the record is handed over (01 R3). -/
def handOver (s : State) (w : Watched) : State :=
  match w with
  | .transport n 7 =>
    s.transportRecord n (s.latch (.transport n 0)) (s.latch (.transport n 1)) (s.latch (.transport n 2))
      (s.latch (.transport n 3))
  | .transport n 15 =>
    s.parameterRecord n (s.latch (.transport n 8)) (s.latch (.transport n 9)) (s.latch (.transport n 10))
      (s.latch (.transport n 11))
  | .chase n 15 =>
    s.chaseRecord n (s.latch (.chase n 0)) (s.latch (.chase n 1))
      ⟨s.latch (.chase n 2), s.latch (.chase n 3), s.latch (.chase n 4), s.latch (.chase n 5), s.paramLatches n⟩
  | .run 15 =>
    s.runRecord (s.latch (.run 0)) (s.latch (.run 1)) (s.latch (.run 2)) (s.latch (.run 3)) (s.latch (.run 4))
      (s.latch (.run 5)) (s.latch (.run 6))
  | .switcher 15 =>
    s.switcherRecord (s.latch (.switcher 0)) (s.latch (.switcher 1)) (s.latch (.switcher 2)) (s.latch (.switcher 3))
      (s.latch (.switcher 4)) (s.latch (.switcher 5))
  | _ => s

/-- The source whose level a level word sets (10 R193). -/
def levelSource (k : Fin 16) : Irq := Irq.all.getD k.val .frame

/-- What follows the capture of a completed store to a watched word (01 R3 to R5). -/
def afterCapture (s : State) (w : Watched) (lanes : Strobes) : State :=
  match w with
  | .crosspoint k => s.onMixer (·.crosspoint k (s.latch w))
  | .level k => s.setIru (s.iru.setLevel (levelSource k) (Fin.ofNat 8 (s.latch w).toNat))
  | .service => if lanes = .both then s.setIru s.iru.pop else s
  | _ => if lanes = .both then s.handOver w else s

/-- A store to a watched word (01 R2 to R5). -/
def storeWatched (s : State) (w : Watched) (a : Addr) (lanes : Strobes) (value : Word) (mem : MemEnd) (rmw : Bool) : State :=
  if w = .service ∧ lanes = .both ∧ s.iru.stack = [] then s.refuse .serviceEmpty a lanes rmw
  else
    let s := s.forward ⟨a, true, lanes, value⟩ mem
    match mem with
    | .completes => (s.capture w lanes value).afterCapture w lanes
    | .faults => s

/-- A store to the edit table (01 R6, 07 R133 to R135). -/
def storeEvent (s : State) (e : Fin 64) (w : Fin 32) (a : Addr) (lanes : Strobes) (value : Word) (mem : MemEnd) (rmw : Bool) :
    State :=
  if s.eventState e = .armed then s.refuse .eventArmed a lanes rmw
  else
    let s := s.forward ⟨a, true, lanes, value⟩ mem
    match mem with
    | .completes => s.copyEvent e w lanes value
    | .faults => s

/-! ## The setup take (01 R14 to R16) -/

/-- The setup record requested: the latches of words 0–14 with the value being stored to word 15. -/
def requestedSetup (s : State) : Option Setup := Setup.ofWords fun k => s.cfg.setupLatches.read k

/-- The first check of 01 R14 that refuses the take, or the record that passes. -/
def checkSetup (s : State) : Except AccessReason Setup :=
  match s.requestedSetup with
  | none => .error .setupStandard
  | some u =>
    if highBits (setupAddr s.cfg.straps) = u.regionBase then .error .setupOverlap
    else if s.configured && s.run.state != .idle then .error .setupRunActive
    else if s.configured && s.chases.toList.any (fun c => c.state != .idle) then .error .setupChaseActive
    else .ok u

/-- The setup record in force is replaced. -/
def setSetup (s : State) (u : Setup) : State := s.setCfg { s.cfg with setup := some u }

/-- Every deck link is told of the take (04 R65). -/
def tellLinks (s : State) : State := { s with links := s.links.map Link.setupTaken }

/-- Each condition source takes the state of its condition (10 R192). -/
def followConditions (s : State) : State :=
  forTransports Transport.all (fun n s => s.syncDeck n) s.syncRunFault

/-- A take while UNCONFIGURED (01 R15). -/
def firstTake (s : State) (u : Setup) : State := (s.setSetup u).followConditions.tellLinks

/-- A changed frame standard, the RTU's boundary apart (01 R16, 03 R58, 05 R107); the readers' raises come before the
reference's (log 52). -/
def changeStandard (s : State) : State :=
  let s := forTransports Transport.all (fun n s => s.putReader n (s.reader n).restart) s
  let s : State := { s with ctxs := s.ctxs.map ({ · with sensedPos := none }) }
  s.restandard

/-- A take while CONFIGURED (01 R16). -/
def retake (s : State) (u : Setup) (old : Standard) : State :=
  let wasLocked := s.rtu.state = .locked
  let s := s.setSetup u
  if u.standard = old then s.tellLinks
  else
    let s := s.changeStandard.tellLinks
    if wasLocked then s.overdueBoundary else s

/-- A take request: a full-word store to setup word 15 (01 R14). -/
def takeRequest (s : State) (a : Addr) (value : Word) (mem : MemEnd) (rmw : Bool) : State :=
  match s.checkSetup with
  | .error r => s.refuse r a .both rmw
  | .ok u =>
    let s := s.forward ⟨a, true, .both, value⟩ mem
    match mem with
    | .faults => s
    | .completes =>
      let s := s.captureSetup 15 .both value
      match s.cfg.setup with
      | none => s.firstTake u
      | some old => s.retake u old.standard

/-- A store to a word of the setup block (01 R14). -/
def storeSetup (s : State) (k : Fin 16) (a : Addr) (lanes : Strobes) (value : Word) (mem : MemEnd) (rmw : Bool) : State :=
  if k = 15 ∧ lanes = .both then s.takeRequest a value mem rmw
  else
    let s := s.forward ⟨a, true, lanes, value⟩ mem
    match mem with
    | .completes => s.captureSetup k lanes value
    | .faults => s

/-! ## Stores (01 R1) -/

/-- A store by its class. -/
def storeTo (s : State) (t : Target) (a : Addr) (lanes : Strobes) (value : Word) (mem : MemEnd) (rmw : Bool) : State :=
  match t with
  | .pass => s.forward ⟨a, true, lanes, value⟩ mem
  | .setup k => s.storeSetup k a lanes value mem rmw
  | .event e w => s.storeEvent e w a lanes value mem rmw
  | .watched w => s.storeWatched w a lanes value mem rmw
  | .overlay _ => s.refuse .overlayStore a lanes rmw

/-- A cycle starts only when no held read occupies the bus (01 R18, log 8). -/
def cycle (s : State) (f : State → State) : State := if s.busFree then f s.newCycle else s

/-- A store cycle to a word of the region. -/
def regionStore (s : State) (t : Target) (off : Nat) (lanes : Strobes) (value : Word) (mem : MemEnd) : State :=
  s.cycle fun s => s.storeTo (s.inRegion t) (s.regionAddr off) lanes value mem false

/-- One full-word store, completed by memory, to a watched word. -/
def slotStore (s : State) (w : Watched) (value : Word) : State :=
  s.storeTo (s.inRegion (.watched w)) (s.regionAddr w.offset) .both value .completes false

/-- The full-word stores of a record, in order, its go word or take word last; memory completes them (log 7). -/
def slotRecord (s : State) (ws : List (Watched × Word)) : State :=
  s.cycle fun s => ws.foldl (fun s p => s.slotStore p.1 p.2) s

/-! ## Takes (01 R17, R18) -/

/-- The hold limit in force, in clock units. -/
def holdUnits (s : State) : Nat := match s.cfg.setup with | some u => u.holdLimit.toNat * Config.holdUnits | none => 0

/-- The read is held (01 R18). -/
def hold (s : State) (n : Transport) (half : Option Strobes) : State :=
  (s.setPtu { s.ptu with hold := some ⟨n, s.holdUnits, half⟩ }).endCycle .held

/-- A full-word read of a take word; `half` is the write half that follows it in a read-modify-write (01 R10, R17). -/
def takeRead (s : State) (n : Transport) (half : Option Strobes) : State :=
  match (s.ctx n).fifo with
  | e :: rest => ((s.popFifo n e rest).completeTake n (e.header rest.length .none)).takeWriteHalf n half
  | [] =>
    if s.holdUnits = 0 then (s.completeTake n (emptyHeader .none)).takeWriteHalf n half
    else if s.iru.top < s.iru.request then (s.completeTake n (emptyHeader .interrupt)).takeWriteHalf n half
    else s.hold n half

/-- A read that the part does not answer is forwarded (01 R1). -/
def passRead (s : State) (a : Addr) (lanes : Strobes) (mem : MemEnd) : State := s.forward ⟨a, false, lanes, 0⟩ mem

/-- The hold time runs out (01 R18). -/
def holdTimedOut (s : State) : State :=
  match s.ptu.hold with
  | some h => s.completeHold h (emptyHeader .timeout)
  | none => s

/-! ## Read-modify-writes (01 R10) -/

/-- The reply port whose take word lies at an overlay offset. -/
def takeWordOf? (off : Nat) : Option Transport :=
  if 0x2800 ≤ off ∧ off % 32 = 0 then Transport.ofNum? ((off - 0x2800) / 32) else none

/-- The read half of a read-modify-write on an overlay word, and the write half's refusal. -/
def overlayModify (s : State) (off : Nat) (a : Addr) (lanes : Strobes) : State :=
  match takeWordOf? off, lanes with
  | some n, .both => s.takeRead n (some .both)
  | _, _ => (s.answer (selectLanes lanes (s.overlayWord off))).refuse .overlayStore a lanes true

/-- A read-modify-write cycle by its class. -/
def modify (s : State) (t : Target) (a : Addr) (lanes : Strobes) (value : Word) (readMem writeMem : MemEnd) : State :=
  match t with
  | .overlay off => s.overlayModify off a lanes
  | t =>
    let s := s.passRead a lanes readMem
    match readMem with
    | .faults => s
    | .completes => s.storeTo t a lanes value writeMem true

/-! ## Acknowledge cycles (10 R195) -/

/-- A vector of the setup record in force. -/
def vector (s : State) (k : Nat) : Byte :=
  match s.cfg.setup with | some u => u.vectorBase + BitVec.ofNat 8 k | none => BitVec.ofNat 8 k

/-- The answer with a vector: it is returned as data and recorded, and the driven set is emptied. -/
def answerVector (s : State) (v : Byte) (f : Iru → Iru) : State :=
  let u := f { s.iru with lastVector := v, driven := Vector.replicate 8 false }
  (s.setIru u.reform).answer (v.setWidth 16)

/-- The source is pushed, and its flag cleared if it is an event source. -/
def pushSource (m : Level) (i : Irq) (u : Iru) : Iru :=
  let u := { u with stack := (m, i) :: u.stack }
  if i.condition then u else u.setPending i false

/-- READER and CHASE answers clear the change flags of their block (03 R55, 06 R126). -/
def clearChangeFlags (s : State) (i : Irq) : State :=
  match i with
  | .reader => { s with readers := s.readers.map ({ · with changeFlag := false }) }
  | .chase => { s with chases := s.chases.map ({ · with changeFlag := false }) }
  | _ => s

/-- The level that an acknowledge cycle carries, on address lines 3–1 (01 R1). -/
def ackLevel (a : Addr) : Level := (a.extractLsb' 1 3).toFin

/-- An acknowledge cycle handed to the Interrupt Unit (10 R195); released, or while UNCONFIGURED, it is forwarded with its
own address and strobes and ends as memory ends it (01 R1). -/
def acknowledge (s : State) (a : Addr) (lanes : Strobes) (mem : MemEnd) : State :=
  let m := ackLevel a
  if s.configured && m != 0 && s.iru.driven[m] then
    match Irq.all.find? fun i => s.iru.isPending i && s.iru.level i = m with
    | some i => (s.answerVector (s.vector i.num.val) (pushSource m i)).clearChangeFlags i
    | none => s.answerVector (s.vector 16) fun u => { u with spurious := satSucc 65535 u.spurious }
  else s.passRead a lanes mem

end State

end Sys2Proof.Machine
end

