-- ==== Sys2Proof/Machine/BusCycles.lean ====
section
/-! DEFINITION. Meanings of the commands that are a reset or a bus cycle (01, 10), and of the end of a hold. -/

namespace Sys2Proof.Machine

/-- How the bus stands after a system reset: a held cycle is abandoned (01 R21). -/
def resetEnding (s : State) : CycleEnd := if s.ptu.hold.isSome then .abandoned else .none

/-- SYSTEM_RESET (01 R20, R21): every block at its reset values, the straps sampled. -/
def execSystemReset (straps : BitVec 2) (s : State) : Host.Outcome State Fault Refusal :=
  .next (.resetWith s.pending s.free straps (resetEnding s))

/-- ACKNOWLEDGE_CYCLE (10 R195, 01 R1): the level is on address lines 3–1; a released cycle is forwarded as it came. -/
def execAcknowledgeCycle (cycle : AckCycle) (s : State) : Host.Outcome State Fault Refusal :=
  .next (s.cycle (·.acknowledge (wordAddr cycle.addr) cycle.lanes cycle.mem))

/-- SETUP_TAKE (01 R14 to R16): a full-word store to setup word 15. -/
def execSetupTake (value : Word) (mem : MemEnd) (s : State) : Host.Outcome State Fault Refusal :=
  .next (s.cycle fun s => s.takeRequest (setupAddr s.cfg.straps + 30) value mem false)

/-- WATCHED_WORD_STORE (01 R2): a store cycle, by the class of its address. -/
def execWatchedWordStore (addr : Addr) (lanes : Strobes) (value : Word) (mem : MemEnd) (s : State) :
    Host.Outcome State Fault Refusal :=
  .next (s.cycle fun s => s.storeTo (s.classify (wordAddr addr)) (wordAddr addr) lanes value mem false)

/-- READ_MODIFY_WRITE (01 R10). -/
def execReadModifyWrite (addr : Addr) (lanes : Strobes) (value : Word) (readMem writeMem : MemEnd) (s : State) :
    Host.Outcome State Fault Refusal :=
  .next (s.cycle fun s => s.modify (s.classify (wordAddr addr)) (wordAddr addr) lanes value readMem writeMem)

/-- OVERLAY_STORE (01 R9): a store to a region offset of the status area or the reply ports; memory answers it only
while UNCONFIGURED, when it is forwarded (logs 9 and 43). -/
def execOverlayStore (offset : BitVec 14) (lanes : Strobes) (data : StoreData) (s : State) : Host.Outcome State Fault Refusal :=
  .next (s.regionStore (regionTarget offset.toNat) (offset.toNat / 2 * 2) lanes data.value data.mem)

/-- EVENT_WORD_STORE (01 R6, 07 R133). -/
def execEventWordStore (event : Fin 64) (word : Fin 32) (lanes : Strobes) (value : Word) (mem : MemEnd) (s : State) :
    Host.Outcome State Fault Refusal :=
  .next (s.regionStore (.event event word) (eventOffset event word.val) lanes value mem)

/-- KIND_WORD_STORE (01 R6, 07 R134). -/
def execKindWordStore (event : Fin 64) (lanes : Strobes) (value : Word) (mem : MemEnd) (s : State) :
    Host.Outcome State Fault Refusal :=
  .next (s.regionStore (.event event 0) (eventOffset event 0) lanes value mem)

/-- SERVICE_DONE (01 R5, 10 R197): a full-word store to the service-done word. -/
def execServiceDone (value : Word) (mem : MemEnd) (s : State) : Host.Outcome State Fault Refusal :=
  .next (s.regionStore (.watched .service) Watched.service.offset .both value mem)

/-- CROSSPOINT_STORE (01 R4, 09 R179). -/
def execCrosspointStore (entry : Fin 8) (lanes : Strobes) (value : Word) (mem : MemEnd) (s : State) :
    Host.Outcome State Fault Refusal :=
  .next (s.regionStore (.watched (.crosspoint entry)) (Watched.crosspoint entry).offset lanes value mem)

/-- LEVEL_STORE (01 R4, 10 R193). -/
def execLevelStore (source : Fin 16) (lanes : Strobes) (value : Word) (mem : MemEnd) (s : State) :
    Host.Outcome State Fault Refusal :=
  .next (s.regionStore (.watched (.level source)) (Watched.level source).offset lanes value mem)

/-- TAKE (01 R17, R18, 05 R102): a full-word read of a take word; forwarded to memory while UNCONFIGURED (logs 9
and 43). -/
def execTake (read : TakeRead) (s : State) : Host.Outcome State Fault Refusal :=
  .next (s.cycle fun s =>
    if s.configured then s.takeRead read.port none else s.passRead (s.takeAddr read.port) .both read.mem)

/-- HOLD_TIMEOUT (01 R18): the hold time of a held read has run out. -/
def execHoldTimeout (s : State) : Host.Outcome State Fault Refusal := .next s.holdTimedOut

end Sys2Proof.Machine
end

