-- ==== Sys2Proof/Machine/Commands.lean ====
section
/-! DEFINITION. Meanings of the slot commands: each is the full-word stores of its record, the go word or take word
last (01 R3, 11.3; log 7), and so the hand-over to the owner of the slot. -/

namespace Sys2Proof.Machine

/-- The first words of a command record: the command code and the tag (11.3). -/
def slotHead (slot : Fin 16 → Watched) (code tag : Word) : List (Watched × Word) := [(slot 0, code), (slot 1, tag)]

/-- The parameter words 6–12 of a chase slot (11.3). -/
def paramStores (n : Transport) (p : ParamWords) : List (Watched × Word) :=
  [(.chase n 6, p.gains), (.chase n 7, p.corrLimit), (.chase n 8, p.slewWindow), (.chase n 9, p.countGain),
    (.chase n 10, p.approach), (.chase n 11, p.shuttleMax), (.chase n 12, p.holdLimit)]

/-- The slot a SlotName names, and its go word. -/
def slotOf : SlotName → (Fin 16 → Watched) × Fin 16
  | .transport n => (.transport n, 7)
  | .chase n => (.chase n, 15)
  | .run => (.run, 15)
  | .switcher => (.switcher, 15)

/-- HALT (05 R91 to R95, R175; 04 R67). -/
def execHalt (n : Transport) (tag : Word) (s : State) : Host.Outcome State Fault Refusal :=
  .next (s.slotRecord (slotHead (.transport n) 1 tag ++ [(.transport n 7, 0)]))

/-- RUN (05 R91 to R94). -/
def execRun (n : Transport) (tag : Word) (s : State) : Host.Outcome State Fault Refusal :=
  .next (s.slotRecord (slotHead (.transport n) 2 tag ++ [(.transport n 7, 0)]))

/-- SPEED (05 R91 to R93, R95). -/
def execSpeed (n : Transport) (tag value : Word) (s : State) : Host.Outcome State Fault Refusal :=
  .next (s.slotRecord (slotHead (.transport n) 3 tag ++ [(.transport n 2, value)] ++ [(.transport n 7, 0)]))

/-- LOCATE (05 R91 to R94, 04 R61). -/
def execLocate (n : Transport) (tag labelHi labelLo : Word) (s : State) : Host.Outcome State Fault Refusal :=
  .next (s.slotRecord (slotHead (.transport n) 4 tag ++ [(.transport n 2, labelHi), (.transport n 3, labelLo)] ++ [(.transport n 7, 0)]))

/-- ARM (05 R91 to R94). -/
def execArm (n : Transport) (tag mask : Word) (s : State) : Host.Outcome State Fault Refusal :=
  .next (s.slotRecord (slotHead (.transport n) 5 tag ++ [(.transport n 2, mask)] ++ [(.transport n 7, 0)]))

/-- INSERT_ON (05 R91 to R94). -/
def execInsertOn (n : Transport) (tag mask : Word) (s : State) : Host.Outcome State Fault Refusal :=
  .next (s.slotRecord (slotHead (.transport n) 6 tag ++ [(.transport n 2, mask)] ++ [(.transport n 7, 0)]))

/-- INSERT_OFF (05 R91 to R94). -/
def execInsertOff (n : Transport) (tag mask : Word) (s : State) : Host.Outcome State Fault Refusal :=
  .next (s.slotRecord (slotHead (.transport n) 7 tag ++ [(.transport n 2, mask)] ++ [(.transport n 7, 0)]))

/-- SENSE (05 R91 to R94). -/
def execSense (n : Transport) (tag : Word) (s : State) : Host.Outcome State Fault Refusal :=
  .next (s.slotRecord (slotHead (.transport n) 8 tag ++ [(.transport n 7, 0)]))

/-- STANDBY (05 R91 to R94). -/
def execStandby (n : Transport) (tag setting : Word) (s : State) : Host.Outcome State Fault Refusal :=
  .next (s.slotRecord (slotHead (.transport n) 9 tag ++ [(.transport n 2, setting)] ++ [(.transport n 7, 0)]))

/-- CLEAR_ERRORS (05 R96, 04 R78). -/
def execClearErrors (n : Transport) (tag : Word) (s : State) : Host.Outcome State Fault Refusal :=
  .next (s.slotRecord (slotHead (.transport n) 10 tag ++ [(.transport n 7, 0)]))

/-- DECK_RESET (05 R97, 04 R79). -/
def execDeckReset (n : Transport) (tag : Word) (s : State) : Host.Outcome State Fault Refusal :=
  .next (s.slotRecord (slotHead (.transport n) 11 tag ++ [(.transport n 7, 0)]))

/-- PARAMETER_TAKE (05 R90): the deck parameter record and its take word. -/
def execParameterTake (n : Transport) (tag latency tolerance timeout : Word) (s : State) : Host.Outcome State Fault Refusal :=
  .next (s.slotRecord
    [(.transport n 8, tag), (.transport n 9, latency), (.transport n 10, tolerance), (.transport n 11, timeout),
      (.transport n 15, 0)])

/-- CHASE_START (06 R109 to R112). -/
def execChaseStart (n : Transport) (tag : Word) (args : ChaseArgs) (s : State) : Host.Outcome State Fault Refusal :=
  .next (s.slotRecord (slotHead (.chase n) 1 tag
    ++ [(.chase n 2, args.master), (.chase n 3, args.sign), (.chase n 4, args.labelHi), (.chase n 5, args.labelLo)]
    ++ paramStores n args.params ++ [(.chase n 15, 0)]))

/-- CHASE_STOP (06 R113). -/
def execChaseStop (n : Transport) (tag : Word) (s : State) : Host.Outcome State Fault Refusal :=
  .next (s.slotRecord (slotHead (.chase n) 2 tag ++ [(.chase n 15, 0)]))

/-- PARAMS (06 R114, R108). -/
def execParams (n : Transport) (tag : Word) (set : ParamWords) (s : State) : Host.Outcome State Fault Refusal :=
  .next (s.slotRecord (slotHead (.chase n) 3 tag ++ paramStores n set ++ [(.chase n 15, 0)]))

/-- START_RUN (08 R148, R149). -/
def execStartRun (tag first mode autoRoll margin limit : Word) (s : State) : Host.Outcome State Fault Refusal :=
  .next (s.slotRecord (slotHead .run 1 tag
    ++ [(.run 2, first), (.run 3, mode), (.run 4, autoRoll), (.run 5, margin), (.run 6, limit)] ++ [(.run 15, 0)]))

/-- ROLL (08 R148, R150). -/
def execRoll (tag : Word) (s : State) : Host.Outcome State Fault Refusal :=
  .next (s.slotRecord (slotHead .run 2 tag ++ [(.run 15, 0)]))

/-- STOP (08 R148, R171). -/
def execStop (tag : Word) (s : State) : Host.Outcome State Fault Refusal :=
  .next (s.slotRecord (slotHead .run 3 tag ++ [(.run 15, 0)]))

/-- ABORT (08 R148, R151, R173). -/
def execAbort (tag : Word) (s : State) : Host.Outcome State Fault Refusal :=
  .next (s.slotRecord (slotHead .run 4 tag ++ [(.run 15, 0)]))

/-- CLEAR_FAULT (08 R148, R151). -/
def execClearFault (tag : Word) (s : State) : Host.Outcome State Fault Refusal :=
  .next (s.slotRecord (slotHead .run 5 tag ++ [(.run 15, 0)]))

/-- SET_NEXT (08 R148, R152). -/
def execSetNext (tag next : Word) (s : State) : Host.Outcome State Fault Refusal :=
  .next (s.slotRecord (slotHead .run 6 tag ++ [(.run 2, next)] ++ [(.run 15, 0)]))

/-- CLEAR_ALL (08 R148, R153, R174). -/
def execClearAll (tag : Word) (s : State) : Host.Outcome State Fault Refusal :=
  .next (s.slotRecord (slotHead .run 7 tag ++ [(.run 15, 0)]))

/-- SET_SUITE_CLOCK (08 R148, R151, 02 R33). -/
def execSetSuiteClock (tag labelHi labelLo : Word) (s : State) : Host.Outcome State Fault Refusal :=
  .next (s.slotRecord (slotHead .run 8 tag ++ [(.run 2, labelHi), (.run 3, labelLo)] ++ [(.run 15, 0)]))

/-- MIXER_SET (09 R185, R186). -/
def execMixerSet (tag a b level pattern : Word) (s : State) : Host.Outcome State Fault Refusal :=
  .next (s.slotRecord (slotHead .switcher 1 tag ++ [(.switcher 2, a), (.switcher 3, b), (.switcher 4, level), (.switcher 5, pattern)]
    ++ [(.switcher 15, 0)]))

/-- AUTO_TRANS (09 R185, R187). -/
def execAutoTrans (tag kind length curve pattern : Word) (s : State) : Host.Outcome State Fault Refusal :=
  .next (s.slotRecord (slotHead .switcher 2 tag ++ [(.switcher 2, kind), (.switcher 3, length), (.switcher 4, curve),
      (.switcher 5, pattern)] ++ [(.switcher 15, 0)]))

/-- GPI_PULSE (09 R185, R189). -/
def execGpiPulse (tag line width : Word) (s : State) : Host.Outcome State Fault Refusal :=
  .next (s.slotRecord (slotHead .switcher 3 tag ++ [(.switcher 2, line), (.switcher 3, width)] ++ [(.switcher 15, 0)]))

/-- RESERVED_COMMAND (11 R203, R202; 05 R92, 06 R109, 08 R148, 09 R185): a record whose command word is `command`. -/
def execReservedCommand (slot : SlotName) (command tag : Word) (s : State) : Host.Outcome State Fault Refusal :=
  .next (s.slotRecord (slotHead (slotOf slot).1 command tag ++ [((slotOf slot).1 (slotOf slot).2, 0)]))

end Sys2Proof.Machine
end

