-- ==== Sys2Proof/Machine/Events.lean ====
section
/-! DEFINITION. Meanings of the commands that are an event on a pin, the running out of a timer, or a boundary. -/

namespace Sys2Proof.Machine

/-! ## The house reference (02) -/

/-- FRAME_PULSE (02 R26 to R31). -/
def execFramePulse (s : State) : Host.Outcome State Fault Refusal := .next s.framePulse

/-- FIELD_PULSE (02 R25). -/
def execFieldPulse (s : State) : Host.Outcome State Fault Refusal := .next s.fieldPulse

/-- ACQUIRE_TIMEOUT (02 R27). -/
def execAcquireTimeout (s : State) : Host.Outcome State Fault Refusal := .next s.acquireTimeout

/-- GENERATED_BOUNDARY (02 R29). -/
def execGeneratedBoundary (s : State) : Host.Outcome State Fault Refusal := .next s.generatedBoundary

/-- REFERENCE_LOST (02 R30). -/
def execReferenceLost (s : State) : Host.Outcome State Fault Refusal := .next s.referenceLost

/-- FRAME_BOUNDARY (02 R23, R24). -/
def execFrameBoundary (s : State) : Host.Outcome State Fault Refusal := .next s.wrapBoundary

/-- FIELD_2_BOUNDARY (02 R25). -/
def execField2Boundary (s : State) : Host.Outcome State Fault Refusal := .next s.field2Point

/-! ## The timecode readers (03) -/

/-- TIMECODE_WORD (03 R41 to R47). -/
def execTimecodeWord (n : Transport) (bits : BitVec 80) (s : State) : Host.Outcome State Fault Refusal :=
  .next (s.tapeWord n bits)

/-- READER_COASTING (03 R48). -/
def execReaderCoasting (n : Transport) (cause : FrameCause) (s : State) : Host.Outcome State Fault Refusal :=
  .next (s.markedFrame cause (.readerCoasting n))

/-- READER_LOST (03 R48). -/
def execReaderLost (n : Transport) (cause : FrameCause) (s : State) : Host.Outcome State Fault Refusal :=
  .next (s.markedFrame cause (.readerLost n))

/-! ## The deck links (04, 05) -/

/-- DECK_REPLY (04 R71 to R73). -/
def execDeckReply (n : Transport) (chars : List RxChar) (s : State) : Host.Outcome State Fault Refusal :=
  .next (s.receive n chars)

/-- GAP_ERROR (04 R71). -/
def execGapError (n : Transport) (s : State) : Host.Outcome State Fault Refusal := .next (s.gapExpired n)

/-- NOTICE (05 R88): the characters of a notice frame arrive. -/
def execNotice (n : Transport) (code : Byte) (s : State) : Host.Outcome State Fault Refusal :=
  .next (s.receive n (State.noticeChars code))

/-- TRANSMIT_COMPLETE (04 R70). -/
def execTransmitComplete (n : Transport) (s : State) : Host.Outcome State Fault Refusal := .next (s.transmitDone n)

/-- REPLY_TIMEOUT (04 R75, R76, R66, R81). -/
def execReplyTimeout (n : Transport) (s : State) : Host.Outcome State Fault Refusal := .next (s.replyTimedOut n)

/-- BREAK_END (04 R80). -/
def execBreakEnd (n : Transport) (s : State) : Host.Outcome State Fault Refusal := .next (s.breakEnded n)

/-- PROBE_INTERVAL_EXPIRY (04 R65). -/
def execProbeIntervalExpiry (n : Transport) (cause : FrameCause) (s : State) : Host.Outcome State Fault Refusal :=
  .next (s.markedFrame cause (.probe n))

/-! ## Chase and run (06, 08) -/

/-- HOLD_EXPIRED (06 R127). -/
def execHoldExpired (n : Transport) (cause : FrameCause) (s : State) : Host.Outcome State Fault Refusal :=
  .next (s.markedFrame cause (.holdExpired n))

/-- CHASE_LOCK (06 R124). -/
def execChaseLock (n : Transport) (cause : FrameCause) (s : State) : Host.Outcome State Fault Refusal :=
  .next (s.markedFrame cause (.chaseLock n))

/-- CHASE_SLIP (06 R124). -/
def execChaseSlip (n : Transport) (cause : FrameCause) (s : State) : Host.Outcome State Fault Refusal :=
  .next (s.markedFrame cause (.chaseSlip n))

/-- SENSE_POLL (08 R158). -/
def execSensePoll (n : Transport) (cause : FrameCause) (s : State) : Host.Outcome State Fault Refusal :=
  .next (s.markedFrame cause (.sensePoll n))

/-- CUE_TIMEOUT (08 R159). -/
def execCueTimeout (cause : FrameCause) (s : State) : Host.Outcome State Fault Refusal :=
  .next (s.markedFrame cause .cueTimeout)

/-- LOOKAHEAD_CUE_TIMEOUT (08 R169). -/
def execLookaheadCueTimeout (cause : FrameCause) (s : State) : Host.Outcome State Fault Refusal :=
  .next (s.markedFrame cause .lookaheadCueTimeout)

/-! ## The Transition Generator (09) -/

/-- TRANSITION_END (09 R183, R187). -/
def execTransitionEnd (cause : FieldCause) (s : State) : Host.Outcome State Fault Refusal :=
  .next (s.markedField cause .transitionEnd)

/-- SWITCHER_FRAME_SENT (09 R180). -/
def execSwitcherFrameSent (s : State) : Host.Outcome State Fault Refusal := .next (s.onMixer Mixer.sent)

/-- GPI_PULSE_END (09 R189). -/
def execGpiPulseEnd (line : Fin 8) (cause : FrameCause) (s : State) : Host.Outcome State Fault Refusal :=
  .next (s.markedFrame cause (.gpiPulseEnd line))

end Sys2Proof.Machine
end

