-- ==== Sys2Proof/Machine/Dispatch.lean ====
section
/-! DEFINITION. One arm for each command: the meaning it calls. -/

namespace Sys2Proof.Machine

def exec (i : Instr) (s : State) : Host.Outcome State Fault Refusal :=
  match i with
  | .systemReset straps => Sys2Proof.Machine.execSystemReset straps s
  | .acknowledgeCycle cycle => Sys2Proof.Machine.execAcknowledgeCycle cycle s
  | .setupTake value mem => Sys2Proof.Machine.execSetupTake value mem s
  | .watchedWordStore addr lanes value mem => Sys2Proof.Machine.execWatchedWordStore addr lanes value mem s
  | .readModifyWrite addr lanes value readMem writeMem => Sys2Proof.Machine.execReadModifyWrite addr lanes value readMem writeMem s
  | .overlayStore offset lanes data => Sys2Proof.Machine.execOverlayStore offset lanes data s
  | .eventWordStore event word lanes value mem => Sys2Proof.Machine.execEventWordStore event word lanes value mem s
  | .kindWordStore event lanes value mem => Sys2Proof.Machine.execKindWordStore event lanes value mem s
  | .serviceDone value mem => Sys2Proof.Machine.execServiceDone value mem s
  | .crosspointStore entry lanes value mem => Sys2Proof.Machine.execCrosspointStore entry lanes value mem s
  | .levelStore source lanes value mem => Sys2Proof.Machine.execLevelStore source lanes value mem s
  | .take read => Sys2Proof.Machine.execTake read s
  | .holdTimeout => Sys2Proof.Machine.execHoldTimeout s
  | .halt n tag => Sys2Proof.Machine.execHalt n tag s
  | .run n tag => Sys2Proof.Machine.execRun n tag s
  | .speed n tag value => Sys2Proof.Machine.execSpeed n tag value s
  | .locate n tag labelHi labelLo => Sys2Proof.Machine.execLocate n tag labelHi labelLo s
  | .arm n tag mask => Sys2Proof.Machine.execArm n tag mask s
  | .insertOn n tag mask => Sys2Proof.Machine.execInsertOn n tag mask s
  | .insertOff n tag mask => Sys2Proof.Machine.execInsertOff n tag mask s
  | .sense n tag => Sys2Proof.Machine.execSense n tag s
  | .standby n tag setting => Sys2Proof.Machine.execStandby n tag setting s
  | .clearErrors n tag => Sys2Proof.Machine.execClearErrors n tag s
  | .deckReset n tag => Sys2Proof.Machine.execDeckReset n tag s
  | .parameterTake n tag latency tolerance timeout => Sys2Proof.Machine.execParameterTake n tag latency tolerance timeout s
  | .chaseStart n tag args => Sys2Proof.Machine.execChaseStart n tag args s
  | .chaseStop n tag => Sys2Proof.Machine.execChaseStop n tag s
  | .params n tag set => Sys2Proof.Machine.execParams n tag set s
  | .startRun tag first mode autoRoll margin limit => Sys2Proof.Machine.execStartRun tag first mode autoRoll margin limit s
  | .roll tag => Sys2Proof.Machine.execRoll tag s
  | .stop tag => Sys2Proof.Machine.execStop tag s
  | .abort tag => Sys2Proof.Machine.execAbort tag s
  | .clearFault tag => Sys2Proof.Machine.execClearFault tag s
  | .setNext tag next => Sys2Proof.Machine.execSetNext tag next s
  | .clearAll tag => Sys2Proof.Machine.execClearAll tag s
  | .setSuiteClock tag labelHi labelLo => Sys2Proof.Machine.execSetSuiteClock tag labelHi labelLo s
  | .mixerSet tag a b level pattern => Sys2Proof.Machine.execMixerSet tag a b level pattern s
  | .autoTrans tag kind length curve pattern => Sys2Proof.Machine.execAutoTrans tag kind length curve pattern s
  | .gpiPulse tag line width => Sys2Proof.Machine.execGpiPulse tag line width s
  | .framePulse => Sys2Proof.Machine.execFramePulse s
  | .fieldPulse => Sys2Proof.Machine.execFieldPulse s
  | .acquireTimeout => Sys2Proof.Machine.execAcquireTimeout s
  | .generatedBoundary => Sys2Proof.Machine.execGeneratedBoundary s
  | .referenceLost => Sys2Proof.Machine.execReferenceLost s
  | .frameBoundary => Sys2Proof.Machine.execFrameBoundary s
  | .field2Boundary => Sys2Proof.Machine.execField2Boundary s
  | .timecodeWord n bits => Sys2Proof.Machine.execTimecodeWord n bits s
  | .readerCoasting n cause => Sys2Proof.Machine.execReaderCoasting n cause s
  | .readerLost n cause => Sys2Proof.Machine.execReaderLost n cause s
  | .deckReply n chars => Sys2Proof.Machine.execDeckReply n chars s
  | .gapError n => Sys2Proof.Machine.execGapError n s
  | .notice n code => Sys2Proof.Machine.execNotice n code s
  | .transmitComplete n => Sys2Proof.Machine.execTransmitComplete n s
  | .replyTimeout n => Sys2Proof.Machine.execReplyTimeout n s
  | .breakEnd n => Sys2Proof.Machine.execBreakEnd n s
  | .probeIntervalExpiry n cause => Sys2Proof.Machine.execProbeIntervalExpiry n cause s
  | .holdExpired n cause => Sys2Proof.Machine.execHoldExpired n cause s
  | .chaseLock n cause => Sys2Proof.Machine.execChaseLock n cause s
  | .chaseSlip n cause => Sys2Proof.Machine.execChaseSlip n cause s
  | .sensePoll n cause => Sys2Proof.Machine.execSensePoll n cause s
  | .cueTimeout cause => Sys2Proof.Machine.execCueTimeout cause s
  | .lookaheadCueTimeout cause => Sys2Proof.Machine.execLookaheadCueTimeout cause s
  | .transitionEnd cause => Sys2Proof.Machine.execTransitionEnd cause s
  | .switcherFrameSent => Sys2Proof.Machine.execSwitcherFrameSent s
  | .gpiPulseEnd line cause => Sys2Proof.Machine.execGpiPulseEnd line cause s
  | .reservedCommand slot command tag => Sys2Proof.Machine.execReservedCommand slot command tag s

end Sys2Proof.Machine
end

