-- ==== Sys2Proof/Machine/Ticks.lean ====
section
/-! DEFINITION. The timed event that is due as the counters and timers now stand, for a step on an empty queue (log 1). -/

namespace Sys2Proof.Machine

namespace State

/-- A due event of the free-running counters (02 R23, R25, R27).  Field 2 is due wherever the phase counter stands at 32 with
field-2 made no, also when LOCKED has just been left with the counter there (log 44). -/
def freeDue (s : State) : Option Instr :=
  if s.rtu.state = .acquiring ∧ 128 ≤ s.rtu.pulseTimer then some .acquireTimeout
  else if s.rtu.phase = 32 ∧ s.rtu.field2Made = false then some .field2Boundary
  else if 64 ≤ s.rtu.phase then some .frameBoundary
  else none

/-- A due event of the pulse timer in LOCKED (02 R25, R29, R30). -/
def lockedDue (s : State) : Option Instr :=
  if s.rtu.pulseTimer = 36 ∧ s.rtu.field2Made = false then some .field2Boundary
  else if 64 ≤ s.rtu.pulseTimer ∧ s.rtu.owed = false then some .generatedBoundary
  else if 72 ≤ s.rtu.pulseTimer ∧ s.rtu.owed = true then some .referenceLost
  else none

/-- A due event of one link's timers (04 R70, R71, R75, R80). -/
def linkDue (s : State) (n : Transport) : Option Instr :=
  let l := s.link n
  if l.breakLeft = some 0 then some (.breakEnd n)
  else if l.tx.map (·.left) = some 0 then some (.transmitComplete n)
  else if l.replyTimer = some 0 then some (.replyTimeout n)
  else if l.gapLeft = some 0 then some (.gapError n)
  else none

/-- The hold time has run out (01 R18). -/
def holdDue (s : State) : Option Instr := if s.ptu.hold.map (·.left) = some 0 then some .holdTimeout else none

/-- The switcher frame has been sent (09 R180). -/
def switcherDue (s : State) : Option Instr :=
  match s.mixer.tx with
  | .sending _ 0 _ => some .switcherFrameSent
  | _ => none

/-- The first timed event that is due, in the fixed order of log 1; none while UNCONFIGURED. -/
def due (s : State) : Option Instr :=
  if s.configured then
    (if s.rtu.state = .locked then s.lockedDue else s.freeDue)
      <|> Transport.all.findSome? s.linkDue <|> s.holdDue <|> s.switcherDue
  else none

end State

end Sys2Proof.Machine
end

