-- ==== Sys2Proof/WellFormed.lean ====
section
/-! DEFINITION. The commands whose operands lie in the ranges of their row.  `exec` does not ask for it: a command
outside its row's range is taken by the rules of what it then is. -/

namespace Sys2Proof

/-- The command codes of a slot (11.3): 1–11 transport, 1–3 chase, 1–8 run control, 1–3 switcher. -/
def SlotName.lastCommand : SlotName → Nat
  | .transport _ => 11
  | .chase _ => 3
  | .run => 8
  | .switcher => 3

/-- The code names a command of the slot (11.3). -/
def SlotName.names (slot : SlotName) (command : Word) : Bool :=
  decide (1 ≤ command.toNat) && decide (command.toNat ≤ slot.lastCommand)

/-- An address of a word: bit 0 is no line of the bus (00 section 7.1, log 18). -/
def wordAligned (a : Addr) : Bool := !a.getLsbD 0

/-- The operands lie in the ranges of the command's row. -/
def Instr.wf : Instr → Bool
  | .acknowledgeCycle cycle => wordAligned cycle.addr && cycle.addr.extractLsb' 1 3 != 0
  | .watchedWordStore addr _ _ _ => wordAligned addr
  | .readModifyWrite addr _ _ _ _ => wordAligned addr
  | .overlayStore offset _ _ => decide (0x2000 ≤ offset.toNat) && decide (offset.toNat < 0x28C0)
  | .eventWordStore _ word _ _ _ => word != 0
  | .deckReply _ chars => !chars.isEmpty
  | .reservedCommand slot command _ => !slot.names command
  | _ => true

end Sys2Proof
end

