-- ==== Sys2Proof/Safety.lean ====
section
/-! DEFINITION. What every reachable state satisfies, and the states that statements about commands speak of. -/

namespace Sys2Proof

/-- The argument words of a parameter set (11.3). -/
def ParamWords.args (p : ParamWords) : List (Fin 16 × Word) :=
  [(6, p.gains), (7, p.corrLimit), (8, p.slewWindow), (9, p.countGain), (10, p.approach), (11, p.shuttleMax), (12, p.holdLimit)]

/-- The command is one or more cycles of the processor bus (01): every row but reset, timers, pins and boundaries. -/
def Instr.isCycle : Instr → Bool
  | .acknowledgeCycle _ | .setupTake _ _ | .watchedWordStore _ _ _ _ | .readModifyWrite _ _ _ _ _ | .overlayStore _ _ _
  | .eventWordStore _ _ _ _ _ | .kindWordStore _ _ _ _ | .serviceDone _ _ | .crosspointStore _ _ _ _ | .levelStore _ _ _ _
  | .take _ | .halt _ _ | .run _ _ | .speed _ _ _ | .locate _ _ _ _ | .arm _ _ _ | .insertOn _ _ _ | .insertOff _ _ _
  | .sense _ _ | .standby _ _ _ | .clearErrors _ _ | .deckReset _ _ | .parameterTake _ _ _ _ _ | .chaseStart _ _ _
  | .chaseStop _ _ | .params _ _ _ | .startRun _ _ _ _ _ _ | .roll _ | .stop _ | .abort _ | .clearFault _ | .setNext _ _
  | .clearAll _ | .setSuiteClock _ _ _ | .mixerSet _ _ _ _ _ | .autoTrans _ _ _ _ _ | .gpiPulse _ _ _
  | .reservedCommand _ _ _ => true
  | .systemReset _ | .holdTimeout | .framePulse | .fieldPulse | .acquireTimeout | .generatedBoundary | .referenceLost
  | .frameBoundary | .field2Boundary | .timecodeWord _ _ | .readerCoasting _ _ | .readerLost _ _ | .deckReply _ _ | .gapError _
  | .notice _ _ | .transmitComplete _ | .replyTimeout _ | .breakEnd _ | .probeIntervalExpiry _ _ | .holdExpired _ _
  | .chaseLock _ _ | .chaseSlip _ _ | .sensePoll _ _ | .cueTimeout _ | .lookaheadCueTimeout _ | .transitionEnd _
  | .switcherFrameSent | .gpiPulseEnd _ _ => false

/-- The argument words of a CHASE_START (11.3). -/
def ChaseArgs.args (a : ChaseArgs) : List (Fin 16 × Word) :=
  [(2, a.master), (3, a.sign), (4, a.labelHi), (5, a.labelLo)] ++ a.params.args

end Sys2Proof

namespace Sys2Proof.Machine

/-! ## The Interrupt Unit (10 R194 to R196) -/

/-- The request level is the one R194 forms, every driven level lies above the top of the in-service stack, and the
stack's levels lie in 1–7 and strictly increase from bottom to top. -/
structure Iru.Sound (u : Iru) : Prop where
  request : u.request = u.formed
  driven : ∀ m : Level, u.driven[m] = true → u.top < m
  stack : u.stack.Pairwise fun a b => b.1 < a.1
  above : ∀ e ∈ u.stack, 0 < e.1

/-! ## The books of a transport (05 R105) -/

/-- The processor entries of a link that are queued, in the speed slot or in flight. -/
def Link.processorEntries (l : Link) : Nat :=
  l.queue.countP (·.source = .processor)
    + (l.slot.toList.countP (·.source = .processor))
    + (l.inFlight.toList.countP (·.entry.source = .processor))

/-- Taken commands less those accounted for: delivered, lost, cancelled, and still with the link. -/
def State.owed (s : State) (n : Transport) : Word :=
  (s.ctx n).taken - (s.ctx n).delivered - (s.ctx n).lost - (s.ctx n).cancelled
    - BitVec.ofNat 16 (s.link n).processorEntries

/-- 05 R105, modulo 65,536. -/
def State.Balanced (s : State) (n : Transport) : Prop :=
  (s.ctx n).taken =
    (s.ctx n).delivered + (s.ctx n).lost + (s.ctx n).cancelled + BitVec.ofNat 16 (s.link n).processorEntries

/-! ## Condition sources (10 R192, 05 R104, 08 R172) -/

/-- While CONFIGURED the pending flag of DECKn is its condition. -/
def State.DeckFollows (s : State) (n : Transport) : Prop :=
  s.configured = true → s.iru.isPending (.deck n) = (s.ctx n).deckCondition

/-- While CONFIGURED the pending flag of RUN_FAULT is its condition. -/
def State.RunFaultFollows (s : State) : Prop :=
  s.configured = true → s.iru.isPending .runFault = decide (s.run.state = .faulted)

/-! ## The whole part -/

/-- What a take leaves of a setup record (01 R14, R15): the region does not contain the setup block, the coast limit is
not 0, and the low 5 bits of the vector base are 0. -/
structure Setup.Legal (u : Setup) (straps : BitVec 2) : Prop where
  region : highBits (setupAddr straps) ≠ u.regionBase
  coast : u.coastLimit ≠ 0
  vector : u.vectorBase &&& 0x1F = 0

/-- The word maps are in canonical form, and the setup record in force is one that a take can leave. -/
structure PartConfig.Sound (c : PartConfig) : Prop where
  latches : WordMap.wf c.latches = true
  setupLatches : WordMap.wf c.setupLatches = true
  eventWords : WordMap.wf c.eventWords = true
  setup : ∀ u, c.setup = some u → u.Legal c.straps

/-- What every step keeps: a sound configuration, a sound Interrupt Unit, FIFOs of at most 3 and queues of at most 4 entries,
and pending flags of condition sources that are their conditions. -/
structure State.Sound (s : State) : Prop where
  cfg : s.cfg.Sound
  iru : s.iru.Sound
  fifo : ∀ n, (s.ctx n).fifo.length ≤ 3
  queue : ∀ n, (s.link n).queue.length ≤ 4
  deck : ∀ n, s.DeckFollows n
  runFault : s.RunFaultFollows

/-! ## Kinds of watched word (01 R3 to R5) -/

/-- A word of a slot that is neither its go word nor its take word: a store to it is captured and nothing more. -/
def Watched.quiet : Watched → Bool
  | .transport _ k => k != 7 && k != 15
  | .chase _ k => k != 15
  | .run k => k != 15
  | .switcher k => k != 15
  | .crosspoint _ | .level _ | .service => false

/-- A word of one of the four slots. -/
def Watched.slot : Watched → Bool
  | .transport _ _ | .chase _ _ | .run _ | .switcher _ => true
  | .crosspoint _ | .level _ | .service => false

/-- A word of the crosspoint table or of the interrupt level table. -/
def Watched.table : Watched → Bool
  | .crosspoint _ | .level _ => true
  | .transport _ _ | .chase _ _ | .run _ | .switcher _ | .service => false

/-! ## States that statements speak of -/

/-- CONFIGURED, no held read occupies the processor bus, and the configuration is sound: a bus cycle of the suite region
can start, and a latch reads as the store it captured. -/
structure State.Ready (s : State) : Prop where
  configured : s.configured = true
  free : s.ptu.hold = none
  cfg : s.cfg.Sound

/-- The state after the full-word stores of a record have completed and been captured (01 R2, R3): their latches, and
what the bus shows; the hand-over has not yet acted. -/
def State.stored (s : State) (ws : List (Watched × Word)) : State :=
  { s with
    cfg := { s.cfg with latches := ws.foldl (fun m p => WordMap.write m p.1.offset p.2) s.cfg.latches }
    ptu := { s.ptu with bus := ⟨.byMemory, none, ws.map fun p => ⟨s.regionAddr p.1.offset, true, .both, p.2⟩⟩ } }

/-- The state after one store that memory completed has been captured in the latch of a watched word. -/
def State.captured (s : State) (w : Watched) (a : Addr) (lanes : Strobes) (value : Word) : State :=
  { s with
    cfg := { s.cfg with latches := s.cfg.latches.write w.offset (mergeLanes lanes (s.latch w) value) }
    ptu := { s.ptu with bus := ⟨.byMemory, none, [⟨a, true, lanes, value⟩]⟩ } }

/-- The state after a store that memory ended with a bus fault: nothing but the bus. -/
def State.faultedStore (s : State) (a : Addr) (lanes : Strobes) (value : Word) : State :=
  { s with ptu := { s.ptu with bus := ⟨.memFault, none, [⟨a, true, lanes, value⟩]⟩ } }

/-- The access fault record that a refusal writes (01 R11). -/
def State.accessRecord (s : State) (reason : AccessReason) (a : Addr) (lanes : Strobes) (rmw : Bool) : AccessRecord :=
  ⟨some reason, a, rmw, some lanes, s.stamp, satSucc 65535 s.ptu.access.count⟩

/-- The state after a refused store cycle of a CONFIGURED part (01 R11): the record, ACCESS raised, a bus fault, memory
not cycled. -/
def State.refusal (s : State) (reason : AccessReason) (a : Addr) (lanes : Strobes) : State :=
  { s with
    ptu := { s.ptu with access := s.accessRecord reason a lanes false, bus := ⟨.refused, none, []⟩ }
    iru := s.iru.raise .access }

/-- The state with what the bus shows of the latest cycle: how it ended and what it forwarded. -/
def State.showing (s : State) (ending : CycleEnd) (forwarded : List Forwarded) : State :=
  { s with ptu := { s.ptu with bus := ⟨ending, none, forwarded⟩ } }

/-- The state after a read-modify-write whose read half memory completed and whose write half was refused (01 R10, R11). -/
def State.modifyRefusal (s : State) (reason : AccessReason) (a : Addr) (lanes : Strobes) : State :=
  { s with
    ptu := { s.ptu with
      access := s.accessRecord reason a lanes true, bus := ⟨.refused, none, [⟨a, false, lanes, 0⟩]⟩ }
    iru := if s.configured then s.iru.raise .access else s.iru }

/-- SLOT has been raised, unless its level is 0 (01 R3, 10 R192). -/
def State.SlotRaised (s : State) : Prop := s.iru.level .slot ≠ 0 → s.iru.isPending .slot = true

/-- What the end of a held read leaves on the processor side (01 R18, R19): the hold ended, its word answered and kept as the
port's last header, the reply view as given; and where the read was the read half of a read-modify-write, its write half
refused (01 R10). -/
structure State.HeldReadEnds (s : State) (n : Transport) (half : Option Strobes) (w : Word) (view : Six (Option FifoEntry))
    (t : State) : Prop where
  hold : t.ptu.hold = none
  header : t.ptu.lastHeader = s.ptu.lastHeader.set n w
  data : t.ptu.bus.data = some w
  view : t.ptu.view = view
  plain : half = none → t.ptu.bus.ending = .answered ∧ t.ptu.access = s.ptu.access
  refused : ∀ lanes, half = some lanes → t.ptu.bus.ending = .refused ∧
    t.ptu.access = s.accessRecord .overlayStore (s.takeAddr n) lanes true ∧
    (s.iru.level .access ≠ 0 → t.iru.isPending .access = true)

/-- The RTU as the locking pulse leaves it, before the boundary it makes (02 R28). -/
def Rtu.locking (r : Rtu) : Rtu :=
  { r with
    state := .locked, pulseTimer := 0, owed := false, disturbanceRun := 0, goodRun := 0
    shortFrames := if 1 ≤ r.phase ∧ r.phase ≤ 63 then satSucc 65535 r.shortFrames else r.shortFrames }

/-- The RTU as the third early pulse in a row leaves it (02 R31). -/
def Rtu.unlocking (r : Rtu) : Rtu :=
  { r with
    state := .acquiring, disturbances := satSucc 65535 r.disturbances, disturbanceRun := 0, goodRun := 1, pulseTimer := 0 }

/-- The state in which a frame boundary of a cause begins its work, when the cause makes one (02 R23, R28, R29, R31): the
counter's point is reached; or a frame pulse is on time, locks with the phase counter off 0, or unlocks with the phase
counter at 64 or above. -/
def State.atBoundary (s : State) (c : FrameCause) : Option State :=
  match c with
  | .wrap => if s.configured && s.rtu.state.freeRunning then some (elapse (64 - s.rtu.phase) s) else none
  | .generated =>
    if s.configured && s.rtu.state = .locked && !s.rtu.owed then
      some ((elapse (64 - s.rtu.pulseTimer) s).onRtu ({ · with owed := true }))
    else none
  | .pulse =>
    if s.configured && s.rtu.state = .locked && !s.rtu.owed then
      if 63 ≤ s.rtu.pulseTimer then some (s.onRtu ({ · with disturbanceRun := 0, pulseTimer := 0 }))
      else if 2 ≤ s.rtu.disturbanceRun ∧ 64 ≤ s.rtu.phase then some (s.enterReference s.rtu.unlocking)
      else none
    else if s.configured && s.rtu.state = .acquiring && decide (63 ≤ s.rtu.pulseTimer ∧ s.rtu.pulseTimer ≤ 65) &&
        decide (7 ≤ s.rtu.goodRun) && s.rtu.phase != 0 then
      some ((s.setRtu s.rtu.locking).raise .reference)
    else none

/-- The state in which a field boundary of a cause begins its work, when the cause makes one (02 R24, R25). -/
def State.atField (s : State) (c : FieldCause) : Option State :=
  match c with
  | .frame c => s.atBoundary c
  | .point =>
    if s.configured && !s.rtu.field2Made then
      if s.rtu.state.freeRunning then (if s.rtu.phase ≤ 32 then some (elapse (32 - s.rtu.phase) s) else none)
      else if s.rtu.pulseTimer ≤ 36 then some (elapse (36 - s.rtu.pulseTimer) s)
      else none
    else none
  | .pulse =>
    if s.configured && s.rtu.state = .locked && decide (28 ≤ s.rtu.pulseTimer ∧ s.rtu.pulseTimer ≤ 36) && !s.rtu.field2Made
    then some s else none

/-- The counters and the readers after their work of the boundary that begins in `s` (02 R24, 03 R50). -/
def State.readersDone (s : State) (short : Bool) : State :=
  forTransports Transport.all (readerBoundary s.rtu.phase) (s.dropMarks.countFrame short)

/-- The state in which the run and the chases begin their work of the boundary that begins in `s`: the counters, the readers
and the links' probe intervals have done theirs, and pending chase parameters are adopted (02 R24, 06 R108). -/
def State.linksDone (s : State) (short : Bool) : State :=
  (forTransports Transport.all linkBoundary (s.readersDone short)).adoptParams

/-- What the computation of a chase context reads at the boundary that begins in `s` (06 R118): the slave position, the
master position and the master speed. -/
def State.chaseInput (s : State) (n : Transport) : Option Nat × Option Nat × Int :=
  (((s.readersDone false).reader n).position, (s.readersDone false).masterOf (s.chase n).master)

/-- The event named by a deck or link reply is none of the run's business: the run works no events and aborts none. -/
def State.RunQuiet (s : State) : Prop := s.run.state = .idle ∨ s.run.state = .faulted

/-- A fault has stopped the run (08 R172): its record stands, and the abort path has begun with commands outstanding, or has
ended at once in FAULTED. -/
def State.RunFaulted (t : State) (f : FaultRecord) : Prop :=
  t.run.fault = some f ∧ t.run.abortCause = .fault ∧
    (t.run.state = .aborting ∧ t.run.outstanding ≠ 0 ∨ t.run.state = .faulted ∧ t.run.endCause = .faulted)

/-- An entry stands at a link: it waits in the queue, or is in flight. -/
def Link.holds (l : Link) (e : Entry) : Prop := e ∈ l.queue ++ l.inFlight.toList.map (·.entry)

/-! ## Records of the slots (11.3) -/

/-- The command of the table for a link command kind, with words 2 and 3 of its record. -/
def LinkKind.row (k : LinkKind) (n : Transport) (tag w2 w3 : Word) : Instr :=
  match k with
  | .halt => .halt n tag
  | .run => .run n tag
  | .speed => .speed n tag w2
  | .locate => .locate n tag w2 w3
  | .arm => .arm n tag w2
  | .insertOn => .insertOn n tag w2
  | .insertOff => .insertOff n tag w2
  | .sense => .sense n tag
  | .standby => .standby n tag w2

/-- The command code of a link command kind in word 0 (11.3). -/
def LinkKind.number : LinkKind → Word
  | .halt => 1 | .run => 2 | .speed => 3 | .locate => 4 | .arm => 5 | .insertOn => 6 | .insertOff => 7 | .sense => 8
  | .standby => 9

/-- The stores of the record of a link command: the words its kind uses, then the go word. -/
def LinkKind.stores (k : LinkKind) (n : Transport) (tag w2 w3 : Word) : List (Watched × Word) :=
  [(.transport n 0, k.number), (.transport n 1, tag)] ++
    (match k with
      | .halt | .run | .sense => []
      | .locate => [(.transport n 2, w2), (.transport n 3, w3)]
      | .speed | .arm | .insertOn | .insertOff | .standby => [(.transport n 2, w2)]) ++
    [(.transport n 7, 0)]

/-- The argument of a link command, `none` when its record is malformed (05 R92). -/
def LinkKind.argument? (k : LinkKind) (std : Standard) (w2 w3 : Word) : Option Arg :=
  match k with
  | .halt | .run | .sense => some .none
  | .speed => if w2 = 0x8000 then none else some (.speed w2.toInt)
  | .locate => if (Label.ofWords w2 w3).legal std then some (.label (.ofWords w2 w3)) else none
  | .arm | .insertOn | .insertOff => if w2 &&& 0xF = 0 then none else some (.mask (w2.setWidth 4))
  | .standby => if w2 = 0 then some (.setting false) else if w2 = 1 then some (.setting true) else none

/-- The kinds that move tape (05 R93). -/
def LinkKind.moves (k : LinkKind) : Prop := k = .halt ∨ k = .run ∨ k = .speed ∨ k = .locate

/-- The record's outcome is written to a transport slot's result word, and SLOT raised (05 R98, 01 R3). -/
def State.transportDecided (s : State) (n : Transport) (code : SlotCode) (parameters : Bool) (command tag : Word) : State :=
  { s with
    ctxs := s.ctxs.set n { s.ctx n with result := ⟨some code, parameters, command, tag⟩ }
    iru := s.iru.raise .slot }

/-- The same for a chase slot (06 R109). -/
def State.chaseDecided (s : State) (n : Transport) (code : SlotCode) (command tag : Word) : State :=
  { s with
    chases := s.chases.set n { s.chase n with result := ⟨some code, false, command, tag⟩ }
    iru := s.iru.raise .slot }

/-- The same for the run control slot (08 R148). -/
def State.runDecided (s : State) (code : SlotCode) (command tag : Word) : State :=
  { s with run := { s.run with result := ⟨some code, false, command, tag⟩ }, iru := s.iru.raise .slot }

/-- The same for the switcher slot (09 R185). -/
def State.switcherDecided (s : State) (code : SlotCode) (command tag : Word) : State :=
  { s with mixer := { s.mixer with result := ⟨some code, false, command, tag⟩ }, iru := s.iru.raise .slot }

/-- The stores of a record: its command word, its tag, the argument words its kind uses, then the go word. -/
def recordStores (slot : Fin 16 → Watched) (go : Fin 16) (code tag : Word) (args : List (Fin 16 × Word)) : List (Watched × Word) :=
  [(slot 0, code), (slot 1, tag)] ++ args.map (fun p => (slot p.1, p.2)) ++ [(slot go, 0)]

/-- The record of a slot command: the stores it carries, its go word or take word last, and that word (log 7). -/
def recordOf? : Instr → Option (List (Watched × Word) × Watched)
  | .halt n tag => some (LinkKind.halt.stores n tag 0 0, .transport n 7)
  | .run n tag => some (LinkKind.run.stores n tag 0 0, .transport n 7)
  | .speed n tag value => some (LinkKind.speed.stores n tag value 0, .transport n 7)
  | .locate n tag hi lo => some (LinkKind.locate.stores n tag hi lo, .transport n 7)
  | .arm n tag mask => some (LinkKind.arm.stores n tag mask 0, .transport n 7)
  | .insertOn n tag mask => some (LinkKind.insertOn.stores n tag mask 0, .transport n 7)
  | .insertOff n tag mask => some (LinkKind.insertOff.stores n tag mask 0, .transport n 7)
  | .sense n tag => some (LinkKind.sense.stores n tag 0 0, .transport n 7)
  | .standby n tag setting => some (LinkKind.standby.stores n tag setting 0, .transport n 7)
  | .clearErrors n tag => some (recordStores (.transport n) 7 10 tag [], .transport n 7)
  | .deckReset n tag => some (recordStores (.transport n) 7 11 tag [], .transport n 7)
  | .parameterTake n tag latency tolerance timeout =>
    some ([(.transport n 8, tag), (.transport n 9, latency), (.transport n 10, tolerance), (.transport n 11, timeout),
      (.transport n 15, 0)], .transport n 15)
  | .chaseStart n tag args => some (recordStores (.chase n) 15 1 tag args.args, .chase n 15)
  | .chaseStop n tag => some (recordStores (.chase n) 15 2 tag [], .chase n 15)
  | .params n tag set => some (recordStores (.chase n) 15 3 tag set.args, .chase n 15)
  | .startRun tag first mode autoRoll margin limit =>
    some (recordStores .run 15 1 tag [(2, first), (3, mode), (4, autoRoll), (5, margin), (6, limit)], .run 15)
  | .roll tag => some (recordStores .run 15 2 tag [], .run 15)
  | .stop tag => some (recordStores .run 15 3 tag [], .run 15)
  | .abort tag => some (recordStores .run 15 4 tag [], .run 15)
  | .clearFault tag => some (recordStores .run 15 5 tag [], .run 15)
  | .setNext tag next => some (recordStores .run 15 6 tag [(2, next)], .run 15)
  | .clearAll tag => some (recordStores .run 15 7 tag [], .run 15)
  | .setSuiteClock tag hi lo => some (recordStores .run 15 8 tag [(2, hi), (3, lo)], .run 15)
  | .mixerSet tag a b level pattern =>
    some (recordStores .switcher 15 1 tag [(2, a), (3, b), (4, level), (5, pattern)], .switcher 15)
  | .autoTrans tag kind length curve pattern =>
    some (recordStores .switcher 15 2 tag [(2, kind), (3, length), (4, curve), (5, pattern)], .switcher 15)
  | .gpiPulse tag line width => some (recordStores .switcher 15 3 tag [(2, line), (3, width)], .switcher 15)
  | .reservedCommand (.transport n) command tag => some (recordStores (.transport n) 7 command tag [], .transport n 7)
  | .reservedCommand (.chase n) command tag => some (recordStores (.chase n) 15 command tag [], .chase n 15)
  | .reservedCommand .run command tag => some (recordStores .run 15 command tag [], .run 15)
  | .reservedCommand .switcher command tag => some (recordStores .switcher 15 command tag [], .switcher 15)
  | _ => none

/-- The event record that a START_RUN reads, as its checks and its armed copy take it (07 R136, R143). -/
def State.fieldsOf (s : State) (e : Fin 64) : EventFields := EventFields.ofWords (s.cfg.eventWord e)

/-- The run's own fields as an accepted START_RUN leaves them before its event is armed (08 R149). -/
def Run.started (r : Run) (mode : RunMode) (autoRoll : Bool) (margin limit : Nat) (require : Bool) : Run :=
  { r with
    state := .cueing, mode, autoRoll, margin, cueLimit := limit, requireReference := require, fault := none, faultExtra := 0
    pendingFault := none, pendingExtra := 0, lockLosses := 0, notices := 0, endCause := .none, stopRequested := false
    rollRequested := false, syncPassed := false, insertsOn := 0, awaited := [], outstanding := 0 }

/-- The state of an event after the DONE events have become LOADED (07 R145). -/
def EventState.reloaded (x : EventState) : EventState := if x = .done then .loaded else x

/-- The run is at rest: IDLE, nothing armed, no transport or mixer of the run's, no chase of the run's. -/
structure State.AtRest (s : State) : Prop where
  idle : s.run.state = .idle
  current : s.et.current = none
  lookahead : s.et.lookahead = none
  owner : ∀ n, (s.ctx n).owner ≠ .run
  chase : ∀ n, (s.chase n).state = .idle ∨ (s.chase n).origin = .processor
  mixer : s.mixer.owner ≠ .run
  cue : ∀ n, (s.run.cues.get n).progress = .none

/-- A processor entry of a command queue, not urgent. -/
def processorEntry (k : LinkKind) (arg : Arg) (tag : Word) : Entry := ⟨.processor, k, arg, some tag, false, false⟩

/-- 1 when a speed that leaves the slot was the processor's, so that it completes as CANCELLED to it (05 R95). -/
def displaced : Option SlotSpeed → Word
  | some v => if v.source = .processor then 1 else 0
  | none => 0

/-! ## Boundaries and what is marked at them -/

/-- The command that makes the frame boundary of a cause. -/
def boundaryCommand : FrameCause → Instr
  | .wrap => .frameBoundary
  | .generated => .generatedBoundary
  | .pulse => .framePulse

/-- The counters after a frame boundary, and the event that carries them (02 R24). -/
def Rtu.next (std : Standard) (short : Bool) (r : Rtu) : Rtu :=
  { r with
    phase := 0, frames := r.frames + 1, clock := (r.clock + 1) % std.day, parity2 := false, field2Made := false
    event := some ⟨r.frames + 1, (r.clock + 1) % std.day, r.phase, short, r.state⟩ }

/-- The boundary that a cause makes in `s` is a locking boundary that shortens its frame (02 R28). -/
def State.shortens (s : State) (c : FrameCause) : Bool :=
  c = .pulse && s.rtu.state = .acquiring && decide (1 ≤ s.rtu.phase ∧ s.rtu.phase ≤ 63)

/-- The characters of a frame, each received well. -/
def sentWell (bs : List Byte) : List RxChar := bs.map (⟨·, true, true⟩)

/-- The reply and notice forms of 04 R62: kind byte, sequence and length. -/
def replyForm (kind seq len : Nat) : Prop :=
  (kind = 0x20 ∧ len = 0 ∨ kind = 0x21 ∧ len = 1 ∨ kind = 0x22 ∧ len = 6) ∧ seq ≤ 14 ∨ kind = 0x2F ∧ len = 1 ∧ seq = 15

/-- The command ends a frame in assembly with a receive error of a kind (04 R71, R72): wrong parity, a stop bit at 0, a length
above 12, a wrong check byte, a form that R62 does not give, or the gap timer. -/
def State.ReceiveError (s : State) (n : Transport) (k : ErrKind) (i : Instr) : Prop :=
  (∃ bs x, (s.link n).receiver = .frame bs ∧
    (k = .parity ∧ (∃ stop, i = .deckReply n [⟨x, false, stop⟩]) ∨ k = .framing ∧ i = .deckReply n [⟨x, true, false⟩] ∨
      i = .deckReply n [⟨x, true, true⟩] ∧
        (k = .format ∧ bs.length = 1 ∧ 12 < x.toNat % 16 ∨
          bs.length = (bs.getD 1 0).toNat % 16 + 2 ∧
            (k = .check ∧ (bs ++ [x]).sum ≠ 0 ∨
              k = .format ∧ (bs ++ [x]).sum = 0 ∧
                ¬replyForm (bs.getD 0 0).toNat ((bs.getD 1 0).toNat / 16) ((bs.getD 1 0).toNat % 16))))) ∨
    k = .gap ∧ i = .gapError n ∧ (s.link n).gapLeft.isSome = true

/-- The link after a reply has been taken and its frame has left: the receiver in HUNT, nothing in flight, no timer. -/
def Link.answered (l : Link) : Link :=
  { l with receiver := .hunt, gapLeft := none, inFlight := none, replyTimer := none, silence := 0 }

/-- The link with a probe on its line (04 R65): the next sequence taken, the interval begun again. -/
def Link.probing (l : Link) : Link :=
  { l with
    probeInterval := 0, lastSpeed := false, nextSeq := wrapSucc 14 l.nextSeq
    inFlight := some ⟨probeEntry, some l.nextSeq, 1, false, .sending⟩
    tx := some ⟨probeEntry.frame l.nextSeq, (probeEntry.frame l.nextSeq).length * Config.deckByteUnits⟩ }

end Sys2Proof.Machine
end

