-- ==== Sys2Proof/Certificates/Slice0/Obligations.lean ====
section
/-! DEFINITION. The statements for the provers, one definition each, grouped by the chapter of the spec they come from. -/

open Sys2Proof Sys2Proof.Machine

/-! ## The queue and the whole part -/

/-- A step takes the command at the front of the queue and runs its meaning on the rest. -/
def Obligations.StepRunsTheFrontCommand : Prop :=
  ∀ (c : Instr) (rest : List Instr) (s : State), s.pending = c :: rest → step s = exec c { s with pending := rest }

/-- Every step answers a next state and consumes exactly the command it ran. THE MODEL'S CHOICE (log 1) is the rest: on an
empty queue the timed event that is due acts, else one phase unit passes; an UNCONFIGURED part idles. -/
def Obligations.StepsAnswerAndConsumeOneCommand : Prop :=
  ∀ s : State,
    (∃ t, step s = .next t ∧ t.pending = s.pending.tail) ∧
    (s.pending = [] →
      (s.configured = false → step s = .next s) ∧
      (∀ c, s.due = some c → step s = exec c s) ∧
      (s.due = none → step s = .next (elapse 1 s)))

/-- The whole invariant holds right after reset (01 R20, 10 R201). -/
def Obligations.ResetIsSound : Prop := State.reset.Sound ∧ ∀ n, State.reset.Balanced n

/-- Every step keeps the whole invariant: canonical maps, a legal setup record, the request level of 10 R194, the stack
and the driven set of 10 R195 and R196, the bounds of 05 R101 and 04 R67, the conditions of 05 R104 and 08 R172. -/
def Obligations.EveryStepKeepsThePartSound : Prop :=
  ∀ s : State, s.Sound → ∃ t, step s = .next t ∧ t.Sound

/-- Every step keeps the books of every transport (05 R105). -/
def Obligations.EveryStepKeepsTheBooks : Prop :=
  ∀ (s : State) (n : Transport), s.Balanced n → ∃ t, step s = .next t ∧ t.Balanced n

/-- What the part is right after reset, block by block; and what SYSTEM_RESET leaves: every block as after reset, the straps
sampled, a held cycle abandoned, only the queue and the index of free values, which is the model's own (log 29), kept. The
straps' 00 of the reset state is the model's choice, log 30. -/
def Obligations.ResetLeavesTheStatedValues : Prop :=
  State.reset.pending = [] ∧ State.reset.configured = false ∧
  State.reset.cfg = ⟨none, 0, [], [], []⟩ ∧ State.reset.ptu.hold = none ∧
  (∀ n, State.reset.ptu.lastHeader.get n = 0 ∧ State.reset.ptu.view.get n = none) ∧
  State.reset.ptu.access = ⟨none, 0, false, none, 0, 0⟩ ∧
  State.reset.rtu = ⟨.absent, 0, 0, false, 0, 0, false, false, 0, 0, 0, 0, none⟩ ∧
  (∀ n, (State.reset.reader n).state = .silent ∧ (State.reset.reader n).position = none ∧
    (State.reset.reader n).last = none ∧ (State.reset.reader n).counts = ⟨0, 0, 0, 0, 0, 0, 0, 0⟩ ∧
    (State.reset.reader n).changeFlag = false ∧ (State.reset.reader n).changeCount = 0) ∧
  (∀ n, (State.reset.link n).state = .unprobed ∧ (State.reset.link n).inFlight = none ∧
    (State.reset.link n).queue = [] ∧ (State.reset.link n).slot = none ∧ (State.reset.link n).receiver = .hunt ∧
    (State.reset.link n).err = none ∧ (State.reset.link n).counts = .zero ∧ (State.reset.link n).nextSeq = 0) ∧
  (∀ n, (State.reset.ctx n).owner = .free ∧ (State.reset.ctx n).mode = .unknown ∧ (State.reset.ctx n).fifo = [] ∧
    ((State.reset.ctx n).latency, (State.reset.ctx n).tolerance, (State.reset.ctx n).replyTimeout) = (5, 2, 10) ∧
    (State.reset.ctx n).taken = 0 ∧ (State.reset.ctx n).delivered = 0 ∧ (State.reset.ctx n).lost = 0 ∧
    (State.reset.ctx n).cancelled = 0) ∧
  (∀ n, (State.reset.chase n).state = .idle ∧ (State.reset.chase n).params = ⟨48, 4, 102, 32, 16, 10, 150, 16, 16384, 50⟩ ∧
    (State.reset.chase n).pending = none) ∧
  (∀ e : Fin 64, State.reset.et.states[e] = .empty) ∧ State.reset.et.current = none ∧ State.reset.et.lookahead = none ∧
  State.reset.run.state = .idle ∧ State.reset.run.fault = none ∧ State.reset.run.endCause = .none ∧
  State.reset.mixer.owner = .free ∧ State.reset.mixer.transition = none ∧ State.reset.mixer.aBus = .black ∧
  State.reset.mixer.bBus = .black ∧ State.reset.mixer.level = 0 ∧
  (∀ i, State.reset.iru.level i = 0 ∧ State.reset.iru.isPending i = false) ∧ State.reset.iru.stack = [] ∧
  State.reset.iru.request = 0 ∧ (∀ m : Level, State.reset.iru.driven[m] = false) ∧
  ∀ (straps : BitVec 2) (s : State),
    exec (.systemReset straps) s = .next
      { State.reset with
        pending := s.pending, free := s.free, cfg := ⟨none, straps, [], [], []⟩
        ptu := { State.reset.ptu with bus := ⟨if s.ptu.hold.isSome then .abandoned else .none, none, []⟩ } }

/-! ## The bus (01) -/

/-- The setup block and every range of the region map have the class the map gives them. -/
def Obligations.AddressesHaveTheClassOfTheMap : Prop :=
  (∀ (s : State) (k : Fin 16),
    s.classify (setupAddr s.cfg.straps + BitVec.ofNat 24 (2 * k.val)) = .setup k) ∧
  ∀ s : State, s.configured = true → s.cfg.Sound →
    (∀ (e : Fin 64) (w : Fin 32), s.classify (s.regionAddr (64 * e.val + 2 * w.val)) = .event e w) ∧
    (∀ (n : Transport) (k : Fin 16), s.classify (s.regionAddr (0x1000 + 32 * n.num + 2 * k.val)) = .watched (.transport n k)) ∧
    (∀ (n : Transport) (k : Fin 16), s.classify (s.regionAddr (0x1100 + 32 * n.num + 2 * k.val)) = .watched (.chase n k)) ∧
    (∀ k : Fin 16, s.classify (s.regionAddr (0x1200 + 2 * k.val)) = .watched (.run k)) ∧
    (∀ k : Fin 16, s.classify (s.regionAddr (0x1220 + 2 * k.val)) = .watched (.switcher k)) ∧
    (∀ k : Fin 8, s.classify (s.regionAddr (0x1240 + 2 * k.val)) = .watched (.crosspoint k)) ∧
    (∀ k : Fin 16, s.classify (s.regionAddr (0x1260 + 2 * k.val)) = .watched (.level k)) ∧
    s.classify (s.regionAddr 0x1280) = .watched .service ∧
    (∀ off : Nat, 0x2000 ≤ off → off < 0x28C0 → off % 2 = 0 → s.classify (s.regionAddr off) = .overlay off) ∧
    (∀ off : Nat, off < 0x4000 → (0x10C0 ≤ off ∧ off < 0x1100 ∨ 0x11C0 ≤ off ∧ off < 0x1200 ∨ 0x1250 ≤ off ∧ off < 0x1260 ∨
      0x1282 ≤ off ∧ off < 0x2000 ∨ 0x28C0 ≤ off) → s.classify (s.regionAddr off) = .pass)

/-- A store to a word that no class checks is forwarded, and ends as memory ends it; memory's completion of a store to a
watched word that is no go, take, table or service-done word, of a byte store to a go, take or service-done word, or of a
store to setup words 0 to 14, copies exactly the written lanes into that word's latch and does nothing else: the other lane
and every other latch stand. The bus record and memory's answer as an operand are the model's choice, log 10. -/
def Obligations.StoresAreForwardedAndCaptured : Prop :=
  (∀ (a : Addr) (lanes : Strobes) (value : Word) (s : State), wordAligned a = true → s.ptu.hold = none →
    (∀ mem, s.classify a = .pass →
      exec (.watchedWordStore a lanes value mem) s = .next
        { s with ptu := { s.ptu with
          bus := ⟨if mem = .completes then .byMemory else .memFault, none, [⟨a, true, lanes, value⟩]⟩ } }) ∧
    (∀ w : Watched, s.classify a = .watched w → ¬(w = .service ∧ lanes = .both) →
      exec (.watchedWordStore a lanes value .faults) s = .next (s.faultedStore a lanes value)) ∧
    (∀ w : Watched, s.classify a = .watched w → w.table = false → (lanes = .both → w.quiet = true) →
      exec (.watchedWordStore a lanes value .completes) s = .next (s.captured w a lanes value)) ∧
    (∀ k : Fin 16, s.classify a = .setup k → (lanes = .both → k ≠ 15) →
      exec (.watchedWordStore a lanes value .faults) s = .next (s.faultedStore a lanes value) ∧
      exec (.watchedWordStore a lanes value .completes) s = .next
        { s with
          cfg := { s.cfg with
            setupLatches := s.cfg.setupLatches.write k.val (mergeLanes lanes (s.cfg.setupLatches.read k.val) value) }
          ptu := { s.ptu with bus := ⟨.byMemory, none, [⟨a, true, lanes, value⟩]⟩ } })) ∧
  ∀ (s : State) (w : Watched) (a : Addr) (lanes : Strobes) (value : Word), WordMap.wf s.cfg.latches = true →
    hiByte ((s.captured w a lanes value).latch w) = (if lanes = .lower then hiByte (s.latch w) else hiByte value) ∧
    loByte ((s.captured w a lanes value).latch w) = (if lanes = .upper then loByte (s.latch w) else loByte value) ∧
    ∀ v, v ≠ w → (s.captured w a lanes value).latch v = s.latch v

/-- A store to any word of the status area or the reply ports is refused with reason OVERLAY_STORE, whatever memory would
answer; and so is the write half of a read-modify-write cycle on one: at once, or, where its read half is held, it stands
with the hold (the statement on the end of a hold says how it ends). The bus record is the model's choice, log 10; the
recorded address is even, log 18; memory's answer as an operand of the row, log 43. -/
def Obligations.OverlayStoresAreRefused : Prop :=
  ∀ (off : BitVec 14) (lanes : Strobes) (value : Word) (s : State), 0x2000 ≤ off.toNat → off.toNat < 0x28C0 → s.Ready →
    (∀ mem, exec (.overlayStore off lanes ⟨value, mem⟩) s =
        .next (s.refusal .overlayStore (s.regionAddr (off.toNat / 2 * 2)) lanes) ∧
      exec (.watchedWordStore (s.regionAddr (off.toNat / 2 * 2)) lanes value mem) s =
        .next (s.refusal .overlayStore (s.regionAddr (off.toNat / 2 * 2)) lanes)) ∧
    ∀ rm wm, ∃ t, exec (.readModifyWrite (s.regionAddr (off.toNat / 2 * 2)) lanes value rm wm) s = .next t ∧
      t.ptu.bus.forwarded = [] ∧ t.cfg = s.cfg ∧
      (t.ptu.hold = none →
        t.ptu.bus.ending = .refused ∧
        t.ptu.access = s.accessRecord .overlayStore (s.regionAddr (off.toNat / 2 * 2)) lanes true ∧
        (s.iru.level .access ≠ 0 → t.iru.isPending .access = true)) ∧
      ∀ h, t.ptu.hold = some h → h.writeHalf = some lanes ∧ t.ptu.bus.ending = .held ∧ t.ptu.access = s.ptu.access

/-- A read-modify-write cycle outside the overlay is its read half and then its write half, which is a store of its class
(01 R10): memory's fault of the read half ends it, and of the write half leaves it without effect; a PASS word is read and
stored; a slot word is captured and, stored full-word, handed over if it is a go word or take word; the crosspoint table,
the level table and the service-done word act as for a store; an event that is not ARMED takes the word and its new state; a
setup word is captured, and word 15 takes or is refused by the checks of 01 R14. A refusal follows the read half and is
recorded as a read-modify-write. The bus record and memory's answer as an operand are the model's choice, log 10. -/
def Obligations.ReadModifyWriteIsAReadThenAStore : Prop :=
  ∀ (a : Addr) (lanes : Strobes) (value : Word) (s : State), wordAligned a = true → s.ptu.hold = none →
    let rd : Forwarded := ⟨a, false, lanes, 0⟩
    let wr : Forwarded := ⟨a, true, lanes, value⟩
    (∀ wm, (∀ off, s.classify a ≠ .overlay off) →
      exec (.readModifyWrite a lanes value .faults wm) s = .next (s.showing .memFault [rd])) ∧
    (∀ wm, s.classify a = .pass → exec (.readModifyWrite a lanes value .completes wm) s =
      .next (s.showing (if wm = .completes then .byMemory else .memFault) [rd, wr])) ∧
    (((∃ w, s.classify a = .watched w ∧ ¬(w = .service ∧ lanes = .both ∧ s.iru.stack = [])) ∨
        (∃ e w, s.classify a = .event e w ∧ s.et.states[e] ≠ .armed) ∨ ∃ k, s.classify a = .setup k ∧ (lanes = .both → k ≠ 15)) →
      exec (.readModifyWrite a lanes value .completes .faults) s = .next (s.showing .memFault [rd, wr])) ∧
    (∀ w : Watched, s.classify a = .watched w → WordMap.wf s.cfg.latches = true →
      let c := (s.captured w a lanes value).showing .byMemory [rd, wr]
      let new := mergeLanes lanes (s.latch w) value
      (w.slot = true → exec (.readModifyWrite a lanes value .completes .completes) s =
        .next (if lanes = .both then c.handOver w else c)) ∧
      (∀ k, w = .crosspoint k → exec (.readModifyWrite a lanes value .completes .completes) s =
        .next { c with mixer := { s.mixer with pendingCross := s.mixer.pendingCross.set k (some (new.setWidth 5)) } }) ∧
      (∀ i : Irq, w = .level i.num → exec (.readModifyWrite a lanes value .completes .completes) s =
        .next { c with iru := s.iru.setLevel i (Fin.ofNat 8 new.toNat) }) ∧
      (w = .service → (lanes ≠ .both ∨ s.iru.stack ≠ []) → exec (.readModifyWrite a lanes value .completes .completes) s =
        .next (if lanes = .both then { c with iru := s.iru.pop } else c)) ∧
      (w = .service → lanes = .both → s.iru.stack = [] → s.configured = true → ∀ wm,
        exec (.readModifyWrite a lanes value .completes wm) s = .next (s.modifyRefusal .serviceEmpty a lanes))) ∧
    (∀ (e : Fin 64) (w : Fin 32), s.classify a = .event e w → s.et.states[e] ≠ .armed →
      exec (.readModifyWrite a lanes value .completes .completes) s = .next
        { s.showing .byMemory [rd, wr] with
          cfg := { s.cfg with
            eventWords := s.cfg.eventWords.write (eventOffset e w.val)
              (mergeLanes lanes (s.cfg.eventWords.read (eventOffset e w.val)) value) }
          et := { s.et with
            states := s.et.states.set e (if w ≠ 0 ∨ lanes ≠ .both then .draft else if loByte value = 1 then .loaded
              else if loByte value = 0 then .empty else .draft) } }) ∧
    (∀ k : Fin 16, s.classify a = .setup k →
      ((lanes = .both → k ≠ 15) → exec (.readModifyWrite a lanes value .completes .completes) s = .next
        { s.showing .byMemory [rd, wr] with
          cfg := { s.cfg with
            setupLatches := s.cfg.setupLatches.write k.val (mergeLanes lanes (s.cfg.setupLatches.read k.val) value) } }) ∧
      (k = 15 → lanes = .both → (∀ wm r, s.checkSetup = .error r → exec (.readModifyWrite a lanes value .completes wm) s =
          .next (s.modifyRefusal r a lanes)) ∧
        ∀ u, s.checkSetup = .ok u → WordMap.wf s.cfg.setupLatches = true →
          ∃ t, exec (.readModifyWrite a lanes value .completes .completes) s = .next t ∧ t.cfg.setup = some u ∧
            t.cfg.setupLatches.read 15 = value ∧ ∀ j, j ≠ 15 → t.cfg.setupLatches.read j = s.cfg.setupLatches.read j))

/-- A full-word store to a go word or take word, completed by memory, is captured and hands the record over (01 R3): the
owner of the slot decides on the latched words, whatever value the go word holds, writes the command word and the tag with
its result, and SLOT is raised. A slot command of the table, which carries the stores of its record and its go word
together (the model's choice, log 7), leaves the latches of those stores and hands over in the same way. The bus record and
memory's answer as an operand are the model's choice, log 10. -/
def Obligations.GoWordsHandOverTheRecord : Prop :=
  ∀ s : State,
    (∀ (w : Watched) (a : Addr) (value : Word), wordAligned a = true → s.ptu.hold = none → s.classify a = .watched w →
      w.slot = true → exec (.watchedWordStore a .both value .completes) s = .next ((s.captured w a .both value).handOver w)) ∧
    (∀ i ws go, recordOf? i = some (ws, go) → s.Ready → exec i s = .next ((s.stored ws).handOver go)) ∧
    (∀ w : Watched, w.quiet = true → s.handOver w = s) ∧
    (∀ n, s.handOver (.transport n 7) =
      s.transportRecord n (s.latch (.transport n 0)) (s.latch (.transport n 1)) (s.latch (.transport n 2))
        (s.latch (.transport n 3))) ∧
    (∀ n, s.handOver (.transport n 15) =
      s.parameterRecord n (s.latch (.transport n 8)) (s.latch (.transport n 9)) (s.latch (.transport n 10))
        (s.latch (.transport n 11))) ∧
    (∀ n, s.handOver (.chase n 15) =
      s.chaseRecord n (s.latch (.chase n 0)) (s.latch (.chase n 1))
        ⟨s.latch (.chase n 2), s.latch (.chase n 3), s.latch (.chase n 4), s.latch (.chase n 5),
          ⟨s.latch (.chase n 6), s.latch (.chase n 7), s.latch (.chase n 8), s.latch (.chase n 9), s.latch (.chase n 10),
            s.latch (.chase n 11), s.latch (.chase n 12)⟩⟩) ∧
    (s.handOver (.run 15) =
      s.runRecord (s.latch (.run 0)) (s.latch (.run 1)) (s.latch (.run 2)) (s.latch (.run 3)) (s.latch (.run 4))
        (s.latch (.run 5)) (s.latch (.run 6))) ∧
    (s.handOver (.switcher 15) =
      s.switcherRecord (s.latch (.switcher 0)) (s.latch (.switcher 1)) (s.latch (.switcher 2)) (s.latch (.switcher 3))
        (s.latch (.switcher 4)) (s.latch (.switcher 5))) ∧
    (s.configured = true → s.ptu.hold = none → ∀ command tag w2 w3 w4 w5 w6,
      (∀ n, ∃ t code, s.transportRecord n command tag w2 w3 = t ∧ (t.ctx n).result = ⟨some code, false, command, tag⟩ ∧
        t.SlotRaised) ∧
      (∀ n, ∃ t code, s.parameterRecord n tag w2 w3 w4 = t ∧ (t.ctx n).result = ⟨some code, true, 0, tag⟩ ∧ t.SlotRaised) ∧
      (∀ n args, ∃ t code, s.chaseRecord n command tag args = t ∧ (t.chase n).result = ⟨some code, false, command, tag⟩ ∧
        t.SlotRaised) ∧
      (∃ t code, s.runRecord command tag w2 w3 w4 w5 w6 = t ∧ t.run.result = ⟨some code, false, command, tag⟩ ∧ t.SlotRaised) ∧
      ∃ t code, s.switcherRecord command tag w2 w3 w4 w5 = t ∧ t.mixer.result = ⟨some code, false, command, tag⟩ ∧ t.SlotRaised)

/-- A completed store to word 1 to 31 of an event that is not ARMED moves the event to DRAFT, whatever its strobes and
its value; a faulted one changes neither words nor state. The bus record and memory's answer as an operand are the model's
choice, log 10. -/
def Obligations.EventWordStoresMakeADraft : Prop :=
  ∀ (e : Fin 64) (w : Fin 32) (lanes : Strobes) (value : Word) (s : State), w ≠ 0 → s.Ready → s.et.states[e] ≠ .armed →
    exec (.eventWordStore e w lanes value .completes) s = .next
      { s with
        cfg := { s.cfg with
          eventWords := s.cfg.eventWords.write (eventOffset e w.val)
            (mergeLanes lanes (s.cfg.eventWords.read (eventOffset e w.val)) value) }
        et := { s.et with states := s.et.states.set e .draft }
        ptu := { s.ptu with bus := ⟨.byMemory, none, [⟨s.regionAddr (64 * e.val + 2 * w.val), true, lanes, value⟩]⟩ } } ∧
    exec (.eventWordStore e w lanes value .faults) s = .next
      (s.faultedStore (s.regionAddr (64 * e.val + 2 * w.val)) lanes value)

/-- A completed store to word 0 of an event that is not ARMED sets its state by the stored kind: LOADED for a full-word
EDIT, EMPTY for a full-word EMPTY, DRAFT for every other kind and for every byte store; the other words stand. A store that
memory faults changes nothing but the bus. -/
def Obligations.KindWordStoresSetTheEventState : Prop :=
  ∀ (e : Fin 64) (lanes : Strobes) (value : Word) (s : State), s.Ready → s.et.states[e] ≠ .armed →
    (∃ t, exec (.kindWordStore e lanes value .completes) s = .next t ∧
      t.et.states[e] = (if lanes = .both ∧ loByte value = 1 then .loaded
        else if lanes = .both ∧ loByte value = 0 then .empty else .draft) ∧
      t.et = { s.et with states := s.et.states.set e t.et.states[e] } ∧
      t.cfg.eventWords.read (64 * e.val) = mergeLanes lanes (s.cfg.eventWords.read (64 * e.val)) value ∧
      (∀ k, k ≠ 64 * e.val → t.cfg.eventWords.read k = s.cfg.eventWords.read k) ∧
      t = { s with cfg := { s.cfg with eventWords := t.cfg.eventWords }, et := t.et, ptu := t.ptu }) ∧
    ∃ t, exec (.kindWordStore e lanes value .faults) s = .next t ∧ t = { s with ptu := t.ptu }

/-- A store to any word of an ARMED event is refused with reason EVENT_ARMED, whatever its strobes, and in the write half
of a read-modify-write cycle; neither words nor state change. The bus record and memory's answer as an operand are the
model's choice, log 10; the recorded address is even, log 18. -/
def Obligations.StoresToAnArmedEventAreRefused : Prop :=
  ∀ (e : Fin 64) (w : Fin 32) (lanes : Strobes) (value : Word) (mem : MemEnd) (s : State), s.Ready → s.et.states[e] = .armed →
    (w ≠ 0 → exec (.eventWordStore e w lanes value mem) s = .next
      (s.refusal .eventArmed (s.regionAddr (64 * e.val + 2 * w.val)) lanes)) ∧
    exec (.kindWordStore e lanes value mem) s = .next (s.refusal .eventArmed (s.regionAddr (64 * e.val)) lanes) ∧
    ∃ t, exec (.readModifyWrite (s.regionAddr (64 * e.val + 2 * w.val)) lanes value .completes mem) s = .next t ∧
      t.ptu.bus.ending = .refused ∧ t.ptu.access = s.accessRecord .eventArmed (s.regionAddr (64 * e.val + 2 * w.val)) lanes true ∧
      t.et = s.et ∧ t.cfg = s.cfg

/-- A completed store to a crosspoint word hands its new latch value to the Transition Generator as the entry's pending
value; a completed store to a level word sets that source's level at once, and level 0 clears an event source's flag. The
bus record and memory's answer as an operand are the model's choice, log 10. -/
def Obligations.TableStoresAreHandedToTheirOwners : Prop :=
  ∀ (lanes : Strobes) (value : Word) (s : State), s.Ready →
    (∀ k : Fin 8, exec (.crosspointStore k lanes value .completes) s = .next
      { s.captured (.crosspoint k) (s.regionAddr (0x1240 + 2 * k.val)) lanes value with mixer := { s.mixer with
          pendingCross := s.mixer.pendingCross.set k (some ((mergeLanes lanes (s.latch (.crosspoint k)) value).setWidth 5)) } }) ∧
    (∀ i : Irq, ∃ t, exec (.levelStore i.num lanes value .completes) s = .next t ∧
      (∀ j, t.iru.level j =
        if j = i then Fin.ofNat 8 (mergeLanes lanes (s.latch (.level i.num)) value).toNat else s.iru.level j) ∧
      (∀ j, t.iru.isPending j =
        if j = i ∧ t.iru.level i = 0 ∧ i.condition = false then false else s.iru.isPending j) ∧
      t.iru.stack = s.iru.stack ∧ t.iru.request = t.iru.formed ∧
      (∀ m : Level, t.iru.driven[m] = (s.iru.driven[m] || (decide (m ≠ 0) && decide (m = t.iru.request)))) ∧
      t = { s.captured (.level i.num) (s.regionAddr (0x1260 + 2 * i.num.val)) lanes value with iru := t.iru }) ∧
    (∀ k : Fin 8, exec (.crosspointStore k lanes value .faults) s = .next
      (s.faultedStore (s.regionAddr (0x1240 + 2 * k.val)) lanes value)) ∧
    ∀ k : Fin 16, exec (.levelStore k lanes value .faults) s = .next
      (s.faultedStore (s.regionAddr (0x1260 + 2 * k.val)) lanes value)

/-- A take that passes the checks of an UNCONFIGURED part makes it CONFIGURED with the record as 01 R15 treats it, the
latch of word 15 updated, every link told, and each condition source following its condition. The bus record and memory's
answer as an operand are the model's choice, log 10. -/
def Obligations.AFirstTakeConfiguresThePart : Prop :=
  ∀ (value : Word) (s : State) (std : Standard), s.configured = false → s.ptu.hold = none →
    WordMap.wf s.cfg.setupLatches = true →
    Standard.ofCode? ((s.cfg.setupLatches.read 1).toNat % 4) = some std →
    highBits (setupAddr s.cfg.straps) ≠ (s.cfg.setupLatches.read 0).setWidth 10 →
    ∃ t, exec (.setupTake value .completes) s = .next t ∧
      t.cfg.setup = some
        { regionBase := (s.cfg.setupLatches.read 0).setWidth 10, standard := std
          vectorBase := loByte (s.cfg.setupLatches.read 2) &&& 0xE0, holdLimit := loByte (s.cfg.setupLatches.read 3)
          coastLimit := if loByte (s.cfg.setupLatches.read 4) = 0 then 25 else loByte (s.cfg.setupLatches.read 4)
          requireReference := (s.cfg.setupLatches.read 5).getLsbD 0, frameAllowed := (s.cfg.setupLatches.read 5).getLsbD 1 } ∧
      t.cfg = { s.cfg with setup := t.cfg.setup, setupLatches := t.cfg.setupLatches } ∧
      t.cfg.setupLatches.read 15 = value ∧
      (∀ k, k ≠ 15 → t.cfg.setupLatches.read k = s.cfg.setupLatches.read k) ∧
      t.ptu = { s.ptu with bus := ⟨.byMemory, none, [⟨setupAddr s.cfg.straps + 30, true, .both, value⟩]⟩ } ∧
      (∀ n, t.DeckFollows n) ∧ t.RunFaultFollows ∧
      (∀ n, t.link n = if (s.link n).state ≠ .up ∧ (s.link n).breakLeft = none ∧ (s.link n).inFlight = none
        then ({ s.link n with probeInterval := 0 } : Link).launch probeEntry else s.link n) ∧
      t = { s with cfg := t.cfg, ptu := t.ptu, links := t.links, iru := t.iru }

/-- A take request that fails a check is refused with the reason of the first check that fails; the record in force and
the latch of word 15 stand, and ACCESS is raised only while CONFIGURED. The bus record and memory's answer as an operand
are the model's choice, log 10. -/
def Obligations.ATakeThatFailsACheckIsRefused : Prop :=
  ∀ (value : Word) (mem : MemEnd) (s : State), s.ptu.hold = none →
    let reserved := (s.cfg.setupLatches.read 1).toNat % 4 = 3
    let overlap := highBits (setupAddr s.cfg.straps) = (s.cfg.setupLatches.read 0).setWidth 10
    let running := s.configured = true ∧ s.run.state ≠ .idle
    let chasing := s.configured = true ∧ ∃ n, (s.chase n).state ≠ .idle
    ∀ reason,
      (reserved ∧ reason = .setupStandard ∨ ¬reserved ∧ overlap ∧ reason = .setupOverlap ∨
        ¬reserved ∧ ¬overlap ∧ running ∧ reason = .setupRunActive ∨
        ¬reserved ∧ ¬overlap ∧ ¬running ∧ chasing ∧ reason = .setupChaseActive) →
      exec (.setupTake value mem) s = .next
        { s with
          ptu := { s.ptu with
            access := s.accessRecord reason (setupAddr s.cfg.straps + 30) .both false, bus := ⟨.refused, none, []⟩ }
          iru := if s.configured then s.iru.raise .access else s.iru }

/-- A retake with an unchanged standard puts the checked record in force, updates the latch of word 15 and tells every link;
the reference, the readers and every other block stand. The bus record and memory's answer as an operand are the model's
choice, log 10. -/
def Obligations.ARetakeReplacesTheRecord : Prop :=
  ∀ (value : Word) (s : State) (u : Setup), s.Ready → s.run.state = .idle → (∀ n, (s.chase n).state = .idle) →
    s.requestedSetup = some u → highBits (setupAddr s.cfg.straps) ≠ u.regionBase → s.standard = u.standard →
    ∃ t, exec (.setupTake value .completes) s = .next t ∧ t.cfg.setup = some u ∧
      t.cfg = { s.cfg with setup := some u, setupLatches := t.cfg.setupLatches } ∧ t.cfg.setupLatches.read 15 = value ∧
      (∀ k, k ≠ 15 → t.cfg.setupLatches.read k = s.cfg.setupLatches.read k) ∧
      t.ptu = { s.ptu with bus := ⟨.byMemory, none, [⟨setupAddr s.cfg.straps + 30, true, .both, value⟩]⟩ } ∧
      (∀ n, t.link n = if (s.link n).state ≠ .up ∧ (s.link n).breakLeft = none ∧ (s.link n).inFlight = none
        then ({ s.link n with probeInterval := 0 } : Link).launch probeEntry else s.link n) ∧
      t = { s with cfg := t.cfg, ptu := t.ptu, links := t.links }

/-- A retake that changes the frame standard (01 R16): the suite clock is 0 and the reference begins again, LOCKED becoming
ACQUIRING and every other state, the phase counter and the other counters kept (02 R36); every reader is as after reset but
for its change flag, set where it was not SILENT (03 R58); no sensed position is left (05 R107); every link is told, and
everything else stands. A change of reference state raises REFERENCE, a reader that was not SILENT raises READER. From LOCKED
with the phase counter at 64 or above, a frame boundary is made at once. The bus record and memory's answer as an operand
are the model's choice, log 10. -/
def Obligations.ARetakeWithAnotherStandardRestarts : Prop :=
  ∀ (value : Word) (s : State) (u : Setup), s.Ready → s.run.state = .idle → (∀ n, (s.chase n).state = .idle) →
    s.requestedSetup = some u → highBits (setupAddr s.cfg.straps) ≠ u.regionBase → s.standard ≠ u.standard →
    let rtu : Rtu :=
      { s.rtu with
        state := if s.rtu.state = .locked then .acquiring else s.rtu.state
        pulseTimer := 0, owed := false, goodRun := 0, disturbanceRun := 0, clock := 0 }
    ∃ t, exec (.setupTake value .completes) s = .next t ∧
      t.cfg = { s.cfg with setup := some u, setupLatches := t.cfg.setupLatches } ∧ t.cfg.setupLatches.read 15 = value ∧
      (∀ k, k ≠ 15 → t.cfg.setupLatches.read k = s.cfg.setupLatches.read k) ∧
      (∀ n, t.reader n =
        { Reader.reset with changeFlag := (s.reader n).changeFlag || decide ((s.reader n).state ≠ .silent) }) ∧
      (s.rtu.state = .locked → s.iru.level .reference ≠ 0 → t.iru.isPending .reference = true) ∧
      (∀ n, (s.reader n).state ≠ .silent → s.iru.level .reader ≠ 0 → t.iru.isPending .reader = true) ∧
      (¬(s.rtu.state = .locked ∧ 64 ≤ s.rtu.phase) →
        t.rtu = rtu ∧ t.ptu = { s.ptu with bus := ⟨.byMemory, none, [⟨setupAddr s.cfg.straps + 30, true, .both, value⟩]⟩ } ∧
        (∀ n, t.ctx n = { s.ctx n with sensedPos := none }) ∧
        (∀ n, t.link n = if (s.link n).state ≠ .up ∧ (s.link n).breakLeft = none ∧ (s.link n).inFlight = none
          then ({ s.link n with probeInterval := 0 } : Link).launch probeEntry else s.link n) ∧
        t = { s with
              cfg := t.cfg, ptu := t.ptu, rtu := t.rtu, readers := t.readers, links := t.links, ctxs := t.ctxs, iru := t.iru }) ∧
      (s.rtu.state = .locked → 64 ≤ s.rtu.phase → t.rtu = Rtu.next u.standard false rtu)

/-- A take of a port whose FIFO holds an entry removes the head into the reply view and returns its header; on an empty
FIFO it returns EMPTY at once when the hold limit is 0, and with exit cause INTERRUPT when the request level stands above
the top of the stack; otherwise it is held, the hold time loaded with the limit in force. The header is kept as the port's
last header, and the link change counts as seen. The bus record is the model's choice, log 10; memory's answer as an
operand of the row, disregarded here, log 43. -/
def Obligations.TakesAreAnsweredOrHeld : Prop :=
  ∀ (n : Transport) (mem : MemEnd) (s : State) (u : Setup), s.Ready → s.cfg.setup = some u →
    (∀ e rest, (s.ctx n).fifo = e :: rest →
      ∃ t, exec (.take ⟨n, mem⟩) s = .next t ∧
        t.ptu = { s.ptu with
          view := s.ptu.view.set n (some e), lastHeader := s.ptu.lastHeader.set n (e.header rest.length .none)
          bus := ⟨.answered, some (e.header rest.length .none), []⟩ } ∧
        t.ctx n = { s.ctx n with fifo := rest, linkChange := false } ∧ (∀ m, m ≠ n → t.ctx m = s.ctx m) ∧
        t = { s with ptu := t.ptu, ctxs := t.ctxs, iru := s.iru.follow (.deck n) (t.ctx n).deckCondition }) ∧
    (∀ x : ExitCause, (s.ctx n).fifo = [] →
      (u.holdLimit = 0 ∧ x = .none ∨ u.holdLimit ≠ 0 ∧ s.iru.top < s.iru.request ∧ x = .interrupt) →
      ∃ t, exec (.take ⟨n, mem⟩) s = .next t ∧
        t.ptu = { s.ptu with
          lastHeader := s.ptu.lastHeader.set n (wordOf x.code), bus := ⟨.answered, some (wordOf x.code), []⟩ } ∧
        t.ctx n = { s.ctx n with linkChange := false } ∧ (∀ m, m ≠ n → t.ctx m = s.ctx m) ∧
        t = { s with ptu := t.ptu, ctxs := t.ctxs, iru := s.iru.follow (.deck n) (t.ctx n).deckCondition }) ∧
    ((s.ctx n).fifo = [] → u.holdLimit ≠ 0 → ¬s.iru.top < s.iru.request →
      exec (.take ⟨n, mem⟩) s = .next
        { s with ptu := { s.ptu with
          hold := some ⟨n, u.holdLimit.toNat * Config.holdUnits, none⟩, bus := ⟨.held, none, []⟩ } })

/-- The three ends of a held read (01 R18): an entry that enters the held port's FIFO is taken at once, with exit cause REPLY
(the offer of any entry, and with it NOTICE); a raise that lifts the request level above the top of the stack ends it EMPTY
with exit cause INTERRUPT; the hold time running out ends it EMPTY with exit cause TIMEOUT. Where the held read is the read
half of a read-modify-write, its write half then follows and is refused. While a read is held no bus cycle starts. An expiry
command acts while its timer runs, a cycle that arrives while a read is held does not start, and the bus record: the model's
choices, logs 2, 8 and 10. NOTICE is a notice frame's characters, log 27; the DECK condition is not true in between, log 15. -/
def Obligations.AHeldReadEndsByAnEntryTimeOrInterrupt : Prop :=
  ∀ (s : State) (n : Transport) (left : Nat) (half : Option Strobes), s.configured = true →
    s.ptu.hold = some ⟨n, left, half⟩ →
    (∃ t, exec .holdTimeout s = .next t ∧ s.HeldReadEnds n half (wordOf ExitCause.timeout.code) s.ptu.view t ∧
      t.ctx n = { s.ctx n with linkChange := false } ∧ (∀ m, m ≠ n → t.ctx m = s.ctx m) ∧
      (half = none → t.iru = s.iru.follow (.deck n) (t.ctx n).deckCondition) ∧
      t = { s with ptu := t.ptu, ctxs := t.ctxs, iru := t.iru }) ∧
    (∀ i : Irq, s.iru.top < (s.iru.raise i).request →
      s.HeldReadEnds n half (wordOf ExitCause.interrupt.code) s.ptu.view (s.raise i)) ∧
    ((s.ctx n).fifo = [] →
      (∀ e : FifoEntry, s.HeldReadEnds n half (e.header 0 .reply) (s.ptu.view.set n (some e)) (s.fifoOffer n e) ∧
        ((s.fifoOffer n e).ctx n).fifo = []) ∧
      ∀ code, (s.link n).receiver = .hunt → (s.ctx n).owner ≠ .run →
        let e : FifoEntry := ⟨none, .reply, none, none, true, some 15, [code], s.stamp⟩
        ∃ t, exec (.notice n code) s = .next t ∧
          s.HeldReadEnds n half (e.header 0 .reply) (s.ptu.view.set n (some e)) t ∧
          t.ctx n = { (s.ctx n).noticed code with
            noticesDelivered := (s.ctx n).noticesDelivered + 1, fifo := [], linkChange := false }) ∧
    ∀ c : Instr, c.isCycle = true → exec c s = .next s

/-! ## Interrupts (10) -/

/-- An acknowledge at a driven level with a pending source of that level is answered with the lowest-numbered such source:
its vector, the push, the event flag cleared; with none, with the spurious vector; at a level not driven, or 0, and while
UNCONFIGURED, it is released: forwarded with its address and strobes, and ended as memory ends it. The level is on address
lines 3 to 1. The bus record is the model's choice, log 10; memory's answer as an operand of the row, log 43. -/
def Obligations.AcknowledgesAreAnsweredByTheDrivenSet : Prop :=
  ∀ (a : Addr) (lanes : Strobes) (mem : MemEnd) (s : State), wordAligned a = true → s.ptu.hold = none →
    let m : Level := (a.extractLsb' 1 3).toFin
    (∀ (i : Irq) (u : Setup), s.cfg.setup = some u → m ≠ 0 → s.iru.driven[m] = true → s.iru.isPending i = true →
      s.iru.level i = m → (∀ j : Irq, j.num < i.num → s.iru.isPending j = true → s.iru.level j ≠ m) →
      ∃ t, exec (.acknowledgeCycle ⟨a, lanes, mem⟩) s = .next t ∧
        t.ptu = { s.ptu with bus := ⟨.answered, some ((u.vectorBase + BitVec.ofNat 8 i.num.val).setWidth 16), []⟩ } ∧
        t.iru.lastVector = u.vectorBase + BitVec.ofNat 8 i.num.val ∧ t.iru.stack = (m, i) :: s.iru.stack ∧
        (∀ j, t.iru.isPending j = if j = i ∧ i.condition = false then false else s.iru.isPending j) ∧
        t.iru.levels = s.iru.levels ∧ t.iru.spurious = s.iru.spurious ∧ t.iru.request = t.iru.formed ∧
        (∀ k : Level, t.iru.driven[k] = (decide (k ≠ 0) && decide (k = t.iru.request))) ∧
        (∀ n, t.reader n = if i = .reader then { s.reader n with changeFlag := false } else s.reader n) ∧
        (∀ n, t.chase n = if i = .chase then { s.chase n with changeFlag := false } else s.chase n) ∧
        t = { s with ptu := t.ptu, iru := t.iru, readers := t.readers, chases := t.chases }) ∧
    (∀ u : Setup, s.cfg.setup = some u → m ≠ 0 → s.iru.driven[m] = true →
      (∀ i : Irq, s.iru.isPending i = true → s.iru.level i ≠ m) →
      ∃ t, exec (.acknowledgeCycle ⟨a, lanes, mem⟩) s = .next t ∧
        t.ptu = { s.ptu with bus := ⟨.answered, some ((u.vectorBase + 16).setWidth 16), []⟩ } ∧
        t.iru = { s.iru with
          lastVector := u.vectorBase + 16, spurious := satSucc 65535 s.iru.spurious, driven := t.iru.driven
          request := s.iru.formed } ∧
        (∀ k : Level, t.iru.driven[k] = (decide (k ≠ 0) && decide (k = s.iru.formed))) ∧
        t = { s with ptu := t.ptu, iru := t.iru }) ∧
    ((s.configured = false ∨ m = 0 ∨ s.iru.driven[m] = false) →
      exec (.acknowledgeCycle ⟨a, lanes, mem⟩) s = .next
        { s with ptu := { s.ptu with
          bus := ⟨if mem = .completes then .byMemory else .memFault, none, [⟨a, false, lanes, 0⟩]⟩ } })

/-- A completed full-word store to the service-done word pops the top entry and forms the request again, the pending flags
and the driven set kept but for a new request; on an empty stack it is refused with reason SERVICE_EMPTY. The bus record
and memory's answer as an operand are the model's choice, log 10. -/
def Obligations.ServiceDonePopsTheStack : Prop :=
  ∀ (value : Word) (s : State), s.Ready →
    (∀ e rest, s.iru.stack = e :: rest →
      (∃ t, exec (.serviceDone value .completes) s = .next t ∧
        t.iru.stack = rest ∧ t.iru.pending = s.iru.pending ∧ t.iru.levels = s.iru.levels ∧ t.iru.request = t.iru.formed ∧
        (∀ m : Level, t.iru.driven[m] = (s.iru.driven[m] || (decide (m ≠ 0) && decide (m = t.iru.request)))) ∧
        t.iru.lastVector = s.iru.lastVector ∧ t.iru.spurious = s.iru.spurious ∧
        t = { s.captured .service (s.regionAddr 0x1280) .both value with iru := t.iru }) ∧
      exec (.serviceDone value .faults) s = .next (s.faultedStore (s.regionAddr 0x1280) .both value)) ∧
    (s.iru.stack = [] → ∀ mem, exec (.serviceDone value mem) s = .next (s.refusal .serviceEmpty (s.regionAddr 0x1280) .both))

/-- The request level is 0 or the level of a pending source above the top of the stack, and no pending source above the
top has a higher level. -/
def Obligations.TheRequestIsTheHighestPendingLevel : Prop :=
  ∀ u : Iru,
    (u.formed = 0 ∨ ∃ i : Irq, u.isPending i = true ∧ u.level i = u.formed ∧ u.top < u.formed) ∧
    ∀ i : Irq, u.isPending i = true → u.top < u.level i → u.level i ≤ u.formed

/-! ## Transport slots (05) -/

/-- A well-formed link command other than SPEED, on a transport whose owner lets it pass and whose link is UP with room,
is queued as a processor entry; the arbiter chooses; it is counted as taken; the result is ACCEPTED. A processor SPEED on a
FREE transport whose link is UP goes to the speed slot, replacing and counting as SUPERSEDED what waits there, which
completes as CANCELLED to the processor if it was its own. The command carries the record's stores and its go word
together: the model's choice, log 7. -/
def Obligations.LinkCommandsAreQueued : Prop :=
  (∀ (k : LinkKind) (n : Transport) (tag w2 w3 : Word) (arg : Arg) (s : State), s.Ready → k ≠ .speed →
    k.argument? s.standard w2 w3 = some arg → (s.link n).state = .up → (s.link n).queue.length < 4 →
    ((s.ctx n).owner = .free ∨ (s.ctx n).owner = .chase ∧ ¬k.moves ∨ k = .sense) →
    exec (k.row n tag w2 w3) s = .next
      (({ s.stored (k.stores n tag w2 w3) with
          links := s.links.set n
            ({ s.link n with queue := (s.link n).queue ++ [processorEntry k arg tag] } : Link).choose
          ctxs := s.ctxs.set n { s.ctx n with taken := (s.ctx n).taken + 1 } } : State).transportDecided
        n .accepted false k.number tag)) ∧
  ∀ (n : Transport) (tag value : Word) (s : State), s.Ready → value ≠ 0x8000 → (s.link n).state = .up →
    (s.ctx n).owner = .free →
    exec (.speed n tag value) s = .next
      (({ s.stored (LinkKind.speed.stores n tag value 0) with
          links := s.links.set n
            ({ s.link n with
                slot := some ⟨value.toInt, .processor, some tag⟩
                superseded := if (s.link n).slot.isSome then satSucc 65535 (s.link n).superseded else (s.link n).superseded
              } : Link).choose
          ctxs := s.ctxs.set n
            { s.ctx n with
              taken := (s.ctx n).taken + 1, cancelled := (s.ctx n).cancelled + displaced (s.link n).slot }
        } : State).transportDecided n .accepted false 3 tag)

/-- A link command that fails its form, its link, its ownership check or the queue's room, in this order, changes nothing
but the result and the SLOT source. The command carries the record's stores and its go word together: the model's choice,
log 7. -/
def Obligations.LinkCommandsAreTurnedAway : Prop :=
  ∀ (k : LinkKind) (n : Transport) (tag w2 w3 : Word) (s : State), s.Ready →
    let good := (k.argument? s.standard w2 w3).isSome = true
    let up := (s.link n).state = .up
    let barred := (s.ctx n).owner = .run ∧ k ≠ .sense ∧ k ≠ .halt
    let full := 4 ≤ (s.link n).queue.length ∧ k ≠ .speed
    let plain := (s.ctx n).owner = .free ∨ (s.ctx n).owner = .chase ∧ ¬k.moves ∨ k = .sense
    ∀ code,
      (¬good ∧ code = .malformed ∨ good ∧ ¬up ∧ code = .linkDown ∨ good ∧ up ∧ barred ∧ code = .held ∨
        good ∧ up ∧ plain ∧ full ∧ code = .queueFull) →
      exec (k.row n tag w2 w3) s = .next ((s.stored (k.stores n tag w2 w3)).transportDecided n code false k.number tag)

/-- A motion command on a transport owned by CHASE stops the processor's chase without a HALT, withdraws its waiting speed
and makes the owner FREE, before it is offered: SPEED to the slot, the others to the queue. The command carries the
record's stores and its go word together: the model's choice, log 7. -/
def Obligations.MotionCommandsTakeTheTransportFromAChase : Prop :=
  ∀ (k : LinkKind) (n : Transport) (tag w2 w3 : Word) (arg : Arg) (s : State), s.Ready → k.moves →
    k.argument? s.standard w2 w3 = some arg → (s.link n).state = .up →
    (s.ctx n).owner = .chase → (s.chase n).state ≠ .idle → (s.chase n).origin = .processor →
    ((s.link n).queue.length < 4 ∨ k = .speed → exec (k.row n tag w2 w3) s = .next
        (({ s.stored (k.stores n tag w2 w3) with
            links := s.links.set n
              (match arg with
                | .speed v => ({ s.link n with slot := some ⟨v, .processor, some tag⟩ } : Link).choose
                | _ =>
                  ({ s.link n with slot := none, queue := (s.link n).queue ++ [processorEntry k arg tag] } : Link).choose)
            ctxs := s.ctxs.set n
              { s.ctx n with
                owner := .free, taken := (s.ctx n).taken + 1
                cancelled := (s.ctx n).cancelled + displaced (s.link n).slot }
            chases := s.chases.set n
              { s.chase n with state := .idle, changeFlag := true, changeCount := wrapSucc 255 (s.chase n).changeCount }
            iru := s.iru.raise .chase } : State).transportDecided n .accepted false k.number tag)) ∧
    (4 ≤ (s.link n).queue.length → k ≠ .speed → exec (k.row n tag w2 w3) s = .next
      (({ s.stored (k.stores n tag w2 w3) with
          links := s.links.set n { s.link n with slot := none }
          ctxs := s.ctxs.set n
            { s.ctx n with owner := .free, cancelled := (s.ctx n).cancelled + displaced (s.link n).slot }
          chases := s.chases.set n
            { s.chase n with state := .idle, changeFlag := true, changeCount := wrapSucc 255 (s.chase n).changeCount }
          iru := s.iru.raise .chase } : State).transportDecided n .queueFull false k.number tag))

/-- CLEAR_ERRORS in any owner and link state: the link's record and its seven counts are cleared, the context's frozen
mark falls, the DECK condition is decided again, the result is ACCEPTED, and nothing else changes. PARAMETER_TAKE: HELD on a
RUN transport; otherwise each parameter is clamped and in force at once. Each command carries the record's stores and its go
word together: the model's choice, log 7. -/
def Obligations.ErrorsAreClearedAndParametersTaken : Prop :=
  (∀ (n : Transport) (tag : Word) (s : State), s.Ready →
    exec (.clearErrors n tag) s = .next
      (({ s.stored [(.transport n 0, 10), (.transport n 1, tag), (.transport n 7, 0)] with
          links := s.links.set n { s.link n with err := none, additional := false, counts := ⟨0, 0, 0, 0, 0, 0, 0⟩ }
          ctxs := s.ctxs.set n { s.ctx n with errFrozen := false }
          iru := s.iru.follow (.deck n) ({ s.ctx n with errFrozen := false } : Context).deckCondition
        } : State).transportDecided n .accepted false 10 tag)) ∧
  ∀ (n : Transport) (tag latency tolerance timeout : Word) (s : State), s.Ready →
    let ws : List (Watched × Word) := [(.transport n 8, tag), (.transport n 9, latency), (.transport n 10, tolerance),
      (.transport n 11, timeout), (.transport n 15, 0)]
    ((s.ctx n).owner = .run →
      exec (.parameterTake n tag latency tolerance timeout) s = .next ((s.stored ws).transportDecided n .held true 0 tag)) ∧
    ((s.ctx n).owner ≠ .run →
      exec (.parameterTake n tag latency tolerance timeout) s = .next
        (({ s.stored ws with
            ctxs := s.ctxs.set n
              { s.ctx n with
                latency := if 15 < latency.toNat then 15 else latency.toNat
                tolerance := if 15 < tolerance.toNat then 15 else tolerance.toNat
                replyTimeout :=
                  if timeout.toNat < 2 then 2 else if 40 < timeout.toNat then 40 else timeout.toNat } } : State
          ).transportDecided n .accepted true 0 tag))

/-- DECK_RESET in any link state: HELD on a RUN transport; else the processor's chase is stopped and the owner FREE, the
link's frame in flight, queue and slot are cancelled, the FIFO emptied, the error record cleared, and the link left
UNPROBED with a break of 100 ms; next sequence, receiver and long counts are kept. Stated where the run has nothing to be
told. The command carries the record's stores and its go word together: the model's choice, log 7. -/
def Obligations.DeckResetResetsTheLink : Prop :=
  ∀ (n : Transport) (tag : Word) (s : State), s.Ready →
    ((s.ctx n).owner = .run → exec (.deckReset n tag) s = .next
      ((s.stored [(.transport n 0, 11), (.transport n 1, tag), (.transport n 7, 0)]).transportDecided n .held false 11 tag)) ∧
    ((s.ctx n).owner ≠ .run → s.RunQuiet → ((s.ctx n).owner = .free → (s.chase n).computes = false) →
      ((s.ctx n).owner = .chase → (s.chase n).state ≠ .idle ∧ (s.chase n).origin = .processor) →
      ∃ t, exec (.deckReset n tag) s = .next t ∧
        t.link n =
          { s.link n with
            state := .unprobed, inFlight := none, replyTimer := none, tx := none, queue := [], slot := none, silence := 0
            probeInterval := 0, lastSpeed := false, breakLeft := some (100 * Config.msUnits)
            err := none, additional := false, counts := ⟨0, 0, 0, 0, 0, 0, 0⟩ } ∧
        (∀ m, m ≠ n → t.link m = s.link m) ∧
        t.ctx n =
          { s.ctx n with
            owner := .free, fifo := [], errFrozen := false
            mode := if (s.link n).state = .up then .unknown else (s.ctx n).mode
            linkChange := (s.ctx n).linkChange || decide ((s.link n).state ≠ .unprobed)
            cancelled := (s.ctx n).cancelled + BitVec.ofNat 16 (s.link n).processorEntries
            result := ⟨some .accepted, false, 11, tag⟩ } ∧
        (∀ m, m ≠ n → t.ctx m = s.ctx m) ∧
        t.chase n = (if (s.ctx n).owner = .chase then
          { s.chase n with state := .idle, changeFlag := true, changeCount := wrapSucc 255 (s.chase n).changeCount }
          else s.chase n) ∧
        (∀ m, m ≠ n → t.chase m = s.chase m) ∧
        t.DeckFollows n ∧
        t = { s.stored [(.transport n 0, 11), (.transport n 1, tag), (.transport n 7, 0)] with
              links := t.links, ctxs := t.ctxs, chases := t.chases, iru := t.iru })

/-! ## Chase slots (06) -/

/-- A CHASE_START that passes form, link and ownership begins (or restarts) the chase: owner CHASE, origin PROCESSOR, the
record's master and offset, its parameters pending, every working field cleared, the start speed by the deck mode, state
SEEK, CHASE raised, result ACCEPTED; no speed is offered. One that fails its form, its link or its ownership, in this order,
changes nothing but the result. The command carries the record's stores and its go word together: the model's choice, log 7. -/
def Obligations.ChaseStartsBegin : Prop :=
  (∀ (n : Transport) (tag : Word) (a : ChaseArgs) (m : Master) (minus : Bool) (s : State), s.Ready →
    (s.link n).state = .up → (s.ctx n).owner ≠ .run →
    Master.ofWord? a.master = some m → m ≠ .editClock → (∀ k, m = .transport k → k ≠ n ∧ s.walkReaches n k 7 = false) →
    a.sign = (if minus then 1 else 0) → (Label.ofWords a.labelHi a.labelLo).legal s.standard = true →
    exec (.chaseStart n tag a) s = .next
      (({ s.stored (recordStores (.chase n) 15 1 tag a.args) with
          ctxs := s.ctxs.set n { s.ctx n with owner := .chase }
          chases := s.chases.set n
            { s.chase n with
              state := .seek, origin := .processor, master := m
              offset :=
                if minus then -((Label.ofWords a.labelHi a.labelLo).index s.standard : Int)
                else ((Label.ofWords a.labelHi a.labelLo).index s.standard : Int)
              pending := some (ChaseParams.ofWords a.params), acc := 0
              vPrev :=
                if (s.ctx n).mode = .stopped then 0 else if (s.ctx n).mode = .playing then 1024 else (s.ctx n).lastSpeed
              lastClamp := .none, inRun := 0, outRun := 0, nakRun := 0, holdCount := 0, slips := 0, cause := none
              lastError := none, changeFlag := true, changeCount := wrapSucc 255 (s.chase n).changeCount }
          iru := s.iru.raise .chase } : State).chaseDecided n .accepted 1 tag)) ∧
  ∀ (n : Transport) (tag : Word) (a : ChaseArgs) (s : State), s.Ready →
    let good := ∃ m, Master.ofWord? a.master = some m ∧ m ≠ .editClock ∧
      (∀ k, m = .transport k → k ≠ n ∧ s.walkReaches n k 7 = false) ∧ (a.sign = 0 ∨ a.sign = 1) ∧
      (Label.ofWords a.labelHi a.labelLo).legal s.standard = true
    ∀ code,
      (¬good ∧ code = .arg ∨ good ∧ (s.link n).state ≠ .up ∧ code = .linkDown ∨
        good ∧ (s.link n).state = .up ∧ (s.ctx n).owner = .run ∧ code = .held) →
      exec (.chaseStart n tag a) s = .next
        ((s.stored (recordStores (.chase n) 15 1 tag a.args)).chaseDecided n code 1 tag)

/-- CHASE_STOP: nothing in IDLE; HELD for origin RUN; otherwise the context is IDLE, its waiting speed withdrawn, the
owner FREE, CHASE raised, and a HALT of source CHASE is queued, or refused with the link's answer as the result. The
command carries the record's stores and its go word together: the model's choice, log 7. -/
def Obligations.ChaseStopsEnd : Prop :=
  ∀ (n : Transport) (tag : Word) (s : State), s.Ready →
    let rec0 := s.stored (recordStores (.chase n) 15 2 tag [])
    ((s.chase n).state = .idle → exec (.chaseStop n tag) s = .next (rec0.chaseDecided n .accepted 2 tag)) ∧
    ((s.chase n).state ≠ .idle → (s.chase n).origin = .run →
      exec (.chaseStop n tag) s = .next (rec0.chaseDecided n .held 2 tag)) ∧
    ((s.chase n).state ≠ .idle → (s.chase n).origin = .processor → (s.ctx n).owner ≠ .run → ∀ (code : SlotCode) (l : Link),
      ((s.link n).state = .up ∧ (s.link n).queue.length < 4 ∧ code = .accepted ∧
          l = ({ s.link n with slot := none, queue := (s.link n).queue ++ [⟨.chase, .halt, .none, none, false, false⟩] } : Link).choose ∨
        (s.link n).state = .up ∧ 4 ≤ (s.link n).queue.length ∧ code = .queueFull ∧ l = { s.link n with slot := none } ∨
        (s.link n).state ≠ .up ∧ code = .linkDown ∧ l = { s.link n with slot := none }) →
      exec (.chaseStop n tag) s = .next
        (({ rec0 with
            links := s.links.set n l
            ctxs := s.ctxs.set n { s.ctx n with owner := .free, cancelled := (s.ctx n).cancelled + displaced (s.link n).slot }
            chases := s.chases.set n
              { s.chase n with state := .idle, changeFlag := true, changeCount := wrapSucc 255 (s.chase n).changeCount }
            iru := s.iru.raise .chase } : State).chaseDecided n code 2 tag))

/-- PARAMS in every state and for both origins: the set, each value clamped into its range, becomes pending; nothing else
in the context changes and no CHASE is raised. The command carries the record's stores and its go word together: the
model's choice, log 7. -/
def Obligations.ParamsBecomePending : Prop :=
  ∀ (n : Transport) (tag : Word) (p : ParamWords) (s : State), s.Ready →
    exec (.params n tag p) s = .next
      (({ s.stored (recordStores (.chase n) 15 3 tag p.args) with
          chases := s.chases.set n
            { s.chase n with
              pending := some
                { kp := (hiByte p.gains).toNat, ki := clampNat 0 63 (loByte p.gains).toNat
                  corrLimit := clampNat 0 512 p.corrLimit.toNat, slew := clampNat 1 255 (hiByte p.slewWindow).toNat
                  lockWindow := clampNat 1 63 (loByte p.slewWindow).toNat
                  lockCount := clampNat 1 63 (hiByte p.countGain).toNat
                  approachWindow := clampNat 2 999 p.approach.toNat
                  shuttleGain := clampNat 1 64 (loByte p.countGain).toNat
                  shuttleMax := clampNat 1024 32767 p.shuttleMax.toNat
                  holdLimit := clampNat 1 255 p.holdLimit.toNat } } } : State).chaseDecided n .accepted 3 tag)

/-! ## The switcher slot (09) -/

/-- MIXER_SET with legal sources, level and pattern: on a FREE mixer the buses, level and pattern are the record's; HELD
on a run's mixer, BUSY on the processor's; ARG otherwise, with nothing changed. GPI_PULSE on a line 0–7 with a width 1–15,
whoever owns the mixer: the line's timer is loaded, and its pulse count or, if it was active, its retrigger count goes up;
ARG otherwise, with nothing changed. The command carries the record's stores and its go word together: the model's choice,
log 7. -/
def Obligations.MixerSetAndGpiPulse : Prop :=
  (∀ (tag a b level pattern : Word) (s : State), s.Ready →
    let rec0 := s.stored (recordStores .switcher 15 1 tag [(2, a), (3, b), (4, level), (5, pattern)])
    let good := a.toNat < 8 ∧ b.toNat < 8 ∧ level.toNat ≤ 1023 ∧ pattern.toNat ≤ 63
    (∀ x y, MixSource.ofCode? a.toNat = some x → MixSource.ofCode? b.toNat = some y → good → s.mixer.owner = .free →
      exec (.mixerSet tag a b level pattern) s = .next
        (({ rec0 with mixer := { s.mixer with aBus := x, bBus := y, level := level.toNat, pattern := pattern.toNat } } : State
          ).switcherDecided .accepted 1 tag)) ∧
    (good → s.mixer.owner = .run →
      exec (.mixerSet tag a b level pattern) s = .next (rec0.switcherDecided .held 1 tag)) ∧
    (good → s.mixer.owner = .processor →
      exec (.mixerSet tag a b level pattern) s = .next (rec0.switcherDecided .busy 1 tag)) ∧
    (¬good → exec (.mixerSet tag a b level pattern) s = .next (rec0.switcherDecided .arg 1 tag)) ∧
    ∀ c : Nat, c < 8 → (MixSource.ofCode? c).isSome = true) ∧
  ∀ (tag width : Word) (s : State), s.Ready →
    (∀ (line : Fin 8), 1 ≤ width.toNat → width.toNat ≤ 15 →
      exec (.gpiPulse tag (BitVec.ofNat 16 line.val) width) s = .next
        (({ s.stored (recordStores .switcher 15 3 tag [(2, BitVec.ofNat 16 line.val), (3, width)]) with mixer := { s.mixer with
              timers := s.mixer.timers.set line width.toNat
              pulses :=
                if s.mixer.timers[line] = 0 then s.mixer.pulses.set line (satSucc 65535 s.mixer.pulses[line])
                else s.mixer.pulses
              retriggers :=
                if s.mixer.timers[line] = 0 then s.mixer.retriggers
                else s.mixer.retriggers.set line (satSucc 65535 s.mixer.retriggers[line]) } } : State).switcherDecided
          .accepted 3 tag)) ∧
    ∀ line : Word, (8 ≤ line.toNat ∨ width.toNat = 0 ∨ 15 < width.toNat) →
      exec (.gpiPulse tag line width) s = .next
        ((s.stored (recordStores .switcher 15 3 tag [(2, line), (3, width)])).switcherDecided .arg 3 tag)

/-- AUTO_TRANS with a legal record: on a FREE mixer the owner is PROCESSOR and a transition of 2·length fields stands
before its first, whether or not one was in progress (log 40: it is replaced with no outcome recorded); HELD, BUSY and ARG
as for MIXER_SET. The command carries the record's stores and its go word together: the model's choice, log 7. -/
def Obligations.AutoTransStartsATransition : Prop :=
  ∀ (tag kind length curve pattern : Word) (s : State), s.Ready →
    let rec0 := s.stored (recordStores .switcher 15 2 tag [(2, kind), (3, length), (4, curve), (5, pattern)])
    let good := (kind = 2 ∨ kind = 3) ∧ (curve = 0 ∨ curve = 1) ∧ 1 ≤ length.toNat ∧ length.toNat ≤ 999 ∧ pattern.toNat ≤ 63
    (good → s.mixer.owner = .free →
      exec (.autoTrans tag kind length curve pattern) s = .next
        (({ rec0 with mixer := { s.mixer with
              owner := .processor, pattern := pattern.toNat
              transition := some ⟨if kind = 2 then .mix else .wipe, if curve = 0 then .linear else .s, 2 * length.toNat, 1, true⟩ } }
            : State).switcherDecided .accepted 2 tag)) ∧
    (good → s.mixer.owner = .run →
      exec (.autoTrans tag kind length curve pattern) s = .next (rec0.switcherDecided .held 2 tag)) ∧
    (good → s.mixer.owner = .processor →
      exec (.autoTrans tag kind length curve pattern) s = .next (rec0.switcherDecided .busy 2 tag)) ∧
    (¬good → exec (.autoTrans tag kind length curve pattern) s = .next (rec0.switcherDecided .arg 2 tag))

/-- A command word that names no command of its slot: MALFORMED in a transport slot, ARG in the three others; the record
is captured, the result written, SLOT raised, and nothing else changes. A command word is compared whole: the model's
reading, log 31. The command carries the record's stores and its go word together: the model's choice, log 7. -/
def Obligations.ReservedCommandsAreRefused : Prop :=
  ∀ (command tag : Word) (s : State), s.Ready →
    (∀ n, (command.toNat = 0 ∨ 11 < command.toNat) →
      exec (.reservedCommand (.transport n) command tag) s = .next
        ((s.stored (recordStores (.transport n) 7 command tag [])).transportDecided n .malformed false command tag)) ∧
    (∀ n, (command.toNat = 0 ∨ 3 < command.toNat) →
      exec (.reservedCommand (.chase n) command tag) s = .next
        ((s.stored (recordStores (.chase n) 15 command tag [])).chaseDecided n .arg command tag)) ∧
    ((command.toNat = 0 ∨ 8 < command.toNat) →
      exec (.reservedCommand .run command tag) s = .next
        ((s.stored (recordStores .run 15 command tag [])).runDecided .arg command tag)) ∧
    ((command.toNat = 0 ∨ 3 < command.toNat) →
      exec (.reservedCommand .switcher command tag) s = .next
        ((s.stored (recordStores .switcher 15 command tag [])).switcherDecided .arg command tag))

/-! ## The run control slot (08) -/

/-- A START_RUN in IDLE whose event is LOADED (or DONE) and passes its checks, its transports' links UP with room: the
event is armed as current, the run's working fields are cleared and its settings taken, the run is CUEING, every transport
the event names is the run's with its LOCATE placed, every other transport is untouched, and the result is ACCEPTED. The
command carries the record's stores and its go word together: the model's choice, log 7. -/
def Obligations.StartRunArmsAndCues : Prop :=
  ∀ (tag first mode autoRoll margin limit : Word) (e : Fin 64) (m : RunMode) (c : EventCodes) (u : Setup) (s : State),
    s.Ready → s.AtRest → s.cfg.setup = some u → first.toNat = e.val → mode = (if m = .record then 1 else 0) →
    (s.et.states[e] = .loaded ∨ s.et.states[e] = .done) →
    (s.fieldsOf e).check s.standard (marginOf margin) (fun n => (s.ctx n).latency) = .ok c →
    let a := (s.fieldsOf e).armed c e .current s.standard (marginOf margin) (s.ctx c.recorder).latency
    (∀ n, a.names n = true → (s.link n).state = .up ∧ (s.link n).queue.length < 4) →
    ∃ t, exec (.startRun tag first mode autoRoll margin limit) s = .next t ∧
      t.et = ⟨(s.et.states.map EventState.reloaded).set e .armed, some a, none⟩ ∧
      t.run =
        { s.run.started m (autoRoll.getLsbD 0) (marginOf margin) (cueLimitOf limit) u.requireReference with
          successor := a.link, lookahead := if a.noLookahead = true ∨ a.link = none then .none else .notYet, cueCount := 0
          cues := t.run.cues, result := ⟨some .accepted, false, 1, tag⟩ } ∧
      (∀ n, a.names n = true →
        (t.ctx n).owner = .run ∧
        t.run.cues.get n = { s.run.cues.get n with progress := .locating, locates := 1, unplaced := false } ∧
        ∀ target, a.cueTarget? s.standard n = some target →
          State.runEntry .locate (.label (Label.ofIndex s.standard target)) false false ∈
            (t.link n).queue ++ (t.link n).inFlight.toList.map (·.entry)) ∧
      (∀ n, a.names n = false → t.ctx n = s.ctx n ∧ t.link n = s.link n ∧ t.chase n = s.chase n ∧
        t.run.cues.get n = s.run.cues.get n) ∧
      t = { s.stored (recordStores .run 15 1 tag [(2, first), (3, mode), (4, autoRoll), (5, margin), (6, limit)]) with
            links := t.links, ctxs := t.ctxs, chases := t.chases, et := t.et, run := t.run, iru := t.iru }

/-- A START_RUN in IDLE whose event is EMPTY or DRAFT, or fails a check: the result is ACCEPTED, and the run goes through
the abort path with nothing to wait for and is FAULTED with the refusal in its fault record. The command carries the
record's stores and its go word together: the model's choice, log 7. -/
def Obligations.StartRunFaultsOnARefusedEvent : Prop :=
  ∀ (tag first mode autoRoll margin limit : Word) (e : Fin 64) (m : RunMode) (k : FaultKind) (u : Setup) (s : State),
    s.Ready → s.AtRest → s.cfg.setup = some u → first.toNat = e.val → mode = (if m = .record then 1 else 0) →
    ((s.et.states[e] = .empty ∨ s.et.states[e] = .draft) ∧ k = .eventNotLoaded ∨
      (s.et.states[e] = .loaded ∨ s.et.states[e] = .done) ∧
      ∃ r, (s.fieldsOf e).check s.standard (marginOf margin) (fun n => (s.ctx n).latency) = .error r ∧ k = .eventInvalid r) →
    ∃ t, exec (.startRun tag first mode autoRoll margin limit) s = .next t ∧
      t.run =
        { s.run.started m (autoRoll.getLsbD 0) (marginOf margin) (cueLimitOf limit) u.requireReference with
          state := .faulted, fault := some ⟨k, e, none, none, false⟩, abortCause := .fault, endCause := .faulted
          lookahead := .none, result := ⟨some .accepted, false, 1, tag⟩ } ∧
      t.et = { s.et with states := s.et.states.map EventState.reloaded } ∧
      t.mixer = { s.mixer with timers := Vector.replicate 8 0, handed := [] } ∧ t.RunFaultFollows ∧
      t = { s.stored (recordStores .run 15 1 tag [(2, first), (3, mode), (4, autoRoll), (5, margin), (6, limit)]) with
            et := t.et, run := t.run, mixer := t.mixer, iru := t.iru }

/-- A run command that fails its form (ARG) or its run state (STATE) changes nothing but the result. The command carries
the record's stores and its go word together: the model's choice, log 7. -/
def Obligations.RunCommandsAreTurnedAway : Prop :=
  ∀ (tag : Word) (s : State), s.Ready →
    (∀ first mode autoRoll margin limit code,
      ((64 ≤ first.toNat ∨ 2 ≤ mode.toNat) ∧ code = .arg ∨
        first.toNat < 64 ∧ mode.toNat < 2 ∧ s.run.state ≠ .idle ∧ code = .state) →
      exec (.startRun tag first mode autoRoll margin limit) s = .next
        ((s.stored (recordStores .run 15 1 tag [(2, first), (3, mode), (4, autoRoll), (5, margin), (6, limit)])).runDecided
          code 1 tag)) ∧
    (s.run.state ≠ .ready → exec (.roll tag) s = .next ((s.stored (recordStores .run 15 2 tag [])).runDecided .state 2 tag)) ∧
    (s.run.state = .idle → exec (.stop tag) s = .next ((s.stored (recordStores .run 15 3 tag [])).runDecided .state 3 tag) ∧
      exec (.abort tag) s = .next ((s.stored (recordStores .run 15 4 tag [])).runDecided .state 4 tag)) ∧
    (s.run.state ≠ .faulted →
      exec (.clearFault tag) s = .next ((s.stored (recordStores .run 15 5 tag [])).runDecided .state 5 tag)) ∧
    (∀ next code,
      (64 ≤ next.toNat ∧ next ≠ 0xFFFF ∧ code = .arg ∨
        (next.toNat < 64 ∨ next = 0xFFFF) ∧ code = .state ∧
          ¬(s.run.state.active = true ∧ (s.run.lookahead = .notYet ∨ s.run.lookahead = .none) ∧ s.run.stopRequested = false)) →
      exec (.setNext tag next) s = .next ((s.stored (recordStores .run 15 6 tag [(2, next)])).runDecided code 6 tag)) ∧
    ∀ hi lo, (Label.ofWords hi lo).legal s.standard = false →
      exec (.setSuiteClock tag hi lo) s = .next ((s.stored (recordStores .run 15 8 tag [(2, hi), (3, lo)])).runDecided .arg 8 tag)

/-- ROLL in READY, CLEAR_FAULT in FAULTED, SET_NEXT where it is accepted, and SET_SUITE_CLOCK with a legal label. The
command carries the record's stores and its go word together: the model's choice, log 7. -/
def Obligations.RunCommandsActAtOnce : Prop :=
  ∀ (tag : Word) (s : State), s.Ready →
    (s.run.state = .ready →
      exec (.roll tag) s = .next
        (({ s.stored (recordStores .run 15 2 tag []) with run := { s.run with rollRequested := true } } : State).runDecided
          .accepted 2 tag)) ∧
    (s.run.state = .faulted →
      exec (.clearFault tag) s = .next
        (({ s.stored (recordStores .run 15 5 tag []) with
            run := { s.run with state := .idle }, iru := (s.iru.raise .runPhase).follow .runFault false } : State).runDecided
          .accepted 5 tag)) ∧
    (∀ (next : Word) (e : Option (Fin 64)),
      (next = 0xFFFF ∧ e = none ∨ ∃ k : Fin 64, next.toNat = k.val ∧ e = some k) → s.run.state.active = true →
      (s.run.lookahead = .notYet ∨ s.run.lookahead = .none) → s.run.stopRequested = false →
      exec (.setNext tag next) s = .next
        (({ s.stored (recordStores .run 15 6 tag [(2, next)]) with run := { s.run with
              successor := e, lookahead := if e = none then .none else s.run.lookahead } } : State).runDecided .accepted 6 tag)) ∧
    ∀ hi lo, (Label.ofWords hi lo).legal s.standard = true →
      exec (.setSuiteClock tag hi lo) s = .next
        (({ s.stored (recordStores .run 15 8 tag [(2, hi), (3, lo)]) with
            rtu := { s.rtu with clock := (Label.ofWords hi lo).index s.standard } } : State).runDecided .accepted 8 tag)

/-- STOP while rolling sets stop requested, discards the pending fault and leaves no look-ahead (stated where none is
armed; the discard counts nothing: the model's reading, log 33); a second STOP, and STOP or ABORT in ABORTING or FAULTED, change nothing; CLEAR_ALL in ABORTING makes the cause
CLEARED. The command carries the record's stores and its go word together: the model's choice, log 7. -/
def Obligations.StopsAndClearsOfABusyRun : Prop :=
  ∀ (tag : Word) (s : State), s.Ready →
    (s.run.state.rolling = true → s.run.stopRequested = false → s.et.lookahead = none →
      exec (.stop tag) s = .next
        (({ s.stored (recordStores .run 15 3 tag []) with run := { s.run with
              stopRequested := true, lookahead := .none, pendingFault := none, pendingExtra := 0 } } : State).runDecided
          .accepted 3 tag)) ∧
    ((s.run.state.rolling = true ∧ s.run.stopRequested = true ∨ s.run.state = .aborting ∨ s.run.state = .faulted) →
      exec (.stop tag) s = .next ((s.stored (recordStores .run 15 3 tag [])).runDecided .accepted 3 tag)) ∧
    ((s.run.state = .aborting ∨ s.run.state = .faulted) →
      exec (.abort tag) s = .next ((s.stored (recordStores .run 15 4 tag [])).runDecided .accepted 4 tag)) ∧
    (s.run.state = .aborting →
      exec (.clearAll tag) s = .next
        (({ s.stored (recordStores .run 15 7 tag []) with run := { s.run with abortCause := .cleared } } : State).runDecided
          .accepted 7 tag))

/-- STOP in CUEING or READY, ABORT and CLEAR_ALL in any working state, and a processor HALT on a RUN transport whose link
is UP enter the abort path with their cause: the run is ABORTING with commands outstanding, or has ended at once with the
cause's end cause; nothing is awaited, pending or looked ahead to, and no chase of the run's is left. The command carries
the record's stores and its go word together: the model's choice, log 7. -/
def Obligations.AbortRequestsEnterTheAbortPath : Prop :=
  ∀ (tag : Word) (s : State) (i : Instr) (cause : AbortCause) (done : EndCause), s.Ready → s.run.state.active = true →
    (i = .stop tag ∧ (s.run.state = .cueing ∨ s.run.state = .ready) ∧ cause = .stopped ∧ done = .stopped ∨
      i = .abort tag ∧ cause = .processorAbort ∧ done = .aborted ∨
      i = .clearAll tag ∧ cause = .cleared ∧ done = .cleared ∨
      (∃ n, i = .halt n tag ∧ (s.ctx n).owner = .run ∧ (s.link n).state = .up) ∧ cause = .processorHalt ∧
        done = .processorHalt) →
    ∃ t, exec i s = .next t ∧ t.run.abortCause = cause ∧ t.run.awaited = [] ∧ t.run.lookahead = .none ∧
      t.run.pendingFault = none ∧ (∀ n, (t.chase n).state = .idle ∨ (t.chase n).origin = .processor) ∧
      (t.run.state = .aborting ∧ t.run.outstanding ≠ 0 ∧ t.run.endCause = s.run.endCause ∨
        t.run.state = .idle ∧ t.run.endCause = done ∧ t.et.current = none ∧ t.et.lookahead = none ∧
        ∀ n, (t.ctx n).owner ≠ .run)

/-- CLEAR_ALL in IDLE or FAULTED does the suite clear work at once: every event EMPTY, every queue, slot and reply FIFO
empty, every entry in flight but a probe an orphan, every chase IDLE with its parameters kept, every CHASE owner FREE, the
mixer FREE with its buses, level and pattern kept, no GPI line active, the fault record and the preview counts cleared.
The command carries the record's stores and its go word together: the model's choice, log 7. -/
def Obligations.ClearAllDoesTheSuiteClearWork : Prop :=
  ∀ (tag : Word) (s : State), s.Ready → s.RunQuiet → (∀ n, (s.ctx n).owner ≠ .run) →
    (∀ n, (s.ctx n).owner = .chase → (s.chase n).state ≠ .idle ∧ (s.chase n).origin = .processor) →
    ∃ t, exec (.clearAll tag) s = .next t ∧
      (∀ e : Fin 64, t.et.states[e] = .empty) ∧ t.et.current = s.et.current ∧ t.et.lookahead = s.et.lookahead ∧
      (∀ n, (t.link n).queue = [] ∧ (t.link n).slot = none ∧ (t.link n).state = (s.link n).state ∧
        (t.link n).err = (s.link n).err ∧ (t.link n).nextSeq = (s.link n).nextSeq ∧
        (t.link n).inFlight = (s.link n).inFlight.map fun f => if f.entry.source = .link then f else { f with orphan := true }) ∧
      (∀ n, (t.ctx n).fifo = [] ∧ (t.ctx n).owner = .free) ∧
      (∀ n, (t.chase n).state = .idle ∧ (t.chase n).params = (s.chase n).params ∧ (t.chase n).pending = (s.chase n).pending) ∧
      t.mixer.owner = .free ∧ t.mixer.frozen = false ∧ t.mixer.transition = none ∧ t.mixer.timers = Vector.replicate 8 0 ∧
      (t.mixer.aBus, t.mixer.bBus, t.mixer.level, t.mixer.pattern) = (s.mixer.aBus, s.mixer.bBus, s.mixer.level, s.mixer.pattern) ∧
      t.mixer.crosspoints = s.mixer.crosspoints ∧ t.mixer.pulses = s.mixer.pulses ∧
      t.run =
        { s.run with
          state := .idle, fault := none, faultExtra := 0, lockLosses := 0, notices := 0
          result := ⟨some .accepted, false, 7, tag⟩ } ∧
      t = { s.stored (recordStores .run 15 7 tag []) with
            links := t.links, ctxs := t.ctxs, chases := t.chases, et := t.et, run := t.run, mixer := t.mixer, iru := t.iru }

/-! ## The house reference and the boundaries (02) -/

/-- A frame pulse in ABSENT or FREE begins ACQUIRING with a good-pulse run of 1 and the pulse timer at 0; the phase counter is
not changed, no boundary is made, and the next boundary is still the phase counter's. -/
def Obligations.FramePulsesBeginAcquisition : Prop :=
  ∀ s : State, s.configured = true → (s.rtu.state = .absent ∨ s.rtu.state = .free) →
    ∃ t, exec .framePulse s = .next t ∧ t.rtu = { s.rtu with state := .acquiring, goodRun := 1, pulseTimer := 0 } ∧
      t.atBoundary .wrap = some (elapse (64 - s.rtu.phase) t)

/-- The pulse that begins an acquisition raises REFERENCE and changes nothing else; in ACQUIRING a pulse counts or starts the
run again; the acquisition's end after 128 phase units; the locking pulse, and pulses in LOCKED that make no boundary: a late
one, an early one, the third early one in a row; the loss of the reference 8 phase units after the point of a pulse that
did not come. An expiry command moves its counter to its point: the model's choice, log 2. -/
def Obligations.PulsesLockAndDisturbTheReference : Prop :=
  ∀ s : State, s.configured = true → s.ptu.hold = none →
    ((s.rtu.state = .absent ∨ s.rtu.state = .free) → exec .framePulse s = .next
      { s with rtu := { s.rtu with state := .acquiring, goodRun := 1, pulseTimer := 0 }, iru := s.iru.raise .reference }) ∧
    (s.rtu.state = .acquiring →
      (63 ≤ s.rtu.pulseTimer → s.rtu.pulseTimer ≤ 65 → s.rtu.goodRun < 7 → exec .framePulse s = .next
        { s with rtu := { s.rtu with goodRun := s.rtu.goodRun + 1, pulseTimer := 0 } }) ∧
      ((s.rtu.pulseTimer < 63 ∨ 65 < s.rtu.pulseTimer) → exec .framePulse s = .next
        { s with rtu := { s.rtu with goodRun := 1, pulseTimer := 0 } })) ∧
    (s.rtu.state = .acquiring →
      let e := elapse (128 - s.rtu.pulseTimer) s
      exec .acquireTimeout s = .next
        { e with rtu := { e.rtu with state := .absent, goodRun := 0, pulseTimer := 0 }, iru := s.iru.raise .reference }) ∧
    (s.rtu.state = .acquiring → 63 ≤ s.rtu.pulseTimer → s.rtu.pulseTimer ≤ 65 → 7 ≤ s.rtu.goodRun →
      (s.rtu.phase = 0 → exec .framePulse s = .next
        { s with
          rtu := { s.rtu with state := .locked, pulseTimer := 0, owed := false, disturbanceRun := 0, goodRun := 0 }
          iru := s.iru.raise .reference }) ∧
      (s.rtu.phase ≠ 0 → ∃ t, exec .framePulse s = .next t ∧ t.rtu = Rtu.next s.standard (decide (1 ≤ s.rtu.phase ∧ s.rtu.phase ≤ 63)) s.rtu.locking ∧
        (s.iru.level .reference ≠ 0 → t.iru.isPending .reference = true))) ∧
    (s.rtu.state = .locked →
      (s.rtu.owed = true →
        exec .framePulse s = .next { s with rtu := { s.rtu with owed := false, disturbanceRun := 0, pulseTimer := 0 } } ∧
        (s.RunQuiet →
          let e := elapse (72 - s.rtu.pulseTimer) s
          exec .referenceLost s = .next
            { e with
              rtu := { e.rtu with state := .free, pulseTimer := 0, owed := false, disturbanceRun := 0 }
              iru := s.iru.raise .reference })) ∧
      (s.rtu.owed = false → s.rtu.pulseTimer < 63 →
        (s.rtu.disturbanceRun < 2 → exec .framePulse s = .next
          { s with
            rtu := { s.rtu with
              disturbances := satSucc 65535 s.rtu.disturbances, disturbanceRun := s.rtu.disturbanceRun + 1 } }) ∧
        (2 ≤ s.rtu.disturbanceRun → s.rtu.phase < 64 → s.RunQuiet → exec .framePulse s = .next
          { s with
            rtu := { s.rtu with
              state := .acquiring, goodRun := 1, pulseTimer := 0, disturbanceRun := 0
              disturbances := satSucc 65535 s.rtu.disturbances }
            iru := s.iru.raise .reference })))

/-- FRAME_BOUNDARY, GENERATED_BOUNDARY and a FRAME_PULSE that makes a boundary: the phase counter returns to 0, the frame
counter and the suite clock advance, the parity is 1, the event carries the counters, the
length, the short-frame flag and the reference state, every reader does its work for the length of the frame, FRAME is
raised if the setup record allows it and its level is not 0, and configuration, queue, levels and service stack stand. An
expiry command moves its counter to its point: the model's choice, log 2. The length of a generated frame is the phase
counter's value: log 17. -/
def Obligations.FrameBoundariesAdvanceTheFrame : Prop :=
  ∀ (s b : State) (c : FrameCause), s.atBoundary c = some b →
    ∃ t, exec (boundaryCommand c) s = .next t ∧ t.rtu = Rtu.next b.standard (s.shortens c) b.rtu ∧
      t.rtu.event = some ⟨t.rtu.frames, t.rtu.clock, b.rtu.phase, s.shortens c, b.rtu.state⟩ ∧
      (∀ n, t.reader n = (b.reader n).boundary b.standard b.coastLimit b.rtu.phase) ∧
      (b.frameAllowed = true → b.iru.level .frame ≠ 0 → t.iru.isPending .frame = true) ∧
      t.cfg = s.cfg ∧ t.pending = s.pending ∧ t.iru.levels = s.iru.levels ∧ t.iru.stack = s.iru.stack

/-- The field-2 boundary, at its point or at a field pulse in the window: parity 2 and field-2 made, nothing raised but TRANSITION, by
the Transition Generator (stated where no read is held), which adopts the crosspoint table and puts a frame on the line or lets it wait; other field
pulses are disregarded. An expiry command moves its counter to its point: the model's choice, log 2. -/
def Obligations.Field2BoundariesAreMadeOnce : Prop :=
  ∀ s : State, s.configured = true →
    (∀ b i, (s.atField .point = some b ∧ i = .field2Boundary ∨ s.atField .pulse = some b ∧ i = .fieldPulse) →
      ∃ t, exec i s = .next t ∧ t.rtu = { b.rtu with parity2 := true, field2Made := true } ∧
        (∀ e : Fin 8, t.mixer.crosspoints[e] = (b.mixer.pendingCross[e]).getD b.mixer.crosspoints[e] ∧
          t.mixer.pendingCross[e] = none) ∧
        (∃ f, f.length = 8 ∧ f.head? = some 0xC3 ∧ f.tail.sum = 0 ∧
          ((b.mixer.tx = .idle ∧ t.mixer.tx = .sending f Config.switcherFrameUnits none) ∨
            ∃ g left w, b.mixer.tx = .sending g left w ∧ t.mixer.tx = .sending g left (some f))) ∧
        t.links = b.links ∧ t.chases = b.chases ∧ t.readers = s.readers ∧ t.run = s.run ∧ t.et = s.et ∧ t.cfg = s.cfg ∧
        t.pending = s.pending ∧ (b.mixer.transition = none ∧ b.ptu.hold = none → t.iru = b.iru) ∧
        (b.ptu.hold = none → t.iru.levels = b.iru.levels ∧ t.iru.stack = b.iru.stack ∧
          ∀ i, i ≠ .transition → t.iru.isPending i = b.iru.isPending i)) ∧
    (s.rtu.state ≠ .locked ∨ s.rtu.field2Made = true ∨ s.rtu.pulseTimer < 28 ∨ 36 < s.rtu.pulseTimer →
      exec .fieldPulse s = .next s)

/-! ## The readers (03) -/

/-- A timecode word with its sync field: its checks, then its effect by the reader's state. The operand is 80 bits in
order of arrival: the model's choice, log 28. -/
def Obligations.TimecodeWordsMoveTheReader : Prop :=
  ∀ (n : Transport) (bits w : BitVec 80) (d : Dir) (s : State), s.configured = true → s.ptu.hold = none →
    orientWord bits = some (w, d) →
    let r := s.reader n
    let x := readWord w d
    let i := x.label.index s.standard
    let c := if x.drop = decide (s.standard = .std30d) then r.counts
      else { r.counts with flagMismatch := satSucc 65535 r.counts.flagMismatch }
    let changed (y : Reader) : State :=
      { s with
        readers := s.readers.set n { y with changeFlag := true, changeCount := wrapSucc 255 r.changeCount }
        iru := s.iru.raise .reader }
    let kept (y : Reader) : State := { s with readers := s.readers.set n y }
    let reading (y : Reader) : State := if r.state = .reading then kept y else changed { y with state := .reading }
    let accepted : Reader :=
      { r with
        last := some ⟨i, d, s.rtu.phase⟩, fresh := true, elapsed := 0, quiet := 0, jump := none
        counts := { c with accepted := satSucc 65535 c.accepted } }
    let follows (k : Option Candidate) : Prop := ∃ j, k = some ⟨j, d⟩ ∧
      (d = .forward ∧ i = (j + 1) % s.standard.day ∨ d = .reverse ∧ i = (j + (s.standard.day - 1)) % s.standard.day)
    let playing : Int := if d = .forward then 1024 else -1024
    let near : Prop := ∃ a, r.last = some a ∧ (wrap s.standard.day ((i : Int) - a.index)).natAbs ≤ 2 + r.speed.natAbs / 512
    (badDigit w = true →
      exec (.timecodeWord n bits) s = .next (kept { r with counts := { r.counts with badWord := satSucc 65535 r.counts.badWord } })) ∧
    (badDigit w = false → x.label.legal s.standard = false →
      exec (.timecodeWord n bits) s =
        .next (kept { r with counts := { r.counts with badLabel := satSucc 65535 r.counts.badLabel } })) ∧
    (badDigit w = false → x.label.legal s.standard = true →
      ((r.state = .silent ∨ r.state = .seeded ∨ r.state = .lost) →
        exec (.timecodeWord n bits) s = .next (changed
          { r with
            state := .acquiring, counts := c, candidate := some ⟨i, d⟩, ring := [], speed := 0, quiet := 0, last := none
            jump := none, seed := none, fresh := false })) ∧
      (r.state = .acquiring →
        (follows r.candidate → exec (.timecodeWord n bits) s = .next (changed
          { accepted with state := .reading, speed := playing, candidate := none, ring := [], jump := r.jump })) ∧
        (¬follows r.candidate →
          exec (.timecodeWord n bits) s = .next (kept { r with counts := c, candidate := some ⟨i, d⟩, quiet := 0 }))) ∧
      ((r.state = .reading ∨ r.state = .coasting) →
        (near → exec (.timecodeWord n bits) s =
          .next (reading { accepted with ring := if r.state = .coasting then [] else r.ring })) ∧
        (¬near → follows r.jump → exec (.timecodeWord n bits) s = .next (reading
          { accepted with
            ring := [], speed := playing, counts := { accepted.counts with jump := satSucc 65535 c.jump } })) ∧
        (¬near → ¬follows r.jump → exec (.timecodeWord n bits) s = .next (kept
          { r with jump := some ⟨i, d⟩, counts := { c with discarded := satSucc 65535 c.discarded } }))))

/-- READER_COASTING and READER_LOST: a boundary of the cause at which the reader's third quiet boundary has come, or at
which its quiet count passes the coast limit; READER is raised if its level is not 0. The command is the boundary of its
cause when the step comes about at it: the model's choice, log 11. -/
def Obligations.ReadersCoastAndAreLost : Prop :=
  ∀ (n : Transport) (c : FrameCause) (s b : State), s.dropMarks.atBoundary c = some b →
    ((b.reader n).state = .reading → 2 ≤ (b.reader n).quiet →
      ∃ t, exec (.readerCoasting n c) s = .next t ∧ t.rtu = Rtu.next b.standard (s.shortens c) b.rtu ∧ (t.reader n).state = .coasting ∧
        (t.reader n).position = (b.reader n).position.map (fun p =>
          reduce (64 * b.standard.day) ((p : Int) + (b.reader n).speed.tdiv 16)) ∧
        (t.reader n).quiet = satSucc 255 (b.reader n).quiet ∧ (t.reader n).changeFlag = true ∧
        (t.reader n).changeCount = wrapSucc 255 (b.reader n).changeCount ∧
        (b.iru.level .reader ≠ 0 → t.iru.isPending .reader = true)) ∧
    (((b.reader n).state = .acquiring ∨ (b.reader n).state = .coasting) → b.coastLimit < satSucc 255 (b.reader n).quiet →
      ∃ t, exec (.readerLost n c) s = .next t ∧ t.rtu = Rtu.next b.standard (s.shortens c) b.rtu ∧
        t.reader n =
          { b.reader n with
            state := .lost, candidate := none, last := none, jump := none, ring := [], speed := 0, pubSpeed := 0, quiet := 0
            fresh := false, position := none, changeFlag := true, changeCount := wrapSucc 255 (b.reader n).changeCount
            counts := { (b.reader n).counts with loss := satSucc 65535 (b.reader n).counts.loss } } ∧
        (b.iru.level .reader ≠ 0 → t.iru.isPending .reader = true))

/-! ## The deck links and what comes from the decks (04, 05) -/

/-- The last byte of the frame in flight gone, its reply timer runs; the end of a break, and the 32nd boundary of a link
that is not UP with nothing in flight, put a probe on the line. An expiry command moves its counter to its point: the
model's choice, log 2. The command is the boundary of its cause when the step comes about at it: the model's choice, log
11. -/
def Obligations.LinkTimersSendAndAwait : Prop :=
  ∀ (n : Transport) (s : State),
    (∀ x f, (s.link n).tx = some x → (s.link n).inFlight = some f → f.phase = .sending →
      exec (.transmitComplete n) s = .next
        { s with links := s.links.set n { s.link n with
            tx := none, inFlight := some { f with phase := .sent }
            replyTimer := some ((s.ctx n).replyTimeout * Config.msUnits) } }) ∧
    (∀ k, (s.link n).breakLeft = some k → (s.link n).state ≠ .up → (s.link n).inFlight = none → (s.link n).tx = none →
      exec (.breakEnd n) s = .next { s with links := s.links.set n { (s.link n).probing with breakLeft := none } }) ∧
    ∀ c b, s.dropMarks.atBoundary c = some b → (b.link n).state ≠ .up → (b.link n).breakLeft = none → (b.link n).inFlight = none →
      (b.link n).tx = none → 31 ≤ (b.link n).probeInterval →
      ∃ t, exec (.probeIntervalExpiry n c) s = .next t ∧ t.rtu = Rtu.next b.standard (s.shortens c) b.rtu ∧
        (t.link n).state = (b.link n).state ∧ (t.link n).probeInterval = 0 ∧ (t.link n).inFlight = (b.link n).probing.inFlight ∧
        (t.link n).tx = (b.link n).probing.tx ∧ (t.link n).nextSeq = (b.link n).probing.nextSeq

/-- An ACK frame that answers a processor command in flight on a link with nothing else to send, a NOTICE frame, and a gap
inside a frame with nothing in flight: the deck tracked, the entry in the reply FIFO, the error recorded, DECKn raised. An
expiry command moves its counter to its point: the model's choice, log 2. The operands are the characters of the frame:
log 27. -/
def Obligations.FramesFromTheDeckAreTaken : Prop :=
  ∀ (n : Transport) (s : State), s.configured = true → s.ptu.hold = none →
    ((s.link n).receiver = .hunt → (s.ctx n).fifo.length < 3 →
      (∀ f q, (s.link n).inFlight = some f → f.seq = some q → q ≤ 14 → f.orphan = false → f.entry.source = .processor →
        (s.link n).queue = [] → (s.link n).slot = none →
        let c := (s.ctx n).acknowledged f.entry.kind f.entry.arg
        exec (.deckReply n (sentWell (frameOf 0x20 q []))) s = .next
          { s with
            links := s.links.set n (s.link n).answered
            ctxs := s.ctxs.set n { c with
              delivered := c.delivered + 1
              fifo := c.fifo ++ [⟨f.entry.tag, .reply, some f.entry.kind, some .ack, false, some q, [], s.stamp⟩] }
            iru := s.iru.follow (.deck n) true }) ∧
      ∀ code, (s.ctx n).owner ≠ .run →
        let c := (s.ctx n).noticed code
        exec (.notice n code) s = .next
          { s with
            links := s.links.set n { s.link n with gapLeft := none }
            ctxs := s.ctxs.set n { c with
              noticesDelivered := c.noticesDelivered + 1
              fifo := c.fifo ++ [⟨none, .reply, none, none, true, some 15, [code], s.stamp⟩] }
            iru := s.iru.follow (.deck n) true }) ∧
    ∀ k, (s.link n).gapLeft = some k → (s.link n).inFlight = none → (s.link n).err = none →
      exec (.gapError n) s = .next
        { s with
          links := s.links.set n { s.link n with
            receiver := .hunt, gapLeft := none, additional := false, err := some ⟨.gap, none, none, none, s.stamp⟩
            counts := { (s.link n).counts with gap := satSucc 255 (s.link n).counts.gap } }
          ctxs := s.ctxs.set n { s.ctx n with errFrozen := true }, iru := s.iru.follow (.deck n) true }

/-- A reply reaches the one whose frame it answers (04 R66, R73, R81; 05 R86, R87, R99; 06 R129). A probe's reply brings the
link UP; a NAK and a SENSE_REPLY to a processor command are tracked and put in the reply FIFO; a reply to a chase's speed
clears or counts its NAK run, and the third NAK in a row is FAULT with cause NAK; a reply to an orphan only ends it; a reply
with another sequence, or with nothing in flight, is counted as stale. Stated on a link with nothing else to send. The
operands are the characters of the frame: log 27. The NAK run stays at 2 on entering FAULT: the model's reading, log 47. -/
def Obligations.RepliesReachTheirSource : Prop :=
  ∀ (n : Transport) (q : Nat) (s : State), s.configured = true → s.ptu.hold = none → (s.link n).receiver = .hunt → q ≤ 14 →
    let chars (kind : Nat) (p : List Byte) : Instr := .deckReply n (sentWell (frameOf kind q p))
    let forms (kind : Nat) (p : List Byte) : Prop :=
      kind = 0x20 ∧ p.length = 0 ∨ kind = 0x21 ∧ p.length = 1 ∨ kind = 0x22 ∧ p.length = 6
    (∀ f kind p, (s.link n).inFlight = some f → f.seq = some q → (s.link n).queue = [] → (s.link n).slot = none → forms kind p →
      (f.orphan = true → f.entry.source = .processor →
        exec (chars kind p) s = .next
          { s with
            links := s.links.set n (s.link n).answered
            ctxs := s.ctxs.set n { s.ctx n with cancelled := (s.ctx n).cancelled + 1 } }) ∧
      (f.orphan = false → f.entry.source = .link → kind ≠ 0x22 →
        exec (chars kind p) s = .next
          { s with
            links := s.links.set n { (s.link n).answered with state := .up, probeInterval := 0 }
            ctxs := s.ctxs.set n { s.ctx n with linkChange := true }, iru := s.iru.follow (.deck n) true })) ∧
    (∀ kind p, forms kind p → (∀ f, (s.link n).inFlight = some f → f.seq ≠ some q) →
      exec (chars kind p) s = .next
        { s with
          links := s.links.set n
            { s.link n with receiver := .hunt, gapLeft := none, stale := satSucc 65535 (s.link n).stale } }) ∧
    (∀ f, (s.link n).inFlight = some f → f.seq = some q → f.orphan = false → (s.link n).queue = [] → (s.link n).slot = none →
      (f.entry.source = .processor → (s.ctx n).fifo.length < 3 →
        (∀ reason : Byte,
          exec (chars 0x21 [reason]) s = .next
            { s with
              links := s.links.set n (s.link n).answered
              ctxs := s.ctxs.set n
                { s.ctx n with
                  mode := if reason = 2 then .noTape else if reason = 4 then .loc else (s.ctx n).mode
                  insertMask := if reason = 2 then 0 else (s.ctx n).insertMask
                  delivered := (s.ctx n).delivered + 1
                  fifo := (s.ctx n).fifo ++
                    [⟨f.entry.tag, .reply, some f.entry.kind, some .nak, false, some q, [reason], s.stamp⟩] }
              iru := s.iru.follow (.deck n) true }) ∧
        ∀ mode flags hh mm ss ff : Byte, (s.reader n).state = .reading →
          let label : Label := ⟨hh, mm, ss, ff⟩
          exec (chars 0x22 [mode, flags, hh, mm, ss, ff]) s = .next
            { s with
              links := s.links.set n (s.link n).answered
              ctxs := s.ctxs.set n
                { s.ctx n with
                  mode := DeckMode.ofCode mode.toNat
                  insertMask := if mode = 6 ∨ mode = 7 then 0 else (s.ctx n).insertMask
                  sensedFlags := some (flags.setWidth 4), sensedAt := s.stamp
                  sensedPos := if flags.getLsbD 3 && label.legal s.standard then some (label.index s.standard) else none
                  delivered := (s.ctx n).delivered + 1
                  fifo := (s.ctx n).fifo ++ [⟨f.entry.tag, .reply, some f.entry.kind, some .senseReply, false, some q,
                    [mode, flags, hh, mm, ss, ff], s.stamp⟩] }
              iru := s.iru.follow (.deck n) true }) ∧
      (∀ v, f.entry.source = .chase → f.entry.kind = .speed → f.entry.arg = .speed v → (s.chase n).state ≠ .idle →
        (s.chase n).state ≠ .fault →
        (exec (chars 0x20 []) s = .next
          { s with
            links := s.links.set n (s.link n).answered
            ctxs := s.ctxs.set n { s.ctx n with mode := speedMode v, lastSpeed := v }
            chases := s.chases.set n { s.chase n with nakRun := 0 } }) ∧
        ∀ reason : Byte, reason ≠ 2 → reason ≠ 4 →
          ((s.chase n).nakRun < 2 → exec (chars 0x21 [reason]) s = .next
            { s with
              links := s.links.set n (s.link n).answered
              chases := s.chases.set n { s.chase n with nakRun := (s.chase n).nakRun + 1 } }) ∧
          (2 ≤ (s.chase n).nakRun → (s.chase n).origin = .processor → exec (chars 0x21 [reason]) s = .next
            { s with
              links := s.links.set n (s.link n).answered
              chases := s.chases.set n
                { s.chase n with
                  state := .fault, cause := some .nak, changeFlag := true, changeCount := wrapSucc 255 (s.chase n).changeCount
                  slips := if (s.chase n).state = .locked then satSucc 65535 (s.chase n).slips else (s.chase n).slips }
              iru := s.iru.raise .chase })))

/-- A reply to a command of the run while it works events (08 R156, R158, R159, R164, R170): an acknowledged LOCATE makes the
cue WAITING, an acknowledged insert is awaited no more, a NAK is the fault DECK_REFUSED, held back where the look-ahead alone
names the transport; a SENSE_REPLY tests a WAITING cue on a STOPPED deck: CUED within tolerance, LOCATE again the first time
it is not, CUE_MISSED the second, DECK_PROTECTED for a recorder with record inhibit in RECORD. In IDLE and FAULTED a reply
tells the run nothing. Stated on a link with nothing else to send. The operands are the characters of the frame: log 27; the
first awaited insert of the kind and mask answered is removed: log 25. -/
def Obligations.RepliesToTheRunMoveItsCuesAndInserts : Prop :=
  ∀ (n : Transport) (q : Nat) (f : InFlight) (s : State), s.configured = true → s.ptu.hold = none →
    (s.link n).receiver = .hunt → q ≤ 14 → (s.link n).inFlight = some f → f.seq = some q → f.orphan = false →
    f.entry.source = .run → f.entry.abort = false → (s.link n).queue = [] → (s.link n).slot = none →
    let chars (kind : Nat) (p : List Byte) : Instr := .deckReply n (sentWell (frameOf kind q p))
    let cue := s.run.cues.get n
    let links := s.links.set n (s.link n).answered
    ((s.run.state = .idle ∨ s.run.state = .faulted) →
      ∃ t, exec (chars 0x20 []) s = .next t ∧ t.run = s.run ∧ t.link n = (s.link n).answered ∧
        t.ctx n = (s.ctx n).acknowledged f.entry.kind f.entry.arg) ∧
    (s.run.state.active = true → s.et.names n = true →
      (f.entry.kind = .locate → cue.progress = .locating → exec (chars 0x20 []) s = .next
        { s with
          links, ctxs := s.ctxs.set n { s.ctx n with mode := .locating }
          run := { s.run with cues := s.run.cues.set n { cue with progress := .waiting, polls := 0, senseOut := false } } }) ∧
      (∀ m : Tracks, f.entry.arg = .mask m →
        (f.entry.kind = .insertOn → exec (chars 0x20 []) s = .next
          { s with
            links, ctxs := s.ctxs.set n { s.ctx n with insertMask := (s.ctx n).insertMask ||| m }
            run := { s.run with awaited := s.run.awaited.erase ⟨false, m⟩ } }) ∧
        (f.entry.kind = .insertOff → exec (chars 0x20 []) s = .next
          { s with
            links, ctxs := s.ctxs.set n { s.ctx n with insertMask := (s.ctx n).insertMask &&& ~~~m }
            run := { s.run with awaited := s.run.awaited.erase ⟨true, m⟩, insertsOn := s.run.insertsOn &&& ~~~m } })) ∧
      (∀ reason : Byte, f.entry.kind ≠ .sense →
        let clock := if s.run.state.rolling = true then some s.run.clock else none
        (∀ a, s.et.current = some a → a.names n = true →
          ∃ t, exec (chars 0x21 [reason]) s = .next t ∧ t.RunFaulted ⟨.deckRefused reason, a.event, some n, clock, false⟩) ∧
        (∀ l, s.et.lookahead = some l → s.et.currentNames n = false → s.run.pendingFault = none →
          ∃ t, exec (chars 0x21 [reason]) s = .next t ∧ t.run =
            { s.run with
              pendingFault := some ⟨.deckRefused reason, l.event, some n, clock, true⟩, pendingExtra := 0
              lookahead := .faultPending })) ∧
      (∀ (a : Armed) (p x : Nat) (flags hh mm ss ff : Byte), s.et.current = some a → a.names n = true →
        a.cueTarget? s.standard n = some x →
        f.entry.kind = .sense → cue.progress = .waiting → flags.getLsbD 3 = true →
        (⟨hh, mm, ss, ff⟩ : Label).legal s.standard = true → (⟨hh, mm, ss, ff⟩ : Label).index s.standard = p →
        let exec' := exec (chars 0x22 [1, flags, hh, mm, ss, ff]) s
        let near := (wrap s.standard.day ((p : Int) - x)).natAbs ≤ (s.ctx n).tolerance
        let inhibited := s.run.mode = .record ∧ a.recorder = n ∧ flags.getLsbD 1 = true
        let clock := if s.run.state.rolling = true then some s.run.clock else none
        (inhibited → ∃ t, exec' = .next t ∧ t.RunFaulted ⟨.deckProtected, a.event, some n, clock, false⟩) ∧
        (¬inhibited → near →
          ∃ t, exec' = .next t ∧
            t.run.cues = s.run.cues.set n { cue with progress := .cued, senseOut := false } ∧
            t.run.state = (if s.run.state = .cueing ∧ (a.transports.all fun m => m = n || (s.run.cues.get m).progress = .cued) = true
              then .ready else s.run.state)) ∧
        (¬inhibited → ¬near → cue.locates = 1 → (s.link n).state = .up →
          ∃ t, exec' = .next t ∧ t.run =
              { s.run with cues := s.run.cues.set n ⟨.locating, 2, cue.polls, false, false⟩ } ∧
            (t.link n).holds (State.runEntry .locate (.label (Label.ofIndex s.standard x)) false false)) ∧
        (¬inhibited → ¬near → cue.locates ≠ 1 →
          ∃ t, exec' = .next t ∧ t.RunFaulted ⟨.cueMissed, a.event, some n, clock, false⟩)))

/-- Unanswered and garbled frames (04 R66, R72, R74 to R78; 05 R99). The reply timer of a command's first sending, or a receive
error while it is in flight, sends the frame again with its sequence, the error recorded; with nothing in flight a receive
error is only recorded. The second time-out of a command, and the fourth of speeds in a row, fails the link: the processor's
entry with outcome TIMEOUT, DECKn raised; a chase's speed before that is only counted as silence. The second miss of a probe
on an UNPROBED link fails it. Stated on a link with nothing else to send where one fails. An expiry command moves its counter
to its point: the model's choice, log 2. The operands are characters on the line: log 27. -/
def Obligations.UnansweredFramesAreSentAgain : Prop :=
  ∀ (n : Transport) (s : State), s.configured = true → s.ptu.hold = none →
    let l := s.link n
    let recorded (k : ErrKind) (f : Option InFlight) (x : Link) : Link :=
      { x with
        additional := false, counts := l.counts.add k
        err := some ⟨k, f.map (·.entry.kind), f.bind (·.seq), f.map (·.sends), s.stamp⟩ }
    let raised (x : Link) : State :=
      { s with
        links := s.links.set n x, ctxs := s.ctxs.set n { s.ctx n with errFrozen := true }, iru := s.iru.follow (.deck n) true }
    let again (f : InFlight) (q : Nat) (x : Link) : Link :=
      { x with
        replyTimer := none, inFlight := some { f with sends := 2, phase := .sending }, lastSpeed := false
        tx := some ⟨f.entry.frame q, (f.entry.frame q).length * Config.deckByteUnits⟩ }
    (∀ k i, s.ReceiveError n k i → l.err = none → l.inFlight = none →
      exec i s = .next (raised (recorded k none { l with receiver := .hunt, gapLeft := none }))) ∧
    ∀ f, l.inFlight = some f → f.orphan = false →
      (∀ q, f.entry.source ≠ .link → f.entry.kind ≠ .speed → f.sends = 1 → f.seq = some q → l.tx = none → l.err = none →
        (l.replyTimer.isSome = true →
          exec (.replyTimeout n) s = .next (raised (again f q (recorded .timeout (some f) l)))) ∧
        ∀ k i, s.ReceiveError n k i →
          exec i s = .next (raised (again f q (recorded k (some f) { l with receiver := .hunt, gapLeft := none })))) ∧
      (l.replyTimer.isSome = true → l.err = none → l.queue = [] → l.slot = none →
        (f.entry.source = .processor → l.state = .up → (s.ctx n).fifo.length < 3 → s.RunQuiet → (s.chase n).computes = false →
          (f.entry.kind ≠ .speed ∧ f.sends = 2 ∨ f.entry.kind = .speed ∧ 3 ≤ l.silence) →
          exec (.replyTimeout n) s = .next
            { s with
              links := s.links.set n (recorded .timeout (some f)
                { l with
                  state := .failed, inFlight := none, replyTimer := none, silence := 0, probeInterval := 0, lastSpeed := false })
              ctxs := s.ctxs.set n
                { s.ctx n with
                  errFrozen := true, linkChange := true, mode := .unknown, delivered := (s.ctx n).delivered + 1
                  fifo := (s.ctx n).fifo ++ [⟨f.entry.tag, .timeout, some f.entry.kind, none, false, f.seq, [], s.stamp⟩] }
              iru := s.iru.follow (.deck n) true }) ∧
        (f.entry.source = .chase → f.entry.kind = .speed → l.silence < 3 →
          exec (.replyTimeout n) s = .next (raised (recorded .timeout (some f)
            { l with inFlight := none, replyTimer := none, silence := l.silence + 1 })))) ∧
      (l.replyTimer.isSome = true → f.entry.source = .link → f.sends = 2 → l.state = .unprobed →
        exec (.replyTimeout n) s = .next
          { s with
            links := s.links.set n
              { l with
                state := .failed, inFlight := none, replyTimer := none, probeInterval := 0, probeMiss := satSucc 65535 l.probeMiss }
            ctxs := s.ctxs.set n { s.ctx n with linkChange := true }, iru := s.iru.follow (.deck n) true })

/-! ## Chases, cues and the mixer at a boundary (06, 08, 09) -/

/-- CHASE_LOCK, CHASE_SLIP and HOLD_EXPIRED, at a boundary while no run works: the error of 06 R119 against the lock
window takes an APPROACH context into LOCKED at the end of its lock count, and a LOCKED one back to APPROACH on the third
boundary outside four windows; a HOLD past its limit is FAULT. The command is the boundary of its cause when the step
comes about at it: the model's choice, log 11. -/
def Obligations.ChasesLockSlipAndExpire : Prop :=
  ∀ (n : Transport) (cause : FrameCause) (s b : State), s.dropMarks.atBoundary cause = some b → b.RunQuiet → (b.chase n).pending = none →
    let c := b.chase n
    (∀ P M v, b.chaseInput n = (some P, some M, v) → (b.link n).state = .up →
      let e := wrap (64 * b.standard.day) ((reduce (64 * b.standard.day) ((M : Int) + 64 * c.offset) : Int) - P)
      let ef := (e.tdiv 64).natAbs
      (c.state = .approach → ef ≤ c.params.approachWindow + c.params.approachWindow / 4 → e.natAbs ≤ c.params.lockWindow →
        c.params.lockCount ≤ c.inRun + 1 →
        ∃ t, exec (.chaseLock n cause) s = .next t ∧ (t.chase n).state = .locked ∧ (t.chase n).inRun = 0 ∧
          (t.chase n).outRun = 0 ∧ (t.chase n).lastError = some (e, e.tdiv 64) ∧ (t.chase n).slips = c.slips ∧
          (t.chase n).changeFlag = true ∧ (t.chase n).changeCount = wrapSucc 255 c.changeCount ∧
          (b.iru.level .chase ≠ 0 → t.iru.isPending .chase = true) ∧ t.rtu = Rtu.next b.standard (s.shortens cause) b.rtu) ∧
      (c.state = .locked → ef ≤ c.params.approachWindow → 4 * c.params.lockWindow < e.natAbs → 2 ≤ c.outRun →
        ∃ t, exec (.chaseSlip n cause) s = .next t ∧ (t.chase n).state = .approach ∧ (t.chase n).inRun = 0 ∧
          (t.chase n).outRun = 0 ∧ (t.chase n).lastError = some (e, e.tdiv 64) ∧
          (t.chase n).slips = satSucc 65535 c.slips ∧ (t.chase n).changeFlag = true ∧
          (t.chase n).changeCount = wrapSucc 255 c.changeCount ∧
          (b.iru.level .chase ≠ 0 → t.iru.isPending .chase = true) ∧ t.rtu = Rtu.next b.standard (s.shortens cause) b.rtu)) ∧
    (c.state = .hold → ((b.chaseInput n).1 = none ∨ (b.chaseInput n).2.1 = none) → c.params.holdLimit ≤ c.holdCount →
      ∃ t, exec (.holdExpired n cause) s = .next t ∧ (t.chase n).state = .fault ∧ (t.chase n).cause = some .holdExpired ∧
        (t.link n).slot = none ∧ (t.chase n).changeFlag = true ∧ (t.chase n).changeCount = wrapSucc 255 c.changeCount ∧
        (b.iru.level .chase ≠ 0 → t.iru.isPending .chase = true) ∧ t.rtu = Rtu.next b.standard (s.shortens cause) b.rtu)

/-- One computation of a chase context at a frame boundary while no run works, both positions present (06 R117 to R125).
Pending parameters are adopted first (R108); a context in HOLD is in APPROACH again (R127). Outside its window, which is the
approach window and in APPROACH a quarter more, the context is in SEEK and offers the shuttle speed; inside it, a SEEK context
is in APPROACH, and the integrator, the correction rounded toward minus infinity, its limit and the slew limit give the speed
offered. The speed becomes the previous speed, in the slot or in flight; refused by a link that is not UP it is FAULT with
cause LINK. -/
def Obligations.ChasesComputeTheirWindowAndSpeed : Prop :=
  ∀ (n : Transport) (cause : FrameCause) (s b : State) (P M : Nat) (v : Int), s.atBoundary cause = some b → b.RunQuiet →
    b.chaseInput n = (some P, some M, v) → (b.chase n).state ≠ .idle → (b.chase n).state ≠ .fault →
    let params := (b.chase n).pending.getD (b.chase n).params
    let changed (k : Chase) (st : ChaseState) : Chase :=
      { k with state := st, changeFlag := true, changeCount := wrapSucc 255 k.changeCount }
    let held : Chase := { b.chase n with params, pending := none }
    let c : Chase := if held.state = .hold then changed { held with holdCount := 0 } .approach else held
    let day := 64 * b.standard.day
    let e := wrap day ((reduce day ((M : Int) + 64 * c.offset) : Int) - P)
    let ef := e.tdiv 64
    let far := params.approachWindow + (if c.state = .approach then params.approachWindow / 4 else 0) < ef.natAbs
    let offered (t : State) (w : Int) : Prop :=
      (t.link n).slot = some ⟨w, .chase, none⟩ ∨ (t.link n).inFlight.map (·.entry) = some ⟨.chase, .speed, .speed w, none, false, false⟩
    ∃ t, exec (boundaryCommand cause) s = .next t ∧ (t.chase n).params = params ∧ (t.chase n).pending = none ∧
      (t.chase n).lastError = some (e, ef) ∧
      ((b.link n).state ≠ .up → (t.chase n).state = .fault ∧ (t.chase n).cause = some .link ∧ (t.chase n).vPrev = c.vPrev) ∧
      ((b.link n).state = .up → far →
        let w := clampInt (-32767) 32767 (v + clampInt (-(params.shuttleMax : Int)) params.shuttleMax (ef * params.shuttleGain))
        let slips := if c.state = .locked then satSucc 65535 c.slips else c.slips
        t.chase n =
          { (if c.state = .seek then c else changed { c with inRun := 0, outRun := 0, slips } .seek) with
            lastError := some (e, ef), lastClamp := .none, vPrev := w } ∧
        offered t w) ∧
      ((b.link n).state = .up → ¬far →
        let still := ((b.readersDone false).reader n).state = .coasting ∨ c.lastClamp = .plus ∧ 0 < e ∨ c.lastClamp = .minus ∧ e < 0
        let corr := ((params.kp : Int) * e + params.ki * (t.chase n).acc).fdiv 256
        let limit : Int := params.corrLimit
        let w := clampInt (-32767) 32767
          (clampInt (c.vPrev - params.slew) (c.vPrev + params.slew) (v + clampInt (-limit) limit corr))
        (t.chase n).acc = (if still then c.acc else clampInt (-65535) 65535 (c.acc + e)) ∧
        (t.chase n).lastClamp = (if limit < corr then .plus else if corr < -limit then .minus else .none) ∧
        (t.chase n).vPrev = w ∧ offered t w ∧
        (c.state = .seek → params.lockWindow < e.natAbs → 1 ≤ params.lockCount → (t.chase n).state = .approach))

/-- A frame boundary is the run's four steps in order (08 R155): inserts still awaited; the clock and what the state decides;
the timed actions, before or after the computation of each chase context while the run is rolling (the order is open, log 6);
the chase states. Step 1: an insert still awaited is the fault LATE_INSERT. Step 2: the clock of a rolling run advances by 1;
a READY run with roll requested rolls (R160): PREROLL at minus the preroll, the cues gone, source A handed to the mixer, every
transport of the event a RUN chase of the edit clock from its in-point; REF_LOST in a RECORD run that requires a reference
that is not LOCKED. Steps 3 and 4 have statements of their own. -/
def Obligations.ARunsBoundaryIsItsFourSteps : Prop :=
  (∀ (s b : State) (c : FrameCause), s.atBoundary c = some b →
    let d := b.linksDone (s.shortens c)
    let r := d.lateInserts.clockAndState
    let ts := Transport.all.filter fun n => (d.chase n).computes
    d.run = b.run ∧ d.et = b.et ∧
    ∃ es : List Transport, es.Sublist ts ∧ (r.run.state.rolling = false → es = []) ∧
      exec (boundaryCommand c) s = .next (((forTransports (ts.filter fun n => !es.contains n) State.chaseBoundary
        ((forTransports es State.chaseBoundary
          { r with free := if r.run.state.rolling then r.free + 1 else r.free }).timedActions)).chaseStates d.chases).fieldWork false)) ∧
  ∀ s : State,
    (s.run.awaited = [] → s.lateInserts = s) ∧
    (∀ a, s.run.awaited ≠ [] → s.et.current = some a → s.run.state.active = true →
      s.lateInserts.RunFaulted
        ⟨.lateInsert, a.event, some a.recorder, if s.run.state.rolling = true then some s.run.clock else none, false⟩) ∧
    (s.et.lookahead = none →
      (s.run.state.rolling = true → (∀ n, (s.run.cues.get n).progress = .none ∨ (s.run.cues.get n).progress = .cued) →
        s.clockAndState = { s with run := { s.run with clock := s.run.clock + 1 } }) ∧
      ∀ a, s.et.current = some a → s.run.state = .ready → s.run.rollRequested = true →
        let t := s.clockAndState
        let refused := s.run.mode = .record ∧ s.run.requireReference = true ∧ s.rtu.state ≠ .locked
        (refused → t.RunFaulted ⟨.refLost, a.event, none, some (-(a.preroll : Int)), false⟩) ∧
        (¬refused →
          t.run =
            { s.run with
              state := .preroll, rollRequested := false, clock := -(a.preroll : Int), syncPassed := false, insertsOn := 0
              awaited := [], cues := t.run.cues } ∧
          (∀ n, t.run.cues.get n = if a.names n then .zero else s.run.cues.get n) ∧
          t.mixer = { s.mixer with handed := s.mixer.handed ++ [.take a.sourceA] } ∧ t.et = s.et ∧ t.links = s.links ∧
          (∀ n, t.chase n = match a.inPoint? n with
            | some p =>
              { s.chase n with
                state := .seek, origin := .run, master := .editClock, offset := p, acc := 0
                vPrev := if (s.ctx n).mode = .stopped then 0 else if (s.ctx n).mode = .playing then 1024 else (s.ctx n).lastSpeed
                lastClamp := .none, inRun := 0, outRun := 0, nakRun := 0, holdCount := 0, slips := 0, cause := none
                lastError := none, changeFlag := true, changeCount := wrapSucc 255 (s.chase n).changeCount }
            | none => s.chase n) ∧
          (s.configured = true → s.iru.level .runPhase ≠ 0 → t.iru.isPending .runPhase = true)))

/-- The timed actions of a rolling run at its clock value (08 R161, R164), its completion and the arming of a look-ahead
apart: GPI cues and the transition handed to the mixer; INSERT_ON for the first group, in RECORD once the sync check has
passed, and for the second group of a split; EDIT at 0; INSERT_OFF; POSTROLL at the event's end. The sync check at minus the
margin, and the lock watch from there to the event's end (R162, R163): every chase LOCKED, or NOT_LOCKED; LOCK_LOST in RECORD,
a count of the locks lost in PREVIEW. The states of the boundary before as the lock watch takes them: log 38. -/
def Obligations.TimedActionsHappenAtTheirClock : Prop :=
  ∀ (s : State) (a : Armed), s.et.current = some a → s.run.state.rolling = true →
    let c := s.run.clock
    let record := s.run.mode = .record
    (let lead : Int := a.latency + 1
      let split := a.split.filter (· ≠ 0)
      let group : Tracks := if split.isSome then a.mask &&& 0b1001 else a.mask
      let first := record ∧ s.run.syncPassed = true ∧ c = -lead
      let second := record ∧ s.run.syncPassed = true ∧ split.any (fun x => c = x - lead) = true
      let off := record ∧ c = (a.duration : Int) - lead
      let on := s.run.insertsOn ||| (if first then group else 0) ||| (if second then a.mask &&& 0b0110 else 0)
      let entry (k : LinkKind) (m : Tracks) : Entry := State.runEntry k (.mask m) true false
      c ≠ (a.duration : Int) + a.postroll → (c = 0 → s.run.lookahead ≠ .notYet ∨ s.run.successor = none) →
      let t := s.timedActions
      t.run.state = (if c = a.duration then .postroll else if c = 0 then .edit else s.run.state) ∧
      t.run.awaited = s.run.awaited ++ (if first then [⟨false, group⟩] else []) ++
        (if second then [⟨false, a.mask &&& 0b0110⟩] else []) ++ (if off then [⟨true, on⟩] else []) ∧
      t.run.insertsOn = on ∧ t.run.clock = c ∧ t.run.fault = s.run.fault ∧ t.et = s.et ∧ t.chases = s.chases ∧
      t.mixer.handed = s.mixer.handed ++ (a.cues.filter (·.offset = c)).map (fun q => .pulse q.line q.width) ++
        (if a.kind ≠ .none ∧ c = a.t0 then a.sourceB.toList.map (.start a.kind a.curve a.length a.pattern ·) else []) ∧
      ((s.link a.recorder).state = .up → (s.link a.recorder).queue.length < 2 →
        (first → (t.link a.recorder).holds (entry .insertOn group)) ∧
        (second → (t.link a.recorder).holds (entry .insertOn (a.mask &&& 0b0110))) ∧
        (off → (t.link a.recorder).holds (entry .insertOff on)))) ∧
    ∀ before : Six Chase,
      let apart := a.transports.filter fun n => (s.chase n).state ≠ .locked
      let fault (k : FaultKind) (n : Transport) : FaultRecord := ⟨k, a.event, some n, some c, false⟩
      (c = -(a.margin : Int) →
        (apart = [] → s.chaseStates before = { s with run := { s.run with syncPassed := true } }) ∧
        ∀ n rest, apart = n :: rest → (s.chaseStates before).RunFaulted (fault .notLocked n)) ∧
      (-(a.margin : Int) < c → c < a.duration →
        (record → ∀ n rest, apart = n :: rest → (s.chaseStates before).RunFaulted (fault .lockLost n)) ∧
        (record → apart = [] → s.chaseStates before = s) ∧
        (¬record → s.chaseStates before =
          { s with run := { s.run with
            lockLosses := (satSucc 65535)^[(apart.filter fun n => (before.get n).state = .locked).length] s.run.lockLosses } })) ∧
      (c < -(a.margin : Int) ∨ c ≠ -(a.margin : Int) ∧ (a.duration : Int) ≤ c → s.chaseStates before = s)

/-- The look-ahead is armed at edit-in, or its refusal held back (08 R168); and the completion of the current event at the end
of its postroll (R167): the event is DONE; a held look-ahead fault becomes the run's; the run ends COMPLETED at END, STOPPED
where a stop was requested, with a HALT to every transport of the event and their release; an event armed ahead becomes
current; else the successor is armed now, and a refusal is the run's fault. -/
def Obligations.EventsCompleteAndChain : Prop :=
  ∀ (s : State) (a : Armed), s.et.current = some a → s.run.state.rolling = true → 1 ≤ a.duration →
    let t := s.timedActions
    let check (e : Fin 64) := (s.fieldsOf e).check s.standard s.run.margin (fun n => (s.ctx n).latency)
    let refusal (e : Fin 64) (k : FaultKind) : Prop :=
      (s.et.states[e] = .empty ∨ s.et.states[e] = .draft) ∧ k = .eventNotLoaded ∨
        s.et.states[e] = .loaded ∧ ∃ r, check e = .error r ∧ k = .eventInvalid r
    (∀ e, s.run.clock = 0 → s.run.lookahead = .notYet → s.run.successor = some e → s.run.pendingFault = none →
      (∀ k, refusal e k → t.run.state = .edit ∧ t.run.lookahead = .faultPending ∧
        t.run.pendingFault = some ⟨k, e, none, some 0, true⟩ ∧ t.et = s.et) ∧
      ∀ codes, s.et.states[e] = .loaded → check e = .ok codes → (∀ n, (s.link n).state = .up) →
        let l := (s.fieldsOf e).armed codes e .lookahead s.standard s.run.margin (s.ctx codes.recorder).latency
        t.run.state = .edit ∧ t.run.lookahead = .armed ∧ t.run.laCueCount = 0 ∧ t.run.pendingFault = none ∧
        t.et = ⟨s.et.states.set e .armed, some a, some l⟩ ∧
        ∀ n, l.names n = true → a.names n = false →
          (t.ctx n).owner = .run ∧ (t.run.cues.get n).progress = .locating ∧ (t.run.cues.get n).locates = 1) ∧
    (s.run.clock = (a.duration : Int) + a.postroll →
      (∀ f, s.run.pendingFault = some f →
        t.RunFaulted f ∧ t.run.faultExtra = s.run.pendingExtra ∧ t.run.pendingFault = none ∧ t.run.lookahead = .none) ∧
      (s.run.pendingFault = none → s.et.lookahead = none → (s.run.successor = none ∨ s.run.stopRequested = true) →
        t.run.state = .idle ∧ t.run.endCause = (if s.run.stopRequested then .stopped else .completed) ∧
        t.run.fault = s.run.fault ∧ t.et = ⟨s.et.states.set a.event .done, none, none⟩ ∧ t.mixer.owner ≠ .run ∧
        (∀ n, (t.ctx n).owner ≠ .run) ∧
        ∀ n, a.names n = true →
          ((t.chase n).state = .idle ∨ (t.chase n).origin = .processor) ∧ t.run.cues.get n = .zero ∧
          ((s.link n).state = .up → (s.link n).queue.length < 3 →
            (t.link n).holds (State.runEntry .halt .none false false))) ∧
      (∀ e l, s.run.pendingFault = none → s.run.successor = some e → s.run.stopRequested = false →
        s.run.lookahead = .armed → s.et.lookahead = some l → (∀ n, (s.link n).state = .up) →
        t.et = ⟨s.et.states.set a.event .done, some l, none⟩ ∧ t.run.successor = l.link ∧
        t.run.lookahead = (if l.noLookahead = true ∨ l.link = none then .none else .notYet) ∧ t.run.fault = s.run.fault ∧
        t.run.cueCount = 0 ∧
        t.run.state = (if (l.transports.all fun n => (s.run.cues.get n).progress = .cued) = true then .ready else .cueing) ∧
        ∀ n, a.names n = true → l.names n = false →
          (t.ctx n).owner ≠ .run ∧ t.run.cues.get n = .zero ∧
          ((s.link n).queue.length < 3 → (t.link n).holds (State.runEntry .halt .none false false))) ∧
      (∀ e, s.run.pendingFault = none → s.run.successor = some e → s.run.stopRequested = false →
        s.run.lookahead = .none → s.et.lookahead = none → e ≠ a.event →
        (∀ k, refusal e k → t.RunFaulted ⟨k, e, none, none, false⟩) ∧
        ∀ codes, s.et.states[e] = .loaded → check e = .ok codes → (∀ n, (s.link n).state = .up) →
          let l := (s.fieldsOf e).armed codes e .current s.standard s.run.margin (s.ctx codes.recorder).latency
          t.et = ⟨(s.et.states.set a.event .done).set e .armed, some l, none⟩ ∧ t.run.successor = l.link ∧
          (t.run.state = .cueing ∨ t.run.state = .ready) ∧ t.run.fault = s.run.fault ∧
          ∀ n, l.names n = true → (t.ctx n).owner = .run))

/-- SENSE_POLL, CUE_TIMEOUT and LOOKAHEAD_CUE_TIMEOUT, at a boundary at which no chase computes and no other cue has work:
the eighth boundary of a WAITING transport offers a SENSE; the cue count past its limit is a fault of the first uncued
transport; of the look-ahead it is held back while the run goes on. The command is the boundary of its cause when the step
comes about at it: the model's choice, log 11. -/
def Obligations.CuesArePolledAndTimeOut : Prop :=
  ∀ (n : Transport) (cause : FrameCause) (a : Armed) (s b : State), s.dropMarks.atBoundary cause = some b → b.ptu.hold = none →
    (∀ m, (b.chase m).computes = false) → b.run.awaited = [] → b.et.current = some a →
    (∀ m, m ≠ n → (b.run.cues.get m).progress = .none ∨ (b.run.cues.get m).progress = .cued) →
    (b.run.cues.get n).progress = .waiting →
    (b.run.state = .cueing → b.et.lookahead = none → a.names n = true → b.run.cueCount + 1 ≤ b.run.cueLimit →
      7 ≤ (b.run.cues.get n).polls → (b.run.cues.get n).senseOut = false → (b.link n).state = .up →
      (b.link n).queue.length < 4 →
      ∃ t, exec (.sensePoll n cause) s = .next t ∧
        t.run = { b.run with
          cueCount := b.run.cueCount + 1
          cues := b.run.cues.set n { b.run.cues.get n with polls := 0, senseOut := true } } ∧
        State.runEntry .sense .none false false ∈ (t.link n).queue ++ (t.link n).inFlight.toList.map (·.entry) ∧
        t.rtu = Rtu.next b.standard (s.shortens cause) b.rtu) ∧
    (b.run.state = .cueing → b.et.lookahead = none → a.names n = true → (∀ m, m ≠ n → a.names m = true →
        (b.run.cues.get m).progress = .cued) → b.run.cueLimit < b.run.cueCount + 1 →
      ∃ t, exec (.cueTimeout cause) s = .next t ∧ t.run.fault = some ⟨.cueTimeout, a.event, some n, none, false⟩ ∧
        t.run.abortCause = .fault ∧ (t.run.state = .aborting ∨ t.run.state = .faulted ∧ t.run.endCause = .faulted) ∧
        t.rtu = Rtu.next b.standard (s.shortens cause) b.rtu) ∧
    ∀ l, b.et.lookahead = some l → l.names n = true → a.names n = false → b.run.mode = .preview →
      (b.run.state = .edit ∨ b.run.state = .postroll) → b.run.laCueCount = b.run.cueLimit → b.run.pendingFault = none →
      (∀ m, m ≠ n → l.names m = true → a.names m = false → (b.run.cues.get m).progress = .cued) →
      let c := b.run.clock + 1
      0 < c → c ≠ a.duration → c ≠ (a.duration : Int) + a.postroll → (∀ q ∈ a.cues, q.offset ≠ c) →
      (a.kind = .none ∨ c ≠ a.t0) →
      ∃ t, exec (.lookaheadCueTimeout cause) s = .next t ∧
        t.run.pendingFault = some ⟨.cueTimeout, l.event, some n, some c, true⟩ ∧ t.run.lookahead = .faultPending ∧
        t.run.state = b.run.state ∧ t.run.fault = b.run.fault ∧ t.run.clock = c ∧ t.et = b.et ∧
        t.rtu = Rtu.next b.standard (s.shortens cause) b.rtu

/-- TRANSITION_END and GPI_PULSE_END, at a boundary at which the run hands nothing, and SWITCHER_FRAME_SENT: the
transition past its last field completes, the processor's flipping the buses and freeing the mixer; a timer at 1 reaches
0; the waiting frame begins, whatever is left of the one before it (log 2). The line is mark when idle; a character is a start
bit, the data bits from the least significant, the odd parity bit and a stop bit, 625 clock units each. The command is the boundary of its cause when the step comes about at it: the model's choice,
log 11. -/
def Obligations.TheMixerEndsTransitionsAndPulses : Prop :=
  ∀ s : State,
    (∀ cause b x, s.dropMarks.atField cause = some b → b.RunQuiet → b.mixer.handed = [] → b.mixer.transition = some x → x.fields < x.k →
      ∃ t, exec (.transitionEnd cause) s = .next t ∧ t.mixer.transition = none ∧
        t.mixer.last = some ⟨x.kind, x.byProcessor, .completed⟩ ∧
        (t.mixer.owner, t.mixer.aBus, t.mixer.bBus, t.mixer.level) =
          (if x.byProcessor then (.free, b.mixer.bBus, b.mixer.aBus, 0)
            else (b.mixer.owner, b.mixer.aBus, b.mixer.bBus, b.mixer.level)) ∧
        t.mixer.pulses = b.mixer.pulses ∧ (b.iru.level .transition ≠ 0 → t.iru.isPending .transition = true)) ∧
    (∀ cause b (line : Fin 8), s.dropMarks.atBoundary cause = some b → b.RunQuiet → b.mixer.handed = [] → b.mixer.timers[line] = 1 →
      ∃ t, exec (.gpiPulseEnd line cause) s = .next t ∧ (∀ i : Fin 8, t.mixer.timers[i] = b.mixer.timers[i] - 1) ∧
        t.mixer.pulses = b.mixer.pulses ∧ t.mixer.retriggers = b.mixer.retriggers ∧ t.rtu = Rtu.next b.standard (s.shortens cause) b.rtu) ∧
    (∀ f left w, s.mixer.tx = .sending f left (some w) → exec .switcherFrameSent s = .next
      { s with mixer := { s.mixer with tx := .sending w Config.switcherFrameUnits none } }) ∧
    (∀ f left, s.mixer.tx = .sending f left none →
      exec .switcherFrameSent s = .next { s with mixer := { s.mixer with tx := .idle } }) ∧
    SwitcherTx.idle.line = true ∧
    (∀ (f : List Byte) (w : Option (List Byte)) (left i j : Nat) (b : Byte), f.length = 8 → f[i]? = some b → j < 11 →
      left = Config.switcherFrameUnits - 625 * (11 * i + j) →
      (SwitcherTx.sending f left w).line =
        if j = 0 then false else if j ≤ 8 then b.getLsbD (j - 1) else if j = 9 then oddParity b else true) ∧
    ∀ b : Byte, ((List.range 8).countP b.getLsbD + if oddParity b then 1 else 0) % 2 = 1
end

