-- ==== Sys2Proof/Laws/State.lean ====
section
/-! SUPPORT. What each field update of `State` leaves in each field, and the reading of one transport's value after an
update of one. -/

namespace Sys2Proof.Machine

set_option Elab.async false

/-! ## One value per transport -/

@[simp] theorem Six.get_set {α : Type} (x : Six α) (n m : Transport) (a : α) :
    (x.set n a).get m = if m = n then a else x.get m := by
  cases n <;> cases m <;> rfl

theorem Six.get_set_self {α : Type} (x : Six α) (n : Transport) (a : α) : (x.set n a).get n = a := by
  cases n <;> rfl

@[simp] theorem Six.set_set {α : Type} (x : Six α) (n : Transport) (a b : α) : (x.set n a).set n b = x.set n b := by
  cases n <;> rfl

@[simp] theorem Six.set_get {α : Type} (x : Six α) (n : Transport) : x.set n (x.get n) = x := by
  cases n <;> rfl

@[simp] theorem Six.get_map {α β : Type} (f : α → β) (x : Six α) (n : Transport) : (x.map f).get n = f (x.get n) := by
  cases n <;> rfl

@[simp] theorem Six.get_replicate {α : Type} (a : α) (n : Transport) : (Six.replicate a).get n = a := by
  cases n <;> rfl

theorem Six.ext {α : Type} {x y : Six α} (h : ∀ n, x.get n = y.get n) : x = y := by
  cases x
  cases y
  simp only [Six.mk.injEq]
  exact ⟨h .t0, h .t1, h .t2, h .t3, h .t4, h .t5⟩

theorem Transport.mem_all (n : Transport) : n ∈ Transport.all := by
  cases n <;> simp [Transport.all]

namespace State

/-! ## Field updates -/

@[simp] theorem setReader_fields (s : State) (n : Transport) (x : Reader) :
    (s.setReader n x).pending = s.pending ∧ (s.setReader n x).free = s.free ∧ (s.setReader n x).marks = s.marks ∧
    (s.setReader n x).cfg = s.cfg ∧ (s.setReader n x).ptu = s.ptu ∧ (s.setReader n x).rtu = s.rtu ∧
    (s.setReader n x).readers = s.readers.set n x ∧ (s.setReader n x).links = s.links ∧
    (s.setReader n x).ctxs = s.ctxs ∧ (s.setReader n x).chases = s.chases ∧ (s.setReader n x).et = s.et ∧
    (s.setReader n x).run = s.run ∧ (s.setReader n x).mixer = s.mixer ∧ (s.setReader n x).iru = s.iru :=
  ⟨rfl, rfl, rfl, rfl, rfl, rfl, rfl, rfl, rfl, rfl, rfl, rfl, rfl, rfl⟩

@[simp] theorem setLink_fields (s : State) (n : Transport) (x : Link) :
    (s.setLink n x).pending = s.pending ∧ (s.setLink n x).free = s.free ∧ (s.setLink n x).marks = s.marks ∧
    (s.setLink n x).cfg = s.cfg ∧ (s.setLink n x).ptu = s.ptu ∧ (s.setLink n x).rtu = s.rtu ∧
    (s.setLink n x).readers = s.readers ∧ (s.setLink n x).links = s.links.set n x ∧ (s.setLink n x).ctxs = s.ctxs ∧
    (s.setLink n x).chases = s.chases ∧ (s.setLink n x).et = s.et ∧ (s.setLink n x).run = s.run ∧
    (s.setLink n x).mixer = s.mixer ∧ (s.setLink n x).iru = s.iru :=
  ⟨rfl, rfl, rfl, rfl, rfl, rfl, rfl, rfl, rfl, rfl, rfl, rfl, rfl, rfl⟩

@[simp] theorem setCtx_fields (s : State) (n : Transport) (x : Context) :
    (s.setCtx n x).pending = s.pending ∧ (s.setCtx n x).free = s.free ∧ (s.setCtx n x).marks = s.marks ∧
    (s.setCtx n x).cfg = s.cfg ∧ (s.setCtx n x).ptu = s.ptu ∧ (s.setCtx n x).rtu = s.rtu ∧
    (s.setCtx n x).readers = s.readers ∧ (s.setCtx n x).links = s.links ∧ (s.setCtx n x).ctxs = s.ctxs.set n x ∧
    (s.setCtx n x).chases = s.chases ∧ (s.setCtx n x).et = s.et ∧ (s.setCtx n x).run = s.run ∧
    (s.setCtx n x).mixer = s.mixer ∧ (s.setCtx n x).iru = s.iru :=
  ⟨rfl, rfl, rfl, rfl, rfl, rfl, rfl, rfl, rfl, rfl, rfl, rfl, rfl, rfl⟩

@[simp] theorem setChase_fields (s : State) (n : Transport) (x : Chase) :
    (s.setChase n x).pending = s.pending ∧ (s.setChase n x).free = s.free ∧ (s.setChase n x).marks = s.marks ∧
    (s.setChase n x).cfg = s.cfg ∧ (s.setChase n x).ptu = s.ptu ∧ (s.setChase n x).rtu = s.rtu ∧
    (s.setChase n x).readers = s.readers ∧ (s.setChase n x).links = s.links ∧ (s.setChase n x).ctxs = s.ctxs ∧
    (s.setChase n x).chases = s.chases.set n x ∧ (s.setChase n x).et = s.et ∧ (s.setChase n x).run = s.run ∧
    (s.setChase n x).mixer = s.mixer ∧ (s.setChase n x).iru = s.iru :=
  ⟨rfl, rfl, rfl, rfl, rfl, rfl, rfl, rfl, rfl, rfl, rfl, rfl, rfl, rfl⟩

@[simp] theorem setRun_fields (s : State) (x : Run) :
    (s.setRun x).pending = s.pending ∧ (s.setRun x).free = s.free ∧ (s.setRun x).marks = s.marks ∧
    (s.setRun x).cfg = s.cfg ∧ (s.setRun x).ptu = s.ptu ∧ (s.setRun x).rtu = s.rtu ∧
    (s.setRun x).readers = s.readers ∧ (s.setRun x).links = s.links ∧ (s.setRun x).ctxs = s.ctxs ∧
    (s.setRun x).chases = s.chases ∧ (s.setRun x).et = s.et ∧ (s.setRun x).run = x ∧ (s.setRun x).mixer = s.mixer ∧
    (s.setRun x).iru = s.iru :=
  ⟨rfl, rfl, rfl, rfl, rfl, rfl, rfl, rfl, rfl, rfl, rfl, rfl, rfl, rfl⟩

@[simp] theorem setMixer_fields (s : State) (x : Mixer) :
    (s.setMixer x).pending = s.pending ∧ (s.setMixer x).free = s.free ∧ (s.setMixer x).marks = s.marks ∧
    (s.setMixer x).cfg = s.cfg ∧ (s.setMixer x).ptu = s.ptu ∧ (s.setMixer x).rtu = s.rtu ∧
    (s.setMixer x).readers = s.readers ∧ (s.setMixer x).links = s.links ∧ (s.setMixer x).ctxs = s.ctxs ∧
    (s.setMixer x).chases = s.chases ∧ (s.setMixer x).et = s.et ∧ (s.setMixer x).run = s.run ∧
    (s.setMixer x).mixer = x ∧ (s.setMixer x).iru = s.iru :=
  ⟨rfl, rfl, rfl, rfl, rfl, rfl, rfl, rfl, rfl, rfl, rfl, rfl, rfl, rfl⟩

@[simp] theorem setEt_fields (s : State) (x : EditTable) :
    (s.setEt x).pending = s.pending ∧ (s.setEt x).free = s.free ∧ (s.setEt x).marks = s.marks ∧
    (s.setEt x).cfg = s.cfg ∧ (s.setEt x).ptu = s.ptu ∧ (s.setEt x).rtu = s.rtu ∧ (s.setEt x).readers = s.readers ∧
    (s.setEt x).links = s.links ∧ (s.setEt x).ctxs = s.ctxs ∧ (s.setEt x).chases = s.chases ∧ (s.setEt x).et = x ∧
    (s.setEt x).run = s.run ∧ (s.setEt x).mixer = s.mixer ∧ (s.setEt x).iru = s.iru :=
  ⟨rfl, rfl, rfl, rfl, rfl, rfl, rfl, rfl, rfl, rfl, rfl, rfl, rfl, rfl⟩

@[simp] theorem setPtu_fields (s : State) (x : Ptu) :
    (s.setPtu x).pending = s.pending ∧ (s.setPtu x).free = s.free ∧ (s.setPtu x).marks = s.marks ∧
    (s.setPtu x).cfg = s.cfg ∧ (s.setPtu x).ptu = x ∧ (s.setPtu x).rtu = s.rtu ∧ (s.setPtu x).readers = s.readers ∧
    (s.setPtu x).links = s.links ∧ (s.setPtu x).ctxs = s.ctxs ∧ (s.setPtu x).chases = s.chases ∧
    (s.setPtu x).et = s.et ∧ (s.setPtu x).run = s.run ∧ (s.setPtu x).mixer = s.mixer ∧ (s.setPtu x).iru = s.iru :=
  ⟨rfl, rfl, rfl, rfl, rfl, rfl, rfl, rfl, rfl, rfl, rfl, rfl, rfl, rfl⟩

@[simp] theorem setRtu_fields (s : State) (x : Rtu) :
    (s.setRtu x).pending = s.pending ∧ (s.setRtu x).free = s.free ∧ (s.setRtu x).marks = s.marks ∧
    (s.setRtu x).cfg = s.cfg ∧ (s.setRtu x).ptu = s.ptu ∧ (s.setRtu x).rtu = x ∧ (s.setRtu x).readers = s.readers ∧
    (s.setRtu x).links = s.links ∧ (s.setRtu x).ctxs = s.ctxs ∧ (s.setRtu x).chases = s.chases ∧
    (s.setRtu x).et = s.et ∧ (s.setRtu x).run = s.run ∧ (s.setRtu x).mixer = s.mixer ∧ (s.setRtu x).iru = s.iru :=
  ⟨rfl, rfl, rfl, rfl, rfl, rfl, rfl, rfl, rfl, rfl, rfl, rfl, rfl, rfl⟩

@[simp] theorem setIru_fields (s : State) (x : Iru) :
    (s.setIru x).pending = s.pending ∧ (s.setIru x).free = s.free ∧ (s.setIru x).marks = s.marks ∧
    (s.setIru x).cfg = s.cfg ∧ (s.setIru x).ptu = s.ptu ∧ (s.setIru x).rtu = s.rtu ∧
    (s.setIru x).readers = s.readers ∧ (s.setIru x).links = s.links ∧ (s.setIru x).ctxs = s.ctxs ∧
    (s.setIru x).chases = s.chases ∧ (s.setIru x).et = s.et ∧ (s.setIru x).run = s.run ∧
    (s.setIru x).mixer = s.mixer ∧ (s.setIru x).iru = x :=
  ⟨rfl, rfl, rfl, rfl, rfl, rfl, rfl, rfl, rfl, rfl, rfl, rfl, rfl, rfl⟩

@[simp] theorem setCfg_fields (s : State) (x : PartConfig) :
    (s.setCfg x).pending = s.pending ∧ (s.setCfg x).free = s.free ∧ (s.setCfg x).marks = s.marks ∧
    (s.setCfg x).cfg = x ∧ (s.setCfg x).ptu = s.ptu ∧ (s.setCfg x).rtu = s.rtu ∧ (s.setCfg x).readers = s.readers ∧
    (s.setCfg x).links = s.links ∧ (s.setCfg x).ctxs = s.ctxs ∧ (s.setCfg x).chases = s.chases ∧
    (s.setCfg x).et = s.et ∧ (s.setCfg x).run = s.run ∧ (s.setCfg x).mixer = s.mixer ∧ (s.setCfg x).iru = s.iru :=
  ⟨rfl, rfl, rfl, rfl, rfl, rfl, rfl, rfl, rfl, rfl, rfl, rfl, rfl, rfl⟩

@[simp] theorem mark_fields (s : State) (x : Mark) :
    (s.mark x).pending = s.pending ∧ (s.mark x).free = s.free ∧ (s.mark x).marks = s.marks ++ [x] ∧
    (s.mark x).cfg = s.cfg ∧ (s.mark x).ptu = s.ptu ∧ (s.mark x).rtu = s.rtu ∧ (s.mark x).readers = s.readers ∧
    (s.mark x).links = s.links ∧ (s.mark x).ctxs = s.ctxs ∧ (s.mark x).chases = s.chases ∧ (s.mark x).et = s.et ∧
    (s.mark x).run = s.run ∧ (s.mark x).mixer = s.mixer ∧ (s.mark x).iru = s.iru :=
  ⟨rfl, rfl, rfl, rfl, rfl, rfl, rfl, rfl, rfl, rfl, rfl, rfl, rfl, rfl⟩

/-! ## Reading one transport's value -/

@[simp] theorem reader_setReader (s : State) (n m : Transport) (x : Reader) :
    (s.setReader n x).reader m = if m = n then x else s.reader m := by simp [reader]

@[simp] theorem link_setLink (s : State) (n m : Transport) (x : Link) :
    (s.setLink n x).link m = if m = n then x else s.link m := by simp [link]

@[simp] theorem ctx_setCtx (s : State) (n m : Transport) (x : Context) :
    (s.setCtx n x).ctx m = if m = n then x else s.ctx m := by simp [ctx]

@[simp] theorem chase_setChase (s : State) (n m : Transport) (x : Chase) :
    (s.setChase n x).chase m = if m = n then x else s.chase m := by simp [chase]

/-- A value read through one transport does not see an update of another block. -/
theorem views_of_eq {s t : State} :
    (t.readers = s.readers → ∀ n, t.reader n = s.reader n) ∧ (t.links = s.links → ∀ n, t.link n = s.link n) ∧
    (t.ctxs = s.ctxs → ∀ n, t.ctx n = s.ctx n) ∧ (t.chases = s.chases → ∀ n, t.chase n = s.chase n) ∧
    (t.cfg = s.cfg → t.configured = s.configured) ∧ (t.cfg = s.cfg → t.standard = s.standard) := by
  refine ⟨?_, ?_, ?_, ?_, ?_, ?_⟩ <;> intro h <;> simp [reader, link, ctx, chase, configured, standard, h]

@[simp] theorem setReader_views (s : State) (n : Transport) (x : Reader) (k : Transport) :
    (s.setReader n x).link k = s.link k ∧ (s.setReader n x).ctx k = s.ctx k ∧ (s.setReader n x).chase k = s.chase k :=
  ⟨rfl, rfl, rfl⟩

@[simp] theorem setReader_modes (s : State) (n : Transport) (x : Reader) :
    (s.setReader n x).configured = s.configured ∧ (s.setReader n x).standard = s.standard ∧
    (s.setReader n x).stamp = s.stamp :=
  ⟨rfl, rfl, rfl⟩

@[simp] theorem setLink_views (s : State) (n : Transport) (x : Link) (k : Transport) :
    (s.setLink n x).reader k = s.reader k ∧ (s.setLink n x).ctx k = s.ctx k ∧ (s.setLink n x).chase k = s.chase k :=
  ⟨rfl, rfl, rfl⟩

@[simp] theorem setLink_modes (s : State) (n : Transport) (x : Link) :
    (s.setLink n x).configured = s.configured ∧ (s.setLink n x).standard = s.standard ∧
    (s.setLink n x).stamp = s.stamp :=
  ⟨rfl, rfl, rfl⟩

@[simp] theorem setCtx_views (s : State) (n : Transport) (x : Context) (k : Transport) :
    (s.setCtx n x).reader k = s.reader k ∧ (s.setCtx n x).link k = s.link k ∧ (s.setCtx n x).chase k = s.chase k :=
  ⟨rfl, rfl, rfl⟩

@[simp] theorem setCtx_modes (s : State) (n : Transport) (x : Context) :
    (s.setCtx n x).configured = s.configured ∧ (s.setCtx n x).standard = s.standard ∧
    (s.setCtx n x).stamp = s.stamp :=
  ⟨rfl, rfl, rfl⟩

@[simp] theorem setChase_views (s : State) (n : Transport) (x : Chase) (k : Transport) :
    (s.setChase n x).reader k = s.reader k ∧ (s.setChase n x).link k = s.link k ∧ (s.setChase n x).ctx k = s.ctx k :=
  ⟨rfl, rfl, rfl⟩

@[simp] theorem setChase_modes (s : State) (n : Transport) (x : Chase) :
    (s.setChase n x).configured = s.configured ∧ (s.setChase n x).standard = s.standard ∧
    (s.setChase n x).stamp = s.stamp :=
  ⟨rfl, rfl, rfl⟩

@[simp] theorem setRun_views (s : State) (x : Run) (k : Transport) :
    (s.setRun x).reader k = s.reader k ∧ (s.setRun x).link k = s.link k ∧ (s.setRun x).ctx k = s.ctx k ∧
    (s.setRun x).chase k = s.chase k :=
  ⟨rfl, rfl, rfl, rfl⟩

@[simp] theorem setRun_modes (s : State) (x : Run) :
    (s.setRun x).configured = s.configured ∧ (s.setRun x).standard = s.standard ∧ (s.setRun x).stamp = s.stamp :=
  ⟨rfl, rfl, rfl⟩

@[simp] theorem setMixer_views (s : State) (x : Mixer) (k : Transport) :
    (s.setMixer x).reader k = s.reader k ∧ (s.setMixer x).link k = s.link k ∧ (s.setMixer x).ctx k = s.ctx k ∧
    (s.setMixer x).chase k = s.chase k :=
  ⟨rfl, rfl, rfl, rfl⟩

@[simp] theorem setMixer_modes (s : State) (x : Mixer) :
    (s.setMixer x).configured = s.configured ∧ (s.setMixer x).standard = s.standard ∧
    (s.setMixer x).stamp = s.stamp :=
  ⟨rfl, rfl, rfl⟩

@[simp] theorem setEt_views (s : State) (x : EditTable) (k : Transport) :
    (s.setEt x).reader k = s.reader k ∧ (s.setEt x).link k = s.link k ∧ (s.setEt x).ctx k = s.ctx k ∧
    (s.setEt x).chase k = s.chase k :=
  ⟨rfl, rfl, rfl, rfl⟩

@[simp] theorem setEt_modes (s : State) (x : EditTable) :
    (s.setEt x).configured = s.configured ∧ (s.setEt x).standard = s.standard ∧ (s.setEt x).stamp = s.stamp :=
  ⟨rfl, rfl, rfl⟩

@[simp] theorem setPtu_views (s : State) (x : Ptu) (k : Transport) :
    (s.setPtu x).reader k = s.reader k ∧ (s.setPtu x).link k = s.link k ∧ (s.setPtu x).ctx k = s.ctx k ∧
    (s.setPtu x).chase k = s.chase k :=
  ⟨rfl, rfl, rfl, rfl⟩

@[simp] theorem setPtu_modes (s : State) (x : Ptu) :
    (s.setPtu x).configured = s.configured ∧ (s.setPtu x).standard = s.standard ∧ (s.setPtu x).stamp = s.stamp :=
  ⟨rfl, rfl, rfl⟩

@[simp] theorem setRtu_views (s : State) (x : Rtu) (k : Transport) :
    (s.setRtu x).reader k = s.reader k ∧ (s.setRtu x).link k = s.link k ∧ (s.setRtu x).ctx k = s.ctx k ∧
    (s.setRtu x).chase k = s.chase k :=
  ⟨rfl, rfl, rfl, rfl⟩

@[simp] theorem setRtu_modes (s : State) (x : Rtu) :
    (s.setRtu x).configured = s.configured ∧ (s.setRtu x).standard = s.standard :=
  ⟨rfl, rfl⟩

@[simp] theorem setIru_views (s : State) (x : Iru) (k : Transport) :
    (s.setIru x).reader k = s.reader k ∧ (s.setIru x).link k = s.link k ∧ (s.setIru x).ctx k = s.ctx k ∧
    (s.setIru x).chase k = s.chase k :=
  ⟨rfl, rfl, rfl, rfl⟩

@[simp] theorem setIru_modes (s : State) (x : Iru) :
    (s.setIru x).configured = s.configured ∧ (s.setIru x).standard = s.standard ∧ (s.setIru x).stamp = s.stamp :=
  ⟨rfl, rfl, rfl⟩

@[simp] theorem setCfg_views (s : State) (x : PartConfig) (k : Transport) :
    (s.setCfg x).reader k = s.reader k ∧ (s.setCfg x).link k = s.link k ∧ (s.setCfg x).ctx k = s.ctx k ∧
    (s.setCfg x).chase k = s.chase k :=
  ⟨rfl, rfl, rfl, rfl⟩

@[simp] theorem setCfg_modes (s : State) (x : PartConfig) :
    (s.setCfg x).stamp = s.stamp :=
  rfl

@[simp] theorem mark_views (s : State) (x : Mark) (k : Transport) :
    (s.mark x).reader k = s.reader k ∧ (s.mark x).link k = s.link k ∧ (s.mark x).ctx k = s.ctx k ∧
    (s.mark x).chase k = s.chase k :=
  ⟨rfl, rfl, rfl, rfl⟩

@[simp] theorem mark_modes (s : State) (x : Mark) :
    (s.mark x).configured = s.configured ∧ (s.mark x).standard = s.standard ∧ (s.mark x).stamp = s.stamp :=
  ⟨rfl, rfl, rfl⟩

end State

end Sys2Proof.Machine
end

