-- ==== Sys2Proof/Laws/Interrupts.lean ====
section
/-! SUPPORT. The Interrupt Unit: what each of its operations keeps, and that it stays sound (10 R192 to R197). -/

namespace Sys2Proof.Machine

set_option Elab.async false

theorem Irq.num_inj {i j : Irq} : i.num = j.num ↔ i = j := by
  constructor
  · intro h
    cases i <;> cases j <;> first
      | rfl
      | (rename_i n m; cases n <;> cases m <;> first | rfl | (simp [Irq.num] at h))
      | (rename_i n; cases n <;> simp [Irq.num] at h)
      | (simp [Irq.num] at h)
  · rintro rfl
    rfl

theorem Irq.mem_all (i : Irq) : i ∈ Irq.all := by
  cases i <;> first | decide | (rename_i n; cases n <;> decide)

/-- The level word with a source's number is that source's. -/
theorem levelSource_num (i : Irq) : State.levelSource i.num = i := by
  cases i <;> first | rfl | (rename_i n; cases n <;> rfl)

namespace Iru

/-! ## Pending flags -/

@[simp] theorem isPending_setPending (u : Iru) (i j : Irq) (b : Bool) :
    (u.setPending i b).isPending j = if j = i then b else u.isPending j := by
  unfold isPending setPending
  by_cases h : j = i
  · subst h
    simp
  · rw [if_neg h]
    have hne : i.num ≠ j.num := fun e => h (Irq.num_inj.1 e).symm
    simp only [Fin.getElem_fin]
    exact Vector.getElem_set_ne _ _ (fun e => hne (Fin.ext e))

@[simp] theorem setPending_fields (u : Iru) (i : Irq) (b : Bool) :
    (u.setPending i b).levels = u.levels ∧ (u.setPending i b).stack = u.stack ∧
    (u.setPending i b).request = u.request ∧ (u.setPending i b).driven = u.driven ∧
    (u.setPending i b).lastVector = u.lastVector ∧ (u.setPending i b).spurious = u.spurious ∧
    (u.setPending i b).top = u.top := ⟨rfl, rfl, rfl, rfl, rfl, rfl, rfl⟩

@[simp] theorem reform_fields (u : Iru) :
    u.reform.levels = u.levels ∧ u.reform.stack = u.stack ∧ u.reform.pending = u.pending ∧ u.reform.request = u.formed ∧
    u.reform.lastVector = u.lastVector ∧ u.reform.spurious = u.spurious ∧ u.reform.top = u.top ∧
    u.reform.formed = u.formed := ⟨rfl, rfl, rfl, rfl, rfl, rfl, rfl, rfl⟩

@[simp] theorem isPending_reform (u : Iru) (j : Irq) : u.reform.isPending j = u.isPending j := rfl

/-! ## The request level -/

theorem foldl_higher (f : Irq → Level) (P : Level → Prop) :
    ∀ (l : List Irq) (m : Level), P m → (∀ i ∈ l, P (f i)) → P (l.foldl (fun m i => higher m (f i)) m)
  | [], _, hm, _ => hm
  | i :: l, m, hm, hl => by
    refine foldl_higher f P l _ ?_ fun j hj => hl j (List.mem_cons_of_mem _ hj)
    show P (if m < f i then f i else m)
    split_ifs
    · exact hl i (List.mem_cons_self ..)
    · exact hm

/-- A fold of `higher` is its start or one of its values, and is at least each of them. -/
theorem foldl_higher_spec (f : Irq → Level) : ∀ (l : List Irq) (m : Level),
    (l.foldl (fun m i => Iru.higher m (f i)) m = m ∨ ∃ i ∈ l, l.foldl (fun m i => Iru.higher m (f i)) m = f i) ∧
    m ≤ l.foldl (fun m i => Iru.higher m (f i)) m ∧ ∀ i ∈ l, f i ≤ l.foldl (fun m i => Iru.higher m (f i)) m
  | [], m => by simp
  | a :: l, m => by
    obtain ⟨h1, h2, h3⟩ := foldl_higher_spec f l (Iru.higher m (f a))
    simp only [List.foldl_cons]
    have hm : m ≤ Iru.higher m (f a) := by
      unfold Iru.higher
      split_ifs with h
      · exact le_of_lt h
      · exact le_rfl
    have ha : f a ≤ Iru.higher m (f a) := by
      unfold Iru.higher
      split_ifs with h
      · exact le_rfl
      · exact not_lt.1 h
    refine ⟨?_, hm.trans h2, ?_⟩
    · rcases h1 with h1 | ⟨i, hi, h1⟩
      · rw [h1]
        unfold Iru.higher
        split_ifs
        · exact .inr ⟨a, by simp, rfl⟩
        · exact .inl rfl
      · exact .inr ⟨i, by simp [hi], h1⟩
    · intro i hi
      rcases List.mem_cons.1 hi with rfl | hi
      · exact ha.trans h2
      · exact h3 i hi

/-- The request level formed is 0 or above the top of the in-service stack (10 R196). -/
theorem formed_zero_or_above (u : Iru) : u.formed = 0 ∨ u.top < u.formed := by
  refine foldl_higher u.level (fun m => m = 0 ∨ u.top < m) _ _ (.inl rfl) ?_
  intro i hi
  have h := (List.mem_filter.1 hi).2
  rw [asks, Bool.and_eq_true, decide_eq_true_eq] at h
  exact .inr h.2

/-- Forming the request level again makes a sound unit of one whose stack and driven set are sound. -/
theorem sound_reform {u : Iru} (hd : ∀ m : Level, u.driven[m] = true → u.top < m)
    (hs : u.stack.Pairwise fun a b => b.1 < a.1) (ha : ∀ e ∈ u.stack, 0 < e.1) : u.reform.Sound := by
  refine ⟨rfl, ?_, hs, ha⟩
  intro m hm
  show u.top < m
  unfold reform at hm
  simp only at hm
  split_ifs at hm with h0
  · exact hd m hm
  · by_cases hmf : u.formed = m
    · rw [← hmf]
      exact (formed_zero_or_above u).resolve_left h0
    · refine hd m ?_
      rw [← hm]
      simp only [Fin.getElem_fin]
      exact (Vector.getElem_set_ne _ _ fun e => hmf (Fin.ext e)).symm

theorem Sound.setPending_reform {u : Iru} (h : u.Sound) (i : Irq) (b : Bool) : (u.setPending i b).reform.Sound :=
  sound_reform h.driven h.stack h.above

/-- The driven set after the request level is formed again. -/
theorem driven_reform (u : Iru) (m : Level) :
    u.reform.driven[m] = (u.driven[m] || (decide (m ≠ 0) && decide (m = u.formed))) := by
  unfold Iru.reform
  simp only
  split_ifs with h
  · have hn : ¬(m ≠ 0 ∧ m = u.formed) := fun ⟨a, b⟩ => a (b.trans h)
    rw [← Bool.decide_and, decide_eq_false hn, Bool.or_false]
  · simp only [Fin.getElem_fin, Vector.getElem_set, Fin.val_inj]
    by_cases hm : u.formed = m
    · subst hm; simp [h]
    · rw [if_neg hm]; simp [Ne.symm hm]

/-! ## Raises and conditions -/

theorem Sound.raise {u : Iru} (h : u.Sound) (i : Irq) : (u.raise i).Sound := by
  unfold Iru.raise
  split_ifs
  · exact h
  · exact h.setPending_reform i true

theorem Sound.follow {u : Iru} (h : u.Sound) (i : Irq) (b : Bool) : (u.follow i b).Sound := h.setPending_reform i b

@[simp] theorem raise_fields (u : Iru) (i : Irq) :
    (u.raise i).levels = u.levels ∧ (u.raise i).stack = u.stack ∧ (u.raise i).top = u.top ∧
    (u.raise i).lastVector = u.lastVector ∧ (u.raise i).spurious = u.spurious := by
  unfold Iru.raise
  split_ifs <;> exact ⟨rfl, rfl, rfl, rfl, rfl⟩

@[simp] theorem follow_fields (u : Iru) (i : Irq) (b : Bool) :
    (u.follow i b).levels = u.levels ∧ (u.follow i b).stack = u.stack ∧ (u.follow i b).top = u.top ∧
    (u.follow i b).lastVector = u.lastVector ∧ (u.follow i b).spurious = u.spurious := ⟨rfl, rfl, rfl, rfl, rfl⟩

@[simp] theorem isPending_raise (u : Iru) (i j : Irq) :
    (u.raise i).isPending j = if j = i ∧ u.level i ≠ 0 then true else u.isPending j := by
  unfold Iru.raise
  split_ifs with h h' h'
  · exact absurd h h'.2
  · rfl
  · rw [isPending_reform, isPending_setPending, if_pos h'.1]
  · rw [isPending_reform, isPending_setPending, if_neg fun e => h' ⟨e, h⟩]

@[simp] theorem isPending_follow (u : Iru) (i j : Irq) (b : Bool) :
    (u.follow i b).isPending j = if j = i then b else u.isPending j := by
  unfold Iru.follow
  rw [isPending_reform, isPending_setPending]

/-! ## Levels, service and acknowledge -/

theorem Sound.setLevel {u : Iru} (h : u.Sound) (i : Irq) (l : Level) : (u.setLevel i l).Sound := by
  unfold Iru.setLevel
  refine sound_reform ?_ ?_ ?_ <;> split_ifs <;> first | exact h.driven | exact h.stack | exact h.above

/-- A level store sets one level. -/
theorem level_setLevel (u : Iru) (i j : Irq) (l : Level) : (u.setLevel i l).level j = if j = i then l else u.level j := by
  have : (u.setLevel i l).levels = u.levels.set i.num l := by
    unfold Iru.setLevel
    simp only [Iru.reform_fields]
    split_ifs <;> rfl
  unfold Iru.level
  rw [this]
  simp only [Fin.getElem_fin, Vector.getElem_set, Fin.val_inj, Irq.num_inj]
  by_cases h : j = i
  · subst h
    simp
  · rw [if_neg (Ne.symm h), if_neg h]

theorem isPending_setLevel (u : Iru) (i j : Irq) (l : Level) (hj : j.condition = true) :
    (u.setLevel i l).isPending j = u.isPending j := by
  unfold Iru.setLevel
  rw [isPending_reform]
  split_ifs with h
  · rw [isPending_setPending, if_neg]
    · rfl
    · rintro rfl
      simp [hj] at h
  · rfl

/-- The top of a stack that loses its top lies below what the top was. -/
theorem top_tail_le (u : Iru) (h : u.Sound) : ({ u with stack := u.stack.tail } : Iru).top ≤ u.top := by
  unfold top
  have hs := h.stack
  cases hst : u.stack with
  | nil => simp
  | cons a l =>
    cases l with
    | nil => simp
    | cons b l =>
      rw [hst] at hs
      simp only [List.tail_cons]
      exact le_of_lt ((List.pairwise_cons.1 hs).1 b (List.mem_cons_self ..))

theorem Sound.pop {u : Iru} (h : u.Sound) : u.pop.Sound := by
  unfold Iru.pop
  refine sound_reform ?_ ?_ ?_
  · intro m hm
    exact lt_of_le_of_lt (top_tail_le u h) (h.driven m hm)
  · exact h.stack.tail
  · intro e he
    exact h.above e (List.mem_of_mem_tail he)

/-- A level above the top lies above every level of a sound stack. -/
theorem Sound.above_all {u : Iru} (h : u.Sound) {m : Level} (hm : u.top < m) : ∀ e ∈ u.stack, e.1 < m := by
  intro e he
  have hs := h.stack
  unfold top at hm
  cases hst : u.stack with
  | nil => rw [hst] at he; simp at he
  | cons a l =>
    rw [hst] at hm he hs
    rcases List.mem_cons.1 he with rfl | he
    · exact hm
    · exact lt_trans ((List.pairwise_cons.1 hs).1 e he) hm

/-- An answer with a source keeps the unit sound (10 R195, R196). -/
theorem Sound.push {u : Iru} (h : u.Sound) (m : Level) (i : Irq) (v : Byte) (hm : u.driven[m] = true) :
    (State.pushSource m i { u with lastVector := v, driven := Vector.replicate 8 false }).reform.Sound := by
  have hmt := h.driven m hm
  refine sound_reform ?_ ?_ ?_
  · intro k hk
    unfold State.pushSource at hk
    simp only at hk
    split_ifs at hk <;> simp [Iru.setPending] at hk
  · unfold State.pushSource
    simp only
    split_ifs <;> exact List.pairwise_cons.2 ⟨fun b hb => h.above_all hmt b hb, h.stack⟩
  · unfold State.pushSource
    simp only
    split_ifs <;>
    · intro e he
      rcases List.mem_cons.1 he with rfl | he
      · exact lt_of_le_of_lt (Fin.zero_le _) hmt
      · exact h.above e he

/-- A spurious answer keeps the unit sound. -/
theorem Sound.spurious {u : Iru} (h : u.Sound) (v : Byte) (n : Nat) :
    ({ u with lastVector := v, driven := Vector.replicate 8 false, spurious := n } : Iru).reform.Sound := by
  refine sound_reform ?_ h.stack h.above
  intro k hk
  simp at hk

end Iru

/-- A unit at reset is sound. -/
theorem Iru.reset_sound : Iru.reset.Sound := by
  refine ⟨by decide, ?_, List.Pairwise.nil, ?_⟩
  · intro m hm
    simp [Iru.reset] at hm
  · intro e he
    simp [Iru.reset] at he

end Sys2Proof.Machine
end

