-- ==== Sys2Proof/Laws/Raises.lean ====
section
/-! SUPPORT. What a raise or a condition reaches: the Interrupt Unit, and through the end of a held read the PTU and the
context of the held port; nothing else.  And what it is when no read is held. -/

namespace Sys2Proof.Machine

set_option Elab.async false

/-- The two states differ in the PTU, the contexts and the Interrupt Unit alone. -/
structure Apart (s t : State) : Prop where
  pending : t.pending = s.pending
  free : t.free = s.free
  marks : t.marks = s.marks
  cfg : t.cfg = s.cfg
  rtu : t.rtu = s.rtu
  readers : t.readers = s.readers
  links : t.links = s.links
  chases : t.chases = s.chases
  et : t.et = s.et
  run : t.run = s.run
  mixer : t.mixer = s.mixer

theorem Apart.trans {s t u : State} (h : Apart s t) (h' : Apart t u) : Apart s u :=
  ⟨h'.pending.trans h.pending, h'.free.trans h.free, h'.marks.trans h.marks, h'.cfg.trans h.cfg, h'.rtu.trans h.rtu,
    h'.readers.trans h.readers, h'.links.trans h.links, h'.chases.trans h.chases, h'.et.trans h.et,
    h'.run.trans h.run, h'.mixer.trans h.mixer⟩

theorem Apart.refl (s : State) : Apart s s := ⟨rfl, rfl, rfl, rfl, rfl, rfl, rfl, rfl, rfl, rfl, rfl⟩

namespace State

variable {s : State}

theorem raiseFree_apart (i : Irq) : Apart s (s.raiseFree i) := by
  unfold raiseFree
  split_ifs
  · exact ⟨rfl, rfl, rfl, rfl, rfl, rfl, rfl, rfl, rfl, rfl, rfl⟩
  · exact .refl s

theorem followFree_apart (i : Irq) (b : Bool) : Apart s (s.followFree i b) := by
  unfold followFree
  split_ifs
  · exact ⟨rfl, rfl, rfl, rfl, rfl, rfl, rfl, rfl, rfl, rfl, rfl⟩
  · exact .refl s

theorem refuse_apart (reason : AccessReason) (a : Addr) (lanes : Strobes) (rmw : Bool) :
    Apart s (s.refuse reason a lanes rmw) := by
  unfold refuse
  refine Apart.trans (t := (s.setPtu _).raiseFree .access) ?_ ⟨rfl, rfl, rfl, rfl, rfl, rfl, rfl, rfl, rfl, rfl, rfl⟩
  refine Apart.trans ?_ (raiseFree_apart _)
  exact ⟨rfl, rfl, rfl, rfl, rfl, rfl, rfl, rfl, rfl, rfl, rfl⟩

theorem completeTake_apart (n : Transport) (w : Word) : Apart s (s.completeTake n w) := by
  unfold completeTake
  refine Apart.trans (t := ((s.setPtu _).setCtx n _).deckFree n) ?_ ⟨rfl, rfl, rfl, rfl, rfl, rfl, rfl, rfl, rfl, rfl, rfl⟩
  refine Apart.trans ?_ (followFree_apart _ _)
  exact ⟨rfl, rfl, rfl, rfl, rfl, rfl, rfl, rfl, rfl, rfl, rfl⟩

theorem takeWriteHalf_apart (n : Transport) (half : Option Strobes) : Apart s (s.takeWriteHalf n half) := by
  unfold takeWriteHalf
  split
  · exact refuse_apart ..
  · exact .refl s

theorem completeHold_apart (h : Hold) (w : Word) : Apart s (s.completeHold h w) := by
  unfold completeHold
  refine Apart.trans (t := (s.setPtu { s.ptu with hold := none }).completeTake h.port w) ?_ (takeWriteHalf_apart _ _)
  refine Apart.trans ?_ (completeTake_apart _ _)
  exact ⟨rfl, rfl, rfl, rfl, rfl, rfl, rfl, rfl, rfl, rfl, rfl⟩

theorem yieldHold_apart : Apart s s.yieldHold := by
  unfold yieldHold
  split
  · split_ifs
    · exact completeHold_apart _ _
    · exact .refl s
  · exact .refl s

theorem raise_apart (i : Irq) : Apart s (s.raise i) := (raiseFree_apart i).trans yieldHold_apart

theorem follow_apart (i : Irq) (b : Bool) : Apart s (s.follow i b) := (followFree_apart i b).trans yieldHold_apart

theorem syncDeck_apart (n : Transport) : Apart s (s.syncDeck n) := follow_apart _ _

theorem syncRunFault_apart : Apart s s.syncRunFault := follow_apart _ _

/-- The fields that a raise does not reach. -/
@[simp] theorem raise_keeps (s : State) (i : Irq) :
    (s.raise i).pending = s.pending ∧ (s.raise i).free = s.free ∧ (s.raise i).marks = s.marks ∧
    (s.raise i).cfg = s.cfg ∧ (s.raise i).rtu = s.rtu ∧ (s.raise i).readers = s.readers ∧
    (s.raise i).links = s.links ∧ (s.raise i).chases = s.chases ∧ (s.raise i).et = s.et ∧
    (s.raise i).run = s.run ∧ (s.raise i).mixer = s.mixer :=
  let h := raise_apart (s := s) i
  ⟨h.pending, h.free, h.marks, h.cfg, h.rtu, h.readers, h.links, h.chases, h.et, h.run, h.mixer⟩

/-- The fields that a condition handed on does not reach. -/
@[simp] theorem syncDeck_keeps (s : State) (n : Transport) :
    (s.syncDeck n).pending = s.pending ∧ (s.syncDeck n).free = s.free ∧ (s.syncDeck n).marks = s.marks ∧
    (s.syncDeck n).cfg = s.cfg ∧ (s.syncDeck n).rtu = s.rtu ∧ (s.syncDeck n).readers = s.readers ∧
    (s.syncDeck n).links = s.links ∧ (s.syncDeck n).chases = s.chases ∧ (s.syncDeck n).et = s.et ∧
    (s.syncDeck n).run = s.run ∧ (s.syncDeck n).mixer = s.mixer :=
  let h := syncDeck_apart (s := s) n
  ⟨h.pending, h.free, h.marks, h.cfg, h.rtu, h.readers, h.links, h.chases, h.et, h.run, h.mixer⟩

@[simp] theorem syncRunFault_keeps (s : State) :
    s.syncRunFault.pending = s.pending ∧ s.syncRunFault.free = s.free ∧ s.syncRunFault.marks = s.marks ∧
    s.syncRunFault.cfg = s.cfg ∧ s.syncRunFault.rtu = s.rtu ∧ s.syncRunFault.readers = s.readers ∧
    s.syncRunFault.links = s.links ∧ s.syncRunFault.chases = s.chases ∧ s.syncRunFault.et = s.et ∧
    s.syncRunFault.run = s.run ∧ s.syncRunFault.mixer = s.mixer :=
  let h := syncRunFault_apart (s := s)
  ⟨h.pending, h.free, h.marks, h.cfg, h.rtu, h.readers, h.links, h.chases, h.et, h.run, h.mixer⟩

theorem linkError_links (s : State) (n : Transport) (k : ErrKind) :
    (s.linkError n k).links = s.links.set n ((s.link n).addError k s.stamp) := by
  unfold linkError
  simp only
  split_ifs
  · rfl
  · rw [(syncDeck_keeps _ _).2.2.2.2.2.2.1]
    rfl

/-! ## With no read held -/

/-- With no read held a raise of a CONFIGURED part is the Interrupt Unit's alone. -/
theorem raise_ready (hc : s.configured = true) (hh : s.ptu.hold = none) (i : Irq) :
    s.raise i = { s with iru := s.iru.raise i } := by
  have h : (s.raiseFree i).ptu.hold = none := by
    unfold raiseFree
    split_ifs
    all_goals exact hh
  unfold raise yieldHold
  rw [h]
  simp only [raiseFree, hc, if_true]
  rfl

theorem follow_ready (hc : s.configured = true) (hh : s.ptu.hold = none) (i : Irq) (b : Bool) :
    s.follow i b = { s with iru := s.iru.follow i b } := by
  have h : (s.followFree i b).ptu.hold = none := by
    unfold followFree
    split_ifs
    all_goals exact hh
  unfold follow yieldHold
  rw [h]
  simp only [followFree, hc, if_true]
  rfl

/-- With no read held a condition changes the Interrupt Unit at most. -/
theorem follow_free (hh : s.ptu.hold = none) (i : Irq) (b : Bool) : ∃ v, s.follow i b = { s with iru := v } := by
  by_cases hc : s.configured = true
  · exact ⟨_, follow_ready hc hh i b⟩
  · refine ⟨s.iru, ?_⟩
    unfold follow followFree yieldHold
    rw [if_neg hc, hh]

theorem syncDecks_free : ∀ (ts : List Transport) (s : State), s.ptu.hold = none →
    ∃ v, forTransports ts (fun n s => s.syncDeck n) s = { s with iru := v }
  | [], s, _ => ⟨s.iru, rfl⟩
  | n :: ts, s, hh => by
    obtain ⟨v, hv⟩ := follow_free hh (.deck n) (s.ctx n).deckCondition
    obtain ⟨w, hw⟩ := syncDecks_free ts { s with iru := v } hh
    refine ⟨w, ?_⟩
    show forTransports ts (fun n s => s.syncDeck n) (s.syncDeck n) = _
    unfold syncDeck
    rw [hv]
    exact hw

/-- With no read held the conditions, told at a first take, change the Interrupt Unit at most. -/
theorem followConditions_free (hh : s.ptu.hold = none) : ∃ v, s.followConditions = { s with iru := v } := by
  obtain ⟨v, hv⟩ := follow_free hh .runFault (decide (s.run.state = .faulted))
  obtain ⟨w, hw⟩ := syncDecks_free Transport.all { s with iru := v } hh
  refine ⟨w, ?_⟩
  unfold followConditions syncRunFault
  rw [hv]
  exact hw

end State

end Sys2Proof.Machine
end

