-- ==== Sys2Proof/Laws/Moves.lean ====
section
/-! SUPPORT. `Moves`: once and for all what an operation below the bus can do to the fields that no such operation
may change freely.  Every operation has one lemma of this form; longer operations follow by transitivity. -/

namespace Sys2Proof.Machine

set_option Elab.async false

/-- What no operation of a boundary does to a link that is not UP: its state, its transmitter, its sequence, its probe
interval and a probe in flight stand. -/
structure LinkStill (l l' : Link) : Prop where
  state : l'.state = l.state
  tx : l'.tx = l.tx
  nextSeq : l'.nextSeq = l.nextSeq
  interval : l'.probeInterval = l.probeInterval
  probe : ∀ f, l.inFlight = some f → f.entry.source = .link → l'.inFlight = some f

theorem LinkStill.refl (l : Link) : LinkStill l l := ⟨rfl, rfl, rfl, rfl, fun _ h _ => h⟩

theorem LinkStill.trans {a b c : Link} (h : LinkStill a b) (h' : LinkStill b c) : LinkStill a c :=
  ⟨h'.state.trans h.state, h'.tx.trans h.tx, h'.nextSeq.trans h.nextSeq, h'.interval.trans h.interval,
    fun f hf hs => h'.probe f (h.probe f hf hs) hs⟩

/-- From `s` to `t`: the queue of commands, the configuration, the in-service stack and the levels stand; no event
source stops being pending; no hold begins; the Interrupt Unit stays sound; FIFOs and queues stay within their bounds; RUN_FAULT follows.  The DECK flag of
every transport follows, that of `n` only if `b`; the books of `n` move by `d` and no others do.  With `r`, the
reference, the readers and every link that is not UP stand, and no mark is lost. -/
structure Moves (r b : Bool) (n : Transport) (d : Word) (s t : State) : Prop where
  pending : t.pending = s.pending
  cfg : t.cfg = s.cfg
  stack : t.iru.stack = s.iru.stack
  levels : t.iru.levels = s.iru.levels
  events : ∀ i : Irq, i.condition = false → s.iru.isPending i = true → t.iru.isPending i = true
  hold : s.ptu.hold = none → t.ptu.hold = none
  iru : s.iru.Sound → t.iru.Sound
  fifo : ∀ m, (s.ctx m).fifo.length ≤ 3 → (t.ctx m).fifo.length ≤ 3
  queue : ∀ m, (s.link m).queue.length ≤ 4 → (t.link m).queue.length ≤ 4
  runFault : s.RunFaultFollows → t.RunFaultFollows
  deck : ∀ m, (b = true ∨ m ≠ n) → s.DeckFollows m → t.DeckFollows m
  books : ∀ m, t.owed m = s.owed m + if m = n then d else 0
  rtu : r = true → t.rtu = s.rtu
  readers : r = true → t.readers = s.readers
  marks : r = true → ∀ x ∈ s.marks, x ∈ t.marks
  down : r = true → ∀ m, (s.link m).state ≠ .up → LinkStill (s.link m) (t.link m)

/-- An operation after which the books balance and every flag follows as before. -/
abbrev Tame (r : Bool) (s t : State) : Prop := Moves r true .t0 0 s t

namespace Moves

variable {r b : Bool} {n : Transport} {d : Word} {s t u : State}

theorem trans {d' : Word} (h : Moves r b n d s t) (h' : Moves r b n d' t u) : Moves r b n (d + d') s u where
  pending := h'.pending.trans h.pending
  cfg := h'.cfg.trans h.cfg
  stack := h'.stack.trans h.stack
  levels := h'.levels.trans h.levels
  events i hi e := h'.events i hi (h.events i hi e)
  hold e := h'.hold (h.hold e)
  iru e := h'.iru (h.iru e)
  fifo m e := h'.fifo m (h.fifo m e)
  queue m e := h'.queue m (h.queue m e)
  runFault e := h'.runFault (h.runFault e)
  deck m hm e := h'.deck m hm (h.deck m hm e)
  books m := by
    rw [h'.books m, h.books m, BitVec.add_assoc]
    split_ifs <;> simp
  rtu e := (h'.rtu e).trans (h.rtu e)
  readers e := (h'.readers e).trans (h.readers e)
  marks e x hx := h'.marks e x (h.marks e x hx)
  down e m hm := (h.down e m hm).trans (h'.down e m (by rw [(h.down e m hm).state]; exact hm))

theorem congr_shift {d' : Word} (h : Moves r b n d s t) (e : d = d') : Moves r b n d' s t := e ▸ h

/-- A weaker claim. -/
theorem weaken {r' b' : Bool} (h : Moves r b n d s t) (hr : r' = true → r = true) (hb : b' = true → b = true) :
    Moves r' b' n d s t :=
  { h with
    deck := fun m hm => h.deck m (hm.imp_left hb)
    rtu := fun e => h.rtu (hr e)
    readers := fun e => h.readers (hr e)
    marks := fun e => h.marks (hr e)
    down := fun e => h.down (hr e) }

theorem coarse (h : Moves true b n d s t) : Moves r b n d s t := h.weaken (fun _ => rfl) id

theorem rough (h : Moves r true n d s t) : Moves r b n d s t := h.weaken id fun _ => rfl

/-- A balanced claim about one transport is a claim about any. -/
theorem tame (h : Moves r true n 0 s t) : Tame r s t :=
  { h with
    deck := fun m _ => h.deck m (.inl rfl)
    books := fun m => by rw [h.books m]; simp }

end Moves

namespace Tame

variable {r b : Bool} {s t u : State}

theorem refl (s : State) : Tame r s s where
  pending := rfl
  cfg := rfl
  stack := rfl
  levels := rfl
  events _ _ e := e
  hold e := e
  iru e := e
  fifo _ e := e
  queue _ e := e
  runFault e := e
  deck _ _ e := e
  books m := by simp
  rtu _ := rfl
  readers _ := rfl
  marks _ _ h := h
  down _ m _ := .refl _

/-- A balanced claim, used for one transport. -/
theorem at_ (h : Tame r s t) (n : Transport) : Moves r true n 0 s t :=
  { h with
    deck := fun m _ => h.deck m (.inl rfl)
    books := fun m => by rw [h.books m]; simp }

theorem near (h : Tame r s t) (n : Transport) : Moves r b n 0 s t := (h.at_ n).rough

theorem then_ (h : Tame r s t) (h' : Tame r t u) : Tame r s u := (h.trans h').congr_shift (by simp)

theorem coarse (h : Tame true s t) : Tame r s t := Moves.coarse h

/-- Shifts compose with balanced operations before and after. -/
theorem before {n : Transport} {d : Word} (h : Tame r s t) (h' : Moves r b n d t u) : Moves r b n d s u :=
  ((h.near n).trans h').congr_shift (by simp)

theorem after {n : Transport} {d : Word} (h : Moves r b n d s t) (h' : Tame r t u) : Moves r b n d s u :=
  (h.trans (h'.near n)).congr_shift (by simp)

theorem ite {c : Prop} [Decidable c] {x y : State} (h : c → Tame r s x) (h' : ¬c → Tame r s y) :
    Tame r s (if c then x else y) := by
  split_ifs with hc
  · exact h hc
  · exact h' hc

theorem foldl {α : Type} (f : State → α → State) (h : ∀ s a, Tame r s (f s a)) :
    ∀ (l : List α) (s : State), Tame r s (l.foldl f s)
  | [], s => .refl s
  | a :: l, s => (h s a).then_ (foldl f h l (f s a))

theorem forTransports {f : Transport → State → State} (h : ∀ n s, Tame r s (f n s)) (ts : List Transport) (s : State) :
    Tame r s (forTransports ts f s) := foldl _ (fun s n => h n s) ts s

end Tame

/-! ## How a claim is made -/

/-- The part of a context that the books and the DECK condition read. -/
def Context.core (c : Context) : List FifoEntry × Bool × Bool × Word × Word × Word × Word :=
  (c.fifo, c.errFrozen, c.linkChange, c.taken, c.delivered, c.lost, c.cancelled)

theorem Context.deckCondition_of_core {c c' : Context} (h : c'.core = c.core) : c'.deckCondition = c.deckCondition := by
  simp only [core, Prod.mk.injEq] at h
  simp [deckCondition, h.1, h.2.1, h.2.2.1]

/-- An operation that touches none of the fields `Moves` speaks of. -/
theorem Tame.of_core {r : Bool} {s t : State}
    (hp : t.pending = s.pending := by rfl) (hc : t.cfg = s.cfg := by rfl) (hi : t.iru = s.iru := by rfl)
    (hh : t.ptu.hold = s.ptu.hold := by rfl) (hrs : t.run.state = s.run.state := by rfl)
    (hl : t.links = s.links := by rfl) (hx : ∀ m, (t.ctx m).core = (s.ctx m).core := by intro m; rfl)
    (hr : t.rtu = s.rtu := by rfl) (hrd : t.readers = s.readers := by rfl)
    (hm : ∀ x ∈ s.marks, x ∈ t.marks := by intro x h; exact h) : Tame r s t where
  pending := hp
  cfg := hc
  stack := by rw [hi]
  levels := by rw [hi]
  events _ _ e := by rw [hi]; exact e
  hold e := hh.trans e
  iru e := by rw [hi]; exact e
  fifo m e := by
    have h := hx m
    simp only [Context.core, Prod.mk.injEq] at h
    rw [h.1]
    exact e
  queue m e := by
    unfold State.link at *
    rw [hl]
    exact e
  runFault e hcfg := by
    rw [hi, hrs]
    exact e (by unfold State.configured at *; rw [← hc]; exact hcfg)
  deck m _ e hcfg := by
    rw [hi, Context.deckCondition_of_core (hx m)]
    exact e (by unfold State.configured at *; rw [← hc]; exact hcfg)
  books m := by
    have h := hx m
    simp only [Context.core, Prod.mk.injEq] at h
    have hlm : t.link m = s.link m := by unfold State.link; rw [hl]
    unfold State.owed
    rw [h.2.2.2.1, h.2.2.2.2.1, h.2.2.2.2.2.1, h.2.2.2.2.2.2, hlm]
    simp
  rtu _ := hr
  readers _ := hrd
  marks _ := hm
  down _ m _ := by
    have hlm : t.link m = s.link m := by unfold State.link; rw [hl]
    rw [hlm]
    exact .refl _

/-- One link replaced. -/
theorem Moves.setLink {r b : Bool} {n : Transport} {d : Word} {s : State} {l : Link}
    (hq : (s.link n).queue.length ≤ 4 → l.queue.length ≤ 4)
    (hd : BitVec.ofNat 16 (s.link n).processorEntries = BitVec.ofNat 16 l.processorEntries + d)
    (hs : r = true → (s.link n).state ≠ .up → LinkStill (s.link n) l) : Moves r b n d s (s.setLink n l) where
  pending := rfl
  cfg := rfl
  stack := rfl
  levels := rfl
  events _ _ e := e
  hold e := e
  iru e := e
  fifo m e := e
  queue m e := by
    rw [State.link_setLink]
    split_ifs with h
    · exact hq (h ▸ e)
    · exact e
  runFault e := e
  deck m _ e := e
  books m := by
    unfold State.owed
    rw [State.link_setLink, (State.setLink_views s n l m).2.1]
    split_ifs with h
    · subst h
      rw [hd]
      ring
    · simp
  rtu _ := rfl
  readers _ := rfl
  marks _ _ h := h
  down e m hm := by
    rw [State.link_setLink]
    split_ifs with h
    · subst h
      exact hs e hm
    · exact .refl _

/-- One context replaced. -/
theorem Moves.setCtx {r b : Bool} {n : Transport} {d : Word} {s : State} {c : Context}
    (hf : (s.ctx n).fifo.length ≤ 3 → c.fifo.length ≤ 3)
    (hb : b = true → c.deckCondition = (s.ctx n).deckCondition)
    (hd : c.taken - c.delivered - c.lost - c.cancelled =
      (s.ctx n).taken - (s.ctx n).delivered - (s.ctx n).lost - (s.ctx n).cancelled + d) :
    Moves r b n d s (s.setCtx n c) where
  pending := rfl
  cfg := rfl
  stack := rfl
  levels := rfl
  events _ _ e := e
  hold e := e
  iru e := e
  fifo m e := by
    rw [State.ctx_setCtx]
    split_ifs with h
    · exact hf (h ▸ e)
    · exact e
  queue m e := e
  runFault e := e
  deck m hm e hcfg := by
    rw [State.ctx_setCtx]
    split_ifs with h
    · subst h
      rw [hb (hm.resolve_right (fun h => h rfl))]
      exact e hcfg
    · exact e hcfg
  books m := by
    unfold State.owed
    rw [State.ctx_setCtx, (State.setCtx_views s n c m).2.1]
    split_ifs with h
    · subst h
      rw [hd]
      ring
    · simp
  rtu _ := rfl
  readers _ := rfl
  marks _ _ h := h
  down _ _ _ := .refl _

end Sys2Proof.Machine
end

