-- ==== Sys2Proof/Laws/Links.lean ====
section
/-! SUPPORT. A deck link by itself: what its operations keep of its entries, its queue and its state. -/

namespace Sys2Proof.Machine

set_option Elab.async false

/-- One entry as it counts in the books of 05 R105. -/
def Source.owedOne (x : Source) : Nat := if x = .processor then 1 else 0

namespace Link

theorem processorEntries_def (l : Link) :
    l.processorEntries =
      l.queue.countP (·.source = .processor)
        + (match l.slot with | some v => v.source.owedOne | none => 0)
        + (match l.inFlight with | some f => f.entry.source.owedOne | none => 0) := by
  unfold processorEntries Source.owedOne
  cases l.slot <;> cases l.inFlight <;> simp [List.countP_cons]

/-- Beginning a transmission moves no entry. -/
theorem begin_keeps (l : Link) :
    l.begin.processorEntries = l.processorEntries ∧ l.begin.queue = l.queue ∧ l.begin.slot = l.slot ∧
    l.begin.state = l.state ∧ l.begin.probeInterval = l.probeInterval ∧ l.begin.silence = l.silence ∧
    l.begin.breakLeft = l.breakLeft ∧ l.begin.receiver = l.receiver ∧ l.begin.gapLeft = l.gapLeft ∧
    l.begin.err = l.err ∧ l.begin.counts = l.counts := by
  unfold begin
  split
  · rename_i f hf _
    by_cases hp : f.phase = .waiting
    · rw [if_pos hp]
      refine ⟨?_, rfl, rfl, rfl, rfl, rfl, rfl, rfl, rfl, rfl, rfl⟩
      rw [processorEntries_def, processorEntries_def, hf]
    · rw [if_neg hp]
      exact ⟨rfl, rfl, rfl, rfl, rfl, rfl, rfl, rfl, rfl, rfl, rfl⟩
  · exact ⟨rfl, rfl, rfl, rfl, rfl, rfl, rfl, rfl, rfl, rfl, rfl⟩

theorem launch_entries (l : Link) (e : Entry) (h : l.inFlight = none) :
    (l.launch e).processorEntries = l.processorEntries + e.source.owedOne := by
  unfold launch
  rw [(begin_keeps _).1, processorEntries_def, processorEntries_def, h]
  simp

theorem launch_keeps (l : Link) (e : Entry) :
    (l.launch e).queue = l.queue ∧ (l.launch e).slot = l.slot ∧ (l.launch e).state = l.state := by
  unfold launch
  exact ⟨(begin_keeps _).2.1, (begin_keeps _).2.2.1, (begin_keeps _).2.2.2.1⟩

theorem SlotSpeed.entry_source (v : SlotSpeed) : v.entry.source = v.source := rfl

/-- The arbiter moves an entry from the queue or the slot into flight: none is gained or lost (04 R69). -/
theorem choose_entries (l : Link) : l.choose.processorEntries = l.processorEntries := by
  unfold choose
  split_ifs with h
  · rw [Bool.and_eq_true, Option.isNone_iff_eq_none] at h
    split
    · rename_i e rest v hq hs
      split_ifs
      · rw [launch_entries _ _ (by exact h.2), processorEntries_def, processorEntries_def, hq, hs, h.2, List.countP_cons]
        simp [Source.owedOne]
        omega
      · rw [launch_entries _ _ (by exact h.2), processorEntries_def, processorEntries_def, hq, hs, h.2, SlotSpeed.entry_source]
        simp
    · rename_i e rest hq hs
      rw [launch_entries _ _ (by exact h.2), processorEntries_def, processorEntries_def, hq, hs, h.2, List.countP_cons]
      simp [Source.owedOne]
    · rename_i v hq hs
      rw [launch_entries _ _ (by exact h.2), processorEntries_def, processorEntries_def, hq, hs, h.2, SlotSpeed.entry_source]
      simp
    · rfl
  · rfl

theorem choose_queue (l : Link) : l.choose.queue.length ≤ l.queue.length := by
  unfold choose
  split_ifs
  · split
    · rename_i hq _
      split_ifs
      · rw [(launch_keeps _ _).1]
        simp [hq]
      · rw [(launch_keeps _ _).1]
    · rename_i hq _
      rw [(launch_keeps _ _).1]
      simp [hq]
    · rename_i hq _
      rw [(launch_keeps _ _).1]
    · exact le_rfl
  · exact le_rfl

theorem choose_down (l : Link) (h : l.state ≠ .up) : l.choose = l := by
  unfold choose
  rw [if_neg]
  simp [h]

@[simp] theorem choose_state (l : Link) : l.choose.state = l.state := by
  unfold choose
  split_ifs
  · split
    · split_ifs <;> exact (launch_keeps _ _).2.2
    · exact (launch_keeps _ _).2.2
    · exact (launch_keeps _ _).2.2
    · rfl
  · rfl

/-! ## Offers (04 R67) -/

theorem place_count (p : Entry → Bool) (q : List Entry) (e : Entry) :
    (place q e).countP p = q.countP p + if p e then 1 else 0 := by
  unfold place
  split_ifs with h he he
  · rw [List.countP_append, List.countP_cons, if_pos he]
    have := List.takeWhile_append_dropWhile (p := fun x : Entry => x.urgent) (l := q)
    conv_rhs => rw [← this, List.countP_append]
    omega
  · rw [List.countP_append, List.countP_cons, if_neg he]
    have := List.takeWhile_append_dropWhile (p := fun x : Entry => x.urgent) (l := q)
    conv_rhs => rw [← this, List.countP_append]
    omega
  · simp [he]
  · simp [he]

theorem place_length (q : List Entry) (e : Entry) : (place q e).length = q.length + 1 := by
  have := place_count (fun _ => true) q e
  simpa using this

theorem displace_count (p : Entry → Bool) :
    ∀ (q : List Entry) (d : Entry) (q' : List Entry), displace q = some (d, q') →
      q.countP p = q'.countP p + (if p d then 1 else 0) ∧ q.length = q'.length + 1
  | [], d, q', h => by simp [displace] at h
  | e :: rest, d, q', h => by
    rw [displace] at h
    split at h
    · rename_i d1 r1 hd
      have ih := displace_count p rest d1 r1 hd
      simp only [Option.some.injEq, Prod.mk.injEq] at h
      obtain ⟨rfl, rfl⟩ := h
      rw [List.countP_cons, List.countP_cons, ih.1, List.length_cons, List.length_cons, ih.2]
      omega
    · split_ifs at h with hu
      simp only [Option.some.injEq, Prod.mk.injEq] at h
      obtain ⟨rfl, rfl⟩ := h
      rw [List.countP_cons, List.length_cons]
      exact ⟨rfl, rfl⟩

/-! ## Probes and errors -/

theorem canProbe_iff (l : Link) : l.canProbe = true ↔ l.state ≠ .up ∧ l.breakLeft = none ∧ l.inFlight = none := by
  simp [canProbe, and_assoc]

theorem probe_entries (l : Link) (h : l.inFlight = none) : l.probe.processorEntries = l.processorEntries := by
  unfold probe
  rw [launch_entries _ _ (by exact h)]
  simp [probeEntry, Source.owedOne, processorEntries_def]

theorem probe_keeps (l : Link) : l.probe.queue = l.queue ∧ l.probe.slot = l.slot ∧ l.probe.state = l.state := by
  unfold probe
  exact launch_keeps _ _

theorem setupTaken_keeps (l : Link) :
    l.setupTaken.processorEntries = l.processorEntries ∧ l.setupTaken.queue = l.queue ∧ l.setupTaken.state = l.state := by
  unfold setupTaken
  split_ifs with h
  · exact ⟨probe_entries l ((canProbe_iff l).1 h).2.2, (probe_keeps l).1, (probe_keeps l).2.2⟩
  · exact ⟨rfl, rfl, rfl⟩

theorem probeTick_keeps (l : Link) :
    l.probeTick.processorEntries = l.processorEntries ∧ l.probeTick.queue = l.queue ∧ l.probeTick.state = l.state := by
  unfold probeTick
  split_ifs with h
  · rw [probeDue, Bool.and_eq_true] at h
    exact ⟨probe_entries l ((canProbe_iff l).1 h.1).2.2, (probe_keeps l).1, (probe_keeps l).2.2⟩
  · exact ⟨rfl, rfl, rfl⟩
  · exact ⟨rfl, rfl, rfl⟩

@[simp] theorem addError_keeps (l : Link) (k : ErrKind) (w : Word) :
    (l.addError k w).queue = l.queue ∧ (l.addError k w).slot = l.slot ∧ (l.addError k w).inFlight = l.inFlight ∧
    (l.addError k w).state = l.state ∧ (l.addError k w).tx = l.tx ∧ (l.addError k w).nextSeq = l.nextSeq ∧
    (l.addError k w).probeInterval = l.probeInterval := by
  unfold addError
  split <;> exact ⟨rfl, rfl, rfl, rfl, rfl, rfl, rfl⟩

end Link

end Sys2Proof.Machine
end

