-- ==== Sys2Proof/Laws/Sends.lean ====
section
/-! SUPPORT. `Moves` for causes and conditions (10), the completion of held reads (01 R18), the operations of a link
on the state (04), and the reply FIFO (05 R101 to R103). -/

namespace Sys2Proof.Machine

set_option Elab.async false

variable {r b : Bool} {n : Transport} {d : Word} {s t : State}

namespace State

/-! ## Causes and conditions -/

theorem configured_of_cfg {s t : State} (h : t.cfg = s.cfg) : t.configured = s.configured := by
  unfold configured
  rw [h]

/-- A raise reaches the Interrupt Unit alone, and only while CONFIGURED. -/
theorem raiseFree_eq (s : State) (i : Irq) : s.raiseFree i = if s.configured then s.setIru (s.iru.raise i) else s := rfl

theorem setIru_tame (u : Iru) (hst : u.stack = s.iru.stack) (hl : u.levels = s.iru.levels)
    (hs : s.iru.Sound → u.Sound)
    (hev : ∀ i : Irq, i.condition = false → s.iru.isPending i = true → u.isPending i = true)
    (hp : ∀ i : Irq, i.condition = true → s.configured = true → u.isPending i = s.iru.isPending i) :
    Tame r s (s.setIru u) :=
  { Tame.refl s with
    stack := hst
    levels := hl
    events := hev
    iru := hs
    runFault := fun e hc => (hp .runFault rfl hc).trans (e hc)
    deck := fun m _ e hc => (hp (.deck m) rfl hc).trans (e hc) }

theorem raiseFree_tame (i : Irq) (hi : i.condition = false) : Tame r s (s.raiseFree i) := by
  unfold raiseFree
  split_ifs
  · refine setIru_tame _ (by simp) (by simp) (fun h => h.raise i) ?_ ?_
    · intro j _ hj
      rw [Iru.isPending_raise, hj, ite_self]
    intro j hj _
    rw [Iru.isPending_raise, if_neg]
    rintro ⟨rfl, _⟩
    rw [hi] at hj
    cases hj
  · exact .refl s

/-- Handing the DECK condition of a transport makes its flag follow again. -/
theorem deckFree_sync (h : Moves r false n d s t) : Moves r true n d s (t.deckFree n) := by
  unfold deckFree followFree
  split_ifs with hc
  · exact
    { h with
      stack := by simpa using h.stack
      levels := by simpa using h.levels
      events := fun i hi e => by
        rw [setIru_fields t _ |>.2.2.2.2.2.2.2.2.2.2.2.2.2, Iru.isPending_follow, if_neg (by rintro rfl; cases hi)]
        exact h.events i hi e
      iru := fun e => (h.iru e).follow _ _
      runFault := fun e hcfg => by
        rw [setIru_fields t _ |>.2.2.2.2.2.2.2.2.2.2.2.2.2, Iru.isPending_follow, if_neg (by simp)]
        exact h.runFault e hcfg
      deck := fun m _ e hcfg => by
        rw [setIru_fields t _ |>.2.2.2.2.2.2.2.2.2.2.2.2.2, Iru.isPending_follow]
        split_ifs with hm
        · simp only [Irq.deck.injEq] at hm
          subst hm
          rfl
        · exact h.deck m (.inr fun e => hm (by rw [e])) e hcfg
      books := h.books
      down := h.down }
  · refine { h with deck := fun m _ e hcfg => absurd hcfg hc }

/-- Handing the DECK condition of a transport whose flag follows changes nothing `Moves` speaks of. -/
theorem deckFree_tame (n : Transport) : Tame r s (s.deckFree n) :=
  (deckFree_sync (n := n) ((Tame.refl s).near n)).tame

/-! ## The PTU's part -/

theorem endCycle_tame (e : CycleEnd) : Tame r s (s.endCycle e) := .of_core

theorem answer_tame (w : Word) : Tame r s (s.answer w) := .of_core

theorem refuse_tame (reason : AccessReason) (a : Addr) (lanes : Strobes) (rmw : Bool) :
    Tame r s (s.refuse reason a lanes rmw) := by
  unfold refuse
  refine Tame.then_ ?_ (endCycle_tame _)
  exact Tame.then_ (Tame.of_core (t := s.setPtu _)) (raiseFree_tame _ rfl)

theorem takeWriteHalf_tame (n : Transport) (half : Option Strobes) : Tame r s (s.takeWriteHalf n half) := by
  unfold takeWriteHalf
  split
  · exact refuse_tame ..
  · exact .refl s

/-- A completed take makes the DECK flag of its transport follow. -/
theorem completeTake_sync (h : Moves r false n d s t) (header : Word) : Moves r true n d s (t.completeTake n header) := by
  unfold completeTake
  refine Tame.after (deckFree_sync ?_) (answer_tame _)
  refine (h.trans (((Tame.of_core (t := t.setPtu _)).near n).trans (Moves.setCtx (d := 0) ?_ ?_ ?_))).congr_shift (by simp)
  · exact fun e => e
  · intro e
    cases e
  · simp

theorem completeTake_tame (n : Transport) (header : Word) : Tame r s (s.completeTake n header) :=
  (completeTake_sync (n := n) ((Tame.refl s).near n) header).tame

theorem dropHold_tame : Tame r s (s.setPtu { s.ptu with hold := none }) :=
  { Tame.refl s with hold := fun _ => rfl }

theorem completeHold_sync (hd : Hold) (h : Moves r false hd.port d s t) (header : Word) :
    Moves r true hd.port d s (t.completeHold hd header) := by
  unfold completeHold
  refine Tame.after ?_ (takeWriteHalf_tame _ _)
  exact completeTake_sync (Moves.congr_shift (h.trans (dropHold_tame.near hd.port)) (by simp)) header

theorem completeHold_tame (hd : Hold) (header : Word) : Tame r s (s.completeHold hd header) :=
  (completeHold_sync hd ((Tame.refl s).near hd.port) header).tame

theorem yieldHold_tame : Tame r s s.yieldHold := by
  unfold yieldHold
  split
  · split_ifs
    · exact completeHold_tame _ _
    · exact .refl s
  · exact .refl s

/-! ## What the blocks hand to the Interrupt Unit -/

theorem raise_tame (i : Irq) (hi : i.condition = false) : Tame r s (s.raise i) :=
  (raiseFree_tame i hi).then_ yieldHold_tame

theorem syncDeck_sync (h : Moves r false n d s t) : Moves r true n d s (t.syncDeck n) :=
  Tame.after (deckFree_sync h) yieldHold_tame

theorem syncDeck_tame (n : Transport) : Tame r s (s.syncDeck n) := (deckFree_tame n).then_ yieldHold_tame

/-! ## Links -/

theorem onLink_moves {f : Link → Link} (hq : (s.link n).queue.length ≤ 4 → (f (s.link n)).queue.length ≤ 4)
    (hd : BitVec.ofNat 16 (s.link n).processorEntries = BitVec.ofNat 16 (f (s.link n)).processorEntries + d)
    (hs : r = true → (s.link n).state ≠ .up → LinkStill (s.link n) (f (s.link n))) :
    Moves r b n d s (s.onLink n f) := Moves.setLink hq hd hs

/-- A change of a link that keeps its entries, its queue and what stands while it is not UP. -/
theorem onLink_tame {f : Link → Link} (hq : (f (s.link n)).queue.length ≤ (s.link n).queue.length)
    (he : (f (s.link n)).processorEntries = (s.link n).processorEntries)
    (hs : r = true → (s.link n).state ≠ .up → LinkStill (s.link n) (f (s.link n))) : Tame r s (s.onLink n f) :=
  (onLink_moves (n := n) (d := 0) (fun e => hq.trans e) (by rw [he]; simp) hs).tame

/-- A change of a context that the books and the DECK condition do not read. -/
theorem onCtx_tame {f : Context → Context} (hf : (f (s.ctx n)).core = (s.ctx n).core) : Tame r s (s.onCtx n f) := by
  refine .of_core (hx := ?_)
  intro m
  unfold onCtx
  rw [ctx_setCtx]
  split_ifs with h
  · rw [h, hf]
  · rfl

/-- A change of a context that keeps its FIFO's bound and its books. -/
theorem onCtx_moves {f : Context → Context} (hf : (s.ctx n).fifo.length ≤ 3 → (f (s.ctx n)).fifo.length ≤ 3)
    (hd : (f (s.ctx n)).taken - (f (s.ctx n)).delivered - (f (s.ctx n)).lost - (f (s.ctx n)).cancelled =
      (s.ctx n).taken - (s.ctx n).delivered - (s.ctx n).lost - (s.ctx n).cancelled + d) :
    Moves r false n d s (s.onCtx n f) := Moves.setCtx hf (fun e => by cases e) hd

theorem linkError_tame (n : Transport) (k : ErrKind) : Tame r s (s.linkError n k) := by
  unfold linkError
  have h : Tame r s (s.onLink n (·.addError k s.stamp)) := by
    refine onLink_tame ?_ ?_ ?_
    · simp
    · rw [Link.processorEntries_def, Link.processorEntries_def]
      simp
    · intro _ _
      exact ⟨by simp, by simp, by simp, by simp, fun f hf _ => by simpa using hf⟩
  simp only
  split_ifs
  · exact h
  · exact h.then_ (syncDeck_sync (n := n) (onCtx_moves (d := 0) (fun e => e) (by simp))).tame

theorem clearLinkErrors_tame (n : Transport) : Tame r s (s.clearLinkErrors n) := by
  unfold clearLinkErrors
  have h : Tame r s (s.onLink n Link.clearErrors) :=
    onLink_tame le_rfl rfl fun _ _ => ⟨rfl, rfl, rfl, rfl, fun _ h _ => h⟩
  exact h.then_ (syncDeck_sync (n := n) (onCtx_moves (d := 0) (fun e => e) (by simp))).tame

/-! ## The reply FIFO -/

theorem popFifo_moves {e : FifoEntry} {rest : List FifoEntry} (h : (s.ctx n).fifo = e :: rest) :
    Moves r false n 0 s (s.popFifo n e rest) := by
  unfold popFifo
  refine Tame.after (t := s.onCtx n fun c => { c with fifo := rest }) (onCtx_moves (d := 0) ?_ (by simp)) .of_core
  rw [h]
  intro h'
  simp only [List.length_cons] at h'
  show rest.length ≤ 3
  omega

/-- After an entry is placed the DECK flag follows, whether a held read takes the entry or not. -/
theorem entryPlaced_sync (h : Moves r false n d s t) : Moves r true n d s (t.entryPlaced n) := by
  unfold entryPlaced
  split
  · rename_i hd e rest hh hf
    split_ifs with hp
    · subst hp
      exact completeHold_sync hd ((h.trans (popFifo_moves hf)).congr_shift (by simp)) _
    · exact syncDeck_sync h
  · exact syncDeck_sync h

/-- An entry offered to the reply FIFO: a completion is delivered or lost (05 R101), a notice is not in the books. -/
theorem fifoOffer_moves (n : Transport) (e : FifoEntry) :
    Moves r true n (if e.notice then 0 else -1) s (s.fifoOffer n e) := by
  unfold fifoOffer
  by_cases h3 : (s.ctx n).fifo.length < 3
  · rw [if_pos h3]
    refine entryPlaced_sync (onCtx_moves ?_ ?_)
    · intro _
      simp only [List.length_append, List.length_singleton]
      omega
    · cases hn : e.notice
      · simp only [Context.countEntry, Bool.false_eq_true, if_false]
        ring
      · simp [Context.countEntry]
  · rw [if_neg h3]
    refine Tame.after (t := s.onCtx n _) (Moves.setCtx ?_ ?_ ?_) (linkError_tame n _)
    · cases hn : e.notice <;> exact fun e => e
    · cases hn : e.notice <;> exact fun _ => rfl
    · cases hn : e.notice
      · simp only [Context.countEntry, Bool.false_eq_true, if_false]
        ring
      · simp [Context.countEntry]

theorem emptyFifo_tame (n : Transport) : Tame r s (s.emptyFifo n) :=
  (syncDeck_sync (n := n) (onCtx_moves (d := 0) (fun _ => by simp) (by simp))).tame

/-! ## Entries given up -/

theorem setRun_tame (x : Run) (h : x.state = s.run.state) : Tame r s (s.setRun x) := .of_core (hrs := h)

theorem senseEnds_tame (n : Transport) : Tame r s (s.senseEnds n) := by
  unfold senseEnds
  split_ifs
  · exact setRun_tame _ rfl
  · exact .refl s

/-- A cancelled entry moves the books by one if it was the processor's. -/
theorem cancelled_moves (n : Transport) (src : Source) (kind : LinkKind) :
    Moves r true n (-BitVec.ofNat 16 src.owedOne) s (s.cancelled n src kind) := by
  unfold cancelled
  cases src with
  | processor =>
    refine Moves.setCtx (fun e => e) (fun _ => rfl) ?_
    show _ - _ - _ - ((s.ctx n).cancelled + 1) = _ + -BitVec.ofNat 16 1
    simp only [BitVec.ofNat_eq_ofNat]
    ring
  | run =>
    simp only
    split_ifs
    · exact ((senseEnds_tame n).at_ n).congr_shift (by simp [Source.owedOne])
    · exact ((Tame.refl s).at_ n).congr_shift (by simp [Source.owedOne])
  | chase => exact ((Tame.refl s).at_ n).congr_shift (by simp [Source.owedOne])
  | link => exact ((Tame.refl s).at_ n).congr_shift (by simp [Source.owedOne])

theorem cancelAll_moves (n : Transport) :
    ∀ (es : List Entry) (s : State),
      Moves r true n (-BitVec.ofNat 16 (es.countP (·.source = .processor))) s (s.cancelAll n es)
  | [], s => ((Tame.refl s).at_ n).congr_shift (by simp)
  | e :: es, s => by
    refine ((cancelled_moves n e.source e.kind).trans (cancelAll_moves n es _)).congr_shift ?_
    rw [List.countP_cons, Nat.add_comm, BitVec.ofNat_add]
    simp only [Source.owedOne, decide_eq_true_eq]
    ring

theorem countP_split (p q : Entry → Bool) (l : List Entry) :
    l.countP p = (l.filter q).countP p + (l.filter fun e => !q e).countP p := by
  induction l with
  | nil => rfl
  | cons e l ih =>
    simp only [List.filter_cons, List.countP_cons]
    cases hq : q e <;> simp [List.countP_cons, ih] <;> omega

theorem cancelSource_tame (n : Transport) (src : Source) : Tame r s (s.cancelSource n src) := by
  unfold cancelSource
  refine Moves.tame (n := n) (Moves.congr_shift ((onLink_moves (b := true) (d := BitVec.ofNat 16
    (((s.link n).queue.filter (·.source = src)).countP (·.source = .processor))) ?_ ?_ ?_).trans (cancelAll_moves n _ _)) ?_)
  · intro h
    exact (List.length_filter_le _ _).trans h
  · rw [← BitVec.ofNat_add, Link.processorEntries_def, Link.processorEntries_def]
    congr 1
    simp only
    rw [countP_split _ (fun e : Entry => decide (e.source = src)) (s.link n).queue]
    have : (fun e : Entry => e.source != src) = fun e => !decide (e.source = src) := by
      funext e
      by_cases h : e.source = src <;> simp [h]
    rw [this]
    omega
  · exact fun _ _ => ⟨rfl, rfl, rfl, rfl, fun _ h _ => h⟩
  · ring

theorem withdrawSpeed_tame (n : Transport) : Tame r s (s.withdrawSpeed n) := by
  unfold withdrawSpeed
  split
  · rename_i v hv
    refine Moves.tame (n := n) (Moves.congr_shift ((onLink_moves (b := true) (d := BitVec.ofNat 16 v.source.owedOne)
      (fun e => e) ?_ ?_).trans (cancelled_moves n _ _)) ?_)
    · rw [← BitVec.ofNat_add, Link.processorEntries_def, Link.processorEntries_def, hv]
      congr 1
      simp only
      omega
    · exact fun _ _ => ⟨rfl, rfl, rfl, rfl, fun _ h _ => h⟩
    · ring
  · exact .refl s

/-! ## Offers -/

/-- What a link that is UP may do is unbounded by `LinkStill`. -/
theorem still_of_up {l l' : Link} (h : l.state = .up) : r = true → l.state ≠ .up → LinkStill l l' :=
  fun _ hn => absurd h hn

theorem placeEntry_moves (n : Transport) (q : List Entry) (e : Entry) (hup : (s.link n).state = .up)
    (hq : q.length ≤ 3)
    (hd : (s.link n).queue.countP (·.source = .processor) = q.countP (·.source = .processor)) :
    Moves r true n (-BitVec.ofNat 16 e.source.owedOne) s (s.placeEntry n q e) := by
  unfold placeEntry
  refine onLink_moves ?_ ?_ (still_of_up hup)
  · intro _
    refine (Link.choose_queue _).trans ?_
    show (Link.place q e).length ≤ 4
    rw [Link.place_length]
    omega
  · rw [Link.choose_entries, Link.processorEntries_def, Link.processorEntries_def]
    simp only
    rw [Link.place_count, hd]
    simp only [Source.owedOne, decide_eq_true_eq, BitVec.ofNat_add]
    ring

theorem senseEnds_links (s : State) (n : Transport) : (s.senseEnds n).links = s.links := by
  unfold senseEnds
  split_ifs <;> rfl

theorem cancelled_links (s : State) (n : Transport) (src : Source) (kind : LinkKind) :
    (s.cancelled n src kind).links = s.links := by
  unfold cancelled
  cases src with
  | run =>
    simp only
    split_ifs
    · exact senseEnds_links s n
    · rfl
  | _ => rfl

/-! What a link answers to an offer (04 R67), case by case. -/

theorem offerEntry_down {e : Entry} (h : (s.link n).state ≠ .up) : s.offerEntry n e = (.linkDown, s) := by
  unfold offerEntry
  simp only
  rw [if_pos h]

theorem offerEntry_room {e : Entry} (h : (s.link n).state = .up) (h4 : (s.link n).queue.length < 4) :
    s.offerEntry n e = (.placed, s.placeEntry n (s.link n).queue e) := by
  unfold offerEntry
  simp only
  rw [if_neg (by simp [h]), if_pos h4]

theorem offerEntry_full {e : Entry} (h : (s.link n).state = .up) (h4 : ¬(s.link n).queue.length < 4)
    (hu : e.urgent = false) : s.offerEntry n e = (.queueFull, s) := by
  unfold offerEntry
  simp only
  rw [if_neg (by simp [h]), if_neg h4, if_neg (by simp [hu])]

theorem offerEntry_allUrgent {e : Entry} (h : (s.link n).state = .up) (h4 : ¬(s.link n).queue.length < 4)
    (hu : e.urgent = true) (hd : Link.displace (s.link n).queue = none) : s.offerEntry n e = (.queueFull, s) := by
  unfold offerEntry
  simp only
  rw [if_neg (by simp [h]), if_neg h4, if_pos hu, hd]

theorem offerEntry_displaces {e x : Entry} {q : List Entry} (h : (s.link n).state = .up)
    (h4 : ¬(s.link n).queue.length < 4) (hu : e.urgent = true) (hd : Link.displace (s.link n).queue = some (x, q)) :
    s.offerEntry n e =
      (.placed, ((s.onLink n ({ · with queue := q })).cancelled n x.source x.kind).placeEntry n q e) := by
  unfold offerEntry
  simp only
  rw [if_neg (by simp [h]), if_neg h4, if_pos hu, hd]

/-- A cancellation does not see what is then done to the link. -/
theorem cancelled_onLink (s : State) (n : Transport) (src : Source) (kind : LinkKind) (f g : Link → Link) :
    ((s.onLink n f).cancelled n src kind).onLink n g = (s.onLink n fun l => g (f l)).cancelled n src kind := by
  have h : (s.onLink n f).onLink n g = s.onLink n fun l => g (f l) := by
    simp [onLink, setLink, link]
  cases src with
  | processor => rw [← h]; rfl
  | run =>
    rw [← h]
    simp only [cancelled, senseEnds]
    split_ifs <;> first
      | rfl
      | (exfalso; simp_all [onLink])
  | chase => exact h
  | link => exact h

/-- An offer moves the books by one if it is placed and the entry is the processor's. -/
theorem offerEntry_moves (n : Transport) (e : Entry) :
    Moves r true n (if (s.offerEntry n e).1 = .placed then -BitVec.ofNat 16 e.source.owedOne else 0) s
      (s.offerEntry n e).2 := by
  by_cases h : (s.link n).state = .up
  · by_cases h4 : (s.link n).queue.length < 4
    · rw [offerEntry_room h h4]
      exact placeEntry_moves n _ e h (by omega) rfl
    · cases hu : e.urgent
      · rw [offerEntry_full h h4 hu]
        exact (Tame.refl s).at_ n
      · cases hd : Link.displace (s.link n).queue with
        | none =>
          rw [offerEntry_allUrgent h h4 hu hd]
          exact (Tame.refl s).at_ n
        | some p =>
          obtain ⟨x, q⟩ := p
          rw [offerEntry_displaces h h4 hu hd, placeEntry, cancelled_onLink]
          have hc := Link.displace_count (·.source = .processor) _ _ _ hd
          refine Moves.congr_shift ((onLink_moves (b := true)
            (d := BitVec.ofNat 16 x.source.owedOne - BitVec.ofNat 16 e.source.owedOne) ?_ ?_ (still_of_up h)).trans
              (cancelled_moves n x.source x.kind)) ?_
          · intro h5
            refine (Link.choose_queue _).trans ?_
            show (Link.place q e).length ≤ 4
            rw [Link.place_length]
            omega
          · rw [Link.choose_entries, Link.processorEntries_def, Link.processorEntries_def]
            simp only
            rw [Link.place_count, hc.1]
            simp only [Source.owedOne, decide_eq_true_eq, BitVec.ofNat_add]
            ring
          · simp only [if_true]
            ring
  · rw [offerEntry_down h]
    exact (Tame.refl s).at_ n

/-- An offer of an entry that is not the processor's. -/
theorem offerEntry_tame (n : Transport) (e : Entry) (hs : e.source ≠ .processor) : Tame r s (s.offerEntry n e).2 := by
  refine Moves.tame (n := n) ((offerEntry_moves n e).congr_shift ?_)
  simp [Source.owedOne, hs]

/-! What a link answers to an offered speed (04 R68), case by case. -/

theorem offerSpeed_down {v : SlotSpeed} (h : (s.link n).state ≠ .up) : s.offerSpeed n v = (false, s) := by
  unfold offerSpeed
  simp only
  rw [if_pos h]

theorem offerSpeed_empty {v : SlotSpeed} (h : (s.link n).state = .up) (hv : (s.link n).slot = none) :
    s.offerSpeed n v = (true, s.onLink n fun l => ({ l with slot := some v } : Link).choose) := by
  unfold offerSpeed
  simp only
  rw [if_neg (by simp [h]), hv]

theorem offerSpeed_replaces {v old : SlotSpeed} (h : (s.link n).state = .up) (hv : (s.link n).slot = some old) :
    s.offerSpeed n v =
      (true, (s.onLink n fun l =>
        ({ l with slot := some v, superseded := satSucc 65535 l.superseded } : Link).choose).cancelled n old.source .speed) := by
  unfold offerSpeed
  simp only
  rw [if_neg (by simp [h]), hv]

/-- A speed offered to a link that is UP moves the books by one if it is the processor's. -/
theorem offerSpeed_moves (n : Transport) (v : SlotSpeed) :
    Moves r true n (if (s.offerSpeed n v).1 then -BitVec.ofNat 16 v.source.owedOne else 0) s (s.offerSpeed n v).2 := by
  by_cases h : (s.link n).state = .up
  · cases hv : (s.link n).slot with
    | none =>
      rw [offerSpeed_empty h hv]
      rw [if_pos rfl]
      dsimp only
      refine onLink_moves ?_ ?_ (still_of_up h)
      · exact fun e => (Link.choose_queue _).trans e
      · rw [Link.choose_entries, Link.processorEntries_def, Link.processorEntries_def, hv]
        simp only [Nat.add_zero, BitVec.ofNat_add]
        ring
    | some old =>
      rw [offerSpeed_replaces h hv]
      refine Moves.congr_shift ((onLink_moves (b := true)
        (d := BitVec.ofNat 16 old.source.owedOne - BitVec.ofNat 16 v.source.owedOne) ?_ ?_ (still_of_up h)).trans
          (cancelled_moves n old.source .speed)) ?_
      · exact fun e => (Link.choose_queue _).trans e
      · rw [Link.choose_entries, Link.processorEntries_def, Link.processorEntries_def, hv]
        simp only [BitVec.ofNat_add]
        ring
      · simp only [if_true]
        ring
  · rw [offerSpeed_down h]
    exact (Tame.refl s).at_ n

theorem offerSpeed_tame (n : Transport) (v : SlotSpeed) (hs : v.source ≠ .processor) :
    Tame r s (s.offerSpeed n v).2 := by
  refine Moves.tame (n := n) ((offerSpeed_moves n v).congr_shift ?_)
  simp [Source.owedOne, hs]

end State

end Sys2Proof.Machine
end

