-- ==== Sys2Proof/Laws/Aborts.lean ====
section
/-! SUPPORT. What the operations of the abort path leave of the run, the armed places, the owners and the chases (08 R173,
R174). -/

namespace Sys2Proof.Machine

set_option Elab.async false

namespace State

variable {s t u : State} {n : Transport}

/-- From `s` to `t` the run changed only in its cues and its count of abort commands, the armed places stand, no transport
became the run's, and a chase context stands or went to IDLE. -/
structure Calm (s t : State) : Prop where
  cfg : t.cfg = s.cfg
  hold : s.ptu.hold = none → t.ptu.hold = none
  run : t.run = { s.run with outstanding := t.run.outstanding, cues := t.run.cues }
  current : t.et.current = s.et.current
  lookahead : t.et.lookahead = s.et.lookahead
  owner : ∀ m, (t.ctx m).owner = .run → (s.ctx m).owner = .run
  chase : ∀ m, (t.chase m).state = (s.chase m).state ∧ (t.chase m).origin = (s.chase m).origin ∨ (t.chase m).state = .idle

namespace Calm

theorem refl (s : State) : Calm s s := ⟨rfl, id, rfl, rfl, rfl, fun _ => id, fun _ => .inl ⟨rfl, rfl⟩⟩

theorem trans (h : Calm s t) (h' : Calm t u) : Calm s u where
  cfg := h'.cfg.trans h.cfg
  hold e := h'.hold (h.hold e)
  run := by
    have a := h.run
    have b := h'.run
    rw [b, a]
  current := h'.current.trans h.current
  lookahead := h'.lookahead.trans h.lookahead
  owner m e := h.owner m (h'.owner m e)
  chase m := by
    rcases h'.chase m with ⟨a, b⟩ | a
    · rcases h.chase m with ⟨c, d⟩ | c
      · exact .inl ⟨a.trans c, b.trans d⟩
      · exact .inr (a.trans c)
    · exact .inr a

theorem ite {c : Prop} [Decidable c] {x y : State} (h : c → Calm s x) (h' : ¬c → Calm s y) : Calm s (if c then x else y) := by
  split_ifs with hc
  · exact h hc
  · exact h' hc

/-- Work on the list of transports, each step of it calm. -/
theorem forTransports {f : Transport → State → State} (h : ∀ n s, Calm s (f n s)) :
    ∀ (ts : List Transport) (s : State), Calm s (forTransports ts f s)
  | [], s => refl s
  | n :: ts, s => (h n s).trans (forTransports h ts (f n s))

/-- An operation that leaves the run, the contexts' owners, the chases, the places and the hold alone. -/
theorem of_eq (hc : t.cfg = s.cfg := by rfl) (hh : t.ptu.hold = s.ptu.hold := by rfl) (hr : t.run = s.run := by rfl)
    (he : t.et = s.et := by rfl) (ho : ∀ m, (t.ctx m).owner = (s.ctx m).owner := by intro m; rfl)
    (hk : t.chases = s.chases := by rfl) : Calm s t where
  cfg := hc
  hold e := hh.trans e
  run := by rw [hr]
  current := by rw [he]
  lookahead := by rw [he]
  owner m e := (ho m).symm.trans e
  chase m := .inl (by unfold State.chase; rw [hk]; exact ⟨rfl, rfl⟩)

end Calm

/-- A refusal writes the access record, and raises. -/
theorem refuse_ctx (reason : AccessReason) (a : Addr) (lanes : Strobes) (rmw : Bool) : (s.refuse reason a lanes rmw).ctxs = s.ctxs := by
  unfold refuse endCycle raiseFree
  simp only
  split_ifs <;> rfl

/-- The end of a held read reaches no field of a context but the link change. -/
theorem yieldHold_ctx (m : Transport) : ∃ b, s.yieldHold.ctx m = { s.ctx m with linkChange := b } := by
  have take : ∀ (t : State) (n : Transport) (w : Word), ∃ b, (t.completeTake n w).ctx m = { t.ctx m with linkChange := b } := by
    intro t n w
    unfold completeTake deckFree followFree answer
    simp only
    split_ifs <;>
    · show ∃ b, ((t.setPtu _).setCtx n { (t.setPtu _).ctx n with linkChange := false }).ctx m = _
      rw [ctx_setCtx]
      split_ifs with e
      · subst e; exact ⟨false, rfl⟩
      · exact ⟨_, rfl⟩
  have half : ∀ (t : State) (n : Transport) (h : Option Strobes), (t.takeWriteHalf n h).ctx m = t.ctx m := by
    intro t n h
    unfold takeWriteHalf
    split
    · unfold ctx; rw [refuse_ctx]
    · rfl
  unfold yieldHold
  split
  · split_ifs
    · unfold completeHold
      rw [half]
      exact take _ _ _
    · exact ⟨_, rfl⟩
  · exact ⟨_, rfl⟩

/-- A raise or a condition reaches no field of a context but the link change. -/
theorem raise_ctx (i : Irq) (m : Transport) : ∃ b, (s.raise i).ctx m = { s.ctx m with linkChange := b } := by
  obtain ⟨b, h⟩ := yieldHold_ctx (s := s.raiseFree i) m
  refine ⟨b, h.trans ?_⟩
  unfold raiseFree
  split_ifs <;> rfl

theorem follow_ctx (i : Irq) (x : Bool) (m : Transport) : ∃ b, (s.follow i x).ctx m = { s.ctx m with linkChange := b } := by
  obtain ⟨b, h⟩ := yieldHold_ctx (s := s.followFree i x) m
  refine ⟨b, h.trans ?_⟩
  unfold followFree
  split_ifs <;> rfl

/-- A step that reaches the PTU, the contexts but for their owners, and the Interrupt Unit alone. -/
theorem Calm.of_apart (h : Apart s t) (hh : s.ptu.hold = none → t.ptu.hold = none) (ho : ∀ m, (t.ctx m).owner = (s.ctx m).owner) :
    Calm s t :=
  ⟨h.cfg, hh, by rw [h.run], by rw [h.et], by rw [h.et], fun m e => (ho m).symm.trans e, fun m => .inl (by
    unfold State.chase
    rw [h.chases]
    exact ⟨rfl, rfl⟩)⟩

theorem calm_raise (i : Irq) : Calm s (s.raise i) := by
  refine .of_apart (raise_apart i) (fun hh => ?_) fun m => by
    obtain ⟨b, h⟩ := raise_ctx (s := s) i m
    rw [h]
  by_cases hc : s.configured = true
  · rw [raise_ready hc hh]; exact hh
  · unfold State.raise raiseFree yieldHold
    rw [if_neg hc, hh]
    exact hh

theorem calm_follow (i : Irq) (b : Bool) : Calm s (s.follow i b) := by
  refine .of_apart (follow_apart i b) (fun hh => ?_) fun m => by
    obtain ⟨c, h⟩ := follow_ctx (s := s) i b m
    rw [h]
  obtain ⟨v, hv⟩ := follow_free hh i b
  rw [hv]
  exact hh

theorem calm_onLink (f : Link → Link) : Calm s (s.onLink n f) := .of_eq

theorem calm_onMixer (x : Mixer) : Calm s (s.setMixer x) := .of_eq

theorem calm_onCtx {f : Context → Context} (h : (f (s.ctx n)).owner = .run → (s.ctx n).owner = .run) :
    Calm s (s.onCtx n f) := by
  refine ⟨rfl, id, rfl, rfl, rfl, ?_, fun _ => .inl ⟨rfl, rfl⟩⟩
  intro m hm
  unfold onCtx at hm
  rw [ctx_setCtx] at hm
  split_ifs at hm with e
  · subst e; exact h hm
  · exact hm

theorem calm_senseEnds : Calm s (s.senseEnds n) := by
  unfold senseEnds
  refine .ite (fun _ => ?_) fun _ => .refl s
  exact ⟨rfl, id, rfl, rfl, rfl, fun _ => id, fun _ => .inl ⟨rfl, rfl⟩⟩

theorem calm_cancelled (src : Source) (kind : LinkKind) : Calm s (s.cancelled n src kind) := by
  cases src with
  | processor => exact calm_onCtx (f := fun c => { c with cancelled := c.cancelled + 1 }) fun h => h
  | run => exact .ite (fun _ => calm_senseEnds) fun _ => .refl s
  | chase => exact .refl s
  | link => exact .refl s

theorem calm_cancelAll : ∀ (es : List Entry) (s : State), Calm s (s.cancelAll n es)
  | [], s => .refl s
  | e :: es, s => (calm_cancelled e.source e.kind).trans (calm_cancelAll es _)

theorem calm_cancelSource (src : Source) : Calm s (s.cancelSource n src) := by
  unfold cancelSource
  exact (calm_onLink (n := n) ({ · with queue := (s.link n).queue.filter (·.source != src) })).trans (calm_cancelAll _ _)

theorem calm_withdrawSpeed : Calm s (s.withdrawSpeed n) := by
  unfold withdrawSpeed
  split
  · exact (calm_onLink _).trans (calm_cancelled _ _)
  · exact .refl s

theorem calm_placeEntry (q : List Entry) (e : Entry) : Calm s (s.placeEntry n q e) := calm_onLink _

theorem calm_offerEntry (e : Entry) : Calm s (s.offerEntry n e).2 := by
  unfold offerEntry
  simp only
  split_ifs
  · exact .refl s
  · exact calm_placeEntry _ _
  · split
    · rename_i d q _
      exact ((calm_onLink (n := n) ({ · with queue := q })).trans (calm_cancelled d.source d.kind)).trans (calm_placeEntry _ _)
    · exact .refl s
  · exact .refl s

theorem calm_offerAbort (kind : LinkKind) (arg : Arg) : Calm s (s.offerAbort n kind arg) := by
  unfold offerAbort
  simp only
  refine (calm_offerEntry (n := n) (runEntry kind arg true true)).trans (.ite (fun _ => ?_) fun _ => .refl _)
  exact ⟨rfl, id, rfl, rfl, rfl, fun _ => id, fun _ => .inl ⟨rfl, rfl⟩⟩

theorem calm_onChase {f : Chase → Chase} (h : (f (s.chase n)).state = .idle) : Calm s (s.onChase n f) := by
  refine ⟨rfl, id, rfl, rfl, rfl, fun _ => id, ?_⟩
  intro m
  unfold onChase
  rw [chase_setChase]
  split_ifs with e
  · exact .inr h
  · exact .inl ⟨rfl, rfl⟩

theorem calm_idleChase : Calm s (s.idleChase n) := by
  unfold idleChase
  have h1 : Calm s ((s.onChase n (chaseChanged · .idle)).withdrawSpeed n) := (calm_onChase rfl).trans calm_withdrawSpeed
  exact h1.trans (calm_raise _)

theorem idleChase_idle : ((s.idleChase n).chase n).state = .idle := by
  have h0 : ((s.onChase n (chaseChanged · .idle)).chase n).state = .idle := by
    unfold onChase
    rw [chase_setChase, if_pos rfl]
    rfl
  have h1 : Calm (s.onChase n (chaseChanged · .idle)) ((s.onChase n (chaseChanged · .idle)).withdrawSpeed n) := calm_withdrawSpeed
  have h2 := h1.trans (calm_raise .chase)
  rcases h2.chase n with ⟨a, _⟩ | a
  · exact a.trans h0
  · exact a

theorem calm_stopRunChase : Calm s (s.stopRunChase n) := .ite (fun _ => calm_idleChase) fun _ => .refl s

/-- A context that is not a run's at work. -/
def ChaseFree (s : State) (m : Transport) : Prop := (s.chase m).state = .idle ∨ (s.chase m).origin = .processor

theorem Calm.chaseFree {m : Transport} (h : Calm s t) (hf : s.ChaseFree m) : t.ChaseFree m := by
  rcases h.chase m with ⟨a, b⟩ | a
  · rcases hf with c | c
    · exact .inl (a.trans c)
    · exact .inr (b.trans c)
  · exact .inl a

theorem stopRunChase_free : (s.stopRunChase n).ChaseFree n := by
  unfold stopRunChase
  split_ifs with h
  · exact .inl idleChase_idle
  · unfold runChase at h
    simp only [Bool.and_eq_true, bne_iff_ne, decide_eq_true_eq, not_and] at h
    by_cases hi : (s.chase n).state = .idle
    · exact .inl hi
    · refine .inr ?_
      have := h hi
      cases ho : (s.chase n).origin with
      | processor => rfl
      | run => exact absurd ho this

theorem stopRunChases_free : ∀ (ts : List Transport) (s : State),
    ∀ m ∈ ts, (Machine.forTransports ts (fun n s => s.stopRunChase n) s).ChaseFree m
  | [], _, m, hm => by cases hm
  | n :: ts, s, m, hm => by
    rcases List.mem_cons.1 hm with rfl | hm
    · exact (Calm.forTransports (fun n s => calm_stopRunChase (s := s) (n := n)) ts _).chaseFree stopRunChase_free
    · exact stopRunChases_free ts (s.stopRunChase n) m hm

theorem calm_abortStops : Calm s s.abortStops ∧ ∀ m, s.abortStops.ChaseFree m := by
  unfold abortStops
  have h1 := Calm.forTransports (fun n s => calm_stopRunChase (s := s) (n := n)) Transport.all s
  have h2 := Calm.forTransports (fun n s => calm_cancelSource (s := s) (n := n) .run)
    (Machine.forTransports Transport.all (fun n s => s.stopRunChase n) s).armedTransports
    (Machine.forTransports Transport.all (fun n s => s.stopRunChase n) s)
  exact ⟨h1.trans h2, fun m => h2.chaseFree (stopRunChases_free _ _ m (Transport.mem_all m))⟩

theorem calm_abortInserts : Calm s s.abortInserts := by
  unfold abortInserts
  split
  · exact .ite (fun _ => .refl _) fun _ => calm_offerAbort _ _
  · exact .refl s

theorem calm_endTransition (o : TransOutcome) : Calm s (s.endTransition o) := by
  unfold endTransition
  split
  · exact (calm_onMixer _).trans (calm_raise _)
  · exact .refl s

theorem calm_freezeMixer : Calm s s.freezeMixer := by
  unfold freezeMixer freezeLevel
  refine Calm.trans (.ite (fun _ => ?_) fun _ => .refl s) (calm_onMixer _)
  exact (calm_onMixer _).trans (calm_endTransition _)

/-- A command other than SPEED offered for a processor slot. -/
theorem calm_offerCommand (k : LinkKind) (arg : Arg) (tag : Word) (u : Bool) (hk : k ≠ .speed) : Calm s (s.offerCommand n k arg tag u).2 := by
  unfold offerCommand
  have h := calm_offerEntry (s := s) (n := n) ⟨.processor, k, arg, some tag, u, false⟩
  revert h
  generalize s.offerEntry n ⟨.processor, k, arg, some tag, u, false⟩ = r
  obtain ⟨a, t⟩ := r
  intro h
  have h2 : Calm s (t.countTaken n) := h.trans (calm_onCtx (f := fun c => { c with taken := c.taken + 1 }) id)
  cases k <;> first | exact absurd rfl hk | (cases a <;> first | exact h | exact h2)

/-! ## The end of the path -/

theorem calm_setOwner_free : Calm s (s.setOwner n .free) := calm_onCtx (fun h => by cases h)

theorem calm_setCue (c : CueState) : Calm s (s.setCue n c) := ⟨rfl, id, rfl, rfl, rfl, fun _ => id, fun _ => .inl ⟨rfl, rfl⟩⟩

theorem calm_runRelease : Calm s (s.runRelease n) := by
  unfold runRelease
  exact Calm.trans (.ite (fun _ => calm_setOwner_free) fun _ => .refl s) (calm_setCue _)

theorem runRelease_owner : ((s.runRelease n).ctx n).owner ≠ .run := by
  unfold runRelease
  split_ifs with h
  · show ((s.setOwner n .free).ctx n).owner ≠ .run
    unfold setOwner onCtx
    rw [ctx_setCtx, if_pos rfl]
    exact fun h => by cases h
  · exact h

theorem calm_releaseOne (n : Transport) (s : State) : Calm s (if (s.ctx n).owner = .run then s.runRelease n else s) :=
  .ite (fun _ => calm_runRelease) fun _ => .refl s

theorem releaseAll_owner : ∀ (ts : List Transport) (s : State), ∀ m ∈ ts,
    ((Machine.forTransports ts (fun n s => if (s.ctx n).owner = .run then s.runRelease n else s) s).ctx m).owner ≠ .run
  | [], _, m, hm => by cases hm
  | n :: ts, s, m, hm => by
    rcases List.mem_cons.1 hm with rfl | hm
    · intro h
      have := (Calm.forTransports calm_releaseOne ts _).owner m h
      beta_reduce at this
      split_ifs at this with ho
      · exact runRelease_owner this
      · exact ho this
    · exact releaseAll_owner ts _ m hm

theorem calm_releaseMixer : Calm s s.releaseMixer := .ite (fun _ => calm_onMixer _) fun _ => .refl s

theorem calm_releaseAll : Calm s s.releaseAll ∧ ∀ m, (s.releaseAll.ctx m).owner ≠ .run :=
  ⟨Calm.forTransports calm_releaseOne _ _, fun m => releaseAll_owner _ _ m (Transport.mem_all m)⟩

/-! ## The suite clear work -/

theorem calm_emptyFifo : Calm s (s.emptyFifo n) := by
  unfold emptyFifo syncDeck
  exact (calm_onCtx (f := fun c => { c with fifo := [] }) (s := s) (n := n) id).trans (calm_follow _ _)

theorem calm_clearLink (n : Transport) (s : State) : Calm s (clearLink n s) := by
  unfold clearLink
  exact (((calm_onLink _).trans (calm_cancelAll _ _)).trans calm_withdrawSpeed).trans calm_emptyFifo

theorem calm_freeFromChase : Calm s (s.freeFromChase n) := .ite (fun _ => calm_setOwner_free) fun _ => .refl s

theorem calm_clearChase (n : Transport) (s : State) : Calm s (clearChase n s) := by
  unfold clearChase
  exact .ite (fun _ => .refl s) fun _ => .ite (fun _ => calm_idleChase.trans calm_freeFromChase) fun _ => calm_idleChase

theorem calm_clearMixer : Calm s s.clearMixer := (calm_endTransition _).trans (calm_onMixer _)

/-- What the suite clear work does to the run, the places, the owners and the chases. -/
structure Cleared (s t : State) : Prop where
  cfg : t.cfg = s.cfg
  hold : s.ptu.hold = none → t.ptu.hold = none
  run : t.run = { s.run with
    outstanding := t.run.outstanding, cues := t.run.cues, fault := none, faultExtra := 0, lockLosses := 0, notices := 0 }
  current : t.et.current = s.et.current
  lookahead : t.et.lookahead = s.et.lookahead
  owner : ∀ m, (t.ctx m).owner = .run → (s.ctx m).owner = .run
  chase : ∀ m, s.ChaseFree m → t.ChaseFree m

theorem suiteClear_cleared : Cleared s s.suiteClear := by
  have h3 := ((Calm.forTransports calm_clearLink Transport.all s).trans (Calm.forTransports calm_clearChase Transport.all _)).trans
    calm_clearMixer
  unfold suiteClear
  simp only
  generalize clearMixer _ = y at h3
  have e : (y.emptyEvents.onRun ({ · with fault := none, faultExtra := 0, lockLosses := 0, notices := 0 })).run =
      { y.run with fault := none, faultExtra := 0, lockLosses := 0, notices := 0 } := rfl
  refine ⟨h3.cfg, h3.hold, ?_, h3.current, h3.lookahead, h3.owner, fun m => h3.chaseFree⟩
  rw [e, h3.run]

/-! ## The path as a whole -/

/-- Entering a state, while no read is held. -/
theorem runEnter_as (hh : s.ptu.hold = none) (st : RunState) :
    ∃ v, s.runEnter st = { s with run := { s.run with state := st }, iru := v } := by
  unfold runEnter
  split_ifs with h
  · exact ⟨s.iru, by rw [← h]⟩
  · have hr : ∃ v, (s.onRun ({ · with state := st })).raise .runPhase = { s.onRun ({ · with state := st }) with iru := v } := by
      by_cases hc : s.configured = true
      · exact ⟨_, raise_ready (by exact hc) (by exact hh) _⟩
      · refine ⟨s.iru, ?_⟩
        unfold State.raise raiseFree yieldHold
        rw [if_neg (by exact hc)]
        have : (s.onRun ({ · with state := st })).ptu.hold = none := hh
        rw [this]
        rfl
    obtain ⟨v, hv⟩ := hr
    rw [hv]
    unfold syncRunFault
    obtain ⟨w, hw⟩ := follow_free (s := { s.onRun ({ · with state := st }) with iru := v }) (by exact hh) .runFault
      (decide (({ s.onRun ({ · with state := st }) with iru := v } : State).run.state = .faulted))
    exact ⟨w, hw⟩

theorem releasePlace_places (s : State) :
    ((s.releasePlace .current).releasePlace .lookahead).et.current = none ∧
    ((s.releasePlace .current).releasePlace .lookahead).et.lookahead = none := by
  unfold releasePlace leavePlace
  simp only
  cases h : s.et.current with
  | none =>
    cases h' : s.et.lookahead with
    | none => exact ⟨h, h'⟩
    | some b => exact ⟨h, rfl⟩
  | some a =>
    have e : ((s.setEventState a.event .loaded).setEt { (s.setEventState a.event .loaded).et with current := none }).et.lookahead =
        s.et.lookahead := rfl
    simp only
    rw [e]
    cases h' : s.et.lookahead with
    | none => exact ⟨rfl, h'⟩
    | some b => exact ⟨rfl, rfl⟩

theorem releasePlace_keeps (s : State) (p : Place) :
    (s.releasePlace p).cfg = s.cfg ∧ (s.releasePlace p).ptu = s.ptu ∧ (s.releasePlace p).run = s.run ∧
    (s.releasePlace p).ctxs = s.ctxs ∧ (s.releasePlace p).chases = s.chases ∧ (s.releasePlace p).mixer = s.mixer ∧
    (s.releasePlace p).iru = s.iru := by
  unfold releasePlace leavePlace
  split <;> split <;> exact ⟨rfl, rfl, rfl, rfl, rfl, rfl, rfl⟩

theorem onRun_same {st : RunState} (h : s.run.state = st) : s.onRun ({ · with state := st }) = s := by
  unfold onRun setRun
  rw [← h]

/-- Entering a state changes the run's state, and what a raise and a condition reach. -/
theorem runEnter_apart (st : RunState) : Apart (s.onRun ({ · with state := st })) (s.runEnter st) := by
  unfold runEnter
  split_ifs with h
  · rw [onRun_same h]; exact .refl s
  · exact (raise_apart .runPhase).trans syncRunFault_apart

theorem runEnter_calm (st : RunState) : Calm (s.onRun ({ · with state := st })) (s.runEnter st) := by
  unfold runEnter
  split_ifs with h
  · rw [onRun_same h]; exact .refl s
  · exact (calm_raise .runPhase).trans (calm_follow .runFault _)

theorem runEnter_ctx (st : RunState) (m : Transport) : ∃ b, (s.runEnter st).ctx m = { s.ctx m with linkChange := b } := by
  unfold runEnter
  split_ifs with h
  · exact ⟨_, rfl⟩
  · unfold syncRunFault
    obtain ⟨b, hb⟩ := follow_ctx (s := (s.onRun ({ · with state := st })).raise .runPhase) .runFault
      (decide (((s.onRun ({ · with state := st })).raise .runPhase).run.state = .faulted)) m
    obtain ⟨c, hc⟩ := raise_ctx (s := s.onRun ({ · with state := st })) .runPhase m
    exact ⟨b, by rw [hb, hc]; rfl⟩

/-- How a run's end leaves it (08 R174, steps 1 to 4). -/
structure Ended (s t : State) (st : RunState) (cause : EndCause) : Prop where
  cfg : t.cfg = s.cfg
  hold : s.ptu.hold = none → t.ptu.hold = none
  run : t.run = { s.run with state := st, endCause := cause, outstanding := t.run.outstanding, cues := t.run.cues }
  current : t.et.current = none
  lookahead : t.et.lookahead = none
  owner : ∀ m, (t.ctx m).owner ≠ .run
  chase : ∀ m, s.ChaseFree m → t.ChaseFree m

theorem endRun_ended (st : RunState) (cause : EndCause) : Ended s (s.endRun st cause) st cause := by
  unfold endRun
  simp only
  obtain ⟨h1, h2⟩ := calm_releaseAll (s := s)
  obtain ⟨a1, a2, a3, a4, a5, a6, a7⟩ := releasePlace_keeps s.releaseAll .current
  obtain ⟨b1, b2, b3, b4, b5, b6, b7⟩ := releasePlace_keeps (s.releaseAll.releasePlace .current) .lookahead
  obtain ⟨p1, p2⟩ := releasePlace_places s.releaseAll
  generalize s.releaseAll.releasePlace .current = y at *
  generalize y.releasePlace .lookahead = z at *
  have h3 : Calm z z.releaseMixer := calm_releaseMixer
  generalize z.releaseMixer = w at *
  have hw : s.ptu.hold = none → w.ptu.hold = none := fun hh => h3.hold (by rw [b2, a2]; exact h1.hold hh)
  have hrun : w.run = { s.run with outstanding := w.run.outstanding, cues := w.run.cues } := by
    have x := h3.run
    rw [b3, a3, h1.run] at x
    exact x
  have e1 := runEnter_calm (s := w.onRun ({ · with endCause := cause })) st
  have e2 := (runEnter_apart (s := w.onRun ({ · with endCause := cause })) st).run
  have e3 := (runEnter_apart (s := w.onRun ({ · with endCause := cause })) st).et
  refine ⟨?_, fun hh => e1.hold (hw hh), ?_, by rw [e3]; exact h3.current.trans p1, by rw [e3]; exact h3.lookahead.trans p2, ?_, ?_⟩
  · exact e1.cfg.trans (h3.cfg.trans (b1.trans (a1.trans h1.cfg)))
  · rw [e2]
    show ({ w.run with endCause := cause, state := st } : Run) = _
    rw [hrun]
    rfl
  · intro m hm
    have := h3.owner m (e1.owner m hm)
    unfold ctx at this
    rw [b4, a4] at this
    exact h2 m this
  · intro m hm
    have hz : z.ChaseFree m := by
      have := h1.chaseFree hm
      unfold ChaseFree chase at this ⊢
      rw [b5, a5]
      exact this
    exact e1.chaseFree (h3.chaseFree hz)

/-- What the abort path leaves (08 R173, R174). -/
structure Aborted (s t : State) (cause : AbortCause) : Prop where
  cfg : t.cfg = s.cfg
  hold : s.ptu.hold = none → t.ptu.hold = none
  abortCause : t.run.abortCause = cause
  awaited : t.run.awaited = []
  look : t.run.lookahead = .none
  pending : t.run.pendingFault = none
  fault : cause ≠ .cleared → t.run.fault = s.run.fault
  extra : cause ≠ .cleared → t.run.faultExtra =
    if s.run.pendingFault.isSome && s.run.fault.isSome then satSucc 255 s.run.faultExtra else s.run.faultExtra
  chase : ∀ m, t.ChaseFree m
  state : t.run.state = .aborting ∧ t.run.outstanding ≠ 0 ∧ t.run.endCause = s.run.endCause ∨
    t.run.state = (if cause = .fault then .faulted else .idle) ∧ t.run.endCause = endCauseOf cause ∧ t.et.current = none ∧
      t.et.lookahead = none ∧ ∀ m, (t.ctx m).owner ≠ .run

theorem abortPath_aborted (cause : AbortCause) : Aborted s (s.abortPath cause) cause := by
  unfold abortPath
  simp only
  have g1 := runEnter_calm (s := s.onRun ({ · with abortCause := cause, awaited := [] })) .aborting
  have e1 := (runEnter_apart (s := s.onRun ({ · with abortCause := cause, awaited := [] })) .aborting).run
  replace e1 : _ = { s.run with abortCause := cause, awaited := [], state := .aborting } := e1
  have e2 : _ = s.cfg := g1.cfg
  have e3 : s.ptu.hold = none → ((s.onRun ({ · with abortCause := cause, awaited := [] })).runEnter .aborting).ptu.hold = none :=
    fun hh => g1.hold hh
  clear g1
  generalize (s.onRun ({ · with abortCause := cause, awaited := [] })).runEnter .aborting = s1 at e1 e2 e3
  obtain ⟨c1, f1⟩ := calm_abortStops (s := s1)
  have c2 := calm_abortInserts (s := s1.abortStops)
  have c12 := c1.trans c2
  have c3 := Calm.forTransports (fun n s => calm_offerAbort (s := s) (n := n) .halt .none)
    s1.abortStops.abortInserts.armedTransports s1.abortStops.abortInserts
  have c4 := calm_freezeMixer (s := forTransports s1.abortStops.abortInserts.armedTransports (fun n s => s.offerAbort n .halt .none) s1.abortStops.abortInserts)
  have c := (c12.trans c3).trans c4
  have hf : ∀ m, (forTransports s1.abortStops.abortInserts.armedTransports (fun n s => s.offerAbort n .halt .none)
      s1.abortStops.abortInserts).freezeMixer.ChaseFree m := fun m => ((c2.trans c3).trans c4).chaseFree (f1 m)
  generalize (forTransports s1.abortStops.abortInserts.armedTransports (fun n s => s.offerAbort n .halt .none)
      s1.abortStops.abortInserts).freezeMixer = x at c hf
  have hd : s.ptu.hold = none → x.discardPending.ptu.hold = none := fun hh => c.hold (e3 hh)
  have hrun : x.discardPending.run =
      { x.run with
        lookahead := .none, pendingFault := none, pendingExtra := 0
        faultExtra := if x.run.pendingFault.isSome && x.run.fault.isSome then satSucc 255 x.run.faultExtra else x.run.faultExtra } := rfl
  have hc := c.run
  rw [e1] at hc
  have hcfg : x.discardPending.cfg = s.cfg := (show x.discardPending.cfg = x.cfg from rfl).trans (c.cfg.trans e2)
  have hfree : ∀ m, x.discardPending.ChaseFree m := hf
  generalize x.discardPending = y at hd hrun hcfg hfree
  have r1 : y.run.abortCause = cause := by rw [hrun, hc]
  have r2 : y.run.awaited = [] := by rw [hrun, hc]
  have r3 : y.run.lookahead = .none := by rw [hrun]
  have r4 : y.run.pendingFault = none := by rw [hrun]
  have r5 : y.run.state = .aborting := by rw [hrun, hc]
  have r6 : y.run.endCause = s.run.endCause := by rw [hrun, hc]
  have r7 : y.run.fault = s.run.fault := by rw [hrun, hc]
  have r8 : y.run.faultExtra =
      if s.run.pendingFault.isSome && s.run.fault.isSome then satSucc 255 s.run.faultExtra else s.run.faultExtra := by rw [hrun, hc]
  split_ifs with h0
  · unfold abortEnd
    rw [r1]
    simp only
    have he := endRun_ended (s := y) (if cause = .fault then .faulted else .idle) (endCauseOf cause)
    generalize y.endRun (if cause = .fault then .faulted else .idle) (endCauseOf cause) = z at he ⊢
    have q := he.run
    split_ifs with hcl
    · have k := suiteClear_cleared (s := z)
      have kq := k.run
      rw [q] at kq
      refine ⟨k.cfg.trans (he.cfg.trans hcfg), fun hh => k.hold (he.hold (hd hh)), ?_, ?_, ?_, ?_, fun h => absurd hcl h, fun h => absurd hcl h, fun m => k.chase m (he.chase m (hfree m)), .inr ⟨?_, ?_, ?_, ?_, ?_⟩⟩
      · rw [kq]; exact r1
      · rw [kq]; exact r2
      · rw [kq]; exact r3
      · rw [kq]; exact r4
      · rw [kq]
      · rw [kq]
      · exact k.current.trans he.current
      · exact k.lookahead.trans he.lookahead
      · exact fun m hm => he.owner m (k.owner m hm)
    · refine ⟨he.cfg.trans hcfg, fun hh => he.hold (hd hh), ?_, ?_, ?_, ?_, fun _ => by rw [q]; exact r7, fun _ => by rw [q]; exact r8, fun m => he.chase m (hfree m), .inr ⟨?_, ?_, he.current, he.lookahead, he.owner⟩⟩
      · rw [q]; exact r1
      · rw [q]; exact r2
      · rw [q]; exact r3
      · rw [q]; exact r4
      · rw [q]
      · rw [q]
  · exact ⟨hcfg, hd, r1, r2, r3, r4, fun _ => r7, fun _ => r8, hfree, .inl ⟨r5, h0, r6⟩⟩

/-- A fault of a run that works events stops it (08 R172). -/
theorem runFault_faulted (ha : s.run.state.active = true) (f : FaultRecord) : (s.runFault f).RunFaulted f := by
  unfold runFault
  rw [if_pos ha]
  have h := abortPath_aborted (s := s.onRun ({ · with fault := some f })) .fault
  refine ⟨(h.fault (by decide)).trans rfl, h.abortCause, ?_⟩
  rcases h.state with ⟨a, b, _⟩ | ⟨a, b, _⟩
  · exact .inl ⟨a, b⟩
  · exact .inr ⟨a, b⟩

theorem currentFault_faulted {a : Armed} (ha : s.run.state.active = true) (h : s.et.current = some a) (k : FaultKind) (n : Option Transport) :
    (s.currentFault k n).RunFaulted ⟨k, a.event, n, if s.run.state.rolling = true then some s.run.clock else none, false⟩ := by
  unfold currentFault currentEvent
  rw [h]
  exact runFault_faulted ha _

theorem configured_of (h : t.cfg = s.cfg) (hs : s.configured = true) : t.configured = true := by
  unfold configured; rw [h]; exact hs

end State

end Sys2Proof.Machine
end

