-- ==== Sys2Proof/Laws/Works.lean ====
section
/-! SUPPORT. `Moves` for the transport contexts, the chase stops, the readers, the mixer, the edit table and the run
path. -/

namespace Sys2Proof.Machine

set_option Elab.async false

variable {r b : Bool} {n : Transport} {d : Word} {s t : State}

namespace State

/-! ## Simple updates -/

theorem mark_tame (m : Mark) : Tame r s (s.mark m) :=
  .of_core (hm := fun x h => List.mem_append_left _ h)

theorem setChase_tame (n : Transport) (c : Chase) : Tame r s (s.setChase n c) := .of_core

theorem onChase_tame (n : Transport) (f : Chase → Chase) : Tame r s (s.onChase n f) := setChase_tame ..

theorem setOwner_tame (n : Transport) (o : Owner) : Tame r s (s.setOwner n o) := onCtx_tame rfl

theorem setCue_tame (n : Transport) (c : CueState) : Tame r s (s.setCue n c) := setRun_tame _ rfl

theorem onRun_tame (f : Run → Run) (h : ∀ x : Run, (f x).state = x.state := by intro x; rfl) : Tame r s (s.onRun f) :=
  setRun_tame _ (h s.run)

theorem onMixer_tame (f : Mixer → Mixer) : Tame r s (s.onMixer f) := .of_core

theorem setEt_tame (e : EditTable) : Tame r s (s.setEt e) := .of_core

/-- What `Moves` says without the readers, the reference and the links that are not UP. -/
theorem Tame.of_readers {s t : State} (h : ∀ m, t.ctx m = s.ctx m) (hp : t.pending = s.pending := by rfl)
    (hc : t.cfg = s.cfg := by rfl) (hi : t.iru = s.iru := by rfl) (hh : t.ptu.hold = s.ptu.hold := by rfl)
    (hrs : t.run.state = s.run.state := by rfl) (hl : t.links = s.links := by rfl) : Tame false s t :=
  { (Tame.of_core (r := false) (s := s) (t := { t with rtu := s.rtu, readers := s.readers, marks := s.marks })
      hp hc hi hh hrs hl (fun m => congrArg Context.core (h m))) with
    rtu := fun e => by cases e
    readers := fun e => by cases e
    marks := fun e => by cases e
    down := fun e => by cases e }

theorem setReader_rough (n : Transport) (x : Reader) : Tame false s (s.setReader n x) := Tame.of_readers fun _ => rfl

theorem putReader_rough (n : Transport) (x : Reader) : Tame false s (s.putReader n x) := by
  unfold putReader
  split_ifs
  · exact setReader_rough n x
  · exact (setReader_rough n x).then_ (raise_tame _ rfl)

theorem seedReader_rough (n : Transport) (l : Label) : Tame false s (s.seedReader n l) := putReader_rough ..

/-! ## What is learned from a deck (05) -/

theorem senseTaken_rough (n : Transport) (p : List Byte) : Tame false s (s.senseTaken n p) := by
  unfold senseTaken
  simp only
  split_ifs
  · exact (onCtx_tame rfl).then_ (seedReader_rough ..)
  · exact onCtx_tame rfl

theorem Context.acknowledged_core (c : Context) (kind : LinkKind) (arg : Arg) :
    (c.acknowledged kind arg).core = c.core := by
  unfold Context.acknowledged
  split <;> rfl

theorem Context.refusedBy_core (c : Context) (reason : Byte) : (c.refusedBy reason).core = c.core := by
  unfold Context.refusedBy
  split_ifs <;> rfl

theorem Context.noticed_core (c : Context) (code : Byte) : (c.noticed code).core = c.core := by
  unfold Context.noticed
  split <;> rfl

theorem track_rough (n : Transport) (kind : LinkKind) (arg : Arg) (reply : ReplyKind) (p : List Byte) :
    Tame false s (s.track n kind arg reply p) := by
  unfold track
  cases reply with
  | ack => exact onCtx_tame (Context.acknowledged_core ..)
  | nak => exact onCtx_tame (Context.refusedBy_core ..)
  | senseReply => exact senseTaken_rough ..

theorem transportResult_tame (n : Transport) (code : SlotCode) (p : Bool) (command tag : Word) :
    Tame r s (s.transportResult n code p command tag) := by
  unfold transportResult
  exact Tame.then_ (onCtx_tame rfl) (raise_tame _ rfl)

/-! ## Chase stops and owners (05 R84, R85; 06 R113 to R116) -/

theorem idleChase_tame (n : Transport) : Tame r s (s.idleChase n) :=
  ((onChase_tame n _).then_ (withdrawSpeed_tame n)).then_ (raise_tame _ rfl)

theorem stopProcessorChase_tame (n : Transport) : Tame r s (s.stopProcessorChase n) :=
  .ite (fun _ => idleChase_tame n) fun _ => .refl s

theorem stopRunChase_tame (n : Transport) : Tame r s (s.stopRunChase n) :=
  .ite (fun _ => idleChase_tame n) fun _ => .refl s

theorem freeFromChase_tame (n : Transport) : Tame r s (s.freeFromChase n) :=
  .ite (fun _ => setOwner_tame n _) fun _ => .refl s

theorem withdrawProcessorSpeed_tame (n : Transport) : Tame r s (s.withdrawProcessorSpeed n) := by
  unfold withdrawProcessorSpeed
  split
  · exact .ite (fun _ => withdrawSpeed_tame n) fun _ => .refl s
  · exact .refl s

theorem runTake_tame (n : Transport) : Tame r s (s.runTake n) := by
  unfold runTake
  refine .ite (fun _ => .refl s) fun _ => ?_
  refine Tame.then_ ?_ (setOwner_tame n _)
  refine Tame.then_ (Tame.then_ ?_ (cancelSource_tame n _)) (withdrawProcessorSpeed_tame n)
  exact .ite (fun _ => stopProcessorChase_tame n) fun _ => .refl s

theorem runRelease_tame (n : Transport) : Tame r s (s.runRelease n) := by
  unfold runRelease
  refine Tame.then_ ?_ (setCue_tame n _)
  exact .ite (fun _ => setOwner_tame n _) fun _ => .refl s

/-! ## The mixer (09) -/

theorem endTransition_tame (o : TransOutcome) : Tame r s (s.endTransition o) := by
  unfold endTransition
  split
  · exact (onMixer_tame _).then_ (raise_tame _ rfl)
  · exact .refl s

theorem preempt_tame : Tame r s s.preempt := by
  unfold preempt
  split
  · exact .ite (fun _ => (onMixer_tame _).then_ (raise_tame _ rfl)) fun _ => .refl s
  · exact .refl s

theorem takeMixer_tame (a : MixSource) : Tame r s (s.takeMixer a) := preempt_tame.then_ (onMixer_tame _)

theorem applyHanded_tame (h : Handed) : Tame r s (s.applyHanded h) := by
  cases h with
  | take a => exact takeMixer_tame a
  | pulse line width => exact (onMixer_tame _).then_ (raise_tame _ rfl)
  | start kind curve length pattern b =>
    show Tame r s (s.startTransition kind curve length pattern b)
    exact Tame.then_ (endTransition_tame .replaced) (onMixer_tame _)

theorem applyAllHanded_tame : Tame r s s.applyAllHanded :=
  (onMixer_tame _).then_ (Tame.foldl _ (fun _ h => applyHanded_tame h) _ _)

theorem hand_tame (h : Handed) : Tame r s (s.hand h) := onMixer_tame _

theorem freezeMixer_tame : Tame r s s.freezeMixer := by
  unfold freezeMixer freezeLevel
  refine Tame.then_ ?_ (onMixer_tame _)
  exact .ite (fun _ => (onMixer_tame _).then_ (endTransition_tame _)) fun _ => .refl s

theorem releaseMixer_tame : Tame r s s.releaseMixer := .ite (fun _ => onMixer_tame _) fun _ => .refl s

theorem clearMixer_tame : Tame r s s.clearMixer := (endTransition_tame _).then_ (onMixer_tame _)

theorem markPulseEnds_tame : Tame r s s.markPulseEnds :=
  Tame.foldl _ (fun _ _ => .ite (fun _ => mark_tame _) fun _ => .refl _) _ _

theorem transitionField_tame : Tame r s s.transitionField := by
  unfold transitionField
  split
  · exact .ite (fun _ => onMixer_tame _) fun _ => ((onMixer_tame _).then_ (raise_tame _ rfl)).then_ (mark_tame _)
  · exact .refl s

theorem fieldWork_tame (p : Bool) : Tame r s (s.fieldWork p) := by
  unfold fieldWork
  refine Tame.then_ (Tame.then_ (Tame.then_ (onMixer_tame Mixer.adopt) ?_) transitionField_tame) (onMixer_tame _)
  exact .ite (fun _ => .refl _) fun _ => (markPulseEnds_tame.then_ (onMixer_tame _)).then_ applyAllHanded_tame

theorem switcherResult_tame (code : SlotCode) (command tag : Word) : Tame r s (s.switcherResult code command tag) :=
  (onMixer_tame _).then_ (raise_tame _ rfl)

/-! ## The edit table (07) -/

theorem leavePlace_tame (p : Place) (x : EventState) : Tame r s (s.leavePlace p x) := by
  unfold leavePlace
  cases p <;> simp only <;> split
  · exact .of_core
  · exact .refl s
  · exact .of_core
  · exact .refl s

theorem completeEvent_tame : Tame r s s.completeEvent := by
  unfold completeEvent
  split
  · exact (leavePlace_tame _ _).then_ (setEt_tame _)
  · exact .refl s

theorem releasePlace_tame (p : Place) : Tame r s (s.releasePlace p) := leavePlace_tame _ _

theorem placeArmed_tame (p : Place) (a : Armed) : Tame r s (s.placeArmed p a) := by
  unfold placeArmed
  cases p <;> exact .of_core

/-- An accepted arming changes the edit table alone (07 R137). -/
theorem arm_tame {e : Fin 64} {p : Place} {mode : RunMode} {margin : Nat} {a : Armed}
    (h : s.arm e p mode margin = .ok (a, t)) : Tame r s t := by
  unfold arm at h
  split at h
  · cases h
  · simp only at h
    split at h
    · cases h
    · simp only [Except.ok.injEq, Prod.mk.injEq] at h
      rw [← h.2]
      exact placeArmed_tame _ _

/-! ## The run (08): entering a state -/

theorem followRunFault_sync (h : Tame r s (t.setRun s.run)) : Tame r s (t.syncRunFault) := by
  refine Tame.then_ ?_ yieldHold_tame
  unfold followFree
  have hl : ∀ m, (t.setRun s.run).link m = t.link m := fun _ => rfl
  split_ifs with hc
  · exact
    { pending := h.pending, cfg := h.cfg
      stack := (Iru.follow_fields _ _ _).2.1.trans h.stack
      levels := (Iru.follow_fields _ _ _).1.trans h.levels
      events := fun i hi e => by
        rw [(setIru_fields t _).2.2.2.2.2.2.2.2.2.2.2.2.2, Iru.isPending_follow, if_neg (by rintro rfl; cases hi)]
        exact h.events i hi e
      hold := h.hold
      iru := fun e => (h.iru e).follow _ _
      fifo := h.fifo, queue := h.queue
      runFault := fun _ _ => by
        rw [(setIru_fields t _).2.2.2.2.2.2.2.2.2.2.2.2.2, Iru.isPending_follow, if_pos rfl]
        rfl
      deck := fun m hm e hcfg => by
        rw [(setIru_fields t _).2.2.2.2.2.2.2.2.2.2.2.2.2, Iru.isPending_follow, if_neg (by simp)]
        exact h.deck m hm e hcfg
      books := h.books
      rtu := h.rtu, readers := h.readers, marks := h.marks, down := h.down }
  · exact
    { h with
      runFault := fun _ hcfg => absurd hcfg hc
      events := h.events, books := h.books, deck := h.deck, down := h.down, fifo := h.fifo, queue := h.queue }

/-! A raise does not see the run. -/

theorem followFree_setRun (x : Run) (i : Irq) (b : Bool) :
    (s.setRun x).followFree i b = (s.followFree i b).setRun x := by
  unfold followFree
  show (if s.configured then _ else _) = _
  split_ifs <;> rfl

theorem raiseFree_setRun (x : Run) (i : Irq) : (s.setRun x).raiseFree i = (s.raiseFree i).setRun x := by
  unfold raiseFree
  show (if s.configured then _ else _) = _
  split_ifs <;> rfl

theorem refuse_setRun (x : Run) (reason : AccessReason) (a : Addr) (lanes : Strobes) (rmw : Bool) :
    (s.setRun x).refuse reason a lanes rmw = (s.refuse reason a lanes rmw).setRun x := by
  unfold refuse
  simp only
  have h : (s.setRun x).setPtu { s.ptu with access := ⟨some reason, a, rmw, some lanes, s.stamp, satSucc 65535 s.ptu.access.count⟩ } =
      (s.setPtu { s.ptu with access := ⟨some reason, a, rmw, some lanes, s.stamp, satSucc 65535 s.ptu.access.count⟩ }).setRun x := rfl
  show (State.raiseFree (State.setPtu (s.setRun x) _) .access).endCycle .refused = _
  exact (congrArg (fun y => (State.raiseFree y .access).endCycle .refused) h).trans (by rw [raiseFree_setRun]; rfl)

theorem completeTake_setRun (x : Run) (n : Transport) (w : Word) :
    (s.setRun x).completeTake n w = (s.completeTake n w).setRun x := by
  unfold completeTake deckFree
  simp only
  exact (congrArg (·.answer w) (followFree_setRun (s := (s.setPtu _).setCtx n _) x (.deck n) _)).trans rfl

theorem completeHold_setRun (x : Run) (h : Hold) (w : Word) :
    (s.setRun x).completeHold h w = (s.completeHold h w).setRun x := by
  unfold completeHold
  refine (congrArg (·.takeWriteHalf h.port h.writeHalf) (completeTake_setRun (s := s.setPtu _) x h.port w)).trans ?_
  unfold takeWriteHalf
  cases h.writeHalf with
  | none => rfl
  | some lanes => exact refuse_setRun (s := (s.setPtu _).completeTake h.port w) x .overlayStore _ lanes true

theorem yieldHold_setRun (x : Run) : (s.setRun x).yieldHold = s.yieldHold.setRun x := by
  unfold yieldHold
  show (match s.ptu.hold with | some h => if s.iru.top < s.iru.request then _ else _ | none => _) = _
  cases s.ptu.hold with
  | none => rfl
  | some h =>
    simp only
    split_ifs
    · exact completeHold_setRun x h _
    · rfl

theorem raise_setRun (x : Run) (i : Irq) : (s.setRun x).raise i = (s.raise i).setRun x := by
  unfold raise
  rw [raiseFree_setRun, yieldHold_setRun]

theorem refuse_run (reason : AccessReason) (a : Addr) (lanes : Strobes) (rmw : Bool) :
    (s.refuse reason a lanes rmw).run = s.run := by
  unfold refuse raiseFree
  simp only
  split_ifs <;> rfl

theorem completeHold_run (h : Hold) (w : Word) : (s.completeHold h w).run = s.run := by
  have hc : ∀ u : State, (u.completeTake h.port w).run = u.run := by
    intro u
    unfold completeTake deckFree followFree
    simp only
    split_ifs <;> rfl
  unfold completeHold takeWriteHalf
  split
  · exact (refuse_run ..).trans (hc _)
  · exact hc _

theorem raise_run (i : Irq) : (s.raise i).run = s.run := by
  have h : (s.raiseFree i).run = s.run := by
    unfold raiseFree
    split_ifs <;> rfl
  unfold raise yieldHold
  split
  · split_ifs
    · exact (completeHold_run ..).trans h
    · exact h
  · exact h

theorem runEnter_tame (st : RunState) : Tame r s (s.runEnter st) := by
  unfold runEnter
  refine .ite (fun _ => .refl s) fun _ => followRunFault_sync ?_
  have h : ((s.onRun ({ · with state := st })).raise .runPhase).setRun s.run = s.raise .runPhase := by
    unfold onRun
    rw [raise_setRun, ← raise_run (s := s) .runPhase]
    rfl
  rw [h]
  exact raise_tame _ rfl

end State

end Sys2Proof.Machine
end

