-- ==== Sys2Proof/Laws/RunWorks.lean ====
section
/-! SUPPORT. `Moves` for the Run Sequencer and the Chase Unit (06, 08). -/

namespace Sys2Proof.Machine

set_option Elab.async false

variable {r b : Bool} {n : Transport} {d : Word} {s t : State}

namespace State

/-! ## Entries of the run (08 R158, R167, R173) -/

theorem haltAndRelease_tame (n : Transport) (s : State) : Tame r s (haltAndRelease n s) :=
  (offerEntry_tame n _ (by simp [runEntry])).then_ (runRelease_tame n)

theorem offerAbort_tame (n : Transport) (kind : LinkKind) (arg : Arg) : Tame r s (s.offerAbort n kind arg) := by
  unfold offerAbort
  simp only
  exact Tame.then_ (offerEntry_tame n _ (by simp [runEntry])) (.ite (fun _ => onRun_tame _) fun _ => .refl _)

/-! ## Suite clear and the abort path (08 R173, R174) -/

theorem clearLink_tame (n : Transport) (s : State) : Tame r s (clearLink n s) := by
  unfold clearLink
  simp only
  refine Tame.then_ (Tame.then_ ?_ (withdrawSpeed_tame n)) (emptyFifo_tame n)
  refine Moves.tame (n := n) (Moves.congr_shift (Moves.trans (onLink_moves (b := true)
    (d := BitVec.ofNat 16 ((s.link n).queue.countP (·.source = .processor))) ?_ ?_ ?_) (cancelAll_moves n _ _)) ?_)
  · intro _
    simp
  · rw [← BitVec.ofNat_add, Link.processorEntries_def, Link.processorEntries_def]
    congr 1
    cases hf : (s.link n).inFlight with
    | none =>
      simp only [Option.map_none, List.countP_nil]
      omega
    | some f =>
      simp only [Option.map_some, List.countP_nil]
      split_ifs <;> simp only [Nat.zero_add, Nat.add_zero] <;> omega
  · intro _ _
    refine ⟨rfl, rfl, rfl, rfl, ?_⟩
    intro f hf hl
    simp [hf, hl]
  · ring

theorem clearChase_tame (n : Transport) (s : State) : Tame r s (clearChase n s) := by
  unfold clearChase
  exact .ite (fun _ => .refl s) fun _ => .ite (fun _ => (idleChase_tame n).then_ (freeFromChase_tame n)) fun _ =>
    idleChase_tame n

theorem suiteClear_tame : Tame r s s.suiteClear := by
  unfold suiteClear
  simp only
  refine Tame.then_ ?_ (onRun_tame _)
  refine Tame.then_ ?_ (setEt_tame _)
  refine Tame.then_ ?_ clearMixer_tame
  refine Tame.then_ ?_ (Tame.forTransports clearChase_tame _ _)
  exact Tame.forTransports clearLink_tame _ _

theorem releaseAll_tame : Tame r s s.releaseAll :=
  Tame.forTransports (fun n _ => .ite (fun _ => runRelease_tame n) fun _ => .refl _) _ _

theorem endRun_tame (st : RunState) (cause : EndCause) : Tame r s (s.endRun st cause) := by
  unfold endRun
  simp only
  refine Tame.then_ ?_ (runEnter_tame st)
  refine Tame.then_ ?_ (onRun_tame _)
  exact ((releaseAll_tame.then_ (releasePlace_tame _)).then_ (releasePlace_tame _)).then_ releaseMixer_tame

theorem abortEnd_tame : Tame r s s.abortEnd := by
  unfold abortEnd
  simp only
  exact Tame.then_ (endRun_tame _ _) (.ite (fun _ => suiteClear_tame) fun _ => .refl _)

theorem abortStops_tame : Tame r s s.abortStops := by
  unfold abortStops
  simp only
  exact Tame.then_ (Tame.forTransports (fun n _ => stopRunChase_tame n) _ _)
    (Tame.forTransports (fun n _ => cancelSource_tame n _) _ _)

theorem abortInserts_tame : Tame r s s.abortInserts := by
  unfold abortInserts
  split
  · exact .ite (fun _ => .refl _) fun _ => offerAbort_tame ..
  · exact .refl s

theorem discardPending_tame : Tame r s s.discardPending := onRun_tame _

theorem abortPath_tame (cause : AbortCause) : Tame r s (s.abortPath cause) := by
  unfold abortPath
  simp only
  refine Tame.then_ ?_ (.ite (fun _ => abortEnd_tame) fun _ => .refl _)
  refine Tame.then_ (Tame.then_ ?_ freezeMixer_tame) discardPending_tame
  refine Tame.then_ ?_ (Tame.forTransports (fun n _ => offerAbort_tame ..) _ _)
  exact (((onRun_tame _).then_ (runEnter_tame _)).then_ abortStops_tame).then_ abortInserts_tame

/-! ## Faults (08 R169, R172) -/

theorem runFault_tame (f : FaultRecord) : Tame r s (s.runFault f) := by
  unfold runFault
  exact .ite (fun _ => (onRun_tame _).then_ (abortPath_tame _)) fun _ =>
    .ite (fun _ => onRun_tame _) fun _ => .refl s

theorem currentFault_tame (kind : FaultKind) (n : Option Transport) : Tame r s (s.currentFault kind n) := runFault_tame _

theorem holdFault_tame (kind : FaultKind) (e : Fin 64) (n : Option Transport) : Tame r s (s.holdFault kind e n) :=
  onRun_tame _ fun x => by cases x.pendingFault <;> rfl

theorem transportFault_tame (kind : FaultKind) (n : Transport) : Tame r s (s.transportFault kind n) := by
  unfold transportFault
  exact .ite (fun _ => holdFault_tame ..) fun _ => currentFault_tame ..

/-! ## Cues (08 R158, R159) -/

theorem offerLocate_tame (n : Transport) : Tame r s (s.offerLocate n) := by
  unfold offerLocate
  split
  · rename_i tgt _
    simp only
    refine Tame.then_ (offerEntry_tame n (runEntry .locate (.label (Label.ofIndex s.standard tgt)) false false)
      (by simp [runEntry])) ?_
    split
    · exact setCue_tame n _
    · exact setCue_tame n _
    · exact transportFault_tame ..
  · exact .refl s

theorem beginCue_tame (n : Transport) (count : Nat) : Tame r s (s.beginCue n count) := by
  unfold beginCue
  exact .ite (fun _ => (setCue_tame n _).then_ (offerLocate_tame n)) fun _ => .refl s

theorem enterReady_tame : Tame r s s.enterReady := (onRun_tame _).then_ (runEnter_tame _)

theorem checkReady_tame : Tame r s s.checkReady := .ite (fun _ => enterReady_tame) fun _ => .refl s

/-! ## Chase (06) -/

theorem beginChase_tame (n : Transport) (c : Chase) : Tame r s (s.beginChase n c) :=
  (setChase_tame n _).then_ (raise_tame _ rfl)

theorem startRunChase_tame (n : Transport) (p : Nat) : Tame r s (s.startRunChase n p) := beginChase_tame n _

theorem faultChase_tame (n : Transport) (cause : ChaseCause) : Tame r s (s.faultChase n cause) := by
  unfold faultChase
  exact ((setChase_tame n _).then_ (withdrawSpeed_tame n)).then_ (raise_tame _ rfl)

theorem tellChaseFault_tame (n : Transport) : Tame r s (s.tellChaseFault n) :=
  .ite (fun _ => transportFault_tame ..) fun _ => .refl s

theorem failChase_tame (n : Transport) (cause : ChaseCause) : Tame r s (s.failChase n cause) := by
  unfold failChase
  refine .ite (fun _ => ?_) fun _ => .refl s
  exact Tame.then_ (faultChase_tame n cause) (.ite (fun _ => tellChaseFault_tame n) fun _ => .refl _)

theorem adoptParams_tame : Tame r s s.adoptParams := .of_core

theorem chaseMarks_tame (n : Transport) (x y : ChaseState) (s : State) : Tame r s (chaseMarks n x y s) := by
  unfold chaseMarks
  exact .ite (fun _ => mark_tame _) fun _ => .ite (fun _ => mark_tame _) fun _ => .refl s

theorem offerChaseSpeed_tame (n : Transport) (v : Int) : Tame r s (s.offerChaseSpeed n v) := by
  unfold offerChaseSpeed
  simp only
  refine Tame.then_ (offerSpeed_tame n ⟨v, .chase, none⟩ (by simp)) ?_
  exact .ite (fun _ => onChase_tame n _) fun _ => failChase_tame n _

theorem putChase_tame (n : Transport) (c : Chase) : Tame r s (s.putChase n c) :=
  .ite (fun _ => setChase_tame n c) fun _ => (setChase_tame n c).then_ (raise_tame _ rfl)

theorem chaseLoop_tame (n : Transport) (P M : Nat) (v : Int) : Tame r s (s.chaseLoop n P M v) := by
  unfold chaseLoop
  simp only
  exact Tame.then_ ((putChase_tame n _).then_ (chaseMarks_tame n _ _ _)) (offerChaseSpeed_tame n _)

theorem chaseHold_tame (n : Transport) : Tame r s (s.chaseHold n) := by
  unfold chaseHold
  simp only
  exact .ite (fun _ => .ite (fun _ => setChase_tame n _) fun _ => (mark_tame _).then_ (failChase_tame n _)) fun _ =>
    putChase_tame n _

theorem chaseBoundary_tame (n : Transport) (s : State) : Tame r s (chaseBoundary n s) := by
  unfold chaseBoundary
  refine .ite (fun _ => ?_) fun _ => .refl s
  split
  · exact chaseLoop_tame ..
  · exact chaseHold_tame n

theorem chaseReply_tame (n : Transport) (kind : LinkKind) (reply : ReplyKind) : Tame r s (s.chaseReply n kind reply) := by
  unfold chaseReply
  exact .ite (fun _ => .ite (fun _ => .ite (fun _ => failChase_tame n _) fun _ => onChase_tame n _) fun _ =>
    onChase_tame n _) fun _ => .refl s

/-! ## Arming (08 R157, R168, R171) -/

theorem takeCurrent_tame (a : Armed) : Tame r s (s.takeCurrent a) := by
  unfold takeCurrent
  simp only
  refine Tame.then_ ?_ (Tame.forTransports (fun n _ => ?_) _ _)
  · refine Tame.then_ ?_ (Tame.forTransports (fun n _ => runTake_tame n) _ _)
    refine Tame.then_ ?_ (runEnter_tame _)
    refine Tame.then_ ?_ (onRun_tame _)
    exact onRun_tame _
  exact .ite (fun _ => .refl _) fun _ => beginCue_tame n 1

theorem armCurrent_tame {e : Fin 64} {a : Armed} (h : s.armCurrent e = .ok (a, t)) : Tame r s t := by
  unfold armCurrent at h
  split at h
  · rename_i a' s' ha
    simp only [Except.ok.injEq, Prod.mk.injEq] at h
    rw [← h.2]
    exact ((arm_tame ha).then_ (takeCurrent_tame _)).then_ checkReady_tame
  · cases h

theorem armFault_tame (k : FaultKind) (e : Fin 64) : Tame r s (s.armFault k e) := runFault_tame _

theorem armLookahead_tame : Tame r s s.armLookahead := by
  unfold armLookahead
  split
  · split
    · exact holdFault_tame ..
    · rename_i a s' ha
      simp only
      exact Tame.then_ ((arm_tame ha).then_ (onRun_tame _)) (Tame.forTransports
        (fun n _ => (runTake_tame n).then_ (beginCue_tame n 1)) _ _)
  · exact .refl s

theorem cancelLookahead_tame : Tame r s s.cancelLookahead := by
  unfold cancelLookahead
  simp only
  exact Tame.then_ (Tame.then_ (onRun_tame _) (Tame.forTransports haltAndRelease_tame _ _)) (releasePlace_tame _)

/-! ## Completions of the run's entries (08 R159, R164, R170, R174) -/

theorem cueTest_tame (n : Transport) : Tame r s (s.cueTest n) := by
  unfold cueTest
  simp only
  refine .ite (fun _ => transportFault_tame ..) fun _ => .ite (fun _ => ?_) fun _ => .refl s
  exact .ite (fun _ => (setCue_tame n _).then_ checkReady_tame) fun _ =>
    .ite (fun _ => beginCue_tame n 2) fun _ => transportFault_tame ..

theorem insertsOffAcked_tame (arg : Arg) : Tame r s (s.insertsOffAcked arg) := by
  unfold insertsOffAcked
  split
  · exact onRun_tame _
  · exact .refl s

theorem insertAcked_tame (off : Bool) (arg : Arg) : Tame r s (s.insertAcked off arg) := by
  unfold insertAcked
  split
  · exact onRun_tame _
  · exact .refl s

theorem locateAccepted_tame (n : Transport) : Tame r s (s.locateAccepted n) :=
  .ite (fun _ => setCue_tame n _) fun _ => .refl s

theorem runAcked_tame (n : Transport) (e : Entry) : Tame r s (s.runAcked n e) := by
  unfold runAcked
  split
  · exact insertAcked_tame ..
  · exact (insertAcked_tame ..).then_ (insertsOffAcked_tame _)
  · exact locateAccepted_tame n
  · exact .refl s

theorem runReplyActive_tame (n : Transport) (e : Entry) (reply : ReplyKind) (p : List Byte) :
    Tame r s (s.runReplyActive n e reply p) := by
  unfold runReplyActive
  simp only
  refine Tame.then_ (t := if e.kind = .sense then s.senseEnds n else s)
    (.ite (fun _ => senseEnds_tame n) fun _ => .refl s) ?_
  generalize (if e.kind = .sense then s.senseEnds n else s) = u
  cases reply with
  | nak => exact transportFault_tame ..
  | ack => exact runAcked_tame ..
  | senseReply =>
    dsimp only
    split
    · exact locateAccepted_tame n
    · exact .ite (fun _ => cueTest_tame n) fun _ => .refl _
    · exact .refl _

theorem abortCompleted_tame : Tame r s s.abortCompleted := by
  unfold abortCompleted
  simp only
  exact Tame.then_ (onRun_tame _) (.ite (fun _ => abortEnd_tame) fun _ => .refl _)

theorem abortReply_tame (e : Entry) (reply : ReplyKind) : Tame r s (s.abortReply e reply) := by
  unfold abortReply
  split
  · exact onRun_tame _
  · exact insertsOffAcked_tame _
  · exact .refl s

theorem runReply_tame (n : Transport) (e : Entry) (reply : ReplyKind) (p : List Byte) :
    Tame r s (s.runReply n e reply p) := by
  unfold runReply
  exact .ite (fun _ => .ite (fun _ => (abortReply_tame ..).then_ abortCompleted_tame) fun _ => .refl s) fun _ =>
    .ite (fun _ => runReplyActive_tame ..) fun _ => .refl s

theorem runUnanswered_tame (n : Transport) (e : Entry) : Tame r s (s.runUnanswered n e) := by
  unfold runUnanswered
  exact .ite (fun _ => .ite (fun _ => abortCompleted_tame) fun _ => .refl s) fun _ =>
    .ite (fun _ => senseEnds_tame n) fun _ => .refl s

theorem runDeparture_tame (n : Transport) : Tame r s (s.runDeparture n) :=
  .ite (fun _ => transportFault_tame ..) fun _ => .refl s

theorem runNotice_tame (n : Transport) : Tame r s (s.runNotice n) := by
  unfold runNotice
  refine .ite (fun _ => ?_) fun _ => .refl s
  split
  · exact currentFault_tame ..
  · exact onRun_tame _

theorem runReference_tame (x y : RefState) : Tame r s (s.runReference x y) :=
  .ite (fun _ => currentFault_tame ..) fun _ => .refl s

/-! ## Boundaries (08 R155) -/

theorem rollEvent_tame (a : Armed) : Tame r s (s.rollEvent a) := by
  unfold rollEvent
  simp only
  refine Tame.then_ ?_ (Tame.forTransports (fun n _ => ?_) _ _)
  · refine Tame.then_ ?_ (hand_tame _)
    refine Tame.then_ ?_ (runEnter_tame _)
    refine Tame.then_ ?_ (onRun_tame _)
    refine Tame.then_ ?_ (Tame.forTransports (fun n _ => setCue_tame n _) _ _)
    exact onRun_tame _
  split
  · exact startRunChase_tame ..
  · exact .refl _

theorem roll_tame : Tame r s s.roll := by
  unfold roll
  split
  · simp only
    exact Tame.then_ (rollEvent_tame _) (.ite (fun _ => currentFault_tame ..) fun _ => .refl _)
  · exact .refl s

theorem timedInsert_tame (n : Transport) (off : Bool) (m : Tracks) : Tame r s (s.timedInsert n off m) := by
  unfold timedInsert
  simp only
  exact Tame.then_ (offerEntry_tame n _ (by simp [runEntry])) (onRun_tame _)

theorem whileRolling_tame {c : Bool} {f : State → State} (h : ∀ u, Tame r u (f u)) : Tame r s (s.whileRolling c f) :=
  .ite (fun _ => h s) fun _ => .refl s

theorem earlyActions_tame (a : Armed) (c : Int) : Tame r s (s.earlyActions a c) := by
  unfold earlyActions
  simp only
  refine Tame.then_ (Tame.then_ (Tame.then_ (Tame.then_ (Tame.foldl _ (fun _ _ => hand_tame _) _ _)
    (whileRolling_tame fun _ => timedInsert_tame ..)) (whileRolling_tame fun _ => timedInsert_tame ..))
    (whileRolling_tame fun _ => (runEnter_tame _).then_ armLookahead_tame)) (whileRolling_tame fun u => ?_)
  split
  · exact hand_tame _
  · exact .refl u

theorem finishRun_tame : Tame r s s.finishRun := endRun_tame _ _

theorem promotePending_tame (f : FaultRecord) : Tame r s (s.promotePending f) :=
  (onRun_tame _).then_ (runFault_tame f)

theorem continueRun_tame (a : Armed) : Tame r s (s.continueRun a) := by
  unfold continueRun
  simp only
  refine Tame.then_ (t := s.adoptEvent a) (onRun_tame _) (.ite (fun _ => enterReady_tame) fun _ => ?_)
  refine Tame.then_ (runEnter_tame _) (Tame.forTransports (fun n _ => ?_) _ _)
  exact .ite (fun _ => beginCue_tame n 1) fun _ => .refl _

theorem chainEvent_tame (ts : List Transport) (a : Armed) : Tame r s (s.chainEvent ts a) := by
  unfold chainEvent
  simp only
  exact Tame.then_ (Tame.forTransports haltAndRelease_tame _ _) (.ite (fun _ => continueRun_tame a) fun _ => .refl _)

theorem nextEvent_tame (ts : List Transport) (e : Fin 64) : Tame r s (s.nextEvent ts e) := by
  unfold nextEvent
  refine .ite (fun _ => ?_) fun _ => ?_
  · split
    · exact Tame.then_ (Tame.forTransports haltAndRelease_tame _ _) (armFault_tame ..)
    · rename_i h
      exact (armCurrent_tame h).then_ (chainEvent_tame ..)
  · split
    · exact chainEvent_tame ..
    · exact .refl s

theorem completeRunEvent_tame (a : Armed) : Tame r s (s.completeRunEvent a) := by
  unfold completeRunEvent
  simp only
  refine Tame.then_ (t := (forTransports a.transports (fun n s => s.stopRunChase n) s).completeEvent)
    (Tame.then_ (Tame.forTransports (fun n _ => stopRunChase_tame n) _ _) completeEvent_tame) ?_
  split
  · exact Tame.then_ (Tame.forTransports haltAndRelease_tame _ _) (promotePending_tame _)
  · split
    · exact .ite (fun _ => Tame.then_ (Tame.forTransports haltAndRelease_tame _ _) finishRun_tame) fun _ =>
        nextEvent_tame ..
    · exact Tame.then_ (Tame.forTransports haltAndRelease_tame _ _) finishRun_tame

theorem lateActions_tame (a : Armed) (c : Int) : Tame r s (s.lateActions a c) := by
  unfold lateActions
  simp only
  refine Tame.then_ (t := s.whileRolling (s.run.mode = .record && c = (a.duration : Int) - (a.latency + 1)) fun s =>
    s.timedInsert a.recorder true s.run.insertsOn) (whileRolling_tame fun _ => timedInsert_tame ..) ?_
  refine .ite (fun _ => whileRolling_tame fun _ => completeRunEvent_tame a) fun _ => ?_
  exact Tame.then_ (whileRolling_tame fun _ => runEnter_tame _) (whileRolling_tame fun _ => completeRunEvent_tame a)

theorem timedActions_tame : Tame r s s.timedActions := by
  unfold timedActions
  split
  · exact .ite (fun _ => (earlyActions_tame ..).then_ (lateActions_tame ..)) fun _ => .refl s
  · exact .refl s

theorem lateInserts_tame : Tame r s s.lateInserts := by
  unfold lateInserts
  split
  · exact .ite (fun _ => currentFault_tame ..) fun _ => .refl s
  · exact .refl s

theorem countCueing_tame : Tame r s s.countCueing := by
  unfold countCueing
  simp only
  exact Tame.then_ (onRun_tame _) (.ite (fun _ => (mark_tame _).then_ (currentFault_tame ..)) fun _ => .refl _)

theorem countLookahead_tame : Tame r s s.countLookahead := by
  unfold countLookahead
  split
  · refine .ite (fun _ => ?_) fun _ => .refl s
    exact Tame.then_ (onRun_tame _) (.ite (fun _ => (mark_tame _).then_ (holdFault_tame ..)) fun _ => .refl _)
  · exact .refl s

theorem pollDue_tame (n : Transport) : Tame r s (s.pollDue n) := by
  unfold pollDue
  simp only
  refine Tame.then_ (setCue_tame n _) (.ite (fun _ => .refl _) fun _ => ?_)
  exact Tame.then_ ((offerEntry_tame n _ (by simp [runEntry])).then_ (mark_tame _))
    (.ite (fun _ => setCue_tame n _) fun _ => .refl _)

theorem cueWork_tame (n : Transport) (s : State) : Tame r s (cueWork n s) := by
  unfold cueWork
  simp only
  refine .ite (fun _ => .refl s) fun _ => ?_
  split
  · exact .ite (fun _ => offerLocate_tame n) fun _ => .refl s
  · exact .ite (fun _ => pollDue_tame n) fun _ => setCue_tame n _
  · exact .refl s
  · exact .refl s

theorem advanceRun_tame : Tame r s s.advanceRun := by
  unfold advanceRun
  split
  · exact onRun_tame _
  · exact onRun_tame _
  · exact onRun_tame _
  · exact .ite (fun _ => roll_tame) fun _ => .refl s
  · exact countCueing_tame
  · exact .refl s
  · exact .refl s
  · exact .refl s

theorem clockAndState_tame : Tame r s s.clockAndState := by
  unfold clockAndState
  simp only
  exact Tame.then_ (advanceRun_tame.then_ countLookahead_tame) (Tame.forTransports cueWork_tame _ _)

theorem syncCheck_tame (ts : List Transport) : Tame r s (s.syncCheck ts) := by
  unfold syncCheck
  split
  · exact onRun_tame _
  · exact currentFault_tame ..

theorem lockWatch_tame (ts : List Transport) (before : Six Chase) : Tame r s (s.lockWatch ts before) := by
  unfold lockWatch
  split
  · exact currentFault_tame ..
  · exact Tame.foldl _ (fun _ _ => onRun_tame _) _ _
  · exact .refl s

theorem chaseStates_tame (before : Six Chase) : Tame r s (s.chaseStates before) := by
  unfold chaseStates
  split
  · simp only
    exact .ite (fun _ => .ite (fun _ => syncCheck_tame _) fun _ => .ite (fun _ => lockWatch_tame ..) fun _ => .refl s)
      fun _ => .refl s
  · exact .refl s

theorem runAndChase_tame (ts : List Transport) (before : Six Chase) : Tame r s (s.runAndChase ts before) := by
  unfold runAndChase
  simp only
  refine Tame.then_ (Tame.then_ lateInserts_tame clockAndState_tame) ?_
  refine Tame.then_ (t := { s.lateInserts.clockAndState with
    free := if s.lateInserts.clockAndState.run.state.rolling then s.lateInserts.clockAndState.free + 1
      else s.lateInserts.clockAndState.free }) .of_core ?_
  exact Tame.then_ (Tame.then_ (Tame.then_ (Tame.forTransports chaseBoundary_tame _ _) timedActions_tame)
    (Tame.forTransports chaseBoundary_tame _ _)) (chaseStates_tame _)

end State

end Sys2Proof.Machine
end

