-- ==== Sys2Proof/Laws/LinkWorks.lean ====
section
/-! SUPPORT. `Moves` for completions, changes of link state, the receiver, the link reset and the timers of a link
(04, 05). -/

namespace Sys2Proof.Machine

set_option Elab.async false

variable {r b : Bool} {n : Transport} {d : Word} {s t : State}

namespace Link

theorem idle_entries {l : Link} {f : InFlight} (h : l.inFlight = some f) :
    l.processorEntries = l.idle.processorEntries + f.entry.source.owedOne := by
  rw [processorEntries_def, processorEntries_def, h]
  rfl

theorem resend_entries {l : Link} {f : InFlight} (h : l.inFlight = some f) :
    (l.resend f).processorEntries = l.processorEntries := by
  unfold resend
  rw [(begin_keeps _).1, processorEntries_def, processorEntries_def, h]

theorem resend_queue (l : Link) (f : InFlight) : (l.resend f).queue = l.queue := by
  unfold resend
  exact (begin_keeps _).2.1

end Link

namespace State

/-! ## Completions (05 R99) -/

theorem owed_one_processor : (-1 : Word) = -BitVec.ofNat 16 (Source.processor).owedOne := by decide

theorem routeReply_moves (n : Transport) (e : Entry) (seq : Option Nat) (reply : ReplyKind) (p : List Byte) :
    Moves false true n (-BitVec.ofNat 16 e.source.owedOne) s (s.routeReply n e seq reply p) := by
  unfold routeReply
  simp only
  refine Tame.before (track_rough n e.kind e.arg reply p) ?_
  cases hs : e.source with
  | processor => exact (fifoOffer_moves n _).congr_shift (by simp [completionEntry, Source.owedOne])
  | run => exact ((runReply_tame n e reply p).at_ n).congr_shift (by simp [Source.owedOne])
  | chase => exact ((chaseReply_tame n e.kind reply).at_ n).congr_shift (by simp [Source.owedOne])
  | link => exact ((Tame.refl _).at_ n).congr_shift (by simp [Source.owedOne])

theorem routeUnanswered_moves (n : Transport) (e : Entry) (seq : Option Nat) (o : EntryOutcome) :
    Moves r true n (-BitVec.ofNat 16 e.source.owedOne) s (s.routeUnanswered n e seq o) := by
  unfold routeUnanswered
  cases hs : e.source with
  | processor => exact (fifoOffer_moves n _).congr_shift (by simp [completionEntry, Source.owedOne])
  | run => exact ((runUnanswered_tame n e).at_ n).congr_shift (by simp [Source.owedOne])
  | chase => exact ((Tame.refl _).at_ n).congr_shift (by simp [Source.owedOne])
  | link => exact ((Tame.refl _).at_ n).congr_shift (by simp [Source.owedOne])

theorem routeAll_moves (n : Transport) (o : EntryOutcome) :
    ∀ (es : List Entry) (s : State),
      Moves r true n (-BitVec.ofNat 16 (es.countP (·.source = .processor))) s
        (es.foldl (fun s e => s.routeUnanswered n e none o) s)
  | [], s => ((Tame.refl s).at_ n).congr_shift (by simp)
  | e :: es, s => by
    refine ((routeUnanswered_moves n e none o).trans (routeAll_moves n o es _)).congr_shift ?_
    rw [List.countP_cons, Nat.add_comm, BitVec.ofNat_add]
    simp only [Source.owedOne, decide_eq_true_eq]
    ring

/-! ## Changes of link state (04 R64, R77; 05 R89) -/

theorem linkChanged_tame (n : Transport) : Tame r s (s.linkChanged n) :=
  (syncDeck_sync (n := n) (onCtx_moves (d := 0) (fun e => e) (by simp))).tame

theorem contextDeparture_tame (n : Transport) : Tame r s (s.contextDeparture n) :=
  (syncDeck_sync (n := n) (onCtx_moves (d := 0) (fun e => e) (by simp))).tame

theorem departBoth_tame (n : Transport) : Tame r s (s.departBoth n) := by
  unfold departBoth
  simp only
  refine Tame.then_ (t := ({ s with free := s.free + 1 } : State).faultChase n .link) ?_ ?_
  · exact Tame.then_ (t := { s with free := s.free + 1 }) .of_core (faultChase_tame n _)
  · exact .ite (fun _ => (transportFault_tame _ n).then_ (transportFault_tame _ n)) fun _ =>
      (transportFault_tame _ n).then_ (transportFault_tame _ n)

theorem linkDeparted_tame (n : Transport) : Tame r s (s.linkDeparted n) := by
  unfold linkDeparted
  simp only
  exact Tame.then_ (contextDeparture_tame n) (.ite (fun _ => departBoth_tame n) fun _ =>
    (failChase_tame n _).then_ (runDeparture_tame n))

theorem failLink_rough (n : Transport) : Tame false s (s.failLink n) := by
  unfold failLink
  simp only
  refine Tame.then_ (Moves.tame (n := n) ?_) (linkDeparted_tame n)
  have h1 : Moves false true n (BitVec.ofNat 16 ((s.link n).queue.countP (·.source = .processor))
      + BitVec.ofNat 16 (match (s.link n).slot with | some v => v.source.owedOne | none => 0)) s
      (s.setLink n { s.link n with
        state := .failed, queue := [], slot := none, silence := 0, probeInterval := 0, lastSpeed := false }) := by
    refine Moves.setLink (fun _ => by simp) ?_ fun e => by cases e
    rw [← BitVec.ofNat_add, ← BitVec.ofNat_add, Link.processorEntries_def, Link.processorEntries_def]
    congr 1
    simp only [List.countP_nil]
    cases (s.link n).slot <;> simp only <;> omega
  have h2 := h1.trans (routeAll_moves n .linkFailed (s.link n).queue _)
  cases hv : (s.link n).slot with
  | none =>
    refine h2.congr_shift ?_
    rw [hv]
    simp
  | some v =>
    refine (h2.trans (routeUnanswered_moves n v.entry none .linkFailed)).congr_shift ?_
    rw [hv, Link.SlotSpeed.entry_source]
    ring

/-! ## Frames that end without a reply (04 R66, R74 to R76, R81) -/

theorem endOrphan_rough (n : Transport) (f : InFlight) (h : (s.link n).inFlight = some f) :
    Tame false s (s.endOrphan n f) := by
  unfold endOrphan
  refine Moves.tame (n := n) (Moves.congr_shift ((onLink_moves (b := true)
    (d := BitVec.ofNat 16 f.entry.source.owedOne) ?_ ?_ fun e => by cases e).trans (cancelled_moves n _ _)) (by ring))
  · exact fun e => (Link.choose_queue _).trans e
  · rw [Link.choose_entries, ← BitVec.ofNat_add, ← Link.idle_entries h]

/-- A change of a link that keeps its entries and its queue. -/
theorem onLink_rough {f : Link → Link} (hq : (f (s.link n)).queue.length ≤ (s.link n).queue.length)
    (he : (f (s.link n)).processorEntries = (s.link n).processorEntries) : Tame false s (s.onLink n f) :=
  onLink_tame hq he fun e => by cases e

theorem link_onLink (s : State) (n : Transport) (f : Link → Link) : (s.onLink n f).link n = f (s.link n) := by
  unfold onLink
  rw [link_setLink, if_pos rfl]

theorem missProbe_rough (n : Transport) (f : InFlight) (h : (s.link n).inFlight = some f)
    (hl : f.entry.source = .link) : Tame false s (s.missProbe n f) := by
  unfold missProbe
  simp only
  have h1 : Tame false s (s.onLink n fun l => { l with probeMiss := satSucc 65535 l.probeMiss }) :=
    onLink_rough le_rfl rfl
  refine h1.then_ (.ite (fun _ => ?_) fun _ => ?_)
  · refine onLink_rough ?_ ?_
    · rw [Link.resend_queue]
    · exact Link.resend_entries (by rw [link_onLink]; exact h)
  · refine Tame.then_ (t := (s.onLink n fun l => { l with probeMiss := satSucc 65535 l.probeMiss }).onLink n fun l =>
      { l.idle with probeInterval := 0, state := if l.state = .unprobed then .failed else l.state }) ?_
      (.ite (fun _ => linkChanged_tame n) fun _ => .refl _)
    refine onLink_rough le_rfl ?_
    rw [link_onLink]
    rw [Link.processorEntries_def, Link.processorEntries_def]
    simp only [Link.idle]
    rw [h]
    simp only [Source.owedOne, hl, reduceCtorEq, if_false]

theorem missSpeed_rough (n : Transport) (f : InFlight) (h : (s.link n).inFlight = some f) :
    Tame false s (s.missSpeed n f) := by
  unfold missSpeed
  simp only
  have h1 : Moves false true n (BitVec.ofNat 16 f.entry.source.owedOne) s
      (s.onLink n fun l => { l.idle with silence := min 4 (l.silence + 1) }) := by
    refine onLink_moves (fun e => e) ?_ fun e => by cases e
    rw [← BitVec.ofNat_add]
    exact congrArg _ (Link.idle_entries h)
  refine .ite (fun _ => ?_) fun _ => ?_
  · exact Tame.then_ (Moves.tame ((h1.trans (routeUnanswered_moves n f.entry f.seq .timeout)).congr_shift (by ring)))
      (failLink_rough n)
  · refine Moves.tame (n := n) (Moves.congr_shift ((Tame.after h1 (onLink_rough ?_ ?_)).trans
      (routeUnanswered_moves n f.entry f.seq .timeout)) (by ring))
    · exact Link.choose_queue _
    · exact Link.choose_entries _

theorem missCommand_rough (n : Transport) (f : InFlight) (h : (s.link n).inFlight = some f) :
    Tame false s (s.missCommand n f) := by
  unfold missCommand
  refine .ite (fun _ => ?_) fun _ => ?_
  · refine onLink_rough ?_ (Link.resend_entries h)
    rw [Link.resend_queue]
  · refine Tame.then_ (Moves.tame (n := n) (Moves.congr_shift ((onLink_moves (b := true)
      (d := BitVec.ofNat 16 f.entry.source.owedOne) (fun e => e) ?_ fun e => by cases e).trans
        (routeUnanswered_moves n f.entry f.seq .timeout)) (by ring))) (failLink_rough n)
    rw [← BitVec.ofNat_add]
    exact congrArg _ (Link.idle_entries h)

theorem linkError_inFlight (s : State) (n : Transport) (k : ErrKind) :
    ((s.linkError n k).link n).inFlight = (s.link n).inFlight := by
  unfold link
  rw [linkError_links, Six.get_set_self]
  exact (Link.addError_keeps _ _ _).2.2.1

theorem unanswered_rough (n : Transport) (timer : Bool) : Tame false s (s.unanswered n timer) := by
  unfold unanswered
  split
  · exact .refl s
  · rename_i f hf
    refine .ite (fun _ => endOrphan_rough n f hf) fun _ => .ite (fun hl => missProbe_rough n f hf hl) fun _ => ?_
    simp only
    refine Tame.then_ (t := if timer then s.linkError n .timeout else s)
      (.ite (fun _ => linkError_tame n _) fun _ => .refl s) ?_
    have hf' : ((if timer then s.linkError n .timeout else s).link n).inFlight = some f := by
      split_ifs
      · rw [linkError_inFlight, hf]
      · exact hf
    exact .ite (fun _ => missSpeed_rough n f hf') fun _ => missCommand_rough n f hf'

/-! ## Replies (04 R66, R73) -/

theorem probeAnswered_rough (n : Transport) (reply : ReplyKind) (p : List Byte) (f : InFlight)
    (h : (s.link n).inFlight = some f) (hl : f.entry.source = .link) : Tame false s (s.probeAnswered n reply p) := by
  unfold probeAnswered
  simp only
  refine Tame.then_ (Tame.then_ ?_ (linkChanged_tame n)) (.ite (fun _ => senseTaken_rough n p) fun _ => .refl _)
  refine onLink_rough (Link.choose_queue _) ?_
  rw [Link.choose_entries, Link.processorEntries_def, Link.processorEntries_def]
  simp only [Link.idle]
  rw [h]
  simp only [Source.owedOne, hl, reduceCtorEq, if_false]

theorem matched_rough (n : Transport) (f : InFlight) (reply : ReplyKind) (p : List Byte)
    (h : (s.link n).inFlight = some f) : Tame false s (s.matched n f reply p) := by
  unfold matched
  refine .ite (fun _ => ?_) fun _ => .ite (fun hl => probeAnswered_rough n reply p f h hl) fun _ => ?_
  · refine Tame.then_ (t := s.onLink n ({ · with silence := 0 })) (onLink_rough le_rfl rfl) (endOrphan_rough n f ?_)
    rw [link_onLink]
    exact h
  · refine Moves.tame (n := n) (Moves.congr_shift ((onLink_moves (b := true)
      (d := BitVec.ofNat 16 f.entry.source.owedOne) ?_ ?_ fun e => by cases e).trans
        (routeReply_moves n f.entry f.seq reply p)) (by ring))
    · exact fun e => (Link.choose_queue _).trans e
    · rw [Link.choose_entries, ← BitVec.ofNat_add]
      exact congrArg _ (Link.idle_entries h)

theorem replyFrame_rough (n : Transport) (reply : ReplyKind) (seq : Nat) (p : List Byte) :
    Tame false s (s.replyFrame n reply seq p) := by
  unfold replyFrame
  split
  · rename_i f hf
    exact .ite (fun _ => matched_rough n f reply p hf) fun _ => onLink_rough le_rfl rfl
  · exact onLink_rough le_rfl rfl

theorem noticeFrame_tame (n : Transport) (code : Byte) : Tame r s (s.noticeFrame n code) := by
  have told : ∀ u : State, Tame r s u → Tame r s (if (u.ctx n).owner = .run then u.runNotice n else u) := fun u hu =>
    hu.then_ (.ite (fun _ => runNotice_tame n) fun _ => .refl _)
  exact told _ (Tame.then_ (onCtx_tame (f := (Context.noticed · code)) (Context.noticed_core _ code))
    (Moves.tame (n := n) ((fifoOffer_moves n _).congr_shift rfl)))

/-! ## The receiver (04 R71, R72) -/

theorem receiveError_rough (n : Transport) (k : ErrKind) : Tame false s (s.receiveError n k) := by
  unfold receiveError
  exact Tame.then_ (Tame.then_ (onLink_rough le_rfl rfl) (linkError_tame n k)) (unanswered_rough n false)

theorem frameReceived_rough (n : Transport) (bs : List Byte) : Tame false s (s.frameReceived n bs) := by
  unfold frameReceived
  simp only
  refine .ite (fun _ => receiveError_rough n _) fun _ => .ite (fun _ => ?_) fun _ => ?_
  · exact Tame.then_ (onLink_rough le_rfl rfl) (noticeFrame_tame n _)
  · split
    · exact .ite (fun _ => Tame.then_ (onLink_rough le_rfl rfl) (replyFrame_rough n _ _ _)) fun _ => receiveError_rough n _
    · exact receiveError_rough n _

theorem frameByte_rough (n : Transport) (bs : List Byte) : Tame false s (s.frameByte n bs) := by
  unfold frameByte
  simp only
  exact .ite (fun _ => receiveError_rough n _) fun _ => .ite (fun _ => frameReceived_rough n bs) fun _ =>
    onLink_rough le_rfl rfl

theorem receiveChar_rough (n : Transport) (c : RxChar) : Tame false s (receiveChar n s c) := by
  unfold receiveChar
  split
  · exact .ite (fun _ => onLink_rough le_rfl rfl) fun _ => .refl s
  · exact .ite (fun _ => receiveError_rough n _) fun _ => .ite (fun _ => receiveError_rough n _) fun _ =>
      frameByte_rough n _

theorem receive_rough (n : Transport) (cs : List RxChar) : Tame false s (s.receive n cs) :=
  .ite (fun _ => Tame.foldl _ (fun _ c => receiveChar_rough n c) _ _) fun _ => .refl s

/-! ## The link reset and the timers (04 R65, R70, R71, R75, R79, R80) -/

theorem linkReset_rough (n : Transport) : Tame false s (s.linkReset n) := by
  unfold linkReset
  simp only
  have h1 : Moves false true n (BitVec.ofNat 16 (s.link n).processorEntries) s (s.onLink n resetLink) := by
    refine onLink_moves (fun _ => by simp [resetLink]) ?_ fun e => by cases e
    rw [← BitVec.ofNat_add, Link.processorEntries_def (resetLink _)]
    simp [resetLink]
  have h2 : Moves false true n
      (BitVec.ofNat 16 (s.link n).processorEntries -
        BitVec.ofNat 16 (match (s.link n).inFlight with | some f => f.entry.source.owedOne | none => 0)) s
      (match (s.link n).inFlight with
        | some f => (s.onLink n resetLink).cancelled n f.entry.source f.entry.kind
        | none => s.onLink n resetLink) := by
    cases hf : (s.link n).inFlight with
    | none => exact h1.congr_shift (by simp)
    | some f => exact (h1.trans (cancelled_moves n _ _)).congr_shift (by ring)
  have h3 := h2.trans (cancelAll_moves n (s.link n).queue _)
  have cleared : ∀ u : State, Tame false s u → Tame false s (match (s.link n).state with
      | .up => ((u.emptyFifo n).clearLinkErrors n).linkDeparted n
      | .failed => ((u.emptyFifo n).clearLinkErrors n).linkChanged n
      | .unprobed => (u.emptyFifo n).clearLinkErrors n) := by
    intro u hu
    have hc := (hu.then_ (emptyFifo_tame n)).then_ (clearLinkErrors_tame n)
    split
    · exact hc.then_ (linkDeparted_tame n)
    · exact hc.then_ (linkChanged_tame n)
    · exact hc
  refine cleared _ (Moves.tame (n := n) ?_)
  cases hv : (s.link n).slot with
  | none =>
    refine h3.congr_shift ?_
    rw [Link.processorEntries_def, hv]
    simp only [BitVec.ofNat_add]
    cases (s.link n).inFlight <;> simp
  | some v =>
    refine (h3.trans (cancelled_moves n v.source .speed)).congr_shift ?_
    rw [Link.processorEntries_def, hv]
    simp only [BitVec.ofNat_add]
    cases (s.link n).inFlight <;> simp

theorem transmitDone_rough (n : Transport) : Tame false s (s.transmitDone n) := by
  unfold transmitDone
  split
  · exact .refl s
  · refine onLink_rough ?_ ?_ <;> dsimp only <;> split
    · split_ifs
      · exact le_rfl
      · rw [(Link.begin_keeps _).2.1]
    · exact le_rfl
    · rename_i f hf
      split_ifs
      · rw [Link.processorEntries_def, Link.processorEntries_def, hf]
      · rw [(Link.begin_keeps _).1]
        rfl
    · rfl

theorem replyTimedOut_rough (n : Transport) : Tame false s (s.replyTimedOut n) := by
  unfold replyTimedOut
  split
  · exact Tame.then_ (onLink_rough le_rfl rfl) (unanswered_rough n true)
  · exact .refl s

theorem gapExpired_rough (n : Transport) : Tame false s (s.gapExpired n) := by
  unfold gapExpired
  split
  · exact receiveError_rough n _
  · exact .refl s

theorem breakEnded_rough (n : Transport) : Tame false s (s.breakEnded n) := by
  unfold breakEnded
  split
  · refine onLink_rough ?_ ?_
    · rw [(Link.setupTaken_keeps _).2.1]
    · rw [(Link.setupTaken_keeps _).1]
      rfl
  · exact .refl s

theorem linkBoundary_rough (n : Transport) (s : State) : Tame false s (linkBoundary n s) := by
  unfold linkBoundary
  simp only
  refine Tame.then_ (onLink_rough ?_ ?_) (.ite (fun _ => mark_tame _) fun _ => .refl _)
  · rw [(Link.probeTick_keeps _).2.1]
  · exact (Link.probeTick_keeps _).1

end State

end Sys2Proof.Machine
end

