-- ==== Sys2Proof/Laws/Boundaries.lean ====
section
/-! SUPPORT. `Moves` for the passing of time, field and frame boundaries, and the events of the house reference (02). -/

namespace Sys2Proof.Machine

set_option Elab.async false

variable {r : Bool} {s t : State} {sh : Bool}

namespace State

theorem setRtu_rough (x : Rtu) : Tame false s (s.setRtu x) := Tame.of_readers fun _ => rfl

theorem onRtu_rough (f : Rtu → Rtu) : Tame false s (s.onRtu f) := setRtu_rough _

theorem dropMarks_rough : Tame false s s.dropMarks := Tame.of_readers fun _ => rfl

/-- A change of every link that keeps queues and entries. -/
theorem mapLinks_rough (f : Link → Link) (hq : ∀ l, (f l).queue = l.queue)
    (he : ∀ l, (f l).processorEntries = l.processorEntries) : Tame false s { s with links := s.links.map f } := by
  have hl : ∀ m, ({ s with links := s.links.map f } : State).link m = f (s.link m) := fun m => Six.get_map ..
  refine
    { pending := rfl, cfg := rfl, stack := rfl, levels := rfl, events := fun _ _ e => e, hold := fun e => e, iru := fun e => e, fifo := fun _ e => e
      queue := fun m e => ?_, runFault := fun e => e, deck := fun _ _ e => e, books := fun m => ?_, rtu := fun e => by cases e
      readers := fun e => by cases e
      marks := fun e => by cases e
      down := fun e => by cases e }
  · rw [hl, hq]
    exact e
  · unfold owed
    rw [hl, he]
    simp [ctx]

theorem tellLinks_rough : Tame false s s.tellLinks :=
  mapLinks_rough _ (fun l => (Link.setupTaken_keeps l).2.1) fun l => (Link.setupTaken_keeps l).1

end State

theorem elapse_rough (k : Nat) (s : State) : Tame false s (elapse k s) := by
  unfold elapse
  refine .ite (fun _ => .refl s) fun _ => ?_
  simp only
  generalize k * (if s.rtu.state = .locked then Config.lockedPu s.free else s.standard.puUnits) = d
  refine Tame.then_ (State.mapLinks_rough (s := s) (Link.elapse d) (fun _ => rfl) fun _ => rfl) ?_
  exact
    { pending := rfl, cfg := rfl, stack := rfl, levels := rfl, events := fun _ _ e => e
      hold := fun e => by
        have e' : s.ptu.hold = none := e
        simp [e']
      iru := fun e => e, fifo := fun _ e => e, queue := fun _ e => e, runFault := fun e => e, deck := fun _ _ e => e
      books := fun m => by simp [State.owed, State.ctx, State.link]
      rtu := fun e => by cases e
      readers := fun e => by cases e
      marks := fun e => by cases e
      down := fun e => by cases e }

namespace State

theorem field2Boundary_rough : Tame false s s.field2Boundary :=
  (dropMarks_rough.then_ (onRtu_rough _)).then_ (fieldWork_tame _)

theorem countFrame_rough : Tame false s (s.countFrame sh) := by
  unfold countFrame
  simp only
  exact Tame.then_ (onRtu_rough _) (.ite (fun _ => raise_tame _ rfl) fun _ => .refl _)

theorem readerBoundary_rough (len : Nat) (n : Transport) (s : State) : Tame false s (readerBoundary len n s) := by
  unfold readerBoundary
  simp only
  exact Tame.then_ (putReader_rough _ _) (.ite (fun _ => mark_tame _) fun _ => .ite (fun _ => mark_tame _) fun _ => .refl _)

/-- The work of a frame boundary that follows the readers'. -/
def afterReaders (s : State) : State :=
  let s := (forTransports Transport.all linkBoundary s).adoptParams
  let s := s.runAndChase (Transport.all.filter fun n => (s.chase n).computes) s.chases
  s.fieldWork false

theorem frameBoundary_eq (s : State) : (s.frameBoundary sh) = (s.readersDone sh).afterReaders := rfl

theorem readersDone_rough : Tame false s (s.readersDone sh) :=
  (dropMarks_rough.then_ countFrame_rough).then_ (Tame.forTransports (fun n s => readerBoundary_rough _ n s) _ _)

theorem afterReaders_rough : Tame false s s.afterReaders := by
  unfold afterReaders
  exact Tame.then_ (Tame.then_ (Tame.then_ (Tame.forTransports (fun n s => linkBoundary_rough n s) _ _) adoptParams_tame)
    (runAndChase_tame _ _)) (fieldWork_tame _)

theorem frameBoundary_rough : Tame false s (s.frameBoundary sh) := readersDone_rough.then_ afterReaders_rough

theorem enterReference_rough (x : Rtu) : Tame false s (s.enterReference x) := by
  unfold enterReference
  simp only
  exact .ite (fun _ => setRtu_rough x) fun _ => ((setRtu_rough x).then_ (raise_tame _ rfl)).then_ (runReference_tame _ _)

theorem overdueBoundary_rough : Tame false s s.overdueBoundary := .ite (fun _ => frameBoundary_rough) fun _ => .refl s

theorem lockPulse_rough : Tame false s s.lockPulse := by
  unfold lockPulse
  simp only
  exact Tame.then_ (enterReference_rough _) (.ite (fun _ => .refl _) fun _ => frameBoundary_rough)

theorem acquiringPulse_rough : Tame false s s.acquiringPulse :=
  .ite (fun _ => .ite (fun _ => lockPulse_rough) fun _ => onRtu_rough _) fun _ => onRtu_rough _

theorem earlyPulse_rough : Tame false s s.earlyPulse := by
  unfold earlyPulse
  simp only
  exact Tame.then_ (onRtu_rough _) (.ite (fun _ => (enterReference_rough _).then_ overdueBoundary_rough) fun _ => onRtu_rough _)

theorem lockedPulse_rough : Tame false s s.lockedPulse :=
  .ite (fun _ => onRtu_rough _) fun _ => .ite (fun _ => (onRtu_rough _).then_ frameBoundary_rough) fun _ => earlyPulse_rough

theorem framePulse_rough : Tame false s s.framePulse := by
  unfold framePulse
  refine .ite (fun _ => ?_) fun _ => .refl s
  split
  · exact enterReference_rough _
  · exact enterReference_rough _
  · exact acquiringPulse_rough
  · exact lockedPulse_rough

theorem fieldPulse_rough : Tame false s s.fieldPulse := .ite (fun _ => field2Boundary_rough) fun _ => .refl s

theorem wrapBoundary_rough : Tame false s s.wrapBoundary :=
  .ite (fun _ => (elapse_rough _ s).then_ frameBoundary_rough) fun _ => .refl s

theorem generatedBoundary_rough : Tame false s s.generatedBoundary :=
  .ite (fun _ => ((elapse_rough _ s).then_ (onRtu_rough _)).then_ frameBoundary_rough) fun _ => .refl s

theorem referenceLost_rough : Tame false s s.referenceLost := by
  unfold referenceLost
  simp only
  exact .ite (fun _ => (elapse_rough _ s).then_ (enterReference_rough _)) fun _ => .refl s

theorem acquireTimeout_rough : Tame false s s.acquireTimeout := by
  unfold acquireTimeout
  simp only
  exact .ite (fun _ => (elapse_rough _ s).then_ (enterReference_rough _)) fun _ => .refl s

theorem field2Point_rough : Tame false s s.field2Point :=
  .ite (fun _ => .ite (fun _ => .ite (fun _ => (elapse_rough _ s).then_ field2Boundary_rough) fun _ => .refl s)
    fun _ => .ite (fun _ => (elapse_rough _ s).then_ field2Boundary_rough) fun _ => .refl s) fun _ => .refl s

theorem restandard_rough : Tame false s s.restandard := enterReference_rough _

theorem frameCause_rough (c : FrameCause) : Tame false s (s.frameCause c) := by
  cases c
  · exact wrapBoundary_rough
  · exact generatedBoundary_rough
  · exact framePulse_rough

theorem fieldCause_rough (c : FieldCause) : Tame false s (s.fieldCause c) := by
  cases c
  · exact frameCause_rough _
  · exact field2Point_rough
  · exact fieldPulse_rough

theorem markedFrame_rough (c : FrameCause) (m : Mark) : Tame false s (s.markedFrame c m) := by
  unfold markedFrame
  simp only
  exact .ite (fun _ => dropMarks_rough.then_ (frameCause_rough c)) fun _ => .refl s

theorem markedField_rough (c : FieldCause) (m : Mark) : Tame false s (s.markedField c m) := by
  unfold markedField
  simp only
  exact .ite (fun _ => dropMarks_rough.then_ (fieldCause_rough c)) fun _ => .refl s

theorem tapeWord_rough (n : Transport) (bits : BitVec 80) : Tame false s (s.tapeWord n bits) := by
  unfold tapeWord
  refine .ite (fun _ => ?_) fun _ => .refl s
  split
  · exact .ite (fun _ => setReader_rough n _) fun _ => putReader_rough n _
  · exact .refl s

end State

end Sys2Proof.Machine
end

