-- ==== Sys2Proof/Laws/BoundaryParts.lean ====
section
/-! SUPPORT. The parts of a frame boundary in their order, and what each leaves of the counters, the readers, the links and
the marks (02 R24, 03 R50, 04 R65). -/

namespace Sys2Proof.Machine

set_option Elab.async false

namespace State

variable {s t b : State} {n : Transport} {sh : Bool}

theorem next_eq (std : Standard) (r : Rtu) : r.boundary std sh = Rtu.next std sh r := by
  unfold Rtu.boundary Rtu.next reduce
  congr 1

/-- A change of reference state that the run does not act on. -/
theorem enterReference_apart (x : Rtu) (h : s.rtu.state ≠ x.state) (hq : s.rtu.state ≠ .locked ∨ s.RunQuiet) :
    s.enterReference x = (s.setRtu x).raise .reference := by
  unfold enterReference
  simp only
  rw [if_neg h]
  unfold runReference
  rw [if_neg]
  have hr : ((s.setRtu x).raise .reference).run = s.run := by rw [(raise_keeps _ _).2.2.2.2.2.2.2.2.2.1]; rfl
  rw [hr]
  rcases hq with h | h | h
  · simp [h]
  · simp [h]
  · simp [h]

theorem enterReference_ready (hc : s.configured = true) (hh : s.ptu.hold = none) (x : Rtu) (h : s.rtu.state ≠ x.state) (hq : s.rtu.state ≠ .locked ∨ s.RunQuiet) :
    s.enterReference x = { s with rtu := x, iru := s.iru.raise .reference } := by
  rw [enterReference_apart x h hq, raise_ready (by exact hc) (by exact hh)]
  rfl

theorem linkBoundary_keeps (n : Transport) (s : State) : (linkBoundary n s).rtu = s.rtu ∧ (linkBoundary n s).readers = s.readers ∧
    (∀ x ∈ s.marks, x ∈ (linkBoundary n s).marks) ∧ (linkBoundary n s).mixer = s.mixer ∧ (linkBoundary n s).chases = s.chases ∧
    (linkBoundary n s).run = s.run ∧ (linkBoundary n s).et = s.et ∧ (linkBoundary n s).ctxs = s.ctxs ∧ (linkBoundary n s).ptu = s.ptu ∧
    (linkBoundary n s).cfg = s.cfg ∧ (linkBoundary n s).iru = s.iru ∧
    (∀ m, (linkBoundary n s).link m = if m = n then (s.link n).probeTick else s.link m) := by
  unfold linkBoundary
  simp only
  refine ⟨?_, ?_, ?_, ?_, ?_, ?_, ?_, ?_, ?_, ?_, ?_, ?_⟩
  · split_ifs <;> rfl
  · split_ifs <;> rfl
  · intro x hx; split_ifs
    · exact List.mem_append_left _ hx
    · exact hx
  · split_ifs <;> rfl
  · split_ifs <;> rfl
  · split_ifs <;> rfl
  · split_ifs <;> rfl
  · split_ifs <;> rfl
  · split_ifs <;> rfl
  · split_ifs <;> rfl
  · split_ifs <;> rfl
  · intro m
    have : ∀ y : State, (y.mark (.probe n)).link m = y.link m := fun _ => rfl
    split_ifs <;> first | (rw [this]; unfold onLink; rw [link_setLink]; simp [*]) | (unfold onLink; rw [link_setLink]; simp [*])

/-- What the work of the links keeps. -/
theorem linkBoundaries_keep : ∀ (ts : List Transport) (s : State), (forTransports ts linkBoundary s).rtu = s.rtu ∧ (forTransports ts linkBoundary s).readers = s.readers ∧
    (∀ x ∈ s.marks, x ∈ (forTransports ts linkBoundary s).marks) ∧ (forTransports ts linkBoundary s).mixer = s.mixer ∧ (forTransports ts linkBoundary s).chases = s.chases ∧
    (forTransports ts linkBoundary s).run = s.run ∧ (forTransports ts linkBoundary s).et = s.et ∧ (forTransports ts linkBoundary s).ctxs = s.ctxs ∧ (forTransports ts linkBoundary s).ptu = s.ptu ∧
    (forTransports ts linkBoundary s).cfg = s.cfg ∧ (forTransports ts linkBoundary s).iru = s.iru
  | [], s => ⟨rfl, rfl, fun _ h => h, rfl, rfl, rfl, rfl, rfl, rfl, rfl, rfl⟩
  | n :: ts, s => by
    obtain ⟨a1, a2, a3, a4, a5, a6, a7, a8, a9, a10, a11, -⟩ := linkBoundary_keeps n s
    obtain ⟨b1, b2, b3, b4, b5, b6, b7, b8, b9, b10, b11⟩ := linkBoundaries_keep ts (linkBoundary n s)
    exact ⟨b1.trans a1, b2.trans a2, fun x h => b3 x (a3 x h), b4.trans a4, b5.trans a5, b6.trans a6, b7.trans a7, b8.trans a8, b9.trans a9, b10.trans a10, b11.trans a11⟩

theorem frameBoundary_parts (s : State) : (s.frameBoundary sh) = ((linksDone s sh).runAndChase (Transport.all.filter fun n => ((linksDone s sh).chase n).computes) (linksDone s sh).chases).fieldWork false := rfl

theorem readerBoundary_keeps (len : Nat) (n : Transport) (s : State) : (readerBoundary len n s).rtu = s.rtu ∧
    (∀ x ∈ s.marks, x ∈ (readerBoundary len n s).marks) ∧ (∀ m, (readerBoundary len n s).reader m = if m = n then (s.reader n).boundary s.standard s.coastLimit len else s.reader m) ∧
    (readerBoundary len n s).links = s.links ∧ (readerBoundary len n s).chases = s.chases ∧ (readerBoundary len n s).mixer = s.mixer ∧
    (readerBoundary len n s).run = s.run ∧ (readerBoundary len n s).et = s.et ∧ (readerBoundary len n s).cfg = s.cfg := by
  unfold readerBoundary
  simp only
  have hp : ∀ r : Reader, (s.putReader n r).rtu = s.rtu ∧ (s.putReader n r).marks = s.marks ∧ (s.putReader n r).readers = s.readers.set n r ∧ (s.putReader n r).links = s.links ∧
      (s.putReader n r).chases = s.chases ∧ (s.putReader n r).mixer = s.mixer ∧ (s.putReader n r).run = s.run ∧ (s.putReader n r).et = s.et ∧ (s.putReader n r).cfg = s.cfg := by
    intro r
    unfold putReader
    split_ifs
    · exact ⟨rfl, rfl, rfl, rfl, rfl, rfl, rfl, rfl, rfl⟩
    · obtain ⟨h1, h2, h3, h4, h5, h6, h7, h8, h9, h10, h11⟩ := raise_keeps (s.setReader n r) .reader
      exact ⟨h5, h3, h6, h7, h8, h11, h10, h9, h4⟩
  obtain ⟨h1, h2, h3, h4, h5, h6, h7, h8, h9⟩ := hp ((s.reader n).boundary s.standard s.coastLimit len)
  generalize s.putReader n ((s.reader n).boundary s.standard s.coastLimit len) = y at *
  have hr : ∀ m, y.reader m = if m = n then (s.reader n).boundary s.standard s.coastLimit len else s.reader m := by
    intro m
    unfold reader
    rw [h3, Six.get_set]
    rfl
  split_ifs
  · exact ⟨h1, fun x hx => List.mem_append_left _ (by rw [h2]; exact hx), hr, h4, h5, h6, h7, h8, h9⟩
  · exact ⟨h1, fun x hx => List.mem_append_left _ (by rw [h2]; exact hx), hr, h4, h5, h6, h7, h8, h9⟩
  · exact ⟨h1, fun x hx => by rw [h2]; exact hx, hr, h4, h5, h6, h7, h8, h9⟩

theorem readerBoundaries_keep (len : Nat) : ∀ (ts : List Transport) (s : State), ts.Nodup → (forTransports ts (readerBoundary len) s).rtu = s.rtu ∧
    (∀ x ∈ s.marks, x ∈ (forTransports ts (readerBoundary len) s).marks) ∧
    (∀ m, (forTransports ts (readerBoundary len) s).reader m = if m ∈ ts then (s.reader m).boundary s.standard s.coastLimit len else s.reader m) ∧
    (forTransports ts (readerBoundary len) s).links = s.links ∧ (forTransports ts (readerBoundary len) s).chases = s.chases ∧ (forTransports ts (readerBoundary len) s).mixer = s.mixer ∧
    (forTransports ts (readerBoundary len) s).run = s.run ∧ (forTransports ts (readerBoundary len) s).et = s.et ∧ (forTransports ts (readerBoundary len) s).cfg = s.cfg
  | [], s, _ => ⟨rfl, fun _ h => h, fun m => by simp; rfl, rfl, rfl, rfl, rfl, rfl, rfl⟩
  | n :: ts, s, hd => by
    obtain ⟨a1, a2, a3, a4, a5, a6, a7, a8, a9⟩ := readerBoundary_keeps len n s
    obtain ⟨b1, b2, b3, b4, b5, b6, b7, b8, b9⟩ := readerBoundaries_keep len ts (readerBoundary len n s) (List.nodup_cons.1 hd).2
    refine ⟨b1.trans a1, fun x h => b2 x (a2 x h), ?_, b4.trans a4, b5.trans a5, b6.trans a6, b7.trans a7, b8.trans a8, b9.trans a9⟩
    intro m
    have hst : (readerBoundary len n s).standard = s.standard ∧ (readerBoundary len n s).coastLimit = s.coastLimit := by
      unfold standard coastLimit
      rw [a9]
      exact ⟨rfl, rfl⟩
    show (forTransports ts (readerBoundary len) (readerBoundary len n s)).reader m = _
    rw [b3, a3, hst.1, hst.2]
    by_cases e : m = n
    · subst e
      rw [if_neg (List.nodup_cons.1 hd).1, if_pos rfl, if_pos (by simp)]
    · rw [if_neg e]
      simp [e]

theorem countFrame_keeps (s : State) : (s.countFrame sh).rtu = Rtu.next s.standard sh s.rtu ∧ (s.countFrame sh).marks = s.marks ∧ (s.countFrame sh).readers = s.readers ∧ (s.countFrame sh).links = s.links ∧
    (s.countFrame sh).chases = s.chases ∧ (s.countFrame sh).mixer = s.mixer ∧ (s.countFrame sh).run = s.run ∧ (s.countFrame sh).et = s.et ∧ (s.countFrame sh).cfg = s.cfg := by
  unfold countFrame
  simp only
  split_ifs
  · obtain ⟨h1, h2, h3, h4, h5, h6, h7, h8, h9, h10, h11⟩ := raise_keeps (s.onRtu (Rtu.boundary s.standard sh)) .frame
    exact ⟨h5.trans (next_eq _ _), h3, h6, h7, h8, h11, h10, h9, h4⟩
  · exact ⟨next_eq _ _, rfl, rfl, rfl, rfl, rfl, rfl, rfl, rfl⟩

theorem readersDone_keeps (s : State) : (s.readersDone sh).rtu = Rtu.next s.standard sh s.rtu ∧
    (∀ m, (s.readersDone sh).reader m = (s.reader m).boundary s.standard s.coastLimit s.rtu.phase) ∧
    (s.readersDone sh).links = s.links ∧ (s.readersDone sh).chases = s.chases ∧ (s.readersDone sh).mixer = s.mixer ∧
    (s.readersDone sh).run = s.run ∧ (s.readersDone sh).et = s.et ∧ (s.readersDone sh).cfg = s.cfg := by
  unfold readersDone
  obtain ⟨a1, a2, a3, a4, a5, a6, a7, a8, a9⟩ := countFrame_keeps s.dropMarks
  generalize (s.dropMarks.countFrame sh) = y at *
  obtain ⟨b1, b2, b3, b4, b5, b6, b7, b8, b9⟩ := readerBoundaries_keep s.rtu.phase Transport.all y (by decide)
  refine ⟨b1.trans a1, ?_, b4.trans a4, b5.trans a5, b6.trans a6, b7.trans a7, b8.trans a8, b9.trans a9⟩
  intro m
  rw [b3, if_pos (Transport.mem_all m)]
  have : y.reader m = s.reader m := by unfold reader; rw [a3]; rfl
  rw [this]
  unfold standard coastLimit
  rw [a9]
  rfl

theorem frameBoundary_rtu : (s.frameBoundary sh).rtu = Rtu.next s.standard sh s.rtu := by
  rw [frameBoundary_parts, (fieldWork_tame (r := true) _).rtu rfl, (runAndChase_tame (r := true) _ _).rtu rfl]
  obtain ⟨h1, -⟩ := readersDone_keeps s
  unfold linksDone
  generalize (s.readersDone sh) = y at h1 ⊢
  have h2 : ∀ z : State, z.adoptParams.rtu = z.rtu := fun _ => rfl
  rw [h2, (linkBoundaries_keep Transport.all y).1, h1]

theorem elapse_configured (k : Nat) : (elapse k s).configured = s.configured := by
  unfold elapse
  split_ifs <;> rfl

theorem elapse_state (k : Nat) : (elapse k s).rtu.state = s.rtu.state ∧ (elapse k s).iru = s.iru ∧ (elapse k s).run = s.run ∧ (elapse k s).cfg = s.cfg ∧
    (elapse k s).readers = s.readers ∧ (elapse k s).et = s.et ∧ (elapse k s).pending = s.pending ∧ (elapse k s).chases = s.chases := by
  unfold elapse
  split_ifs <;> exact ⟨rfl, rfl, rfl, rfl, rfl, rfl, rfl, rfl⟩

theorem elapse_hold (k : Nat) (h : s.ptu.hold = none) : (elapse k s).ptu.hold = none := (elapse_rough k s).hold h

/-- Only the locking pulse shortens a frame. -/
theorem shortens_apart (c : FrameCause) (h : s.rtu.state ≠ .acquiring) : s.shortens c = false := by
  simp [shortens, h]

/-- The boundary of a cause is the frame boundary of the state it begins in. -/
theorem frameCause_at {c : FrameCause} (h : s.atBoundary c = some b) : s.frameCause c = b.frameBoundary (s.shortens c) := by
  cases c with
  | wrap =>
    simp only [atBoundary] at h
    split_ifs at h with h1
    cases h
    unfold frameCause wrapBoundary
    simp only
    rw [if_pos h1]
    rfl
  | generated =>
    simp only [atBoundary] at h
    split_ifs at h with h1
    cases h
    unfold frameCause generatedBoundary
    simp only
    rw [if_pos h1]
    rfl
  | pulse =>
    simp only [atBoundary] at h
    have e : s.frameCause .pulse = s.framePulse := rfl
    rw [e]
    unfold framePulse
    split_ifs at h with h1 h2 h3 h4
    · cases h
      simp only [Bool.and_eq_true, decide_eq_true_eq, Bool.not_eq_true'] at h1
      rw [if_pos h1.1.1, h1.1.2]
      show s.lockedPulse = _
      unfold lockedPulse
      rw [if_neg (by rw [h1.2]; exact nofun), if_pos h2, shortens_apart _ (by rw [h1.1.2]; exact nofun)]
    · cases h
      simp only [Bool.and_eq_true, decide_eq_true_eq, Bool.not_eq_true'] at h1
      rw [if_pos h1.1.1, h1.1.2]
      show s.lockedPulse = _
      unfold lockedPulse
      rw [if_neg (by rw [h1.2]; exact nofun), if_neg h2]
      unfold earlyPulse
      simp only
      rw [if_pos (by exact h3.1)]
      have hne : s.rtu.state ≠ s.rtu.unlocking.state := by rw [h1.1.2]; exact nofun
      have e1 : ∀ x : Rtu, x = s.rtu.unlocking →
          ((s.onRtu fun r => { r with disturbances := satSucc 65535 r.disturbances }).enterReference x).overdueBoundary =
            (s.enterReference s.rtu.unlocking).overdueBoundary := by
        rintro x rfl
        congr 1
      refine (e1 _ rfl).trans ?_
      unfold overdueBoundary
      have e2 : (s.enterReference s.rtu.unlocking).rtu = s.rtu.unlocking := by
        unfold enterReference
        simp only
        rw [if_neg hne, (runReference_tame (r := true) _ _).rtu rfl, (raise_keeps _ _).2.2.2.2.1]
        rfl
      rw [if_pos (by rw [e2]; exact ⟨rfl, h3.2⟩), shortens_apart _ (by rw [h1.1.2]; exact nofun)]
    · cases h
      simp only [Bool.and_eq_true, decide_eq_true_eq, bne_iff_ne] at h4
      rw [if_pos h4.1.1.1.1, h4.1.1.1.2]
      show s.acquiringPulse = _
      unfold acquiringPulse
      rw [if_pos h4.1.1.2, if_pos h4.1.2]
      unfold lockPulse
      simp only
      show (if (s.enterReference s.rtu.locking).rtu.phase = 0 then s.enterReference s.rtu.locking else (s.enterReference s.rtu.locking).frameBoundary (decide (1 ≤ s.rtu.phase ∧ s.rtu.phase ≤ 63))) = _
      rw [enterReference_apart s.rtu.locking (by rw [h4.1.1.1.2]; exact nofun) (.inl (by rw [h4.1.1.1.2]; exact nofun))]
      have hs : s.shortens .pulse = decide (1 ≤ s.rtu.phase ∧ s.rtu.phase ≤ 63) := by simp [shortens, h4.1.1.1.2]
      rw [hs]
      generalize decide (1 ≤ s.rtu.phase ∧ s.rtu.phase ≤ 63) = short
      refine if_neg ?_
      rw [(raise_keeps _ _).2.2.2.2.1]
      exact h4.2

theorem exec_boundary (c : FrameCause) : exec (boundaryCommand c) s = .next (s.frameCause c) := by cases c <;> rfl

/-- What leads to a boundary. -/
theorem atBoundary_rough {c : FrameCause} (h : s.atBoundary c = some b) : Tame false s b := by
  cases c with
  | wrap =>
    simp only [atBoundary] at h
    split_ifs at h
    cases h
    exact elapse_rough _ _
  | generated =>
    simp only [atBoundary] at h
    split_ifs at h
    cases h
    exact (elapse_rough _ _).then_ (onRtu_rough _)
  | pulse =>
    simp only [atBoundary] at h
    split_ifs at h
    · cases h; exact onRtu_rough _
    · cases h; exact enterReference_rough _
    · cases h; exact (setRtu_rough _).then_ (raise_tame _ rfl)

theorem frameBoundary_reader (b : State) (n : Transport) : (b.frameBoundary sh).reader n = (b.reader n).boundary b.standard b.coastLimit b.rtu.phase := by
  obtain ⟨-, h1, -⟩ := readersDone_keeps b
  rw [← h1]
  have e : (b.frameBoundary sh).readers = (b.readersDone sh).readers := by
    rw [frameBoundary_parts, (fieldWork_tame (r := true) _).readers rfl, (runAndChase_tame (r := true) _ _).readers rfl]
    unfold linksDone
    generalize (b.readersDone sh) = y
    have h2 : ∀ z : State, z.adoptParams.readers = z.readers := fun _ => rfl
    rw [h2, (linkBoundaries_keep Transport.all y).2.1]
  unfold reader
  rw [e]

theorem afterReaders_of (b : State) : (b.frameBoundary sh) = (b.readersDone sh).afterReaders := rfl

theorem frame_raised (hc : b.configured = true) (h1 : b.frameAllowed = true) (h2 : b.iru.level .frame ≠ 0) : (b.frameBoundary sh).iru.isPending .frame = true := by
  rw [afterReaders_of]
  refine afterReaders_rough.events _ rfl ?_
  unfold readersDone
  refine (Tame.forTransports (r := false) (fun n s => readerBoundary_rough _ n s) _ _).events _ rfl ?_
  unfold countFrame
  simp only
  rw [if_pos (by exact h1)]
  have : ∀ y : State, y.configured = true → y.iru.level .frame ≠ 0 → (y.raise .frame).iru.isPending .frame = true := by
    intro y hy hl
    unfold State.raise
    refine (yieldHold_tame (r := true)).events _ rfl ?_
    unfold raiseFree
    rw [if_pos hy]
    show (y.iru.raise .frame).isPending .frame = true
    rw [Iru.isPending_raise, if_pos ⟨rfl, hl⟩]
  exact this _ hc h2

theorem atBoundary_configured {c : FrameCause} (h : s.atBoundary c = some b) : b.configured = true := by
  have hs : s.configured = true := by
    cases c <;> simp only [atBoundary] at h <;> split_ifs at h <;> simp_all
  unfold configured
  rw [(atBoundary_rough h).cfg]
  exact hs

/-- What step 4 of a field boundary leaves. -/
theorem transitionField_keeps (s : State) : s.transitionField.rtu = s.rtu ∧ s.transitionField.links = s.links ∧ s.transitionField.chases = s.chases ∧
    s.transitionField.readers = s.readers ∧ s.transitionField.run = s.run ∧ s.transitionField.et = s.et ∧ s.transitionField.cfg = s.cfg ∧
    s.transitionField.pending = s.pending ∧ (∀ x ∈ s.marks, x ∈ s.transitionField.marks) ∧
    s.transitionField.mixer.crosspoints = s.mixer.crosspoints ∧ s.transitionField.mixer.pendingCross = s.mixer.pendingCross ∧
    s.transitionField.mixer.tx = s.mixer.tx ∧ s.transitionField.mixer.timers = s.mixer.timers ∧ s.transitionField.mixer.pulses = s.mixer.pulses ∧
    s.transitionField.mixer.retriggers = s.mixer.retriggers := by
  unfold transitionField
  cases s.mixer.transition with
  | none => exact ⟨rfl, rfl, rfl, rfl, rfl, rfl, rfl, rfl, fun _ h => h, rfl, rfl, rfl, rfl, rfl, rfl⟩
  | some x =>
    simp only
    split_ifs
    · exact ⟨rfl, rfl, rfl, rfl, rfl, rfl, rfl, rfl, fun _ h => h, rfl, rfl, rfl, rfl, rfl, rfl⟩
    · obtain ⟨h1, h2, h3, h4, h5, h6, h7, h8, h9, h10, h11⟩ := raise_keeps (s.onMixer (·.complete x)) .transition
      have hm : ((s.onMixer (·.complete x)).raise .transition |>.mark .transitionEnd).mixer = s.mixer.complete x := h11
      refine ⟨h5, h7, h8, h6, h10, h9, h4, h1, ?_, ?_, ?_, ?_, ?_, ?_, ?_⟩
      · intro y hy
        refine List.mem_append_left _ ?_
        rw [h3]; exact hy
      all_goals
        rw [hm]
        unfold Mixer.complete
        split_ifs <;> rfl

theorem fieldCause_point {b : State} (h : s.atField .point = some b) : s.field2Point = b.field2Boundary := by
  simp only [atField] at h
  unfold field2Point
  split_ifs at h with h1 h2 h3 h4 <;> cases h
  · rw [if_pos h1, if_pos h2, if_pos h3]
  · rw [if_pos h1, if_neg h2, if_pos h4]

theorem fieldCause_pulse {b : State} (h : s.atField .pulse = some b) : b = s ∧ s.fieldPulse = s.field2Boundary := by
  simp only [atField] at h
  split_ifs at h with h1
  cases h
  simp only [Bool.and_eq_true, decide_eq_true_eq, Bool.not_eq_true'] at h1
  refine ⟨rfl, ?_⟩
  unfold fieldPulse
  rw [if_pos ⟨h1.1.1.1, h1.1.1.2, h1.1.2.1, h1.1.2.2, h1.2⟩]

theorem frame_bytes (m : Mixer) (p : Bool) : (m.frame p).length = 8 ∧ (m.frame p).head? = some 0xC3 ∧ (m.frame p).tail.sum = 0 := by
  refine ⟨rfl, rfl, ?_⟩
  unfold Mixer.frame
  simp only [List.cons_append, List.tail_cons, List.sum_append, List.sum_cons, List.sum_nil]
  rw [add_zero]
  exact add_sub_cancel _ _ |>.trans rfl

/-- A marked step of a boundary, when its mark came about. -/
theorem markedFrame_at {c : FrameCause} {m : Mark} (h : s.dropMarks.atBoundary c = some b) (hm : m ∈ (b.frameBoundary (s.shortens c)).marks) :
    s.markedFrame c m = b.frameBoundary (s.shortens c) := by
  unfold markedFrame
  simp only
  rw [frameCause_at h, if_pos]
  · rfl
  · exact hm

/-- A mark of a reader's work stands at the end of the boundary. -/
theorem readerMark {x : Mark} (b : State)
    (hx : ∀ y : State, y.reader n = b.reader n → y.cfg = b.cfg → x ∈ (readerBoundary b.rtu.phase n y).marks) : x ∈ (b.frameBoundary sh).marks := by
  rw [frameBoundary_parts]
  refine (fieldWork_tame (r := true) _).marks rfl _ ((runAndChase_tame (r := true) _ _).marks rfl _ ?_)
  have h1 : x ∈ (b.readersDone sh).marks := by
    unfold readersDone
    obtain ⟨a1, a2, a3, a4, a5, a6, a7, a8, a9⟩ := countFrame_keeps b.dropMarks
    generalize (b.dropMarks.countFrame sh) = y at *
    have hr : ∀ m, y.reader m = b.reader m := fun m => by unfold reader; rw [a3]; rfl
    have hc : y.cfg = b.cfg := a9
    clear a1 a2 a3 a4 a5 a6 a7 a8 a9
    have key : ∀ (ts : List Transport) (y : State), ts.Nodup → n ∈ ts → y.reader n = b.reader n → y.cfg = b.cfg →
        x ∈ (forTransports ts (readerBoundary b.rtu.phase) y).marks := by
      intro ts
      induction ts with
      | nil => intro y _ h; cases h
      | cons k ts ih =>
        intro y hd hn h1 h2
        obtain ⟨b1, b2, b3, b4, b5, b6, b7, b8, b9⟩ := readerBoundary_keeps b.rtu.phase k y
        by_cases e : n = k
        · subst e
          exact (readerBoundaries_keep b.rtu.phase ts _ (List.nodup_cons.1 hd).2).2.1 _ (hx y h1 h2)
        · refine ih (readerBoundary b.rtu.phase k y) (List.nodup_cons.1 hd).2 ((List.mem_cons.1 hn).resolve_left e) ?_ (b9.trans h2)
          rw [b3, if_neg e]; exact h1
    exact key _ y (by decide) (Transport.mem_all n) (hr n) hc
  unfold linksDone
  generalize (b.readersDone sh) = y at h1 ⊢
  have h2 : ∀ z : State, z.adoptParams.marks = z.marks := fun _ => rfl
  rw [h2]
  exact (linkBoundaries_keep Transport.all y).2.2.1 _ h1

/-- An event source raised while its level is not 0 is pending. -/
theorem raise_pending {y : State} {i : Irq} (hi : i.condition = false) (hy : y.configured = true) (hl : y.iru.level i ≠ 0) : (y.raise i).iru.isPending i = true := by
  unfold State.raise
  refine (yieldHold_tame (r := true)).events _ hi ?_
  unfold raiseFree
  rw [if_pos hy]
  show (y.iru.raise i).isPending i = true
  rw [Iru.isPending_raise, if_pos ⟨rfl, hl⟩]

/-- A reader whose state changes at a boundary raises READER. -/
theorem reader_raised (b : State) (hc : b.configured = true) (hl : b.iru.level .reader ≠ 0)
    (hne : (b.reader n).state ≠ ((b.reader n).boundary b.standard b.coastLimit b.rtu.phase).state) : (b.frameBoundary sh).iru.isPending .reader = true := by
  rw [afterReaders_of]
  refine afterReaders_rough.events _ rfl ?_
  unfold readersDone
  obtain ⟨a1, a2, a3, a4, a5, a6, a7, a8, a9⟩ := countFrame_keeps b.dropMarks
  have hlv : (b.dropMarks.countFrame sh).iru.levels = b.iru.levels := ((dropMarks_rough (s := b)).then_ countFrame_rough).levels
  generalize (b.dropMarks.countFrame sh) = y at *
  have hr : ∀ m, y.reader m = b.reader m := fun m => by unfold reader; rw [a3]; rfl
  have hcf : y.cfg = b.cfg := a9
  clear a1 a2 a3 a4 a5 a6 a7 a8 a9
  have key : ∀ (ts : List Transport) (y : State), ts.Nodup → n ∈ ts → y.reader n = b.reader n → y.cfg = b.cfg → y.iru.levels = b.iru.levels →
      (forTransports ts (readerBoundary b.rtu.phase) y).iru.isPending .reader = true := by
    intro ts
    induction ts with
    | nil => intro y _ h; cases h
    | cons k ts ih =>
      intro y hd hn h1 h2 h3
      have hk := readerBoundary_rough b.rtu.phase k y
      by_cases e : n = k
      · subst e
        refine (Tame.forTransports (r := false) (fun n s => readerBoundary_rough _ n s) ts _).events _ rfl ?_
        have hst : y.standard = b.standard ∧ y.coastLimit = b.coastLimit := by unfold standard coastLimit; rw [h2]; exact ⟨rfl, rfl⟩
        have hp : (y.putReader n ((b.reader n).boundary b.standard b.coastLimit b.rtu.phase)).iru.isPending .reader = true := by
          unfold putReader
          rw [h1, if_neg hne]
          refine raise_pending rfl ?_ ?_
          · show y.configured = true
            unfold configured at *; rw [h2]; exact hc
          · show y.iru.level .reader ≠ 0
            unfold Iru.level at *; rw [h3]; exact hl
        unfold readerBoundary
        simp only
        rw [hst.1, hst.2, h1]
        split_ifs <;> exact hp
      · refine ih (readerBoundary b.rtu.phase k y) (List.nodup_cons.1 hd).2 ((List.mem_cons.1 hn).resolve_left e) ?_ (hk.cfg.trans h2) (hk.levels.trans h3)
        rw [(readerBoundary_keeps b.rtu.phase k y).2.2.1, if_neg e]; exact h1
  exact key _ y (by decide) (Transport.mem_all n) (hr n) hcf hlv

/-- A READING reader at its third quiet boundary (03 R48, R51). -/
theorem coasting_eq (r : Reader) (std : Standard) (coast len : Nat) (h1 : r.state = .reading) (h2 : 2 ≤ r.quiet) :
    let r' := r.boundary std coast len
    r'.state = .coasting ∧ r'.position = r.position.map (fun p => reduce (64 * std.day) ((p : Int) + r.speed.tdiv 16)) ∧
      r'.quiet = satSucc 255 r.quiet ∧ r'.changeFlag = true ∧ r'.changeCount = wrapSucc 255 r.changeCount := by
  have hq : 3 ≤ satSucc 255 r.quiet := by unfold satSucc; split_ifs <;> omega
  have e : r.quietStep coast = { r with quiet := satSucc 255 r.quiet, state := .coasting, changeFlag := true, changeCount := wrapSucc 255 r.changeCount } := by
    unfold Reader.quietStep
    simp only
    rw [h1]
    simp only
    rw [if_pos hq]
    unfold Reader.enter
    rw [if_neg (by show ReaderState.reading ≠ .coasting; decide)]
  intro r'
  have e2 : r' = ((r.quietStep coast).elapsedStep len).publish std := rfl
  have hs : ((r.quietStep coast).elapsedStep len).state = .coasting ∧ ((r.quietStep coast).elapsedStep len).position = r.position ∧ ((r.quietStep coast).elapsedStep len).speed = r.speed ∧
      ((r.quietStep coast).elapsedStep len).quiet = satSucc 255 r.quiet ∧ ((r.quietStep coast).elapsedStep len).changeFlag = true ∧ ((r.quietStep coast).elapsedStep len).changeCount = wrapSucc 255 r.changeCount := by
    rw [e]
    unfold Reader.elapsedStep
    split <;> exact ⟨rfl, rfl, rfl, rfl, rfl, rfl⟩
  generalize (r.quietStep coast).elapsedStep len = x at *
  obtain ⟨s1, s2, s3, s4, s5, s6⟩ := hs
  rw [e2]
  have e3 : x.publish std = { x with position := x.positionNow std, pubSpeed := x.speed } := by
    unfold Reader.publish
    rw [s1]
  rw [e3]
  refine ⟨s1, ?_, s4, s5, s6⟩
  show x.positionNow std = _
  unfold Reader.positionNow
  rw [s1]
  simp only
  rw [s2, s3]

/-- A reader whose quiet count passes the coast limit (03 R48). -/
theorem lost_eq (r : Reader) (std : Standard) (coast len : Nat) (h1 : r.state = .acquiring ∨ r.state = .coasting) (h2 : coast < satSucc 255 r.quiet) :
    r.boundary std coast len = { r with
            state := .lost, candidate := none, last := none, jump := none, ring := [], speed := 0, pubSpeed := 0, quiet := 0
            fresh := false, position := none, changeFlag := true, changeCount := wrapSucc 255 r.changeCount
            counts := { r.counts with loss := satSucc 65535 r.counts.loss } } := by
  have e : r.quietStep coast = r.lose := by
    unfold Reader.quietStep
    rcases h1 with h | h <;> rw [h] <;> simp only <;> rw [if_pos h2]
  have e2 : r.lose = { r with
            state := .lost, candidate := none, last := none, jump := none, ring := [], speed := 0, quiet := 0
            fresh := false, changeFlag := true, changeCount := wrapSucc 255 r.changeCount
            counts := { r.counts with loss := satSucc 65535 r.counts.loss } } := by
    unfold Reader.lose Reader.enter
    rw [if_neg (by show r.state ≠ _; rcases h1 with h | h <;> rw [h] <;> decide)]
    rfl
  unfold Reader.boundary
  rw [e, e2]
  rfl

/-- A probe put on a free line. -/
theorem probe_eq (l : Link) (h : l.tx = none) : l.probe = l.probing := by
  unfold Link.probe Link.launch Link.begin
  simp only
  rw [h]
  rfl

/-- The links' work at a boundary, link by link. -/
theorem linkBoundaries_link : ∀ (ts : List Transport) (s : State) (m : Transport), ts.Nodup →
    (forTransports ts linkBoundary s).link m = if m ∈ ts then (s.link m).probeTick else s.link m
  | [], s, m, _ => by simp; rfl
  | n :: ts, s, m, hd => by
    show (forTransports ts linkBoundary (linkBoundary n s)).link m = _
    rw [linkBoundaries_link ts _ m (List.nodup_cons.1 hd).2, (linkBoundary_keeps n s).2.2.2.2.2.2.2.2.2.2.2]
    by_cases e : m = n
    · subst e
      rw [if_neg (List.nodup_cons.1 hd).1, if_pos rfl, if_pos (by simp)]
    · rw [if_neg e]
      simp [e]

/-- A mark of a link's work. -/
theorem linkBoundaries_mark : ∀ (ts : List Transport) (s : State) (m : Transport), ts.Nodup → m ∈ ts → (s.link m).probeDue = true →
    Mark.probe m ∈ (forTransports ts linkBoundary s).marks
  | [], _, _, _, h, _ => by cases h
  | n :: ts, s, m, hd, hm, hp => by
    show _ ∈ (forTransports ts linkBoundary (linkBoundary n s)).marks
    by_cases e : m = n
    · subst e
      refine (linkBoundaries_keep ts _).2.2.1 _ ?_
      unfold linkBoundary
      simp only
      rw [if_pos hp]
      exact List.mem_append_right _ (by simp)
    · refine linkBoundaries_mark ts _ m (List.nodup_cons.1 hd).2 ((List.mem_cons.1 hm).resolve_left e) ?_
      rw [(linkBoundary_keeps n s).2.2.2.2.2.2.2.2.2.2.2, if_neg e]
      exact hp

/-- The links as the run and the chases find them. -/
theorem linksDone_link (b : State) (m : Transport) : (linksDone b sh).link m = (b.link m).probeTick := by
  obtain ⟨-, -, h3, -⟩ := readersDone_keeps b
  unfold linksDone
  generalize (b.readersDone sh) = y at h3 ⊢
  have h2 : ∀ z : State, z.adoptParams.link m = z.link m := fun _ => rfl
  rw [h2, linkBoundaries_link _ _ _ (by decide), if_pos (Transport.mem_all m)]
  unfold State.link
  rw [h3]

theorem linksDone_mark (b : State) (m : Transport) (h : (b.link m).probeDue = true) : Mark.probe m ∈ (linksDone b sh).marks := by
  obtain ⟨-, -, h3, -⟩ := readersDone_keeps b
  unfold linksDone
  generalize (b.readersDone sh) = y at h3 ⊢
  have h2 : ∀ z : State, z.adoptParams.marks = z.marks := fun _ => rfl
  rw [h2]
  refine linkBoundaries_mark _ _ _ (by decide) (Transport.mem_all m) ?_
  unfold State.link at *
  rw [h3]; exact h

end State

end Sys2Proof.Machine
end

