-- ==== Sys2Proof/Laws/Words.lean ====
section
/-! SUPPORT. Word maps: reading after writing, the canonical form, and the places of the watched words. -/

namespace Sys2Proof.Machine

set_option Elab.async false

namespace WordMap

/-- Every listed number of a canonical map lies above `k`. -/
def above (k : Nat) (m : WordMap) : Prop := ∀ p ∈ m, k < p.1

theorem wf_cons (a : Nat) (v : Word) (m : WordMap) :
    wf ((a, v) :: m) = true ↔ v ≠ 0 ∧ above a m ∧ wf m = true := by
  induction m generalizing a v with
  | nil => simp [wf, above]
  | cons p m ih =>
    obtain ⟨b, w⟩ := p
    have hb := ih b w
    simp only [wf, Bool.and_eq_true, bne_iff_ne, decide_eq_true_eq, above, List.mem_cons, forall_eq_or_imp]
    constructor
    · rintro ⟨⟨hv, hab⟩, h⟩
      exact ⟨hv, ⟨hab, fun p hp => lt_trans hab ((hb.1 h).2.1 p hp)⟩, h⟩
    · rintro ⟨hv, ⟨hab, _⟩, h⟩
      exact ⟨⟨hv, hab⟩, h⟩

theorem read_of_above {k : Nat} {m : WordMap} (h : above k m) : read m k = 0 := by
  induction m with
  | nil => rfl
  | cons p m ih =>
    have h1 := h p (by simp)
    simp only [read]
    rw [if_neg (by omega)]
    exact ih fun q hq => h q (by simp [hq])

theorem write_nil (n : Nat) (v : Word) : write [] n v = if v = 0 then [] else [(n, v)] := rfl

theorem write_cons (a : Nat) (w : Word) (m : WordMap) (n : Nat) (v : Word) :
    write ((a, w) :: m) n v =
      if n < a then (if v = 0 then (a, w) :: m else (n, v) :: (a, w) :: m)
      else if n = a then (if v = 0 then m else (n, v) :: m)
      else (a, w) :: write m n v := rfl

theorem above_write {k n : Nat} {v : Word} {m : WordMap} (hk : k < n) (h : above k m) : above k (write m n v) := by
  induction m with
  | nil =>
    rw [write_nil]
    split_ifs
    · exact h
    · intro q hq
      rw [List.mem_singleton] at hq
      rw [hq]
      exact hk
  | cons p m ih =>
    have h1 := h p (List.mem_cons_self ..)
    have h2 : above k m := fun q hq => h q (List.mem_cons_of_mem _ hq)
    obtain ⟨a, w⟩ := p
    have add : ∀ {b : Nat} {x : Word} {l : WordMap}, k < b → above k l → above k ((b, x) :: l) := by
      intro b x l hb hl q hq
      rcases List.mem_cons.1 hq with rfl | hq
      · exact hb
      · exact hl q hq
    rw [write_cons]
    split_ifs
    · exact h
    · exact add hk h
    · exact h2
    · exact add hk h2
    · exact add h1 (ih h2)

theorem read_cons (a : Nat) (w : Word) (m : WordMap) (k : Nat) :
    read ((a, w) :: m) k = if a = k then w else read m k := rfl

/-- A write keeps the canonical form. -/
theorem wf_write (m : WordMap) (n : Nat) (v : Word) (h : wf m = true) : wf (write m n v) = true := by
  induction m with
  | nil =>
    rw [write_nil]
    split_ifs with hv
    · rfl
    · exact (wf_cons n v []).2 ⟨hv, fun p hp => by simp at hp, rfl⟩
  | cons p m ih =>
    obtain ⟨a, w⟩ := p
    have hc := (wf_cons a w m).1 h
    rw [write_cons]
    split_ifs with h1 h2 h3 h4
    · exact h
    · refine (wf_cons _ _ _).2 ⟨h2, ?_, h⟩
      intro q hq
      rcases List.mem_cons.1 hq with rfl | hq
      · exact h1
      · exact lt_trans h1 (hc.2.1 q hq)
    · exact hc.2.2
    · subst h3
      exact (wf_cons _ _ _).2 ⟨h4, hc.2.1, hc.2.2⟩
    · exact (wf_cons _ _ _).2 ⟨hc.1, above_write (by omega) hc.2.1, ih hc.2.2⟩

/-- Reading after a write, on a canonical map. -/
theorem read_write (m : WordMap) (n k : Nat) (v : Word) (h : wf m = true) :
    read (write m n v) k = if k = n then v else read m k := by
  induction m with
  | nil =>
    rw [write_nil]
    by_cases hv : v = 0 <;> by_cases hk : k = n
    · rw [if_pos hv, if_pos hk, hv]
      rfl
    · rw [if_pos hv, if_neg hk]
    · rw [if_neg hv, if_pos hk, read_cons, if_pos hk.symm]
    · rw [if_neg hv, if_neg hk, read_cons, if_neg (Ne.symm hk)]
  | cons p m ih =>
    obtain ⟨a, w⟩ := p
    have hc := (wf_cons a w m).1 h
    have ih := ih hc.2.2
    have low : n < a → read ((a, w) :: m) n = 0 := fun h1 => read_of_above fun q hq => by
      rcases List.mem_cons.1 hq with rfl | hq
      · exact h1
      · exact lt_trans h1 (hc.2.1 q hq)
    rw [write_cons]
    by_cases hk : k = n
    · subst hk
      rw [if_pos rfl]
      split_ifs with h1 h2 h3 h4
      · rw [low h1, h2]
      · rw [read_cons, if_pos rfl]
      · rw [h4, h3]
        exact read_of_above hc.2.1
      · rw [read_cons, if_pos rfl]
      · rw [read_cons, if_neg (Ne.symm h3), ih, if_pos rfl]
    · rw [if_neg hk]
      split_ifs with h1 h2 h3 h4
      · rfl
      · rw [read_cons, if_neg (Ne.symm hk)]
      · rw [read_cons, if_neg (by rw [← h3]; exact Ne.symm hk)]
      · rw [read_cons, if_neg (Ne.symm hk), read_cons, if_neg (by rw [← h3]; exact Ne.symm hk)]
      · rw [read_cons, read_cons, ih, if_neg hk]

end WordMap

/-! ## Places of the watched words -/

theorem Transport.num_lt (n : Transport) : n.num < 6 := by cases n <;> simp [Transport.num]

theorem Transport.num_inj {n m : Transport} : n.num = m.num ↔ n = m := by
  cases n <;> cases m <;> simp [Transport.num]

/-- Two watched words have one offset only when they are one word. -/
@[simp] theorem Watched.offset_inj (v w : Watched) : v.offset = w.offset ↔ v = w := by
  constructor
  · intro h
    rcases v with ⟨n, k⟩ | ⟨n, k⟩ | k | k | k | k | _ <;> rcases w with ⟨m, j⟩ | ⟨m, j⟩ | j | j | j | j | _ <;>
      simp only [Watched.offset] at h <;> try have hn := Transport.num_lt n
    all_goals try have hm := Transport.num_lt m
    all_goals first
      | rfl
      | omega
      | (have h1 : n.num = m.num := by omega
         have h2 : k = j := by omega
         rw [Transport.num_inj] at h1
         rw [h1, h2])
      | (have h2 : k = j := by omega
         rw [h2])
  · rintro rfl
    rfl

end Sys2Proof.Machine
end

