-- ==== Sys2Proof/Laws/Slots.lean ====
section
/-! SUPPORT. A slot record is the capture of its stores and then one hand-over (01 R2, R3), and what a latch then reads. -/

namespace Sys2Proof.Machine

set_option Elab.async false

theorem Watched.slot_of_quiet {w : Watched} (h : w.quiet = true) : w.slot = true := by
  cases w <;> simp_all [quiet, slot]

namespace State

variable {s : State}

/-- A store forwarded and captured, without what follows the capture. -/
def putWord (s : State) (p : Watched × Word) : State :=
  { s with
    cfg := { s.cfg with latches := s.cfg.latches.write p.1.offset p.2 }
    ptu := { s.ptu with
      bus := ⟨.byMemory, s.ptu.bus.data, s.ptu.bus.forwarded ++ [⟨s.regionAddr p.1.offset, true, .both, p.2⟩]⟩ } }

theorem handOver_quiet {w : Watched} (h : w.quiet = true) (s : State) : s.handOver w = s := by
  unfold handOver
  split <;> simp_all [Watched.quiet]

/-- A full-word store to a word of a slot: captured, then handed over. -/
theorem slotStore_eq {w : Watched} (hc : s.configured = true) (hw : w.slot = true) (v : Word) :
    s.slotStore w v = (s.putWord (w, v)).handOver w := by
  unfold slotStore inRegion
  rw [hc]
  cases w <;> first | rfl | (simp [Watched.slot] at hw)

theorem putWord_configured (s : State) (p : Watched × Word) : (s.putWord p).configured = s.configured := rfl

theorem putWord_regionAddr (s : State) (p : Watched × Word) (off : Nat) : (s.putWord p).regionAddr off = s.regionAddr off :=
  rfl

theorem foldl_slotStore : ∀ (ws : List (Watched × Word)) (s : State), s.configured = true → (∀ p ∈ ws, p.1.quiet = true) →
    ws.foldl (fun s p => s.slotStore p.1 p.2) s = ws.foldl putWord s
  | [], _, _, _ => rfl
  | p :: ws, s, hc, hq => by
    have hp := hq p (List.mem_cons_self ..)
    simp only [List.foldl_cons]
    rw [slotStore_eq hc (Watched.slot_of_quiet hp), handOver_quiet hp]
    exact foldl_slotStore ws _ hc fun q hm => hq q (List.mem_cons_of_mem _ hm)

theorem foldl_putWord : ∀ (ws : List (Watched × Word)) (s : State),
    ws.foldl putWord s =
      { s with
        cfg := { s.cfg with latches := ws.foldl (fun m p => WordMap.write m p.1.offset p.2) s.cfg.latches }
        ptu := { s.ptu with
          bus := ⟨if ws = [] then s.ptu.bus.ending else .byMemory, s.ptu.bus.data,
            s.ptu.bus.forwarded ++ ws.map fun p => ⟨s.regionAddr p.1.offset, true, .both, p.2⟩⟩ } }
  | [], s => by simp
  | p :: ws, s => by
    simp only [List.foldl_cons]
    rw [foldl_putWord ws]
    by_cases h : ws = [] <;> simp [h, putWord, regionAddr, regionBase]

/-- A slot record, its last word a go word or a take word: every store is captured, and then the record is handed over. -/
theorem slotRecord_eq (hr : s.Ready) (ws : List (Watched × Word)) (go : Watched) (v : Word)
    (hq : ∀ p ∈ ws, p.1.quiet = true) (hg : go.slot = true) :
    s.slotRecord (ws ++ [(go, v)]) = (s.stored (ws ++ [(go, v)])).handOver go := by
  unfold slotRecord cycle busFree
  rw [hr.free]
  simp only [Option.isNone_none, if_true]
  rw [List.foldl_append]
  rw [foldl_slotStore ws _ (show s.newCycle.configured = true from hr.configured) hq]
  simp only [List.foldl_cons, List.foldl_nil]
  have hc : (ws.foldl putWord s.newCycle).configured = true := by
    rw [foldl_putWord]
    exact hr.configured
  rw [slotStore_eq hc hg]
  congr 1
  have h : (ws.foldl putWord s.newCycle).putWord (go, v) = (ws ++ [(go, v)]).foldl putWord s.newCycle := by
    rw [List.foldl_append]
    rfl
  rw [h, foldl_putWord]
  simp [stored, newCycle, regionAddr, regionBase]

/-- What a latch reads after the stores of a record: the last value stored to its word, else what it read before. -/
theorem latch_stored (hm : s.cfg.Sound) (ws : List (Watched × Word)) (w : Watched) :
    (s.stored ws).latch w = (ws.foldl (fun o p => if p.1 = w then some p.2 else o) none).getD (s.latch w) := by
  have key : ∀ (ws : List (Watched × Word)) (m : WordMap) (o : Option Word), WordMap.wf m = true →
      (∀ v, o = some v → WordMap.read m w.offset = v) → (o = none → WordMap.read m w.offset = s.latch w) →
      WordMap.read (ws.foldl (fun m p => WordMap.write m p.1.offset p.2) m) w.offset =
        (ws.foldl (fun o p => if p.1 = w then some p.2 else o) o).getD (s.latch w) := by
    intro ws
    induction ws with
    | nil =>
      intro m o _ h1 h2
      cases o with
      | none => exact h2 rfl
      | some v => exact h1 v rfl
    | cons p ws ih =>
      intro m o hw h1 h2
      simp only [List.foldl_cons]
      refine ih _ _ (WordMap.wf_write _ _ _ hw) ?_ ?_
      · intro v hv
        rw [WordMap.read_write _ _ _ _ hw]
        simp only [Watched.offset_inj]
        split_ifs at hv with hp
        · rw [if_pos hp.symm]
          exact Option.some.inj hv
        · rw [if_neg fun e => hp e.symm]
          exact h1 v hv
      · intro hv
        rw [WordMap.read_write _ _ _ _ hw]
        simp only [Watched.offset_inj]
        split_ifs at hv with hp
        rw [if_neg fun e => hp e.symm]
        exact h2 hv
  exact key ws s.cfg.latches none hm.1 (fun _ h => by cases h) fun _ => rfl

/-- What a latch reads after the capture of one store. -/
theorem latch_captured (hw : WordMap.wf s.cfg.latches = true) (w : Watched) (a : Addr) (lanes : Strobes) (value : Word)
    (v : Watched) : (s.captured w a lanes value).latch v = if v = w then mergeLanes lanes (s.latch w) value else s.latch v := by
  show WordMap.read (WordMap.write _ _ _) _ = _
  rw [WordMap.read_write _ _ _ _ hw]
  simp only [Watched.offset_inj]
  rfl

theorem stored_fields (s : State) (ws : List (Watched × Word)) :
    (s.stored ws).configured = s.configured ∧ (s.stored ws).standard = s.standard ∧ (s.stored ws).ptu.hold = s.ptu.hold ∧
    (s.stored ws).links = s.links ∧ (s.stored ws).ctxs = s.ctxs ∧ (s.stored ws).chases = s.chases ∧
    (s.stored ws).run = s.run ∧ (s.stored ws).iru = s.iru := ⟨rfl, rfl, rfl, rfl, rfl, rfl, rfl, rfl⟩

/-! ## The outcome of a record -/

theorem transportResult_ready (hc : s.configured = true) (hh : s.ptu.hold = none) (n : Transport) (code : SlotCode) (p : Bool)
    (command tag : Word) : s.transportResult n code p command tag = s.transportDecided n code p command tag := by
  unfold transportResult
  rw [raise_ready (s := s.onCtx n _) hc hh]
  rfl

theorem chaseResult_ready (hc : s.configured = true) (hh : s.ptu.hold = none) (n : Transport) (code : SlotCode)
    (command tag : Word) : s.chaseResult n code command tag = s.chaseDecided n code command tag := by
  unfold chaseResult
  rw [raise_ready (s := s.onChase n _) hc hh]
  rfl

theorem runResult_ready (hc : s.configured = true) (hh : s.ptu.hold = none) (code : SlotCode) (command tag : Word) :
    s.runResult code command tag = s.runDecided code command tag := by
  unfold runResult
  rw [raise_ready (s := s.onRun _) hc hh]
  rfl

theorem switcherResult_ready (hc : s.configured = true) (hh : s.ptu.hold = none) (code : SlotCode) (command tag : Word) :
    s.switcherResult code command tag = s.switcherDecided code command tag := by
  unfold switcherResult
  rw [raise_ready (s := s.onMixer _) hc hh]
  rfl

/-- A record with a go word of its own: captured, then handed over. -/
theorem slotRecord_record (hr : s.Ready) (slot : Fin 16 → Watched) (go : Fin 16) (code tag : Word) (args : List (Fin 16 × Word))
    (h0 : (slot 0).quiet = true) (h1 : (slot 1).quiet = true) (ha : ∀ p ∈ args, (slot p.1).quiet = true)
    (hg : (slot go).slot = true) :
    s.slotRecord (recordStores slot go code tag args) = (s.stored (recordStores slot go code tag args)).handOver (slot go) := by
  refine slotRecord_eq hr _ _ _ ?_ hg
  intro p hp
  rw [List.mem_append] at hp
  rcases hp with hp | hp
  · simp only [List.mem_cons, List.not_mem_nil, or_false] at hp
    rcases hp with rfl | rfl
    · exact h0
    · exact h1
  · rw [List.mem_map] at hp
    obtain ⟨q, hq', rfl⟩ := hp
    exact ha q hq'

/-- The blocks a record's capture leaves alone, under one name for the captured state. -/
theorem stored_as (s : State) (ws : List (Watched × Word)) :
    ∃ t, s.stored ws = t ∧ t.configured = s.configured ∧ t.ptu.hold = s.ptu.hold ∧ t.links = s.links ∧ t.ctxs = s.ctxs ∧
      t.chases = s.chases ∧ t.run = s.run ∧ t.iru = s.iru ∧ t.mixer = s.mixer ∧ t.et = s.et ∧ t.standard = s.standard ∧
      (∀ n, t.link n = s.link n) ∧ (∀ n, t.ctx n = s.ctx n) ∧ ∀ n, t.chase n = s.chase n :=
  ⟨_, rfl, rfl, rfl, rfl, rfl, rfl, rfl, rfl, rfl, rfl, rfl, fun _ => rfl, fun _ => rfl, fun _ => rfl⟩

/-! ## Who takes a record -/

theorem handOver_chase (s : State) (n : Transport) :
    s.handOver (.chase n 15) =
      s.chaseRecord n (s.latch (.chase n 0)) (s.latch (.chase n 1))
        ⟨s.latch (.chase n 2), s.latch (.chase n 3), s.latch (.chase n 4), s.latch (.chase n 5), s.paramLatches n⟩ := rfl

theorem handOver_run (s : State) :
    s.handOver (.run 15) =
      s.runRecord (s.latch (.run 0)) (s.latch (.run 1)) (s.latch (.run 2)) (s.latch (.run 3)) (s.latch (.run 4))
        (s.latch (.run 5)) (s.latch (.run 6)) := rfl

theorem handOver_switcher (s : State) :
    s.handOver (.switcher 15) =
      s.switcherRecord (s.latch (.switcher 0)) (s.latch (.switcher 1)) (s.latch (.switcher 2)) (s.latch (.switcher 3))
        (s.latch (.switcher 4)) (s.latch (.switcher 5)) := rfl

end State

end Sys2Proof.Machine
end

