-- ==== Sys2Proof/Laws/DeckSlots.lean ====
section
/-! SUPPORT. What the record of a link command becomes when it is handed over (05 R91 to R95). -/

namespace Sys2Proof.Machine

set_option Elab.async false

namespace State

variable {s : State} {n : Transport} {k : LinkKind} {arg : Arg} {tag : Word}

/-- A link command is the capture of its record and one hand-over. -/
theorem exec_row (hr : s.Ready) (k : LinkKind) (n : Transport) (tag w2 w3 : Word) :
    exec (k.row n tag w2 w3) s = .next ((s.stored (k.stores n tag w2 w3)).handOver (.transport n 7)) := by
  cases k <;> exact congrArg _ (slotRecord_eq hr _ _ _ (by simp [slotHead, Watched.quiet]) rfl)

theorem handOver7 (s : State) (n : Transport) : s.handOver (.transport n 7) =
    s.transportRecord n (s.latch (.transport n 0)) (s.latch (.transport n 1)) (s.latch (.transport n 2)) (s.latch (.transport n 3)) := rfl

theorem latch_stores (hr : s.Ready) (k : LinkKind) (n : Transport) (tag w2 w3 : Word) :
    let t := s.stored (k.stores n tag w2 w3)
    t.latch (.transport n 0) = k.number ∧ t.latch (.transport n 1) = tag ∧
    (k ≠ .halt → k ≠ .run → k ≠ .sense → t.latch (.transport n 2) = w2) ∧ (k = .locate → t.latch (.transport n 3) = w3) := by
  intro t
  refine ⟨?_, ?_, ?_, ?_⟩
  · rw [latch_stored hr.cfg]; cases k <;> simp [LinkKind.stores]
  · rw [latch_stored hr.cfg]; cases k <;> simp [LinkKind.stores]
  · intro a b c
    rw [latch_stored hr.cfg]; cases k <;> simp_all [LinkKind.stores]
  · intro a
    rw [latch_stored hr.cfg]; subst a; simp [LinkKind.stores]

theorem maskOf_zero (w : Word) : maskOf w = 0 ↔ w &&& 0xF = 0 := by
  unfold maskOf
  constructor
  · intro h
    ext i hi
    have := congrArg (·.getLsbD i) h
    simp at this ⊢
    by_cases h4 : i < 4
    · intro hw
      exfalso
      have := this h4
      simp_all
    · intro _
      interval_cases i <;> simp_all
  · intro h
    ext i hi
    have := congrArg (·.getLsbD i) h
    simp at this ⊢
    have h16 : i < 16 := by omega
    have := this
    interval_cases i <;> simp_all

theorem deckRecord_eq (std : Standard) (k : LinkKind) (w2 w3 x2 x3 : Word)
    (h2 : k ≠ .halt → k ≠ .run → k ≠ .sense → x2 = w2) (h3 : k = .locate → x3 = w3) :
    deckRecord std k.number x2 x3 = match k.argument? std w2 w3 with | some a => .link k a | none => .malformed := by
  cases k <;> simp at h2 h3 <;> try subst h2
  all_goals try subst h3
  all_goals simp only [LinkKind.argument?]
  · rfl
  · rfl
  · show (if _ then _ else _) = _
    split_ifs <;> rfl
  · show (if _ then _ else _) = _
    split_ifs <;> rfl
  iterate 3
    show maskRecord _ _ = _
    unfold maskRecord
    simp only [maskOf_zero]
    split_ifs <;> rfl
  · rfl
  · show (if _ then _ else _) = _
    split_ifs <;> rfl

/-- How a link command is decided: malformed, or by its link, its owner and its offer. -/
def linkOutcome (s : State) (k : LinkKind) (n : Transport) (tag w2 w3 : Word) : SlotCode × State :=
  match k.argument? s.standard w2 w3 with
  | some a => s.linkCommand n k a tag
  | none => (.malformed, s)

/-- A link command, its record captured: it is decided, and its result written. -/
theorem exec_link (hr : s.Ready) (k : LinkKind) (n : Transport) (tag w2 w3 : Word) {code : SlotCode} {t : State}
    (h : (s.stored (k.stores n tag w2 w3)).linkOutcome k n tag w2 w3 = (code, t)) :
    exec (k.row n tag w2 w3) s = .next (t.transportResult n code false k.number tag) := by
  rw [exec_row hr, handOver7]
  obtain ⟨h0, h1, h2, h3⟩ := latch_stores hr k n tag w2 w3
  rw [h0, h1]
  unfold transportRecord
  have := deckRecord_eq (s.stored (k.stores n tag w2 w3)).standard k w2 w3 _ _ h2 h3
  rw [this]
  unfold linkOutcome at h
  cases ha : k.argument? (s.stored (k.stores n tag w2 w3)).standard w2 w3 with
  | none => rw [ha] at h; cases h; rfl
  | some a =>
    rw [ha] at h
    simp only at h ⊢
    rw [h]

theorem motion_iff (k : LinkKind) : k.motion = true ↔ k.moves := by
  cases k <;> simp [LinkKind.motion, LinkKind.moves]

/-- A command that passes ownership with no chase to stop, other than SPEED, on a link with room. -/
theorem linkCommand_queued (hk : k ≠ .speed) (hup : (s.link n).state = .up) (hq : (s.link n).queue.length < 4)
    (ho : (s.ctx n).owner = .free ∨ (s.ctx n).owner = .chase ∧ ¬k.moves ∨ k = .sense) :
    s.linkCommand n k arg tag = (.accepted, (s.placeEntry n (s.link n).queue (processorEntry k arg tag)).countTaken n) := by
  unfold linkCommand
  simp only
  rw [if_neg (not_not.2 hup), if_neg]
  · have h1 : (if k.motion = true then s.takeFromChase n else s) = s := by
      split_ifs with hm
      · unfold takeFromChase
        rw [if_neg]
        intro hc
        rcases ho with h | h | h
        · rw [hc] at h; cases h
        · exact h.2 ((motion_iff k).1 hm)
        · subst h; cases hm
      · rfl
    rw [h1]
    have hu : (decide ((s.ctx n).owner = Owner.run) && decide (k = .halt)) = false := by
      rw [Bool.and_eq_false_iff]
      rcases ho with h | h | h
      · left; rw [h]; rfl
      · left; rw [h.1]; rfl
      · right; subst h; rfl
    rw [hu]
    have h2 : s.offerCommand n k arg tag false =
        (.accepted, (s.placeEntry n (s.link n).queue (processorEntry k arg tag)).countTaken n) := by
      unfold offerCommand
      have := offerEntry_room (e := processorEntry k arg tag) hup hq
      cases k <;> first | exact absurd rfl hk | (simp only; erw [this])
    rw [h2]
    rfl
  · unfold ownerRefuses
    simp only [Bool.and_eq_true, decide_eq_true_eq, bne_iff_ne]
    rintro ⟨⟨a, b⟩, c⟩
    rcases ho with h | h | h
    · rw [a] at h; cases h
    · rw [a] at h; cases h.1
    · exact b h

/-- What the withdrawal of a waiting speed does (04 R68, 05 R95). -/
theorem withdrawSpeed_eq (s : State) (n : Transport) :
    s.withdrawSpeed n =
      { s with
        links := s.links.set n { s.link n with slot := none }
        ctxs := s.ctxs.set n { s.ctx n with cancelled := (s.ctx n).cancelled + displaced (s.link n).slot } } := by
  have e0 : s.ctxs.set n { s.ctx n with cancelled := (s.ctx n).cancelled + 0 } = s.ctxs := by
    rw [show (s.ctx n).cancelled + 0 = (s.ctx n).cancelled from BitVec.add_zero _]
    exact Six.set_get _ _
  unfold withdrawSpeed
  cases hsl : (s.link n).slot with
  | none =>
    have e1 : s.links.set n { s.link n with slot := none } = s.links := by
      rw [show ({ s.link n with slot := none } : Link) = s.link n by rw [← hsl]]
      exact Six.set_get _ _
    unfold displaced
    simp only
    rw [e0, e1]
  | some v =>
    cases hsrc : v.source with
    | processor =>
      simp only [displaced, hsrc]
      rfl
    | run =>
      simp only [displaced, hsrc]
      rw [if_neg (by decide), e0]
      rfl
    | chase =>
      simp only [displaced, hsrc]
      rw [if_neg (by decide), e0]
      rfl
    | link =>
      simp only [displaced, hsrc]
      rw [if_neg (by decide), e0]
      rfl

/-- A chase context goes to IDLE (06 R113, R126): its speed withdrawn and CHASE raised. -/
theorem idleChase_ready (hc : s.configured = true) (hh : s.ptu.hold = none) (n : Transport) :
    s.idleChase n =
      { s with
        chases := s.chases.set n (chaseChanged (s.chase n) .idle)
        links := s.links.set n { s.link n with slot := none }
        ctxs := s.ctxs.set n { s.ctx n with cancelled := (s.ctx n).cancelled + displaced (s.link n).slot }
        iru := s.iru.raise .chase } := by
  unfold idleChase
  rw [withdrawSpeed_eq, raise_ready (by exact hc) (by exact hh)]
  rfl

/-- A processor motion command or DECK_RESET takes the transport from a running processor chase (05 R93). -/
theorem takeFromChase_ready (hc : s.configured = true) (hh : s.ptu.hold = none) (ho : (s.ctx n).owner = .chase)
    (hs : (s.chase n).state ≠ .idle) (hp : (s.chase n).origin = .processor) :
    s.takeFromChase n =
      { s with
        chases := s.chases.set n (chaseChanged (s.chase n) .idle)
        links := s.links.set n { s.link n with slot := none }
        ctxs := s.ctxs.set n
          { s.ctx n with owner := .free, cancelled := (s.ctx n).cancelled + displaced (s.link n).slot }
        iru := s.iru.raise .chase } := by
  unfold takeFromChase stopProcessorChase processorChase
  rw [if_pos ho, if_pos (by simp [hs, hp]), idleChase_ready hc hh]
  unfold setOwner onCtx setCtx ctx
  simp only [Six.get_set_self, Six.set_set]

end State

end Sys2Proof.Machine
end

