-- ==== Sys2Proof/Laws/Ports.lean ====
section
/-! SUPPORT. A state in which only one transport's link, context and chase context and the Interrupt Unit differ from a
given one, and what the operations of that transport do to it. -/

namespace Sys2Proof.Machine

set_option Elab.async false

namespace State

variable {s : State} {n : Transport} {l : Link} {c : Context} {k : Chase} {v : Iru}

/-- `s` with one transport's link, context and chase context, and the Interrupt Unit, replaced. -/
def port (s : State) (n : Transport) (l : Link) (c : Context) (k : Chase) (v : Iru) : State :=
  { s with links := s.links.set n l, ctxs := s.ctxs.set n c, chases := s.chases.set n k, iru := v }

theorem port_self (s : State) (n : Transport) : s = s.port n (s.link n) (s.ctx n) (s.chase n) s.iru := by
  unfold port link ctx chase
  rw [Six.set_get, Six.set_get, Six.set_get]

@[simp] theorem port_views :
    (s.port n l c k v).link n = l ∧ (s.port n l c k v).ctx n = c ∧ (s.port n l c k v).chase n = k ∧
    (s.port n l c k v).iru = v ∧ (s.port n l c k v).configured = s.configured ∧ (s.port n l c k v).stamp = s.stamp ∧
    (s.port n l c k v).run = s.run ∧ (s.port n l c k v).et = s.et ∧ (s.port n l c k v).ptu = s.ptu :=
  ⟨Six.get_set_self _ _ _, Six.get_set_self _ _ _, Six.get_set_self _ _ _, rfl, rfl, rfl, rfl, rfl, rfl⟩

theorem port_other {m : Transport} (h : m ≠ n) :
    (s.port n l c k v).link m = s.link m ∧ (s.port n l c k v).ctx m = s.ctx m ∧ (s.port n l c k v).chase m = s.chase m := by
  unfold port link ctx chase
  simp only [Six.get_set, if_neg h]
  exact ⟨trivial, trivial, trivial⟩

theorem onLink_port (f : Link → Link) : (s.port n l c k v).onLink n f = s.port n (f l) c k v := by
  unfold onLink setLink
  rw [port_views.1]
  unfold port
  simp only [Six.set_set]

theorem setLink_port (x : Link) : (s.port n l c k v).setLink n x = s.port n x c k v := onLink_port fun _ => x

theorem onCtx_port (f : Context → Context) : (s.port n l c k v).onCtx n f = s.port n l (f c) k v := by
  unfold onCtx setCtx
  rw [port_views.2.1]
  unfold port
  simp only [Six.set_set]

theorem setOwner_port (o : Owner) : (s.port n l c k v).setOwner n o = s.port n l { c with owner := o } k v := onCtx_port _

theorem onChase_port (f : Chase → Chase) : (s.port n l c k v).onChase n f = s.port n l c (f k) v := by
  unfold onChase setChase
  rw [port_views.2.2.1]
  unfold port
  simp only [Six.set_set]

theorem setChase_port (x : Chase) : (s.port n l c k v).setChase n x = s.port n l c x v := onChase_port fun _ => x

theorem raise_port (hc : s.configured = true) (hh : s.ptu.hold = none) (i : Irq) :
    (s.port n l c k v).raise i = s.port n l c k (v.raise i) := raise_ready (s := s.port n l c k v) hc hh i

theorem follow_port (hc : s.configured = true) (hh : s.ptu.hold = none) (i : Irq) (b : Bool) :
    (s.port n l c k v).follow i b = s.port n l c k (v.follow i b) := follow_ready (s := s.port n l c k v) hc hh i b

theorem syncDeck_port (hc : s.configured = true) (hh : s.ptu.hold = none) :
    (s.port n l c k v).syncDeck n = s.port n l c k (v.follow (.deck n) c.deckCondition) := by
  unfold syncDeck
  rw [follow_port hc hh, port_views.2.1]

/-- An entry completes as CANCELLED while the run works no events: only the processor's is counted (05 R100). -/
theorem cancelled_port (hq : s.run.state.active = false) (src : Source) (kind : LinkKind) :
    (s.port n l c k v).cancelled n src kind =
      s.port n l { c with cancelled := c.cancelled + BitVec.ofNat 16 src.owedOne } k v := by
  have e0 : ({ c with cancelled := c.cancelled + 0 } : Context) = c := by
    rw [show c.cancelled + 0 = c.cancelled from BitVec.add_zero _]
  cases src with
  | processor =>
    unfold State.cancelled
    simp only
    rw [onCtx_port]
    rfl
  | run =>
    have h : (s.port n l c k v).senseEnds n = s.port n l c k v := by
      unfold senseEnds
      rw [if_neg (by rw [port_views.2.2.2.2.2.2.1, hq]; simp)]
    unfold State.cancelled
    simp only [h, ite_self]
    exact congrArg (s.port n l · k v) e0.symm
  | chase => exact congrArg (s.port n l · k v) e0.symm
  | link => exact congrArg (s.port n l · k v) e0.symm

theorem cancelAll_port (hq : s.run.state.active = false) :
    ∀ (es : List Entry) (c : Context), (s.port n l c k v).cancelAll n es =
      s.port n l { c with cancelled := c.cancelled + BitVec.ofNat 16 (es.countP (·.source = .processor)) } k v
  | [], c => by
    show s.port n l c k v = _
    congr 1
    rw [List.countP_nil, show c.cancelled + BitVec.ofNat 16 0 = c.cancelled from BitVec.add_zero _]
  | e :: es, c => by
    show ((s.port n l c k v).cancelled n e.source e.kind).cancelAll n es = _
    rw [cancelled_port hq, cancelAll_port hq es]
    congr 2
    simp only
    rw [List.countP_cons, BitVec.add_assoc, Nat.add_comm, BitVec.ofNat_add]
    unfold Source.owedOne
    simp

theorem emptyFifo_port (hc : s.configured = true) (hh : s.ptu.hold = none) :
    (s.port n l c k v).emptyFifo n =
      s.port n l { c with fifo := [] } k (v.follow (.deck n) ({ c with fifo := [] } : Context).deckCondition) := by
  unfold emptyFifo
  rw [onCtx_port, syncDeck_port hc hh]

theorem clearLinkErrors_port (hc : s.configured = true) (hh : s.ptu.hold = none) :
    (s.port n l c k v).clearLinkErrors n =
      s.port n l.clearErrors { c with errFrozen := false } k
        (v.follow (.deck n) ({ c with errFrozen := false } : Context).deckCondition) := by
  unfold clearLinkErrors
  rw [onLink_port, onCtx_port, syncDeck_port hc hh]

theorem linkError_port (hc : s.configured = true) (hh : s.ptu.hold = none) (e : ErrKind) :
    (s.port n l c k v).linkError n e =
      if l.err.isSome then s.port n (l.addError e s.stamp) c k v
      else s.port n (l.addError e s.stamp) { c with errFrozen := true } k
        (v.follow (.deck n) ({ c with errFrozen := true } : Context).deckCondition) := by
  unfold linkError
  rw [port_views.1, onLink_port]
  simp only
  split_ifs
  · rfl
  · rw [onCtx_port, syncDeck_port hc hh]
    rfl

theorem withdrawSpeed_port (hq : s.run.state.active = false) :
    (s.port n l c k v).withdrawSpeed n =
      match l.slot with
      | some x => s.port n { l with slot := none } { c with cancelled := c.cancelled + BitVec.ofNat 16 x.source.owedOne } k v
      | none => s.port n l c k v := by
  unfold withdrawSpeed
  rw [port_views.1]
  cases l.slot with
  | none => rfl
  | some x =>
    simp only
    rw [onLink_port, cancelled_port hq]

theorem transportResult_port (hc : s.configured = true) (hh : s.ptu.hold = none) (code : SlotCode) (p : Bool) (command tag : Word) :
    (s.port n l c k v).transportResult n code p command tag =
      s.port n l { c with result := ⟨some code, p, command, tag⟩ } k (v.raise .slot) := by
  unfold transportResult
  rw [onCtx_port, raise_port hc hh]

/-! ## Changes of link state and the link reset, while the run has nothing to be told (04 R64, R79) -/

theorem quiet_active (h : s.RunQuiet) : s.run.state.active = false ∧ s.run.state ≠ .aborting := by
  rcases h with h | h <;> rw [h] <;> exact ⟨rfl, by decide⟩

theorem departed_port (hc : s.configured = true) (hh : s.ptu.hold = none) (hq : s.RunQuiet) (hk : k.computes = false) :
    (s.port n l c k v).linkDeparted n = s.port n l { c with linkChange := true, mode := .unknown } k
      (v.follow (.deck n) ({ c with linkChange := true, mode := .unknown } : Context).deckCondition) := by
  obtain ⟨h1, h2⟩ := quiet_active hq
  unfold linkDeparted contextDeparture
  rw [onCtx_port, syncDeck_port hc hh]
  simp only [port_views, hk, Bool.false_and]
  unfold failChase
  simp only [port_views, hk]
  unfold runDeparture
  simp [port_views, h1, h2]

theorem changed_port (hc : s.configured = true) (hh : s.ptu.hold = none) :
    (s.port n l c k v).linkChanged n = s.port n l { c with linkChange := true } k
      (v.follow (.deck n) ({ c with linkChange := true } : Context).deckCondition) := by
  unfold linkChanged
  rw [onCtx_port, syncDeck_port hc hh]

theorem linkReset_port (hc : s.configured = true) (hh : s.ptu.hold = none) (hq : s.RunQuiet) (hk : k.computes = false) :
    ∃ w, (s.port n l c k v).linkReset n = s.port n (resetLink l).clearErrors
      { c with
        fifo := [], errFrozen := false
        mode := if l.state = .up then .unknown else c.mode
        linkChange := c.linkChange || decide (l.state ≠ .unprobed)
        cancelled := c.cancelled + BitVec.ofNat 16 l.processorEntries } k w ∧
      w.isPending (.deck n) = (c.linkChange || decide (l.state ≠ .unprobed)) := by
  obtain ⟨h1, h2⟩ := quiet_active hq
  unfold linkReset
  simp only [port_views]
  rw [onLink_port]
  have e0 : ∀ x : Word, x + BitVec.ofNat 16 0 = x := fun x => BitVec.add_zero x
  have e3 : l.processorEntries = l.queue.countP (·.source = .processor)
        + (match l.slot with | some v => v.source.owedOne | none => 0)
        + (match l.inFlight with | some f => f.entry.source.owedOne | none => 0) := Link.processorEntries_def l
  rw [e3]
  cases hf : l.inFlight <;> cases hsl : l.slot <;> cases hst : l.state <;>
    simp only [cancelled_port h1, cancelAll_port h1, emptyFifo_port hc hh, clearLinkErrors_port hc hh, departed_port hc hh hq hk, changed_port hc hh, e0] <;>
    refine ⟨_, congrArg₂ (s.port n _ · k ·) ?_ rfl, ?_⟩ <;>
    simp [BitVec.ofNat_add, Context.deckCondition] <;> try ac_rfl

end State

end Sys2Proof.Machine
end

