-- ==== Sys2Proof/Laws/QuietBoundaries.lean ====
section
/-! SUPPORT. A frame boundary while the run works no events: the chase contexts compute one by one, each on its own transport,
and the run and the mixer's own state stand until the field work (06 R117, 08 R155, 09 R181). -/

namespace Sys2Proof.Machine

set_option Elab.async false

namespace State

variable {s t u b : State} {n m : Transport} {sh : Bool}

/-- From `s` to `t` only transport `n`'s link, context and chase context, the Interrupt Unit, the contexts a held read
touches, and the marks changed, and no mark was lost. -/
structure Beside (n : Transport) (s t : State) : Prop where
  run : t.run = s.run
  mixer : t.mixer = s.mixer
  et : t.et = s.et
  rtu : t.rtu = s.rtu
  readers : t.readers = s.readers
  cfg : t.cfg = s.cfg
  hold : s.ptu.hold = none → t.ptu.hold = none
  levels : t.iru.levels = s.iru.levels
  events : ∀ i : Irq, i.condition = false → s.iru.isPending i = true → t.iru.isPending i = true
  marks : ∀ x ∈ s.marks, x ∈ t.marks
  link : ∀ m, m ≠ n → t.link m = s.link m
  chase : ∀ m, m ≠ n → t.chase m = s.chase m

namespace Beside

theorem refl (n : Transport) (s : State) : Beside n s s :=
  ⟨rfl, rfl, rfl, rfl, rfl, rfl, id, rfl, fun _ _ h => h, fun _ h => h, fun _ _ => rfl, fun _ _ => rfl⟩

theorem trans (h : Beside n s t) (h' : Beside n t u) : Beside n s u where
  run := h'.run.trans h.run
  mixer := h'.mixer.trans h.mixer
  et := h'.et.trans h.et
  rtu := h'.rtu.trans h.rtu
  readers := h'.readers.trans h.readers
  cfg := h'.cfg.trans h.cfg
  hold e := h'.hold (h.hold e)
  levels := h'.levels.trans h.levels
  events i hi e := h'.events i hi (h.events i hi e)
  marks x e := h'.marks x (h.marks x e)
  link m hm := (h'.link m hm).trans (h.link m hm)
  chase m hm := (h'.chase m hm).trans (h.chase m hm)

theorem ite {c : Prop} [Decidable c] {x y : State} (h : c → Beside n s x) (h' : ¬c → Beside n s y) :
    Beside n s (if c then x else y) := by
  split_ifs with hc
  · exact h hc
  · exact h' hc

end Beside

theorem beside_raise (i : Irq) (hi : i.condition = false) : Beside n s (s.raise i) := by
  obtain ⟨h1, h2, h3, h4, h5, h6, h7, h8, h9, h10, h11⟩ := raise_keeps s i
  have h := raise_tame (r := true) (s := s) i hi
  refine ⟨h10, h11, h9, h5, h6, h4, h.hold, h.levels, h.events, h.marks rfl, fun m _ => ?_, fun m _ => ?_⟩
  · unfold State.link; rw [h7]
  · unfold State.chase; rw [h8]

theorem beside_setChase (c : Chase) : Beside n s (s.setChase n c) := by
  refine ⟨rfl, rfl, rfl, rfl, rfl, rfl, id, rfl, fun _ _ h => h, fun _ h => h, fun _ _ => rfl, fun m hm => ?_⟩
  rw [chase_setChase, if_neg hm]

theorem beside_onLink (f : Link → Link) : Beside n s (s.onLink n f) := by
  refine ⟨rfl, rfl, rfl, rfl, rfl, rfl, id, rfl, fun _ _ h => h, fun _ h => h, fun m hm => ?_, fun _ _ => rfl⟩
  unfold onLink
  rw [link_setLink, if_neg hm]

theorem beside_onCtx (f : Context → Context) : Beside n s (s.onCtx n f) :=
  ⟨rfl, rfl, rfl, rfl, rfl, rfl, id, rfl, fun _ _ h => h, fun _ h => h, fun _ _ => rfl, fun _ _ => rfl⟩

theorem beside_mark (x : Mark) : Beside n s (s.mark x) :=
  ⟨rfl, rfl, rfl, rfl, rfl, rfl, id, rfl, fun _ _ h => h, fun _ h => List.mem_append_left _ h, fun _ _ => rfl, fun _ _ => rfl⟩

/-- A speed that completes as CANCELLED is counted for the processor alone. -/
theorem beside_cancelledSpeed (src : Source) : Beside n s (s.cancelled n src .speed) := by
  cases src with
  | processor => exact beside_onCtx fun c => { c with cancelled := c.cancelled + 1 }
  | run => exact .refl n s
  | chase => exact .refl n s
  | link => exact .refl n s

theorem beside_withdrawSpeed : Beside n s (s.withdrawSpeed n) := by
  unfold withdrawSpeed
  split
  · exact (beside_onLink _).trans (beside_cancelledSpeed _)
  · exact .refl n s

theorem beside_offerSpeed (v : SlotSpeed) : Beside n s (s.offerSpeed n v).2 := by
  unfold offerSpeed
  simp only
  split_ifs
  · exact .refl n s
  · split
    · exact beside_onLink (s := s) (n := n) fun l => ({ l with slot := some v } : Link).choose
    · rename_i old _
      exact (beside_onLink (s := s) (n := n) fun l => ({ l with slot := some v, superseded := satSucc 65535 l.superseded } : Link).choose).trans
        (beside_cancelledSpeed old.source)

theorem beside_faultChase (cause : ChaseCause) : Beside n s (s.faultChase n cause) := by
  unfold faultChase
  exact ((beside_setChase _).trans beside_withdrawSpeed).trans (beside_raise .chase rfl)

theorem beside_failChase (hq : s.RunQuiet) (cause : ChaseCause) : Beside n s (s.failChase n cause) := by
  unfold failChase
  simp only
  refine .ite (fun _ => ?_) fun _ => .refl n s
  have h := beside_faultChase (s := s) (n := n) cause
  refine .ite (fun _ => ?_) fun _ => h
  unfold tellChaseFault
  obtain ⟨h1, h2⟩ := quiet_active hq
  rw [if_neg (by rw [h.run, h1]; simp [h2])]
  exact h

theorem beside_putChase (c : Chase) : Beside n s (s.putChase n c) :=
  .ite (fun _ => beside_setChase c) fun _ => (beside_setChase c).trans (beside_raise .chase rfl)

theorem beside_chaseMarks (x y : ChaseState) : Beside n s (chaseMarks n x y s) :=
  .ite (fun _ => beside_mark _) fun _ => .ite (fun _ => beside_mark _) fun _ => .refl n s

theorem beside_offerChaseSpeed (hq : s.RunQuiet) (v : Int) : Beside n s (s.offerChaseSpeed n v) := by
  unfold offerChaseSpeed
  have h := beside_offerSpeed (s := s) (n := n) ⟨v, .chase, none⟩
  revert h
  generalize s.offerSpeed n ⟨v, .chase, none⟩ = r
  obtain ⟨a, y⟩ := r
  intro h
  exact .ite (fun _ => h.trans (beside_setChase _)) fun _ => h.trans (beside_failChase (by unfold RunQuiet; rw [h.run]; exact hq) _)

theorem beside_chaseBoundary (hq : s.RunQuiet) : Beside n s (chaseBoundary n s) := by
  unfold chaseBoundary
  refine .ite (fun _ => ?_) fun _ => .refl n s
  split
  · unfold chaseLoop
    simp only
    refine Beside.trans ((beside_putChase _).trans (beside_chaseMarks _ _)) (beside_offerChaseSpeed ?_ _)
    unfold RunQuiet
    rw [((beside_putChase (s := s) (n := n) _).trans (beside_chaseMarks _ _)).run]
    exact hq
  · unfold chaseHold
    simp only
    refine .ite (fun _ => .ite (fun _ => beside_setChase _) fun _ => ?_) fun _ => beside_putChase _
    exact (beside_mark (s := s) (n := n) (.holdExpired n)).trans (beside_failChase (s := s.mark (.holdExpired n)) hq .holdExpired)

/-! ## The chases one by one -/

/-- The state in which the context of `n` computes, and the state it leaves, among contexts that compute one by one. -/
theorem chaseBoundaries_at : ∀ (ts : List Transport) (s : State), ts.Nodup → n ∈ ts → s.RunQuiet →
    ∃ y, y.run = s.run ∧ y.mixer = s.mixer ∧ y.et = s.et ∧ y.rtu = s.rtu ∧ y.readers = s.readers ∧ y.cfg = s.cfg ∧
      (s.ptu.hold = none → y.ptu.hold = none) ∧ y.iru.levels = s.iru.levels ∧ y.link n = s.link n ∧ y.chase n = s.chase n ∧
      let z := chaseBoundary n y
      let t := forTransports ts chaseBoundary s
      t.link n = z.link n ∧ t.chase n = z.chase n ∧ (∀ x ∈ z.marks, x ∈ t.marks) ∧
        ∀ i : Irq, i.condition = false → z.iru.isPending i = true → t.iru.isPending i = true
  | [], _, _, h, _ => by cases h
  | k :: ts, s, hd, hn, hq => by
    have hk := beside_chaseBoundary (n := k) hq
    by_cases e : n = k
    · subst e
      refine ⟨s, rfl, rfl, rfl, rfl, rfl, rfl, id, rfl, rfl, rfl, ?_⟩
      have rest : ∀ (ts : List Transport) (z : State), n ∉ ts → z.RunQuiet → let t := forTransports ts chaseBoundary z
          t.link n = z.link n ∧ t.chase n = z.chase n ∧ (∀ x ∈ z.marks, x ∈ t.marks) ∧
            ∀ i : Irq, i.condition = false → z.iru.isPending i = true → t.iru.isPending i = true := by
        intro ts
        induction ts with
        | nil => intro z _ _; exact ⟨rfl, rfl, fun _ h => h, fun _ _ h => h⟩
        | cons j ts ih =>
          intro z hn hz
          have hj := beside_chaseBoundary (n := j) hz
          obtain ⟨a, c, d, f⟩ := ih (chaseBoundary j z) (fun h => hn (List.mem_cons_of_mem _ h)) (by unfold RunQuiet; rw [hj.run]; exact hz)
          have hne : n ≠ j := fun h => hn (by rw [h]; simp)
          exact ⟨a.trans (hj.link n hne), c.trans (hj.chase n hne), fun x hx => d x (hj.marks x hx), fun i hi h => f i hi (hj.events i hi h)⟩
      exact rest ts (chaseBoundary n s) (List.nodup_cons.1 hd).1 (by unfold RunQuiet; rw [hk.run]; exact hq)
    · obtain ⟨y, y1, y2, y3, y4, y5, y6, y7, y8, y9, y10, y11⟩ :=
        chaseBoundaries_at ts (chaseBoundary k s) (List.nodup_cons.1 hd).2 ((List.mem_cons.1 hn).resolve_left e)
          (by unfold RunQuiet; rw [hk.run]; exact hq)
      exact ⟨y, y1.trans hk.run, y2.trans hk.mixer, y3.trans hk.et, y4.trans hk.rtu, y5.trans hk.readers, y6.trans hk.cfg,
        fun h => y7 (hk.hold h), y8.trans hk.levels, y9.trans (hk.link n e), y10.trans (hk.chase n e), y11⟩

/-- All the chases leave the run and the mixer as they were. -/
theorem chaseBoundaries_keep : ∀ (ts : List Transport) (s : State), s.RunQuiet →
    (forTransports ts chaseBoundary s).run = s.run ∧ (forTransports ts chaseBoundary s).mixer = s.mixer ∧
    (forTransports ts chaseBoundary s).iru.levels = s.iru.levels
  | [], _, _ => ⟨rfl, rfl, rfl⟩
  | k :: ts, s, hq => by
    have hk := beside_chaseBoundary (n := k) hq
    obtain ⟨a, c, d⟩ := chaseBoundaries_keep ts (chaseBoundary k s) (by unfold RunQuiet; rw [hk.run]; exact hq)
    exact ⟨a.trans hk.run, c.trans hk.mixer, d.trans hk.levels⟩

/-! ## The run's part of a boundary while it works no events -/

theorem clockAndState_quiet (hq : s.RunQuiet) : s.clockAndState = s := by
  obtain ⟨h1, h2⟩ := quiet_active hq
  have e1 : s.advanceRun = s := by
    unfold advanceRun
    rcases hq with h | h <;> rw [h]
  have e2 : s.countLookahead = s := by
    unfold countLookahead
    split
    · rw [if_neg (by rw [h1]; simp)]
    · rfl
  unfold clockAndState
  rw [e1, e2]
  simp only
  have h : ∀ (ts : List Transport), forTransports ts cueWork s = s := by
    intro ts
    induction ts with
    | nil => rfl
    | cons k ts ih =>
      show forTransports ts cueWork (cueWork k s) = s
      have : cueWork k s = s := by
        unfold cueWork
        simp only
        rw [if_pos (by rw [h1]; rfl)]
      rw [this]; exact ih
  exact h _

theorem quiet_rolling (hq : s.RunQuiet) : s.run.state.rolling = false := by
  rcases hq with h | h <;> rw [h] <;> rfl

/-- While the run works no events, its part and the chases' of a boundary are the computations alone. -/
theorem runAndChase_quiet (hq : s.RunQuiet) (ts : List Transport) (before : Six Chase) :
    s.runAndChase ts before = forTransports ts chaseBoundary s := by
  obtain ⟨h1, h2⟩ := quiet_active hq
  have h3 := quiet_rolling hq
  unfold runAndChase
  simp only
  have e1 : s.lateInserts = s := by
    unfold lateInserts
    split
    · rw [if_neg (by rw [h1]; exact nofun)]
    · rfl
  rw [e1, clockAndState_quiet hq]
  have e2 : s.early ts = [] := by
    unfold early
    rw [if_neg (by rw [h3]; exact nofun)]
  rw [e2]
  have e3 : ({ s with free := if s.run.state.rolling = true then s.free + 1 else s.free } : State) = s := by
    rw [if_neg (by rw [h3]; exact nofun)]
  rw [e3]
  have e4 : forTransports [] chaseBoundary s = s := rfl
  rw [e4]
  have e5 : s.timedActions = s := by
    unfold timedActions
    split
    · rw [if_neg (by rw [h3]; exact nofun)]
    · rfl
  rw [e5]
  have e6 : (ts.filter fun n => !([] : List Transport).contains n) = ts := by
    rw [List.filter_eq_self]
    intro a _
    rfl
  rw [e6]
  obtain ⟨k1, -⟩ := chaseBoundaries_keep ts s hq
  generalize forTransports ts chaseBoundary s = y at k1 ⊢
  unfold chaseStates
  split
  · rw [if_neg (by rw [k1, h3]; exact nofun)]
  · rfl

/-- What stands when the run and the chases begin their work of a boundary. -/
theorem linksDone_keeps (b : State) : (linksDone b sh).run = b.run ∧ (linksDone b sh).mixer = b.mixer ∧ (linksDone b sh).et = b.et ∧ (linksDone b sh).cfg = b.cfg ∧
    (linksDone b sh).rtu = Rtu.next b.standard sh b.rtu ∧ (∀ m, (linksDone b sh).reader m = (b.reader m).boundary b.standard b.coastLimit b.rtu.phase) ∧
    (∀ m, (linksDone b sh).chase m = (b.chase m).adopt) := by
  obtain ⟨h1, h2, h3, h4, h5, h6, h7, h8⟩ := readersDone_keeps b
  unfold linksDone
  generalize (b.readersDone sh) = y at *
  obtain ⟨b1, b2, b3, b4, b5, b6, b7, b8, b9, b10, b11⟩ := linkBoundaries_keep Transport.all y
  generalize forTransports Transport.all linkBoundary y = z at *
  refine ⟨b6.trans h6, b4.trans h5, b7.trans h7, b10.trans h8, b1.trans h1, ?_, ?_⟩
  · intro m
    rw [← h2]
    show z.readers.get m = y.readers.get m
    rw [b2]
  · intro m
    show (z.chases.map Chase.adopt).get m = _
    rw [Six.get_map, b5, h4]
    rfl

/-- A frame boundary while the run works no events. -/
theorem frameBoundary_quiet (hq : b.RunQuiet) : (b.frameBoundary sh) =
    (forTransports (Transport.all.filter fun n => ((linksDone b sh).chase n).computes) chaseBoundary (linksDone b sh)).fieldWork false := by
  rw [frameBoundary_parts, runAndChase_quiet]
  unfold RunQuiet
  rw [(linksDone_keeps b).1]; exact hq

/-- The mixer before the field work of a frame boundary. -/
theorem beforeField (hq : b.RunQuiet) : ∃ y : State, (b.frameBoundary sh) = y.fieldWork false ∧ y.mixer = b.mixer ∧ y.run = b.run ∧ y.configured = b.configured ∧ y.iru.levels = b.iru.levels := by
  refine ⟨_, frameBoundary_quiet hq, ?_⟩
  obtain ⟨h1, h2, h3, h4, -⟩ := linksDone_keeps b (sh := sh)
  have hl : (linksDone b sh).iru.levels = b.iru.levels := by
    have := (readersDone_rough (s := b) (sh := sh)).levels
    unfold linksDone
    generalize (b.readersDone sh) = y at *
    have e : ∀ z : State, z.adoptParams.iru = z.iru := fun _ => rfl
    rw [e, (linkBoundaries_keep Transport.all y).2.2.2.2.2.2.2.2.2.2]; exact this
  generalize linksDone b sh = y at *
  have hqy : y.RunQuiet := by unfold RunQuiet; rw [h1]; exact hq
  obtain ⟨k1, k2, k3⟩ := chaseBoundaries_keep (Transport.all.filter fun n => (y.chase n).computes) y hqy
  refine ⟨k2.trans h2, k1.trans h1, ?_, k3.trans hl⟩
  have : (forTransports (Transport.all.filter fun n => (y.chase n).computes) chaseBoundary y).cfg = y.cfg :=
    (Tame.forTransports (r := true) (fun n s => chaseBoundary_tame n s) _ _).cfg
  unfold configured
  rw [this, h4]

/-- The marks of the GPI lines that end. -/
theorem markPulseEnds_keeps (y : State) : y.markPulseEnds.mixer = y.mixer ∧ y.markPulseEnds.run = y.run ∧ y.markPulseEnds.iru = y.iru ∧ y.markPulseEnds.cfg = y.cfg ∧ (∀ x ∈ y.marks, x ∈ y.markPulseEnds.marks) ∧
    (∀ l : Fin 8, y.mixer.timers[l] = 1 → Mark.gpiPulseEnd l ∈ y.markPulseEnds.marks) := by
  unfold markPulseEnds
  have key : ∀ (ls : List (Fin 8)) (y : State), let z := ls.foldl (fun s l => if s.mixer.timers[l] = 1 then s.mark (.gpiPulseEnd l) else s) y
      z.mixer = y.mixer ∧ z.run = y.run ∧ z.iru = y.iru ∧ z.cfg = y.cfg ∧ (∀ x ∈ y.marks, x ∈ z.marks) ∧ ∀ l ∈ ls, y.mixer.timers[l] = 1 → Mark.gpiPulseEnd l ∈ z.marks := by
    intro ls
    induction ls with
    | nil => intro y; exact ⟨rfl, rfl, rfl, rfl, fun _ h => h, fun _ h => by cases h⟩
    | cons k ls ih =>
      intro y
      have hs : (if y.mixer.timers[k] = 1 then y.mark (.gpiPulseEnd k) else y).mixer = y.mixer ∧ (if y.mixer.timers[k] = 1 then y.mark (.gpiPulseEnd k) else y).run = y.run ∧
          (if y.mixer.timers[k] = 1 then y.mark (.gpiPulseEnd k) else y).iru = y.iru ∧ (if y.mixer.timers[k] = 1 then y.mark (.gpiPulseEnd k) else y).cfg = y.cfg ∧
          (∀ x ∈ y.marks, x ∈ (if y.mixer.timers[k] = 1 then y.mark (.gpiPulseEnd k) else y).marks) ∧ (y.mixer.timers[k] = 1 → Mark.gpiPulseEnd k ∈ (if y.mixer.timers[k] = 1 then y.mark (.gpiPulseEnd k) else y).marks) := by
        split_ifs with h
        · exact ⟨rfl, rfl, rfl, rfl, fun _ hx => List.mem_append_left _ hx, fun _ => List.mem_append_right _ (by simp)⟩
        · exact ⟨rfl, rfl, rfl, rfl, fun _ hx => hx, fun h' => absurd h' h⟩
      obtain ⟨s1, s2, s3, s4, s5, s6⟩ := hs
      rw [List.foldl_cons]
      generalize (if y.mixer.timers[k] = 1 then y.mark (.gpiPulseEnd k) else y) = w at *
      obtain ⟨i1, i2, i3, i4, i5, i6⟩ := ih w
      refine ⟨i1.trans s1, i2.trans s2, i3.trans s3, i4.trans s4, fun x hx => i5 x (s5 x hx), ?_⟩
      intro l hl ht
      rcases List.mem_cons.1 hl with rfl | hl
      · exact i5 _ (s6 ht)
      · exact i6 l hl (by rw [s1]; exact ht)
  obtain ⟨a, c, d, e, f, g⟩ := key (List.finRange 8) y
  exact ⟨a, c, d, e, f, fun l h => g l (List.mem_finRange l) h⟩

/-- What the field work of either parity finds when nothing is handed: the tables adopted, the timers counted at parity 1. -/
theorem fieldWork_parts (y : State) (p : Bool) (hh : p = true ∨ y.mixer.handed = []) :
    ∃ z : State, y.fieldWork p = z.transitionField.onMixer (fun m => m.send (m.frame p)) ∧
      z.mixer = { y.mixer.adopt with timers := if p then y.mixer.timers else y.mixer.timers.map (· - 1) } ∧ z.iru = y.iru ∧ z.cfg = y.cfg ∧
      (p = false → ∀ l : Fin 8, y.mixer.timers[l] = 1 → Mark.gpiPulseEnd l ∈ z.marks) := by
  cases p with
  | true => exact ⟨y.onMixer Mixer.adopt, rfl, rfl, rfl, rfl, fun h => by cases h⟩
  | false =>
    have hh := hh.resolve_left nofun
    obtain ⟨m1, m2, m3, m4, m5, m6⟩ := markPulseEnds_keeps (y.onMixer Mixer.adopt)
    have e : y.fieldWork false = ((((y.onMixer Mixer.adopt).markPulseEnds.onMixer Mixer.countDown).applyAllHanded).transitionField.onMixer (fun m => m.send (m.frame false))) := rfl
    refine ⟨_, e, ?_⟩
    generalize (y.onMixer Mixer.adopt).markPulseEnds = w at *
    have ha : (w.onMixer Mixer.countDown).applyAllHanded = (w.onMixer Mixer.countDown).onMixer ({ · with handed := [] }) := by
      unfold applyAllHanded
      have : (w.onMixer Mixer.countDown).mixer.handed = [] := by
        show w.mixer.handed = []
        rw [m1]; exact hh
      rw [this]; rfl
    rw [ha]
    refine ⟨?_, m3, m4, fun _ => m6⟩
    show ({ w.mixer.countDown with handed := [] } : Mixer) = _
    rw [m1]
    unfold Mixer.countDown Mixer.adopt onMixer setMixer
    dsimp only
    rw [← hh]
    rfl

theorem transitionField_ends {z : State} {x : Transition} (hx : z.mixer.transition = some x) (hk : x.fields < x.k) :
    z.transitionField = ((z.onMixer (·.complete x)).raise .transition).mark .transitionEnd := by
  unfold transitionField
  rw [hx]
  simp only
  rw [if_neg (by omega)]

/-- The end of a transition (09 R183, R187). -/
theorem complete_fields (m : Mixer) (x : Transition) : (m.complete x).transition = none ∧ (m.complete x).last = some ⟨x.kind, x.byProcessor, .completed⟩ ∧
    ((m.complete x).owner, (m.complete x).aBus, (m.complete x).bBus, (m.complete x).level) =
      (if x.byProcessor then (.free, m.bBus, m.aBus, 0) else (m.owner, m.aBus, m.bBus, m.level)) ∧ (m.complete x).pulses = m.pulses := by
  unfold Mixer.complete
  cases h : x.byProcessor <;> simp [Mixer.ended, Mixer.flip, h]

/-- A field work at which a transition ends. -/
theorem fieldWork_ends {y : State} {p : Bool} {x : Transition} (hc : y.configured = true) (hh : p = true ∨ y.mixer.handed = []) (hx : y.mixer.transition = some x) (hk : x.fields < x.k) :
    Mark.transitionEnd ∈ (y.fieldWork p).marks ∧ (y.fieldWork p).mixer.transition = none ∧ (y.fieldWork p).mixer.last = some ⟨x.kind, x.byProcessor, .completed⟩ ∧
    ((y.fieldWork p).mixer.owner, (y.fieldWork p).mixer.aBus, (y.fieldWork p).mixer.bBus, (y.fieldWork p).mixer.level) =
      (if x.byProcessor then (.free, y.mixer.bBus, y.mixer.aBus, 0) else (y.mixer.owner, y.mixer.aBus, y.mixer.bBus, y.mixer.level)) ∧
    (y.fieldWork p).mixer.pulses = y.mixer.pulses ∧ (y.iru.level .transition ≠ 0 → (y.fieldWork p).iru.isPending .transition = true) := by
  obtain ⟨z, z1, z2, z3, z4, -⟩ := fieldWork_parts y p hh
  have hzx : z.mixer.transition = some x := by rw [z2]; exact hx
  rw [z1, transitionField_ends hzx hk]
  obtain ⟨c1, c2, c3, c4⟩ := complete_fields z.mixer x
  obtain ⟨-, -, -, -, -, -, -, -, -, -, r11⟩ := raise_keeps (z.onMixer (·.complete x)) .transition
  have hm : ((z.onMixer (·.complete x)).raise .transition).mixer = z.mixer.complete x := r11
  have hp : y.iru.level .transition ≠ 0 → ((z.onMixer (·.complete x)).raise .transition).iru.isPending .transition = true := by
    intro hl
    refine raise_pending rfl ?_ ?_
    · unfold configured at *
      show z.cfg.setup.isSome = true
      rw [z4]; exact hc
    · show z.iru.level .transition ≠ 0
      rw [z3]; exact hl
  generalize (z.onMixer (·.complete x)).raise .transition = w at *
  have hz : z.mixer.aBus = y.mixer.aBus ∧ z.mixer.bBus = y.mixer.bBus ∧ z.mixer.level = y.mixer.level ∧ z.mixer.owner = y.mixer.owner ∧ z.mixer.pulses = y.mixer.pulses := by
    rw [z2]; exact ⟨rfl, rfl, rfl, rfl, rfl⟩
  obtain ⟨e1, e2, e3, e4, e5⟩ := hz
  refine ⟨?_, ?_, ?_, ?_, ?_, ?_⟩
  · exact List.mem_append_right _ (by simp)
  · show w.mixer.transition = none; rw [hm]; exact c1
  · show w.mixer.last = _; rw [hm]; exact c2
  · show (w.mixer.owner, w.mixer.aBus, w.mixer.bBus, w.mixer.level) = _
    rw [hm, c3, e1, e2, e3, e4]
  · show w.mixer.pulses = _; rw [hm, c4]; exact e5
  · exact hp

/-- The boundary of a field cause. -/
theorem fieldCause_at {c : FieldCause} (h : s.atField c = some b) : (∃ k, c = .frame k ∧ s.atBoundary k = some b ∧ s.fieldCause c = b.frameBoundary (s.shortens k)) ∨
    (s.fieldCause c = b.field2Boundary ∧ b.configured = true) := by
  cases c with
  | frame k => exact .inl ⟨k, rfl, h, frameCause_at h⟩
  | point =>
    refine .inr ⟨fieldCause_point h, ?_⟩
    simp only [atField] at h
    split_ifs at h with h1 <;> cases h <;> rw [elapse_configured] <;> simp_all
  | pulse =>
    obtain ⟨rfl, h2⟩ := fieldCause_pulse h
    refine .inr ⟨h2, ?_⟩
    simp only [atField] at h
    split_ifs at h with h1
    simp_all

/-! ## The field work reaches the mixer and the Interrupt Unit alone -/

/-- From `s` to `t` the links, the chases, the run and the edit table stand. -/
structure MixerOnly (s t : State) : Prop where
  links : t.links = s.links
  chases : t.chases = s.chases
  run : t.run = s.run
  et : t.et = s.et

theorem MixerOnly.refl (s : State) : MixerOnly s s := ⟨rfl, rfl, rfl, rfl⟩

theorem MixerOnly.trans (h : MixerOnly s t) (h' : MixerOnly t u) : MixerOnly s u :=
  ⟨h'.links.trans h.links, h'.chases.trans h.chases, h'.run.trans h.run, h'.et.trans h.et⟩

theorem MixerOnly.ite {c : Prop} [Decidable c] {x y : State} (h : c → MixerOnly s x) (h' : ¬c → MixerOnly s y) :
    MixerOnly s (if c then x else y) := by
  split_ifs with hc
  · exact h hc
  · exact h' hc

theorem mixerOnly_raise (i : Irq) : MixerOnly s (s.raise i) := by
  obtain ⟨-, -, -, -, -, -, h7, h8, h9, h10, -⟩ := raise_keeps s i
  exact ⟨h7, h8, h10, h9⟩

theorem mixerOnly_onMixer (f : Mixer → Mixer) : MixerOnly s (s.onMixer f) := ⟨rfl, rfl, rfl, rfl⟩

theorem mixerOnly_applyHanded (x : Handed) : MixerOnly s (s.applyHanded x) := by
  unfold applyHanded
  split
  · unfold takeMixer preempt
    refine MixerOnly.trans ?_ (mixerOnly_onMixer _)
    split
    · exact .ite (fun _ => (mixerOnly_onMixer _).trans (mixerOnly_raise _)) fun _ => .refl s
    · exact .refl s
  · exact (mixerOnly_onMixer _).trans (mixerOnly_raise _)
  · unfold startTransition endTransition
    refine MixerOnly.trans ?_ (mixerOnly_onMixer _)
    split
    · exact (mixerOnly_onMixer _).trans (mixerOnly_raise _)
    · exact .refl s

theorem mixerOnly_foldl {α : Type} {f : State → α → State} (h : ∀ s a, MixerOnly s (f s a)) :
    ∀ (l : List α) (s : State), MixerOnly s (l.foldl f s)
  | [], s => .refl s
  | a :: l, s => (h s a).trans (mixerOnly_foldl h l (f s a))

theorem mixerOnly_transitionField : MixerOnly s s.transitionField := by
  obtain ⟨-, k2, k3, -, k5, k6, -⟩ := transitionField_keeps s
  exact ⟨k2, k3, k5, k6⟩

theorem mixerOnly_applyAllHanded : MixerOnly s s.applyAllHanded :=
  (mixerOnly_onMixer _).trans (mixerOnly_foldl (fun _ a => mixerOnly_applyHanded a) _ _)

theorem mixerOnly_mark (x : Mark) : MixerOnly s (s.mark x) := ⟨rfl, rfl, rfl, rfl⟩

theorem mixerOnly_markPulseEnds : MixerOnly s s.markPulseEnds := by
  unfold markPulseEnds
  refine mixerOnly_foldl (fun s l => ?_) _ _
  exact .ite (fun _ => mixerOnly_mark _) fun _ => .refl s

theorem mixerOnly_fieldWork (p : Bool) : MixerOnly s (s.fieldWork p) := by
  have h1 : MixerOnly s (s.onMixer Mixer.adopt) := mixerOnly_onMixer _
  cases p with
  | true => exact (h1.trans mixerOnly_transitionField).trans (mixerOnly_onMixer fun m => m.send (m.frame true))
  | false =>
    have h2 := ((h1.trans mixerOnly_markPulseEnds).trans (mixerOnly_onMixer Mixer.countDown)).trans mixerOnly_applyAllHanded
    exact (h2.trans mixerOnly_transitionField).trans (mixerOnly_onMixer fun m => m.send (m.frame false))

end State

end Sys2Proof.Machine
end

