-- ==== Sys2Proof/Laws/ChaseBoundaries.lean ====
section
/-! SUPPORT. The computation of one chase context at a frame boundary while no run works (06 R117 to R125). -/

namespace Sys2Proof.Machine

set_option Elab.async false

namespace State

variable {s t b y : State} {n : Transport} {sh : Bool}

/-- What a computation reads does not depend on whether the frame was shortened. -/
theorem chaseInput_eq (b : State) (n : Transport) (sh : Bool) :
    b.chaseInput n = (((b.readersDone sh).reader n).position, (b.readersDone sh).masterOf (b.chase n).master) := by
  obtain ⟨k1, k2, -, -, -, k3, -, k4⟩ := readersDone_keeps b (sh := sh)
  obtain ⟨l1, l2, -, -, -, l3, -, l4⟩ := readersDone_keeps b (sh := false)
  have e1 : ∀ m, (b.readersDone sh).reader m = (b.readersDone false).reader m := fun m => (k2 m).trans (l2 m).symm
  have e2 : (b.readersDone sh).rtu.clock = (b.readersDone false).rtu.clock := by rw [k1, l1]; rfl
  have e3 : (b.readersDone sh).run = (b.readersDone false).run := k3.trans l3.symm
  have e4 : (b.readersDone sh).standard = (b.readersDone false).standard := by unfold standard; rw [k4, l4]
  unfold chaseInput masterOf
  cases (b.chase n).master <;> simp only [e1, e2, e3, e4]

/-- The computation of one context at a frame boundary while no run works: where it finds itself, and what comes of it. -/
theorem frameBoundary_chase (hq : b.RunQuiet) (hcf : b.configured = true) (hk : (b.chase n).computes = true) :
    ∃ y : State, y.RunQuiet ∧ y.configured = true ∧ y.iru.levels = b.iru.levels ∧ y.chase n = (b.chase n).adopt ∧ y.link n = (b.link n).probeTick ∧
      ((y.reader n).position, y.masterOf (b.chase n).master) = b.chaseInput n ∧ y.reader n = (b.readersDone false).reader n ∧ y.standard = b.standard ∧
      (b.frameBoundary sh).chase n = (chaseBoundary n y).chase n ∧ (b.frameBoundary sh).link n = (chaseBoundary n y).link n ∧
      (∀ x ∈ (chaseBoundary n y).marks, x ∈ (b.frameBoundary sh).marks) ∧
      (∀ i : Irq, i.condition = false → (chaseBoundary n y).iru.isPending i = true → (b.frameBoundary sh).iru.isPending i = true) := by
  obtain ⟨k1, k2, k3, k4, k5, k6, k7⟩ := linksDone_keeps b (sh := sh)
  have kl := linksDone_link b n (sh := sh)
  have klv : (linksDone b sh).iru.levels = b.iru.levels := by
    have := (readersDone_rough (s := b) (sh := sh)).levels
    unfold linksDone
    generalize (b.readersDone sh) = y at *
    have e : ∀ z : State, z.adoptParams.iru = z.iru := fun _ => rfl
    rw [e, (linkBoundaries_keep Transport.all y).2.2.2.2.2.2.2.2.2.2]; exact this
  have krd : (linksDone b sh).readers = (b.readersDone sh).readers := by
    unfold linksDone
    generalize (b.readersDone sh) = y
    have h2 : ∀ z : State, z.adoptParams.readers = z.readers := fun _ => rfl
    rw [h2, (linkBoundaries_keep Transport.all y).2.1]
  have krt : (linksDone b sh).rtu = (b.readersDone sh).rtu := by rw [k5, (readersDone_keeps b).1]
  have krun : (linksDone b sh).run = (b.readersDone sh).run := by rw [k1, (readersDone_keeps b).2.2.2.2.2.1]
  have kcf : (linksDone b sh).cfg = (b.readersDone sh).cfg := by rw [k4, (readersDone_keeps b).2.2.2.2.2.2.2]
  have hfb := frameBoundary_quiet hq (sh := sh)
  have hc : (linksDone b sh).chase n = (b.chase n).adopt := k7 n
  have hk' : (b.chase n).adopt.computes = true := by
    rw [← hk]
    unfold Chase.adopt
    split <;> rfl
  have hrd : (b.readersDone sh).reader n = (b.readersDone false).reader n :=
    ((readersDone_keeps b).2.1 n).trans ((readersDone_keeps b).2.1 n).symm
  rw [chaseInput_eq b n sh]
  generalize (b.readersDone sh) = r at *
  generalize linksDone b sh = d at *
  have hdq : d.RunQuiet := by unfold RunQuiet; rw [k1]; exact hq
  obtain ⟨y, y1, y2, y3, y4, y5, y6, y7, y8, y9, y10, y11⟩ := chaseBoundaries_at (n := n) (Transport.all.filter fun n => (d.chase n).computes) d
    (List.Nodup.filter _ (by decide)) (List.mem_filter.2 ⟨Transport.mem_all n, by rw [hc]; exact hk'⟩) hdq
  simp only at y11
  obtain ⟨z1, z2, z3, z4⟩ := y11
  rw [hfb]
  generalize forTransports (Transport.all.filter fun n => (d.chase n).computes) chaseBoundary d = w at *
  have hf := mixerOnly_fieldWork (s := w) false
  have ht := fieldWork_tame (r := true) (s := w) false
  refine ⟨y, by unfold RunQuiet; rw [y1]; exact hdq, ?_, y8.trans klv, y10.trans hc, y9.trans kl, ?_, ?_, ?_, ?_, ?_, fun x hx => ht.marks rfl x (z3 x hx), fun i hi h => ht.events i hi (z4 i hi h)⟩
  · unfold configured at *; rw [y6, k4]; exact hcf
  · have e1 : ∀ m, y.reader m = r.reader m := by intro m; unfold reader; rw [y5, krd]
    have e2 : y.rtu = r.rtu := y4.trans krt
    have e3 : y.run = r.run := y1.trans krun
    have e4 : y.standard = r.standard := by unfold standard; rw [y6, kcf]
    unfold masterOf
    cases (b.chase n).master <;> simp only [e1, e2, e3, e4]
  · rw [← hrd]; unfold reader; rw [y5, krd]
  · unfold standard; rw [y6, k4]
  · rw [← z2]; unfold chase; rw [hf.chases]
  · rw [← z1]; unfold State.link; rw [hf.links]

theorem wrapSucc_ne (c : Nat) : wrapSucc 255 c ≠ c := by unfold wrapSucc; split_ifs <;> omega

/-- CHASE is raised when the change count moves (06 R126). -/
theorem putChase_moved {c : Chase} {k : Nat} (hk : k ≠ (y.chase n).changeCount) (h : c.changeCount = k) : y.putChase n c = (y.setChase n c).raise .chase := by
  unfold putChase
  rw [if_neg (by rw [h]; exact fun e => hk e.symm)]

/-- The integrator leaves the runs and the state alone (06 R122). -/
theorem integrate_fields (c : Chase) (co : Bool) (e : Int) : (c.integrate co e).state = c.state ∧ (c.integrate co e).inRun = c.inRun ∧ (c.integrate co e).outRun = c.outRun ∧
    (c.integrate co e).params = c.params ∧ (c.integrate co e).slips = c.slips ∧ (c.integrate co e).lastError = c.lastError ∧ (c.integrate co e).changeCount = c.changeCount ∧ (c.integrate co e).changeFlag = c.changeFlag := by
  unfold Chase.integrate
  split_ifs <;> exact ⟨rfl, rfl, rfl, rfl, rfl, rfl, rfl, rfl⟩

/-- A speed offered to a link that is UP is taken (06 R125). -/
theorem offerChaseSpeed_up {v : Int} (hup : (y.link n).state = .up) : (y.offerChaseSpeed n v).chase n = { y.chase n with vPrev := v } ∧ (∀ x ∈ y.marks, x ∈ (y.offerChaseSpeed n v).marks) ∧
    (y.offerChaseSpeed n v).iru = y.iru := by
  have h : ∃ z : State, y.offerSpeed n ⟨v, .chase, none⟩ = (true, z) ∧ z.chases = y.chases ∧ z.marks = y.marks ∧ z.iru = y.iru := by
    unfold offerSpeed
    simp only
    rw [if_neg (not_not.2 hup)]
    cases hs : (y.link n).slot with
    | none => exact ⟨_, rfl, rfl, rfl, rfl⟩
    | some old =>
      refine ⟨_, rfl, ?_⟩
      cases old.source <;> exact ⟨rfl, rfl, rfl⟩
  obtain ⟨z, h1, h2, h3, h4⟩ := h
  unfold offerChaseSpeed
  rw [h1]
  simp only
  rw [if_pos trivial]
  refine ⟨?_, fun x hx => by show x ∈ z.marks; rw [h3]; exact hx, h4⟩
  unfold onChase
  rw [chase_setChase, if_pos rfl]
  unfold chase
  rw [h2]

/-- A computation that changes the state of its context, on a link that is UP. -/
theorem chaseLoop_moves {P M : Nat} {v : Int} {c' : Chase} {w : Int} (hcf : y.configured = true) (hup : (y.link n).state = .up) (hh : (y.chase n).state ≠ .hold)
    (hco : (y.chase n).compute y.standard P M v (decide ((y.reader n).state = .coasting)) = (c', w)) (hcc : c'.changeCount = wrapSucc 255 (y.chase n).changeCount) (x : Mark)
    (hx : ∀ u : State, x ∈ (chaseMarks n (y.chase n).state c'.state u).marks) :
    (y.chaseLoop n P M v).chase n = { c' with vPrev := w } ∧ x ∈ (y.chaseLoop n P M v).marks ∧ (y.iru.level .chase ≠ 0 → (y.chaseLoop n P M v).iru.isPending .chase = true) := by
  unfold chaseLoop
  simp only
  rw [if_neg hh, hco]
  simp only
  rw [putChase_moved (wrapSucc_ne _) hcc]
  obtain ⟨r1, r2, r3, r4, r5, r6, r7, r8, r9, r10, r11⟩ := raise_keeps (y.setChase n c') .chase
  have hp : y.iru.level .chase ≠ 0 → ((y.setChase n c').raise .chase).iru.isPending .chase = true := fun hl => raise_pending rfl hcf hl
  generalize (y.setChase n c').raise .chase = u at *
  have hm : ∀ u : State, (chaseMarks n (y.chase n).state c'.state u).links = u.links ∧ (chaseMarks n (y.chase n).state c'.state u).chases = u.chases ∧ (chaseMarks n (y.chase n).state c'.state u).iru = u.iru := by
    intro u
    unfold chaseMarks
    split_ifs <;> exact ⟨rfl, rfl, rfl⟩
  obtain ⟨m1, m2, m3⟩ := hm u
  have hxu := hx u
  generalize chaseMarks n (y.chase n).state c'.state u = z at *
  obtain ⟨o1, o2, o3⟩ := offerChaseSpeed_up (y := z) (n := n) (v := w) (by unfold State.link; rw [m1, r7]; exact hup)
  refine ⟨?_, o2 _ hxu, fun hl => by rw [o3, m3]; exact hp hl⟩
  rw [o1]
  have : z.chase n = c' := by
    unfold chase
    rw [m2, r8]
    show (y.setChase n c').chase n = c'
    rw [chase_setChase, if_pos rfl]
  rw [this]

end State

end Sys2Proof.Machine
end

