-- ==== Sys2Proof/Laws/Records.lean ====
section
/-! SUPPORT. `Moves` for the records handed over to the slots (05, 06, 08, 09): whatever a record does, the books of its
transport balance and every flag follows. -/

namespace Sys2Proof.Machine

set_option Elab.async false

variable {r : Bool} {n : Transport} {s t : State}

namespace State

/-! ## The transport slot (05) -/

theorem countTaken_moves : Moves r true n 1 s (s.countTaken n) := by
  refine Moves.setCtx (fun e => e) (fun _ => rfl) ?_
  simp only
  ring

theorem takeFromChase_tame (n : Transport) : Tame r s (s.takeFromChase n) :=
  .ite (fun _ => (stopProcessorChase_tame n).then_ (setOwner_tame n _)) fun _ => .refl s

theorem withdrawSpeed_state (n m : Transport) : ((s.withdrawSpeed n).link m).state = (s.link m).state := by
  unfold withdrawSpeed
  split
  · unfold link
    rw [cancelled_links]
    show ((s.onLink n _).link m).state = (s.link m).state
    unfold onLink
    rw [link_setLink]
    split_ifs with h
    · rw [h]
    · rfl
  · rfl

theorem idleChase_state (n m : Transport) : ((s.idleChase n).link m).state = (s.link m).state := by
  unfold idleChase link
  rw [(raise_apart _).links]
  exact withdrawSpeed_state n m

theorem takeFromChase_state (n m : Transport) : ((s.takeFromChase n).link m).state = (s.link m).state := by
  unfold takeFromChase stopProcessorChase
  split_ifs
  · exact idleChase_state n m
  · rfl
  · rfl

/-- A processor command offered to a link that is UP balances: it is taken exactly when it is placed. -/
theorem offerCommand_tame (n : Transport) (kind : LinkKind) (arg : Arg) (tag : Word) (urgent : Bool)
    (hup : (s.link n).state = .up) : Tame r s (s.offerCommand n kind arg tag urgent).2 := by
  unfold offerCommand
  split
  · rename_i v
    have h := offerSpeed_moves (r := r) (s := s) n ⟨v, .processor, some tag⟩
    have h1 : (s.offerSpeed n ⟨v, .processor, some tag⟩).1 = true := by
      cases hv : (s.link n).slot with
      | none => rw [offerSpeed_empty hup hv]
      | some old => rw [offerSpeed_replaces hup hv]
    rw [if_pos h1] at h
    exact Moves.tame (n := n) ((h.trans countTaken_moves).congr_shift (by simp [Source.owedOne]))
  · have h := offerEntry_moves (r := r) (s := s) n ⟨.processor, kind, arg, some tag, urgent, false⟩
    split
    · rename_i u he
      rw [he, if_pos rfl] at h
      exact Moves.tame (n := n) ((h.trans countTaken_moves).congr_shift (by simp [Source.owedOne]))
    · rename_i u he
      rw [he, if_neg (by simp)] at h
      exact h.tame
    · rename_i u he
      rw [he, if_neg (by simp)] at h
      exact h.tame

theorem haltRequest_tame : Tame r s s.haltRequest := .ite (fun _ => abortPath_tame _) fun _ => .refl s

theorem linkCommand_tame (n : Transport) (kind : LinkKind) (arg : Arg) (tag : Word) :
    Tame r s (s.linkCommand n kind arg tag).2 := by
  unfold linkCommand
  simp only
  split_ifs with h1 h2 h3 h4 h4
  · exact .refl s
  · exact .refl s
  · refine Tame.then_ (Tame.then_ (takeFromChase_tame n) (offerCommand_tame n kind arg tag _ ?_)) haltRequest_tame
    rw [takeFromChase_state]
    simpa using h1
  · refine Tame.then_ (takeFromChase_tame n) (offerCommand_tame n kind arg tag _ ?_)
    rw [takeFromChase_state]
    simpa using h1
  · exact Tame.then_ (offerCommand_tame n kind arg tag _ (by simpa using h1)) haltRequest_tame
  · exact offerCommand_tame n kind arg tag _ (by simpa using h1)

theorem deckReset_rough (n : Transport) : Tame false s (s.deckReset n).2 := by
  unfold deckReset
  split_ifs
  · exact .refl s
  · exact (takeFromChase_tame n).then_ (linkReset_rough n)

/-- A record is decided by one operation and one result. -/
theorem transportRecord_decides (n : Transport) (command tag w2 w3 : Word) :
    ∃ u code, Tame false s u ∧ s.transportRecord n command tag w2 w3 = u.transportResult n code false command tag := by
  unfold transportRecord
  simp only
  refine ⟨_, _, ?_, rfl⟩
  split
  · exact .refl s
  · exact linkCommand_tame n _ _ _
  · exact clearLinkErrors_tame n
  · exact deckReset_rough n

theorem transportRecord_rough (n : Transport) (command tag w2 w3 : Word) : Tame false s (s.transportRecord n command tag w2 w3) := by
  obtain ⟨u, code, h, e⟩ := transportRecord_decides (s := s) n command tag w2 w3
  rw [e]
  exact h.then_ (transportResult_tame _ _ _ _ _)

theorem parameterRecord_tame (n : Transport) (tag latency tolerance timeout : Word) :
    Tame r s (s.parameterRecord n tag latency tolerance timeout) := by
  unfold parameterRecord
  simp only
  exact .ite (fun _ => transportResult_tame ..) fun _ => Tame.then_ (onCtx_tame rfl) (transportResult_tame ..)

/-! ## The chase slot (06) -/

theorem chaseResult_tame (n : Transport) (code : SlotCode) (command tag : Word) :
    Tame r s (s.chaseResult n code command tag) := (onChase_tame n _).then_ (raise_tame _ rfl)

theorem chaseStart_tame (n : Transport) (a : ChaseArgs) : Tame r s (s.chaseStart n a).2 := by
  unfold chaseStart
  split
  · exact .refl s
  · split_ifs
    · exact .refl s
    · exact .refl s
    · exact (setOwner_tame n _).then_ (beginChase_tame n _)

theorem chaseStop_tame (n : Transport) : Tame r s (s.chaseStop n).2 := by
  unfold chaseStop
  split_ifs
  · exact .refl s
  · exact .refl s
  · have h : Tame r s (((s.idleChase n).freeFromChase n).offerEntry n ⟨.chase, .halt, .none, none, false, false⟩).2 :=
      ((idleChase_tame n).then_ (freeFromChase_tame n)).then_ (offerEntry_tame n _ (by simp))
    split <;> rename_i he <;> rw [he] at h <;> exact h

/-- A record is decided by one operation and one result. -/
theorem chaseRecord_decides (n : Transport) (command tag : Word) (a : ChaseArgs) :
    ∃ u code, Tame r s u ∧ s.chaseRecord n command tag a = u.chaseResult n code command tag := by
  unfold chaseRecord
  simp only
  refine ⟨_, _, ?_, rfl⟩
  split
  · exact chaseStart_tame n a
  · exact chaseStop_tame n
  · dsimp only [chaseParams]
    exact onChase_tame n _
  · exact .refl s

theorem chaseRecord_tame (n : Transport) (command tag : Word) (a : ChaseArgs) : Tame r s (s.chaseRecord n command tag a) := by
  obtain ⟨u, code, h, e⟩ := chaseRecord_decides (s := s) n command tag a (r := r)
  rw [e]
  exact h.then_ (chaseResult_tame _ _ _ _)

/-! ## The run control slot (08) -/

theorem runResult_tame (code : SlotCode) (command tag : Word) : Tame r s (s.runResult code command tag) :=
  (onRun_tame _).then_ (raise_tame _ rfl)

theorem beginRun_tame (first : Fin 64) (mode : RunMode) (autoRoll : Bool) (margin limit : Nat) :
    Tame r s (s.beginRun first mode autoRoll margin limit) := by
  unfold beginRun
  simp only
  have h : Tame r s ((s.clearRun mode autoRoll margin limit).reloadDone.runEnter .cueing) :=
    (Tame.then_ (onRun_tame _) (setEt_tame _)).then_ (runEnter_tame _)
  split
  · rename_i he
    exact h.then_ (armCurrent_tame he)
  · exact h.then_ (armFault_tame _ _)

theorem startRun_tame (first mode autoRoll margin limit : Word) : Tame r s (s.startRun first mode autoRoll margin limit).2 := by
  unfold startRun
  split
  · split_ifs
    · exact beginRun_tame ..
    · exact .refl s
  · exact .refl s

theorem stopRun_tame : Tame r s s.stopRun := by
  unfold stopRun
  have h : Tame r s (if s.run.stopRequested then s else (s.onRun ({ · with stopRequested := true })).cancelLookahead) :=
    .ite (fun _ => .refl s) fun _ => (onRun_tame _).then_ cancelLookahead_tame
  cases s.run.state
  · exact .refl s
  · exact abortPath_tame _
  · exact abortPath_tame _
  · exact h
  · exact h
  · exact h
  · exact .refl s
  · exact .refl s

theorem clearAll_tame : Tame r s s.clearAll := by
  unfold clearAll
  cases s.run.state
  · exact suiteClear_tame
  · exact abortPath_tame _
  · exact abortPath_tame _
  · exact abortPath_tame _
  · exact abortPath_tame _
  · exact abortPath_tame _
  · exact onRun_tame _
  · exact (runEnter_tame _).then_ suiteClear_tame

/-- A record is decided by one operation and one result. -/
theorem runRecord_decides (command tag w2 w3 w4 w5 w6 : Word) :
    ∃ u code, Tame false s u ∧ s.runRecord command tag w2 w3 w4 w5 w6 = u.runResult code command tag := by
  unfold runRecord
  simp only
  refine ⟨_, _, ?_, rfl⟩
  split
  · exact startRun_tame ..
  · unfold rollCommand
    split_ifs
    · dsimp only
      exact onRun_tame _
    · exact .refl s
  · unfold unlessIdle
    split_ifs
    · exact .refl s
    · exact stopRun_tame
  · unfold unlessIdle
    split_ifs
    · exact .refl s
    · exact .ite (fun _ => abortPath_tame _) fun _ => .refl s
  · unfold clearFault
    split_ifs
    · exact runEnter_tame _
    · exact .refl s
  · unfold setNext
    split
    · exact .refl s
    · split_ifs
      · dsimp only
        exact onRun_tame _
      · exact .refl s
  · exact clearAll_tame
  · unfold setSuiteClock
    simp only
    split_ifs
    · dsimp only
      exact onRtu_rough _
    · exact .refl s
  · exact .refl s

theorem runRecord_rough (command tag w2 w3 w4 w5 w6 : Word) : Tame false s (s.runRecord command tag w2 w3 w4 w5 w6) := by
  obtain ⟨u, code, h, e⟩ := runRecord_decides (s := s) command tag w2 w3 w4 w5 w6
  rw [e]
  exact h.then_ (runResult_tame _ _ _)

/-! ## The switcher slot (09) -/

theorem byOwner_tame (f : State → State) (h : Tame r s (f s)) : Tame r s (s.byOwner f).2 := by
  unfold byOwner
  split
  · exact h
  · exact .refl s
  · exact .refl s

/-- A record is decided by one operation and one result. -/
theorem switcherRecord_decides (command tag w2 w3 w4 w5 : Word) :
    ∃ u code, Tame r s u ∧ s.switcherRecord command tag w2 w3 w4 w5 = u.switcherResult code command tag := by
  unfold switcherRecord
  simp only
  refine ⟨_, _, ?_, rfl⟩
  split
  · unfold mixerSet
    split
    · split_ifs
      · exact byOwner_tame _ (onMixer_tame _)
      · exact .refl s
    · exact .refl s
  · unfold autoTrans
    split
    · split_ifs
      · exact byOwner_tame _ (onMixer_tame _)
      · exact .refl s
    · exact .refl s
  · unfold gpiPulse
    split_ifs
    · dsimp only
      exact onMixer_tame _
    · exact .refl s
    · exact .refl s
  · exact .refl s

theorem switcherRecord_tame (command tag w2 w3 w4 w5 : Word) : Tame r s (s.switcherRecord command tag w2 w3 w4 w5) := by
  obtain ⟨u, code, h, e⟩ := switcherRecord_decides (s := s) command tag w2 w3 w4 w5 (r := r)
  rw [e]
  exact h.then_ (switcherResult_tame _ _ _)

/-! ## The hand-over (01 R3) -/

theorem handOver_rough (w : Watched) : Tame false s (s.handOver w) := by
  unfold handOver
  split
  · exact transportRecord_rough ..
  · exact parameterRecord_tame ..
  · exact chaseRecord_tame ..
  · exact runRecord_rough ..
  · exact switcherRecord_tame ..
  · exact .refl s

end State

end Sys2Proof.Machine
end

