-- ==== Sys2Proof/Laws/Cycles.lean ====
section
/-! SUPPORT. What every bus cycle and every command keeps: the queue, the soundness of the part, the books. -/

namespace Sys2Proof.Machine

set_option Elab.async false

variable {n : Transport} {s t u : State}

/-- From `s` to `t` nothing is lost: the queue of commands stands, soundness and the books are kept. -/
structure Keeps (s t : State) : Prop where
  pending : t.pending = s.pending
  sound : s.Sound → t.Sound
  books : ∀ n, t.owed n = s.owed n

namespace Keeps

theorem refl (s : State) : Keeps s s := ⟨rfl, id, fun _ => rfl⟩

theorem then_ (h : Keeps s t) (h' : Keeps t u) : Keeps s u :=
  ⟨h'.pending.trans h.pending, fun e => h'.sound (h.sound e), fun n => (h'.books n).trans (h.books n)⟩

theorem of_tame {r : Bool} (h : Tame r s t) : Keeps s t where
  pending := h.pending
  sound e :=
    { cfg := by rw [h.cfg]; exact e.cfg
      iru := h.iru e.iru
      fifo := fun m => h.fifo m (e.fifo m)
      queue := fun m => h.queue m (e.queue m)
      deck := fun m => h.deck m (.inl rfl) (e.deck m)
      runFault := h.runFault e.runFault }
  books m := by rw [h.books m]; simp

theorem ite {c : Prop} [Decidable c] {x y : State} (h : c → Keeps s x) (h' : ¬c → Keeps s y) :
    Keeps s (if c then x else y) := by
  split_ifs with hc
  · exact h hc
  · exact h' hc

theorem foldl {α : Type} (f : State → α → State) (h : ∀ s a, Keeps s (f s a)) :
    ∀ (l : List α) (s : State), Keeps s (l.foldl f s)
  | [], s => .refl s
  | a :: l, s => (h s a).then_ (foldl f h l (f s a))

end Keeps

/-- The books balance exactly when nothing is owed. -/
theorem State.balanced_iff (s : State) (n : Transport) : s.Balanced n ↔ s.owed n = 0 := by
  unfold State.Balanced State.owed
  constructor
  · intro h
    rw [h]
    ring
  · intro h
    have := congrArg (· + ((s.ctx n).delivered + (s.ctx n).lost + (s.ctx n).cancelled
      + BitVec.ofNat 16 (s.link n).processorEntries)) h
    simp only [zero_add] at this
    rw [← this]
    ring

theorem PartConfig.Sound.withSetup {c : PartConfig} (h : c.Sound) {v : Setup} (hv : v.Legal c.straps) :
    ({ c with setup := some v } : PartConfig).Sound :=
  ⟨h.1, h.2, h.3, fun u hu => by cases hu; exact hv⟩

namespace State

/-! ## Captures -/

/-- A change of the configuration that leaves the setup record. -/
theorem setCfg_keeps (c : PartConfig) (hs : c.setup = s.cfg.setup) (hm : s.cfg.Sound → c.Sound) :
    Keeps s (s.setCfg c) := by
  have hc : (s.setCfg c).configured = s.configured := by
    unfold configured
    rw [setCfg_fields s c |>.2.2.2.1, hs]
  refine ⟨rfl, fun e => ⟨hm e.cfg, e.iru, e.fifo, e.queue, fun m hcfg => ?_, fun hcfg => ?_⟩, fun m => rfl⟩
  · exact e.deck m (hc ▸ hcfg)
  · exact e.runFault (hc ▸ hcfg)

theorem capture_keeps (w : Watched) (lanes : Strobes) (value : Word) : Keeps s (s.capture w lanes value) :=
  setCfg_keeps _ rfl fun h => ⟨WordMap.wf_write _ _ _ h.1, h.2, h.3, h.4⟩

theorem captureSetup_keeps (k : Fin 16) (lanes : Strobes) (value : Word) : Keeps s (s.captureSetup k lanes value) :=
  setCfg_keeps _ rfl fun h => ⟨h.1, WordMap.wf_write _ _ _ h.2, h.3, h.4⟩

theorem copyEvent_keeps (e : Fin 64) (w : Fin 32) (lanes : Strobes) (value : Word) : Keeps s (s.copyEvent e w lanes value) :=
  Keeps.then_
    (t := s.setCfg { s.cfg with
      eventWords := s.cfg.eventWords.write (eventOffset e w.val)
        (mergeLanes lanes (s.cfg.eventWords.read (eventOffset e w.val)) value) })
    (setCfg_keeps _ rfl fun h => ⟨h.1, h.2, WordMap.wf_write _ _ _ h.3, h.4⟩) (.of_tame (r := true) (setEt_tame _))

theorem newCycle_tame {r : Bool} : Tame r s s.newCycle := .of_core

theorem forward_tame {r : Bool} (f : Forwarded) (mem : MemEnd) : Tame r s (s.forward f mem) := .of_core

/-! ## Levels, service, acknowledge (10) -/

/-- A change of the Interrupt Unit that keeps it sound and keeps the flags of the condition sources. -/
theorem setIru_keeps (v : Iru) (hs : s.iru.Sound → v.Sound)
    (hp : ∀ i : Irq, i.condition = true → v.isPending i = s.iru.isPending i) : Keeps s (s.setIru v) :=
  ⟨rfl, fun e => ⟨e.cfg, hs e.iru, e.fifo, e.queue, fun m hc => (hp (.deck m) rfl).trans (e.deck m hc),
    fun hc => (hp .runFault rfl).trans (e.runFault hc)⟩, fun _ => rfl⟩

theorem afterCapture_keeps (w : Watched) (lanes : Strobes) : Keeps s (s.afterCapture w lanes) := by
  unfold afterCapture
  split
  · exact .of_tame (r := true) (onMixer_tame _)
  · exact setIru_keeps _ (fun h => h.setLevel _ _) fun i hi => Iru.isPending_setLevel _ _ _ _ hi
  · split_ifs
    · exact setIru_keeps _ (fun h => h.pop) fun _ _ => rfl
    · exact .refl s
  · split_ifs
    · exact .of_tame (handOver_rough _)
    · exact .refl s

theorem answerVector_keeps (v : Byte) (f : Iru → Iru)
    (hs : s.iru.Sound → (f { s.iru with lastVector := v, driven := Vector.replicate 8 false }).reform.Sound)
    (hp : ∀ i : Irq, i.condition = true →
      (f { s.iru with lastVector := v, driven := Vector.replicate 8 false }).isPending i = s.iru.isPending i) :
    Keeps s (s.answerVector v f) := by
  unfold answerVector
  simp only
  refine Keeps.then_ (setIru_keeps _ hs ?_) (.of_tame (r := true) (answer_tame _))
  intro i hi
  rw [Iru.isPending_reform]
  exact hp i hi

theorem clearChangeFlags_keeps (i : Irq) : Keeps s (s.clearChangeFlags i) := by
  unfold clearChangeFlags
  split
  · exact .of_tame (r := false) (Tame.of_readers fun _ => rfl)
  · exact .of_tame (r := true) .of_core
  · exact .refl s

theorem passRead_tame {r : Bool} (a : Addr) (lanes : Strobes) (mem : MemEnd) : Tame r s (s.passRead a lanes mem) :=
  forward_tame _ _

theorem acknowledge_keeps (a : Addr) (lanes : Strobes) (mem : MemEnd) : Keeps s (s.acknowledge a lanes mem) := by
  unfold acknowledge
  simp only
  split_ifs with h
  · simp only [Bool.and_eq_true] at h
    split
    · rename_i i _
      refine Keeps.then_ (answerVector_keeps _ _ (fun e => e.push (ackLevel a) i _ h.2) ?_) (clearChangeFlags_keeps i)
      intro j hj
      unfold pushSource
      simp only
      split_ifs with hc
      · rfl
      · rw [Iru.isPending_setPending, if_neg]
        · rfl
        · rintro rfl
          exact hc hj
    · exact answerVector_keeps _ _ (fun e => e.spurious _ _) fun _ _ => rfl
  · exact .of_tame (r := true) (passRead_tame _ _ _)

/-! ## The setup take (01 R14 to R16) -/

/-- A record that is read from words has a coast limit and a vector base as 01 R15 treats them. -/
theorem requestedSetup_treated {v : Setup} (h : s.requestedSetup = some v) : v.coastLimit ≠ 0 ∧ v.vectorBase &&& 0x1F = 0 := by
  unfold requestedSetup Setup.ofWords at h
  cases hs : Standard.ofCode? ((s.cfg.setupLatches.read 1).toNat % 4) with
  | none => rw [hs] at h; cases h
  | some std =>
    rw [hs] at h
    simp only [Option.map_some, Option.some.injEq] at h
    subst h
    constructor
    · simp only
      split_ifs with h0
      · decide
      · exact h0
    · simp only
      rw [BitVec.and_assoc]
      simp

theorem checkSetup_legal {v : Setup} (h : s.checkSetup = .ok v) : v.Legal s.cfg.straps := by
  unfold checkSetup at h
  split at h
  · cases h
  · rename_i u hu
    split_ifs at h with h1
    cases h
    exact ⟨h1, (requestedSetup_treated hu).1, (requestedSetup_treated hu).2⟩

theorem syncDeck_follows (n : Transport) : (s.syncDeck n).DeckFollows n := by
  have hf : (s.deckFree n).DeckFollows n := by
    intro hc'
    unfold deckFree followFree at hc' ⊢
    split_ifs with hcs
    · rw [setIru_fields s _ |>.2.2.2.2.2.2.2.2.2.2.2.2.2, Iru.isPending_follow, if_pos rfl]
      rfl
    · rw [if_neg hcs] at hc'
      exact absurd hc' hcs
  exact (yieldHold_tame (r := true) (s := s.deckFree n)).deck n (.inl rfl) hf

theorem syncRunFault_follows : s.syncRunFault.RunFaultFollows := by
  have hf : (s.followFree .runFault (decide (s.run.state = .faulted))).RunFaultFollows := by
    intro hc'
    unfold followFree at hc' ⊢
    split_ifs with hcs
    · rw [setIru_fields s _ |>.2.2.2.2.2.2.2.2.2.2.2.2.2, Iru.isPending_follow, if_pos rfl]
      rfl
    · rw [if_neg hcs] at hc'
      exact absurd hc' hcs
  exact (yieldHold_tame (r := true)).runFault hf

theorem syncRunFault_tame {r : Bool} : Tame r s s.syncRunFault := followRunFault_sync (Tame.refl s)

theorem syncDecks_follow : ∀ (ts : List Transport) (s : State) (m : Transport),
    (s.DeckFollows m ∨ m ∈ ts) → (forTransports ts (fun n s => s.syncDeck n) s).DeckFollows m
  | [], _, _, h => h.resolve_right (by simp)
  | n :: ts, s, m, h => by
    refine syncDecks_follow ts (s.syncDeck n) m ?_
    rcases h with h | h
    · exact .inl ((syncDeck_tame (r := true) n).deck m (.inl rfl) h)
    · rcases List.mem_cons.1 h with rfl | h
      · exact .inl (syncDeck_follows m)
      · exact .inr h

theorem followConditions_tame {r : Bool} : Tame r s s.followConditions :=
  syncRunFault_tame.then_ (Tame.forTransports (fun n _ => syncDeck_tame n) _ _)

/-- After the condition sources have been told, every flag follows. -/
theorem followConditions_sound (hm : s.cfg.Sound) (hi : s.iru.Sound) (hf : ∀ n, (s.ctx n).fifo.length ≤ 3)
    (hq : ∀ n, (s.link n).queue.length ≤ 4) : s.followConditions.Sound where
  cfg := by rw [(followConditions_tame (r := true)).cfg]; exact hm
  iru := (followConditions_tame (r := true)).iru hi
  fifo m := (followConditions_tame (r := true)).fifo m (hf m)
  queue m := (followConditions_tame (r := true)).queue m (hq m)
  deck m := syncDecks_follow _ _ m (.inr (Transport.mem_all m))
  runFault := (Tame.forTransports (r := true) (fun n _ => syncDeck_tame n) _ _).runFault syncRunFault_follows

theorem firstTake_keeps (v : Setup) (hv : v.Legal s.cfg.straps) : Keeps s (s.firstTake v) := by
  unfold firstTake
  refine Keeps.then_ (t := (s.setSetup v).followConditions) ⟨?_, fun e => ?_, fun m => ?_⟩ (.of_tame tellLinks_rough)
  · rw [(followConditions_tame (r := true)).pending]
    rfl
  · exact followConditions_sound (e.cfg.withSetup hv) e.iru e.fifo e.queue
  · rw [(followConditions_tame (r := true)).books m]
    simp only [ite_self, add_zero]
    rfl

theorem setSetup_keeps (v : Setup) (hv : v.Legal s.cfg.straps) (hc : s.configured = true) : Keeps s (s.setSetup v) :=
  ⟨rfl, fun e => ⟨e.cfg.withSetup hv, e.iru, e.fifo, e.queue, fun m _ => e.deck m hc, fun _ => e.runFault hc⟩, fun _ => rfl⟩

theorem clearSensed_tame {r : Bool} :
    Tame r s { s with ctxs := s.ctxs.map ({ · with sensedPos := none }) } :=
  .of_core (hx := fun m => by
    show (Context.core ((s.ctxs.map ({ · with sensedPos := none })).get m)) = _
    rw [Six.get_map]
    rfl)

theorem changeStandard_rough : Tame false s s.changeStandard := by
  unfold changeStandard
  simp only
  exact Tame.then_ (Tame.then_ (Tame.forTransports (fun n s => putReader_rough n _) _ _) clearSensed_tame) restandard_rough

theorem retake_keeps (v : Setup) (hv : v.Legal s.cfg.straps) (old : Standard) (hc : s.configured = true) : Keeps s (s.retake v old) := by
  unfold retake
  simp only
  refine (setSetup_keeps v hv hc).then_ (.ite (fun _ => .of_tame tellLinks_rough) fun _ => ?_)
  refine Keeps.of_tame (Tame.then_ (changeStandard_rough.then_ tellLinks_rough) ?_)
  exact .ite (fun _ => overdueBoundary_rough) fun _ => .refl _

theorem takeRequest_keeps (a : Addr) (value : Word) (mem : MemEnd) (rmw : Bool) : Keeps s (s.takeRequest a value mem rmw) := by
  unfold takeRequest
  split
  · exact .of_tame (r := true) (refuse_tame _ _ _ _)
  · rename_i v hk
    have hv := checkSetup_legal hk
    have hf : Keeps s (s.forward ⟨a, true, .both, value⟩ mem) := .of_tame (r := true) (forward_tame _ _)
    cases mem with
    | faults => exact hf
    | completes =>
      have hc := hf.then_ (captureSetup_keeps 15 .both value)
      simp only
      split
      · exact hc.then_ (firstTake_keeps v hv)
      · rename_i old hs
        refine hc.then_ (retake_keeps (s := (s.forward ⟨a, true, .both, value⟩ .completes).captureSetup 15 .both value) v hv
          old.standard ?_)
        unfold configured
        rw [hs]
        rfl

theorem storeSetup_keeps (k : Fin 16) (a : Addr) (lanes : Strobes) (value : Word) (mem : MemEnd) (rmw : Bool) :
    Keeps s (s.storeSetup k a lanes value mem rmw) := by
  unfold storeSetup
  split_ifs
  · exact takeRequest_keeps ..
  · have hf : Keeps s (s.forward ⟨a, true, lanes, value⟩ mem) := .of_tame (r := true) (forward_tame _ _)
    cases mem with
    | faults => exact hf
    | completes => exact hf.then_ (captureSetup_keeps k lanes value)

/-! ## Stores (01 R1 to R9) -/

theorem storeWatched_keeps (w : Watched) (a : Addr) (lanes : Strobes) (value : Word) (mem : MemEnd) (rmw : Bool) :
    Keeps s (s.storeWatched w a lanes value mem rmw) := by
  unfold storeWatched
  split_ifs
  · exact .of_tame (r := true) (refuse_tame _ _ _ _)
  · have hf : Keeps s (s.forward ⟨a, true, lanes, value⟩ mem) := .of_tame (r := true) (forward_tame _ _)
    cases mem with
    | faults => exact hf
    | completes => exact (hf.then_ (capture_keeps w lanes value)).then_ (afterCapture_keeps w lanes)

theorem storeEvent_keeps (e : Fin 64) (w : Fin 32) (a : Addr) (lanes : Strobes) (value : Word) (mem : MemEnd) (rmw : Bool) :
    Keeps s (s.storeEvent e w a lanes value mem rmw) := by
  unfold storeEvent
  split_ifs
  · exact .of_tame (r := true) (refuse_tame _ _ _ _)
  · have hf : Keeps s (s.forward ⟨a, true, lanes, value⟩ mem) := .of_tame (r := true) (forward_tame _ _)
    cases mem with
    | faults => exact hf
    | completes => exact hf.then_ (copyEvent_keeps e w lanes value)

theorem storeTo_keeps (x : Target) (a : Addr) (lanes : Strobes) (value : Word) (mem : MemEnd) (rmw : Bool) :
    Keeps s (s.storeTo x a lanes value mem rmw) := by
  cases x with
  | pass => exact .of_tame (r := true) (forward_tame _ _)
  | setup k => exact storeSetup_keeps ..
  | event e w => exact storeEvent_keeps ..
  | watched w => exact storeWatched_keeps ..
  | overlay o => exact .of_tame (r := true) (refuse_tame _ _ _ _)

theorem cycle_keeps {f : State → State} (h : ∀ u, Keeps u (f u)) : Keeps s (s.cycle f) :=
  .ite (fun _ => (Keeps.of_tame (r := true) newCycle_tame).then_ (h _)) fun _ => .refl s

theorem slotRecord_keeps (ws : List (Watched × Word)) : Keeps s (s.slotRecord ws) :=
  cycle_keeps fun u => Keeps.foldl _ (fun _ _ => storeTo_keeps ..) ws u

/-! ## Takes and read-modify-writes (01 R10, R17, R18) -/

/-- Holding a read: the hold is no flag, FIFO, queue or book. -/
theorem hold_keeps (n : Transport) (half : Option Strobes) : Keeps s (s.hold n half) :=
  ⟨rfl, fun e => ⟨e.cfg, e.iru, e.fifo, e.queue, e.deck, e.runFault⟩, fun _ => rfl⟩

theorem takeRead_keeps (n : Transport) (half : Option Strobes) : Keeps s (s.takeRead n half) := by
  unfold takeRead
  split
  · rename_i e rest he
    exact .of_tame (Tame.then_ (completeTake_sync (r := true) (popFifo_moves he) _).tame (takeWriteHalf_tame _ _))
  · refine .ite (fun _ => ?_) fun _ => .ite (fun _ => ?_) fun _ => hold_keeps n half
    · exact .of_tame (r := true) ((completeTake_tame n _).then_ (takeWriteHalf_tame _ _))
    · exact .of_tame (r := true) ((completeTake_tame n _).then_ (takeWriteHalf_tame _ _))

theorem holdTimedOut_tame {r : Bool} : Tame r s s.holdTimedOut := by
  unfold holdTimedOut
  split
  · exact completeHold_tame _ _
  · exact .refl s

theorem overlayModify_keeps (off : Nat) (a : Addr) (lanes : Strobes) : Keeps s (s.overlayModify off a lanes) := by
  unfold overlayModify
  split
  · exact takeRead_keeps ..
  · exact .of_tame (r := true) ((answer_tame _).then_ (refuse_tame _ _ _ _))

theorem modify_keeps (x : Target) (a : Addr) (lanes : Strobes) (value : Word) (readMem writeMem : MemEnd) :
    Keeps s (s.modify x a lanes value readMem writeMem) := by
  have hr : Keeps s (s.passRead a lanes readMem) := .of_tame (r := true) (passRead_tame a lanes readMem)
  unfold modify
  split
  · exact overlayModify_keeps ..
  · cases readMem with
    | faults => exact hr
    | completes => exact hr.then_ (storeTo_keeps ..)

end State

end Sys2Proof.Machine
end

