-- ==== Sys2Proof/Laws/Commands.lean ====
section
/-! SUPPORT. Every command but a system reset keeps the queue, the soundness of the part and the books; a system reset
leaves a sound part whose books are all zero; no command ends otherwise than in a next state. -/

namespace Sys2Proof.Machine

set_option Elab.async false

variable {s t : State}

namespace State

theorem resetWith_sound (pending : List Instr) (free : Nat) (straps : BitVec 2) (e : CycleEnd) :
    (State.resetWith pending free straps e).Sound where
  cfg := ⟨rfl, rfl, rfl, fun _ h => by cases h⟩
  iru := Iru.reset_sound
  fifo n := by cases n <;> exact Nat.zero_le _
  queue n := by cases n <;> exact Nat.zero_le _
  deck _ hc := by cases hc
  runFault hc := by cases hc

theorem resetWith_owed (pending : List Instr) (free : Nat) (straps : BitVec 2) (e : CycleEnd) (n : Transport) :
    (State.resetWith pending free straps e).owed n = 0 := by
  simp only [owed, ctx, link, resetWith, Six.get_replicate]
  rfl

end State

/-- What every command does to the queue, to soundness and to the books. -/
structure Accepts (s t : State) : Prop where
  pending : t.pending = s.pending
  sound : s.Sound → t.Sound
  books : ∀ n, t.owed n = 0 ∨ t.owed n = s.owed n

theorem Keeps.accepts (h : Keeps s t) : Accepts s t := ⟨h.pending, h.sound, fun n => .inr (h.books n)⟩

open State in
/-- One lemma for all commands: it answers a next state, and that state accepts the command. -/
theorem exec_accepts (c : Instr) (s : State) : ∃ t, exec c s = .next t ∧ Accepts s t := by
  have ok : ∀ {t : State}, Keeps s t → ∃ u, (.next t : Host.Outcome State Fault Refusal) = .next u ∧ Accepts s u :=
    fun h => ⟨_, rfl, h.accepts⟩
  have rough : ∀ {t : State}, Tame false s t → ∃ u, (.next t : Host.Outcome State Fault Refusal) = .next u ∧ Accepts s u :=
    fun h => ok (.of_tame h)
  cases c with
  | systemReset straps =>
    exact ⟨_, rfl, rfl, fun _ => resetWith_sound .., fun n => .inl (resetWith_owed ..)⟩
  | acknowledgeCycle cycle => exact ok (cycle_keeps fun _ => acknowledge_keeps ..)
  | setupTake value mem => exact ok (cycle_keeps fun _ => takeRequest_keeps ..)
  | watchedWordStore addr lanes value mem => exact ok (cycle_keeps fun _ => storeTo_keeps ..)
  | readModifyWrite addr lanes value readMem writeMem => exact ok (cycle_keeps fun _ => modify_keeps ..)
  | overlayStore offset lanes data => exact ok (cycle_keeps fun _ => storeTo_keeps ..)
  | eventWordStore event word lanes value mem => exact ok (cycle_keeps fun _ => storeTo_keeps ..)
  | kindWordStore event lanes value mem => exact ok (cycle_keeps fun _ => storeTo_keeps ..)
  | serviceDone value mem => exact ok (cycle_keeps fun _ => storeTo_keeps ..)
  | crosspointStore entry lanes value mem => exact ok (cycle_keeps fun _ => storeTo_keeps ..)
  | levelStore source lanes value mem => exact ok (cycle_keeps fun _ => storeTo_keeps ..)
  | take port =>
    exact ok (cycle_keeps fun u => .ite (fun _ => takeRead_keeps ..) fun _ => .of_tame (r := true) (passRead_tame ..))
  | holdTimeout => exact rough holdTimedOut_tame
  | halt n tag => exact ok (slotRecord_keeps _)
  | run n tag => exact ok (slotRecord_keeps _)
  | speed n tag value => exact ok (slotRecord_keeps _)
  | locate n tag labelHi labelLo => exact ok (slotRecord_keeps _)
  | arm n tag mask => exact ok (slotRecord_keeps _)
  | insertOn n tag mask => exact ok (slotRecord_keeps _)
  | insertOff n tag mask => exact ok (slotRecord_keeps _)
  | sense n tag => exact ok (slotRecord_keeps _)
  | standby n tag setting => exact ok (slotRecord_keeps _)
  | clearErrors n tag => exact ok (slotRecord_keeps _)
  | deckReset n tag => exact ok (slotRecord_keeps _)
  | parameterTake n tag latency tolerance timeout => exact ok (slotRecord_keeps _)
  | chaseStart n tag args => exact ok (slotRecord_keeps _)
  | chaseStop n tag => exact ok (slotRecord_keeps _)
  | params n tag set => exact ok (slotRecord_keeps _)
  | startRun tag first mode autoRoll margin limit => exact ok (slotRecord_keeps _)
  | roll tag => exact ok (slotRecord_keeps _)
  | stop tag => exact ok (slotRecord_keeps _)
  | abort tag => exact ok (slotRecord_keeps _)
  | clearFault tag => exact ok (slotRecord_keeps _)
  | setNext tag next => exact ok (slotRecord_keeps _)
  | clearAll tag => exact ok (slotRecord_keeps _)
  | setSuiteClock tag labelHi labelLo => exact ok (slotRecord_keeps _)
  | mixerSet tag a b level pattern => exact ok (slotRecord_keeps _)
  | autoTrans tag kind length curve pattern => exact ok (slotRecord_keeps _)
  | gpiPulse tag line width => exact ok (slotRecord_keeps _)
  | framePulse => exact rough framePulse_rough
  | fieldPulse => exact rough fieldPulse_rough
  | acquireTimeout => exact rough acquireTimeout_rough
  | generatedBoundary => exact rough generatedBoundary_rough
  | referenceLost => exact rough referenceLost_rough
  | frameBoundary => exact rough wrapBoundary_rough
  | field2Boundary => exact rough field2Point_rough
  | timecodeWord n bits => exact rough (tapeWord_rough n bits)
  | readerCoasting n cause => exact rough (markedFrame_rough _ _)
  | readerLost n cause => exact rough (markedFrame_rough _ _)
  | deckReply n chars => exact rough (receive_rough n _)
  | gapError n => exact rough (gapExpired_rough n)
  | notice n code => exact rough (receive_rough n _)
  | transmitComplete n => exact rough (transmitDone_rough n)
  | replyTimeout n => exact rough (replyTimedOut_rough n)
  | breakEnd n => exact rough (breakEnded_rough n)
  | probeIntervalExpiry n cause => exact rough (markedFrame_rough _ _)
  | holdExpired n cause => exact rough (markedFrame_rough _ _)
  | chaseLock n cause => exact rough (markedFrame_rough _ _)
  | chaseSlip n cause => exact rough (markedFrame_rough _ _)
  | sensePoll n cause => exact rough (markedFrame_rough _ _)
  | cueTimeout cause => exact rough (markedFrame_rough _ _)
  | lookaheadCueTimeout cause => exact rough (markedFrame_rough _ _)
  | transitionEnd cause => exact rough (markedField_rough _ _)
  | switcherFrameSent => exact rough (onMixer_tame _)
  | gpiPulseEnd line cause => exact rough (markedFrame_rough _ _)
  | reservedCommand slot command tag => exact ok (slotRecord_keeps _)

end Sys2Proof.Machine
end

