-- ==== Sys2Proof/Laws/Lanes.lean ====
section
/-! SUPPORT. Work done transport by transport: each transport's link, context, chase context and cue change by a rule of
their own, and nothing else but the Interrupt Unit changes. -/

namespace Sys2Proof.Machine

set_option Elab.async false

/-- What the part holds for one transport and its cue. -/
structure Lane where
  link : Link
  ctx : Context
  chase : Chase
  cue : CueState

namespace State

variable {s t u : State} {n : Transport}

/-- The lane of a transport. -/
def lane (s : State) (n : Transport) : Lane := ⟨s.link n, s.ctx n, s.chase n, s.run.cues.get n⟩

/-- From `s` to `t` the lanes of `ts` change by `R`, and nothing else but the Interrupt Unit. -/
structure Lanes (ts : List Transport) (R : Transport → Lane → Lane → Prop) (s t : State) : Prop where
  frame : t = { s with links := t.links, ctxs := t.ctxs, chases := t.chases, run := { s.run with cues := t.run.cues }, iru := t.iru }
  on : ∀ n ∈ ts, R n (s.lane n) (t.lane n)
  off : ∀ n, n ∉ ts → t.lane n = s.lane n

/-- The parts of the state that the work on one lane may rest on. -/
def Frame (s t : State) : Prop :=
  t = { s with links := t.links, ctxs := t.ctxs, chases := t.chases, run := { s.run with cues := t.run.cues }, iru := t.iru }

theorem Frame.trans (h : Frame s t) (h' : Frame t u) : Frame s u := by
  unfold Frame at *
  calc
    u = { t with links := u.links, ctxs := u.ctxs, chases := u.chases, run := { t.run with cues := u.run.cues }, iru := u.iru } := h'
    _ = _ := by rw [h]

/-- Work on a list of different transports, one lane at a time, each lane as it should be when its turn comes. -/
theorem Lanes.forTransports_if {R : Transport → Lane → Lane → Prop} {f : Transport → State → State} {P : State → Prop}
    {Q : Transport → Lane → Prop} (hP : ∀ s t, P s → Frame s t → P t)
    (hf : ∀ n s, P s → Q n (s.lane n) → Lanes [n] R s (f n s)) :
    ∀ (ts : List Transport), ts.Nodup → ∀ s, P s → (∀ n ∈ ts, Q n (s.lane n)) → Lanes ts R s (forTransports ts f s)
  | [], _, _, _, _ => ⟨rfl, by simp, fun _ _ => rfl⟩
  | n :: ts, hd, s, h, hq => by
    have h1 := hf n s h (hq n (by simp))
    have h2 := Lanes.forTransports_if hP hf ts (List.nodup_cons.1 hd).2 (f n s) (hP _ _ h h1.frame) (by
      intro m hm
      rw [h1.off m (by rw [List.mem_singleton]; rintro rfl; exact (List.nodup_cons.1 hd).1 hm)]
      exact hq m (List.mem_cons_of_mem _ hm))
    refine ⟨Frame.trans h1.frame h2.frame, ?_, ?_⟩
    · intro m hm
      by_cases e : m = n
      · subst e
        have := h2.off m (List.nodup_cons.1 hd).1
        show R m _ ((Machine.forTransports ts f (f m s)).lane m)
        rw [this]
        exact h1.on m (by simp)
      · have := h2.on m ((List.mem_cons.1 hm).resolve_left e)
        rw [h1.off m (by simpa using e)] at this
        exact this
    · intro m hm
      rw [List.mem_cons, not_or] at hm
      exact (h2.off m hm.2).trans (h1.off m (by simpa using hm.1))

/-- Work on a list of different transports, one lane at a time. -/
theorem Lanes.forTransports {R : Transport → Lane → Lane → Prop} {f : Transport → State → State} {P : State → Prop}
    (hP : ∀ s t, P s → Frame s t → P t) (hf : ∀ n s, P s → Lanes [n] R s (f n s)) (ts : List Transport) (hd : ts.Nodup)
    (s : State) (h : P s) : Lanes ts R s (forTransports ts f s) :=
  Lanes.forTransports_if (Q := fun _ _ => True) hP (fun n s hp _ => hf n s hp) ts hd s h fun _ _ => trivial

/-- One rule after another on the same lanes. -/
theorem Lanes.then_ {ts : List Transport} {R Q : Transport → Lane → Lane → Prop} (h : Lanes ts R s t) (h' : Lanes ts Q t u) :
    Lanes ts (fun n a c => ∃ b, R n a b ∧ Q n b c) s u :=
  ⟨Frame.trans h.frame h'.frame, fun n hn => ⟨_, h.on n hn, h'.on n hn⟩, fun n hn => (h'.off n hn).trans (h.off n hn)⟩

/-- A port whose new lane is as the rule says. -/
theorem lanes_port {R : Transport → Lane → Lane → Prop} {l : Link} {c : Context} {k : Chase} (v : Iru)
    (h : R n (s.lane n) ⟨l, c, k, s.run.cues.get n⟩) : Lanes [n] R s (s.port n l c k v) := by
  refine ⟨rfl, ?_, ?_⟩
  · intro m hm
    rw [List.mem_singleton] at hm
    subst hm
    unfold lane
    simp only [port_views]
    exact h
  · intro m hm
    rw [List.mem_singleton] at hm
    obtain ⟨a, b, c⟩ := port_other (s := s) (l := l) (c := c) (k := k) (v := v) hm
    unfold lane
    rw [a, b, c]
    rfl

/-- The same with the cue set. -/
theorem lanes_portCue {R : Transport → Lane → Lane → Prop} {l : Link} {c : Context} {k : Chase} {q : CueState} (v : Iru)
    (h : R n (s.lane n) ⟨l, c, k, q⟩) : Lanes [n] R s ((s.port n l c k v).setCue n q) := by
  refine ⟨rfl, ?_, ?_⟩
  · intro m hm
    rw [List.mem_singleton] at hm
    subst hm
    have : ((s.port m l c k v).setCue m q).lane m = ⟨l, c, k, q⟩ := by
      show (⟨(s.port m l c k v).link m, (s.port m l c k v).ctx m, (s.port m l c k v).chase m, (s.run.cues.set m q).get m⟩ : Lane) = _
      simp only [port_views, Six.get_set_self]
    rw [this]
    exact h
  · intro m hm
    rw [List.mem_singleton] at hm
    obtain ⟨a, b, d⟩ := port_other (s := s) (l := l) (c := c) (k := k) (v := v) hm
    show (⟨(s.port n l c k v).link m, (s.port n l c k v).ctx m, (s.port n l c k v).chase m, (s.run.cues.set n q).get m⟩ : Lane) = _
    rw [a, b, d, Six.get_set, if_neg hm]
    rfl

/-! ## The suite clear work of the links and the chases, while the run works no events -/

/-- What the suite clear work leaves of a lane (04 R81, 06 R116). -/
structure LaneCleared (n : Transport) (a b : Lane) : Prop where
  queue : b.link.queue = []
  slot : b.link.slot = none
  link : b.link.state = a.link.state ∧ b.link.err = a.link.err ∧ b.link.nextSeq = a.link.nextSeq
  inFlight : b.link.inFlight = a.link.inFlight.map fun f => if f.entry.source = .link then f else { f with orphan := true }
  fifo : b.ctx.fifo = []
  owner : b.ctx.owner = a.ctx.owner
  chase : b.chase = a.chase
  cue : b.cue = a.cue

theorem clearLink_lanes (hc : s.configured = true) (hh : s.ptu.hold = none) (hq : s.run.state.active = false) (n : Transport) :
    Lanes [n] LaneCleared s (clearLink n s) := by
  have e : clearLink n s = clearLink n (s.port n (s.link n) (s.ctx n) (s.chase n) s.iru) := by rw [← port_self]
  rw [e]
  unfold clearLink
  simp only [port_views]
  rw [onLink_port, cancelAll_port hq, withdrawSpeed_eq]
  have e2 : ∀ (l : Link) (c : Context) (k : Chase) (v : Iru),
      ({ s.port n l c k v with
        links := (s.port n l c k v).links.set n { (s.port n l c k v).link n with slot := none }
        ctxs := (s.port n l c k v).ctxs.set n
          { (s.port n l c k v).ctx n with cancelled := ((s.port n l c k v).ctx n).cancelled + displaced ((s.port n l c k v).link n).slot } } : State) =
      s.port n { l with slot := none } { c with cancelled := c.cancelled + displaced l.slot } k v := by
    intro l c k v
    simp only [port_views]
    unfold port
    simp only [Six.set_set]
  rw [e2, emptyFifo_port hc hh]
  exact lanes_port _ ⟨rfl, rfl, ⟨rfl, rfl, rfl⟩, rfl, rfl, rfl, rfl, rfl⟩

/-- What the suite clear work leaves of a chase (06 R116). -/
structure ChaseCleared (n : Transport) (a b : Lane) : Prop where
  idle : b.chase.state = .idle
  params : b.chase.params = a.chase.params ∧ b.chase.pending = a.chase.pending
  link : b.link = { a.link with slot := b.link.slot }
  slot : a.link.slot = none → b.link.slot = none
  fifo : b.ctx.fifo = a.ctx.fifo
  owner : b.ctx.owner = if a.ctx.owner = .chase ∧ a.chase.state ≠ .idle ∧ a.chase.origin = .processor then .free else a.ctx.owner
  cue : b.cue = a.cue

theorem clearChase_lanes (hc : s.configured = true) (hh : s.ptu.hold = none) (n : Transport) :
    Lanes [n] ChaseCleared s (clearChase n s) := by
  by_cases hi : (s.chase n).state = .idle
  · have : clearChase n s = s.port n (s.link n) (s.ctx n) (s.chase n) s.iru := by
      unfold clearChase
      rw [if_pos hi, ← port_self]
    rw [this]
    refine lanes_port _ ⟨hi, ⟨rfl, rfl⟩, rfl, id, rfl, ?_, rfl⟩
    rw [if_neg (fun h => h.2.1 hi)]
    rfl
  · have e1 := idleChase_ready hc hh n
    have e2 : s.idleChase n = s.port n { s.link n with slot := none }
        { s.ctx n with cancelled := (s.ctx n).cancelled + displaced (s.link n).slot } (chaseChanged (s.chase n) .idle) (s.iru.raise .chase) := e1
    by_cases ho : (s.chase n).origin = .processor
    · by_cases hw : (s.ctx n).owner = .chase
      · have : clearChase n s = s.port n { s.link n with slot := none }
            { s.ctx n with owner := .free, cancelled := (s.ctx n).cancelled + displaced (s.link n).slot }
            (chaseChanged (s.chase n) .idle) (s.iru.raise .chase) := by
          unfold clearChase
          rw [if_neg hi, if_pos ho, e2]
          unfold freeFromChase
          rw [if_pos (by simp only [port_views]; exact hw), setOwner_port]
        rw [this]
        refine lanes_port _ ⟨rfl, ⟨rfl, rfl⟩, rfl, fun _ => rfl, rfl, ?_, rfl⟩
        rw [if_pos ⟨hw, hi, ho⟩]
      · have : clearChase n s = s.idleChase n := by
          unfold clearChase
          rw [if_neg hi, if_pos ho, e2]
          unfold freeFromChase
          rw [if_neg (by simp only [port_views]; exact hw)]
        rw [this, e2]
        refine lanes_port _ ⟨rfl, ⟨rfl, rfl⟩, rfl, fun _ => rfl, rfl, ?_, rfl⟩
        rw [if_neg (fun h => hw h.1)]
        rfl
    · have : clearChase n s = s.idleChase n := by
        unfold clearChase
        rw [if_neg hi, if_neg ho]
      rw [this, e2]
      refine lanes_port _ ⟨rfl, ⟨rfl, rfl⟩, rfl, fun _ => rfl, rfl, ?_, rfl⟩
      rw [if_neg (fun h => ho h.2.2)]
      rfl

/-- The suite clear work of the Transition Generator (09 R184). -/
theorem clearMixer_ready (hc : s.configured = true) (hh : s.ptu.hold = none) :
    ∃ v, s.clearMixer = { s with mixer := s.clearMixer.mixer, iru := v } ∧ s.clearMixer.mixer.owner = .free ∧
      s.clearMixer.mixer.frozen = false ∧ s.clearMixer.mixer.transition = none ∧ s.clearMixer.mixer.timers = Vector.replicate 8 0 ∧
      (s.clearMixer.mixer.aBus, s.clearMixer.mixer.bBus, s.clearMixer.mixer.level, s.clearMixer.mixer.pattern) =
        (s.mixer.aBus, s.mixer.bBus, s.mixer.level, s.mixer.pattern) ∧
      s.clearMixer.mixer.crosspoints = s.mixer.crosspoints ∧ s.clearMixer.mixer.pulses = s.mixer.pulses := by
  unfold clearMixer endTransition
  cases h : s.mixer.transition with
  | none => exact ⟨s.iru, rfl, rfl, rfl, h, rfl, rfl, rfl, rfl⟩
  | some x =>
    simp only
    rw [raise_ready (by exact hc) (by exact hh)]
    exact ⟨_, rfl, rfl, rfl, rfl, rfl, rfl, rfl, rfl⟩

/-- The suite clear work of the links and the chases. -/
theorem suite_lanes (hc : s.configured = true) (hh : s.ptu.hold = none) (hq : s.run.state.active = false) :
    Lanes Transport.all (fun n a c => ∃ b, LaneCleared n a b ∧ ChaseCleared n b c) s
      (forTransports Transport.all clearChase (forTransports Transport.all clearLink s)) := by
  have hnd : Transport.all.Nodup := by decide
  have h1 := Lanes.forTransports (P := fun s => s.configured = true ∧ s.ptu.hold = none ∧ s.run.state.active = false)
    (fun s t h f => by rw [f]; exact h) (fun n s h => clearLink_lanes h.1 h.2.1 h.2.2 n) Transport.all hnd s ⟨hc, hh, hq⟩
  have hp : (forTransports Transport.all clearLink s).configured = true ∧ (forTransports Transport.all clearLink s).ptu.hold = none := by
    rw [h1.frame]; exact ⟨hc, hh⟩
  have h2 := Lanes.forTransports (P := fun s => s.configured = true ∧ s.ptu.hold = none)
    (fun s t h f => by rw [f]; exact h) (fun n s h => clearChase_lanes h.1 h.2 n) Transport.all hnd _ hp
  exact h1.then_ h2

/-- The suite clear work as a whole (08 R174, step 5). -/
theorem suiteClear_ready (hc : s.configured = true) (hh : s.ptu.hold = none) (hq : s.run.state.active = false) :
    ∃ t, s.suiteClear = t ∧ (∀ n, ∃ b, LaneCleared n (s.lane n) b ∧ ChaseCleared n b (t.lane n)) ∧
      (∀ e : Fin 64, t.et.states[e] = .empty) ∧ t.et.current = s.et.current ∧ t.et.lookahead = s.et.lookahead ∧
      t.mixer.owner = .free ∧ t.mixer.frozen = false ∧ t.mixer.transition = none ∧ t.mixer.timers = Vector.replicate 8 0 ∧
      (t.mixer.aBus, t.mixer.bBus, t.mixer.level, t.mixer.pattern) = (s.mixer.aBus, s.mixer.bBus, s.mixer.level, s.mixer.pattern) ∧
      t.mixer.crosspoints = s.mixer.crosspoints ∧ t.mixer.pulses = s.mixer.pulses ∧
      t.run = { s.run with fault := none, faultExtra := 0, lockLosses := 0, notices := 0 } ∧
      t = { s with links := t.links, ctxs := t.ctxs, chases := t.chases, et := t.et, run := t.run, mixer := t.mixer, iru := t.iru } := by
  have hl := suite_lanes hc hh hq
  unfold suiteClear
  simp only
  generalize forTransports Transport.all clearChase (forTransports Transport.all clearLink s) = x at hl
  have hxc : x.configured = true := by rw [hl.frame]; exact hc
  have hxh : x.ptu.hold = none := by rw [hl.frame]; exact hh
  have hxm : x.mixer = s.mixer := by rw [hl.frame]
  have hxe : x.et = s.et := by rw [hl.frame]
  have hcue : x.run.cues = s.run.cues := by
    apply Six.ext
    intro n
    obtain ⟨b, h1, h2⟩ := hl.on n (Transport.mem_all n)
    exact h2.cue.trans h1.cue
  have hxr : x.run = s.run := by
    rw [show x.run = { s.run with cues := x.run.cues } by exact congrArg State.run hl.frame, hcue]
  obtain ⟨v, m1, m2, m3, m4, m5, m6, m7, m8⟩ := clearMixer_ready hxc hxh
  rw [hxm] at m6 m7 m8
  generalize x.clearMixer.mixer = m at *
  rw [m1]
  refine ⟨_, rfl, fun n => hl.on n (Transport.mem_all n), ?_, ?_, ?_, m2, m3, m4, m5, m6, m7, m8, ?_, ?_⟩
  · intro e
    show (Vector.replicate 64 EventState.empty)[e] = _
    simp
  · show x.et.current = _
    rw [hxe]
  · show x.et.lookahead = _
    rw [hxe]
  · show ({ x.run with fault := none, faultExtra := 0, lockLosses := 0, notices := 0 } : Run) = _
    rw [hxr]
  · unfold State.emptyEvents setEt onRun setRun
    dsimp only
    rw [hl.frame]

/-! ## The run's take, and its cue (05 R85, 08 R157, R158) -/

/-- Processor entries complete as CANCELLED: only the count of the transport changes. -/
theorem cancelAll_processor {l : Link} {k : Chase} {v : Iru} : ∀ (es : List Entry) (c : Context), (∀ e ∈ es, e.source = .processor) →
    ∃ w, (s.port n l c k v).cancelAll n es = s.port n l { c with cancelled := w } k v
  | [], c, _ => ⟨c.cancelled, rfl⟩
  | e :: es, c, h => by
    have h1 : (s.port n l c k v).cancelled n e.source e.kind = s.port n l { c with cancelled := c.cancelled + 1 } k v := by
      rw [h e (by simp)]
      exact onCtx_port (fun c => { c with cancelled := c.cancelled + 1 })
    obtain ⟨w, hw⟩ := cancelAll_processor es { c with cancelled := c.cancelled + 1 } (fun x hx => h x (List.mem_cons_of_mem _ hx))
    refine ⟨w, ?_⟩
    show ((s.port n l c k v).cancelled n e.source e.kind).cancelAll n es = _
    rw [h1, hw]

/-- A withdrawal of the speed on a port. -/
theorem withdrawSpeed_lane {l : Link} {c : Context} {k : Chase} {v : Iru} :
    (s.port n l c k v).withdrawSpeed n =
      s.port n { l with slot := none } { c with cancelled := c.cancelled + displaced l.slot } k v := by
  rw [withdrawSpeed_eq]
  simp only [port_views]
  unfold port
  simp only [Six.set_set]

/-- What a run take leaves of a lane (05 R85). -/
structure LaneTaken (_n : Transport) (a b : Lane) : Prop where
  owner : b.ctx.owner = .run
  cue : b.cue = a.cue
  link : b.link.state = a.link.state
  queue : b.link.queue.length ≤ a.link.queue.length

theorem runTake_port (hc : s.configured = true) (hh : s.ptu.hold = none) (n : Transport) :
    ∃ l c k v, s.runTake n = s.port n l c k v ∧ LaneTaken n (s.lane n) ⟨l, c, k, s.run.cues.get n⟩ := by
  unfold runTake
  by_cases ho : (s.ctx n).owner = .run
  · rw [if_pos ho]
    exact ⟨_, _, _, _, port_self s n, ho, rfl, rfl, le_refl _⟩
  · rw [if_neg ho]
    have h1 : ∃ l c k v, (if (s.ctx n).owner = .chase then s.stopProcessorChase n else s) = s.port n l c k v ∧
        l.state = (s.link n).state ∧ l.queue = (s.link n).queue := by
      have h0 : ∃ l c k v, s = s.port n l c k v ∧ l.state = (s.link n).state ∧ l.queue = (s.link n).queue :=
        ⟨_, _, _, _, port_self s n, rfl, rfl⟩
      split_ifs with h
      · unfold stopProcessorChase
        split_ifs with h'
        · exact ⟨_, _, _, _, idleChase_ready hc hh n, rfl, rfl⟩
        · exact h0
      · exact h0
    obtain ⟨l, c, k, v, h1, h2, h3⟩ := h1
    rw [h1]
    simp only
    unfold cancelSource
    simp only [port_views]
    rw [onLink_port]
    obtain ⟨w, hw⟩ := cancelAll_processor (s := s) (n := n) (l := { l with queue := l.queue.filter (·.source != .processor) }) (k := k)
      (v := v) (l.queue.filter (·.source = .processor)) c (by intro e he; simpa using (List.mem_filter.1 he).2)
    rw [hw]
    have hlen : (l.queue.filter (·.source != .processor)).length ≤ (s.link n).queue.length := h3 ▸ List.length_filter_le _ _
    unfold withdrawProcessorSpeed
    simp only [port_views]
    cases hs : l.slot with
    | none =>
      simp only
      rw [setOwner_port]
      exact ⟨_, _, _, _, rfl, rfl, rfl, h2, hlen⟩
    | some x =>
      simp only
      split_ifs with hp
      · rw [withdrawSpeed_lane, setOwner_port]
        exact ⟨_, _, _, _, rfl, rfl, rfl, h2, hlen⟩
      · rw [setOwner_port]
        exact ⟨_, _, _, _, rfl, rfl, rfl, h2, hlen⟩

theorem runTake_lanes (hc : s.configured = true) (hh : s.ptu.hold = none) (n : Transport) : Lanes [n] LaneTaken s (s.runTake n) := by
  obtain ⟨l, c, k, v, h1, h2⟩ := runTake_port hc hh n
  rw [h1]
  exact lanes_port v h2

theorem begin_keeps (l : Link) : l.begin.queue = l.queue ∧ l.begin.inFlight.map (·.entry) = l.inFlight.map (·.entry) := by
  unfold Link.begin
  cases h : l.inFlight with
  | none => exact ⟨rfl, by rw [h]⟩
  | some f =>
    cases h' : l.tx with
    | some _ => exact ⟨rfl, by rw [h]⟩
    | none =>
      simp only
      split
      · exact ⟨rfl, rfl⟩
      · exact ⟨rfl, by rw [h]⟩

theorem launch_keeps (l : Link) (e : Entry) :
    (l.launch e).queue = l.queue ∧ (l.launch e).inFlight.map (·.entry) = some e := by
  unfold Link.launch
  obtain ⟨h1, h2⟩ := begin_keeps { l with inFlight := some ⟨e, none, 1, false, .waiting⟩ }
  exact ⟨h1, h2⟩

/-- An entry placed in a queue is in the queue or in flight after the arbiter's choice. -/
theorem choose_keeps (l : Link) {e : Entry} (h : e ∈ l.queue) :
    e ∈ l.choose.queue ++ (l.choose.inFlight.map (·.entry)).toList := by
  unfold Link.choose
  split_ifs with hup
  · split
    · rename_i x rest v hq hs
      split_ifs
      · obtain ⟨h1, h2⟩ := launch_keeps { l with queue := rest } x
        rw [h1, h2]
        rw [hq] at h
        rcases List.mem_cons.1 h with rfl | h <;> simp [*]
      · obtain ⟨h1, h2⟩ := launch_keeps { l with slot := none } v.entry
        rw [h1, h2]
        exact List.mem_append_left _ h
    · rename_i x rest hq hs
      obtain ⟨h1, h2⟩ := launch_keeps { l with queue := rest } x
      rw [h1, h2]
      rw [hq] at h
      rcases List.mem_cons.1 h with rfl | h <;> simp [*]
    · rename_i hq hs
      rw [hq] at h; cases h
    · rename_i hq hs
      rw [hq] at h; cases h
  · exact List.mem_append_left _ h

/-- What the first cue of a transport leaves of its lane (08 R158). -/
structure LaneCued (target : Option Nat) (std : Standard) (a b : Lane) : Prop where
  ctx : b.ctx = a.ctx
  cue : b.cue = { a.cue with progress := .locating, locates := 1, unplaced := false }
  locate : ∀ t, target = some t →
    runEntry .locate (.label (Label.ofIndex std t)) false false ∈ b.link.queue ++ (b.link.inFlight.map (·.entry)).toList

theorem beginCue_lanes {a : Armed} (hact : s.run.state.active = true) (hcur : s.et.current = some a) (hlook : s.et.lookahead = none)
    (hn : a.names n = true) (hup : (s.link n).state = .up) (hq : (s.link n).queue.length < 4) :
    Lanes [n] (fun n x y => LaneCued (a.cueTarget? s.standard n) s.standard x y) s (s.beginCue n 1) := by
  have hcue : ∀ x : State, x.et = s.et → x.standard = s.standard → x.cueTarget? n = a.cueTarget? s.standard n := by
    intro x he hs
    unfold State.cueTarget? cueEvent? EditTable.currentNames
    rw [he, hs, hcur, if_pos (by exact hn)]
    rfl
  have hmay : s.mayCue n = true := by
    unfold mayCue EditTable.lookaheadOnly EditTable.lookaheadNames
    rw [hact, hlook]
    rfl
  unfold beginCue
  rw [if_pos hmay]
  unfold offerLocate
  have h0 := hcue (s.setCue n { s.run.cues.get n with progress := .locating, locates := 1, unplaced := false }) rfl rfl
  rw [h0]
  cases ht : a.cueTarget? s.standard n with
  | none =>
    simp only
    have e := congrArg (fun x : State => x.setCue n { s.run.cues.get n with progress := .locating, locates := 1, unplaced := false }) (port_self s n)
    rw [show s.setCue n _ = _ from e]
    exact lanes_portCue _ ⟨rfl, rfl, by rw [ht]; intro t h; cases h⟩
  | some t =>
    simp only
    rw [offerEntry_room (by exact hup) (by exact hq)]
    simp only
    have e : ∀ q₁ : CueState, ((s.setCue n q₁).placeEntry n ((s.setCue n q₁).link n).queue (runEntry .locate (.label (Label.ofIndex (s.setCue n q₁).standard t)) false false)) =
        (s.port n (({ s.link n with queue := Link.place (s.link n).queue (runEntry .locate (.label (Label.ofIndex s.standard t)) false false) } : Link).choose) (s.ctx n) (s.chase n) s.iru).setCue n q₁ := by
      intro q₁
      unfold placeEntry onLink setLink port setCue setRun
      rw [show s.ctxs.set n (s.ctx n) = s.ctxs from Six.set_get _ _, show s.chases.set n (s.chase n) = s.chases from Six.set_get _ _]
      rfl
    rw [e]
    have e3 : ∀ (y : State) (q₁ q₂ : CueState), (y.setCue n q₁).setCue n q₂ = y.setCue n q₂ := by
      intro y q₁ q₂
      unfold setCue setRun
      simp only [Six.set_set]
    rw [e3]
    refine lanes_portCue _ ⟨rfl, ?_, ?_⟩
    · show ({ (s.run.cues.set n _).get n with unplaced := false } : CueState) = _
      rw [Six.get_set_self]
      rfl
    · intro t' ht'
      rw [ht] at ht'
      cases ht'
      refine choose_keeps _ ?_
      show runEntry .locate (.label (Label.ofIndex s.standard t)) false false ∈
        Link.place (s.link n).queue (runEntry .locate (.label (Label.ofIndex s.standard t)) false false)
      unfold Link.place
      rw [if_neg (fun h => Bool.noConfusion h)]
      simp

end State

end Sys2Proof.Machine
end

