-- ==== Sys2Proof/Laws/CueBoundaries.lean ====
section
/-! SUPPORT. A frame boundary at which no chase computes: the run's own steps one after another, and the work of one cue
(08 R155, R158, R159, R169). -/

namespace Sys2Proof.Machine

set_option Elab.async false

namespace State

variable {s b : State} {n : Transport} {sh : Bool}

/-- With no chase to compute, the run's steps follow one another. -/
theorem runAndChase_none (s : State) (before : Six Chase) : ∃ k,
    s.runAndChase [] before = ({ s.lateInserts.clockAndState with free := k } : State).timedActions.chaseStates before := by
  refine ⟨if s.lateInserts.clockAndState.run.state.rolling then s.lateInserts.clockAndState.free + 1
    else s.lateInserts.clockAndState.free, ?_⟩
  unfold runAndChase
  simp only
  have e : s.lateInserts.clockAndState.early [] = [] := by
    unfold early
    split_ifs <;> rfl
  rw [e]
  rfl

theorem lateInserts_none (h : s.run.awaited = []) : s.lateInserts = s := by
  unfold lateInserts
  rw [h]

/-- What the run finds at a boundary at which no chase computes. -/
theorem linksDone_calm (hh : b.ptu.hold = none) (hc : ∀ m, (b.chase m).computes = false) :
    (linksDone b sh).ptu.hold = none ∧ (Transport.all.filter fun m => ((linksDone b sh).chase m).computes) = [] := by
  constructor
  · have h := (readersDone_rough (s := b) (sh := sh)).hold hh
    unfold linksDone
    generalize (b.readersDone sh) = y at h
    have e : ∀ z : State, z.adoptParams.ptu = z.ptu := fun _ => rfl
    rw [e, (linkBoundaries_keep Transport.all y).2.2.2.2.2.2.2.2.1]
    exact h
  · rw [List.filter_eq_nil_iff]
    intro m _
    rw [(linksDone_keeps b).2.2.2.2.2.2 m]
    have : (b.chase m).adopt.computes = (b.chase m).computes := by
      unfold Chase.adopt
      split <;> rfl
    rw [this, hc]
    exact nofun

/-- A cue with no work is left alone. -/
theorem cueWork_rest {m : Transport} (h : (s.run.cues.get m).progress = .none ∨ (s.run.cues.get m).progress = .cued) :
    cueWork m s = s := by
  unfold cueWork
  simp only
  by_cases ha : (!s.run.state.active) = true
  · rw [if_pos ha]
  · rw [if_neg ha]
    rcases h with h | h <;> rw [h]

/-- A run that works no events leaves every cue alone. -/
theorem cueWork_quiet (h : s.run.state.active = false) (m : Transport) : cueWork m s = s := by
  unfold cueWork
  simp only
  rw [if_pos (by rw [h]; rfl)]

theorem cueWorks_quiet (h : s.run.state.active = false) : ∀ ts, forTransports ts cueWork s = s
  | [] => rfl
  | k :: ts => by
    show forTransports ts cueWork (cueWork k s) = s
    rw [cueWork_quiet h]
    exact cueWorks_quiet h ts

/-- With no other cue at work, the cues' work is that of one transport. -/
theorem cueWorks_one {y : State} (ho : ∀ m, m ≠ n → (s.run.cues.get m).progress = .none ∨ (s.run.cues.get m).progress = .cued)
    (hy : cueWork n s = y) (hk : ∀ m, m ≠ n → y.run.cues.get m = s.run.cues.get m) :
    ∀ ts : List Transport, ts.Nodup → n ∈ ts → forTransports ts cueWork s = y
  | [], _, h => by cases h
  | k :: ts, hd, hn => by
    obtain ⟨h1, h2⟩ := List.nodup_cons.1 hd
    show forTransports ts cueWork (cueWork k s) = y
    by_cases e : n = k
    · subst e
      rw [hy]
      have rest : ∀ ts : List Transport, n ∉ ts → forTransports ts cueWork y = y := by
        intro ts
        induction ts with
        | nil => intro _; rfl
        | cons j ts ih =>
          intro hj
          have hne : j ≠ n := fun h => hj (by rw [h]; simp)
          show forTransports ts cueWork (cueWork j y) = y
          rw [cueWork_rest (by rw [hk j hne]; exact ho j hne)]
          exact ih fun h => hj (List.mem_cons_of_mem _ h)
      exact rest ts h1
    · rw [cueWork_rest (ho k fun h => e h.symm)]
      exact cueWorks_one ho hy hk ts h2 ((List.mem_cons.1 hn).resolve_left e)

/-- The first transport without its cue is the only one. -/
theorem firstUncued_one {ts : List Transport} (hn : n ∈ ts) (h1 : (s.run.cues.get n).progress ≠ .cued)
    (ho : ∀ m ∈ ts, m ≠ n → (s.run.cues.get m).progress = .cued) : s.firstUncued ts = some n := by
  unfold firstUncued
  induction ts with
  | nil => cases hn
  | cons k ts ih =>
    by_cases e : k = n
    · subst e
      rw [List.find?_cons_of_pos (by simpa using h1)]
    · rw [List.find?_cons_of_neg (by simpa using ho k (by simp) e)]
      exact ih ((List.mem_cons.1 hn).resolve_left fun h => e h.symm) fun m hm => ho m (List.mem_cons_of_mem _ hm)

theorem timedActions_rest (h : s.run.state.rolling = false) : s.timedActions = s := by
  unfold timedActions
  split
  · rw [if_neg (by rw [h]; exact nofun)]
  · rfl

theorem chaseStates_rest (h : s.run.state.rolling = false) (before : Six Chase) : s.chaseStates before = s := by
  unfold chaseStates
  split
  · rw [if_neg (by rw [h]; exact nofun)]
  · rfl

/-- A boundary at which no chase computes, by what the run has done up to its timed actions. -/
theorem frameBoundary_calm {y : State} (hh : b.ptu.hold = none) (hc : ∀ m, (b.chase m).computes = false)
    (hw : b.run.awaited = []) (hy : (linksDone b sh).clockAndState = y) : ∃ (k : Nat) (before : Six Chase),
    (b.frameBoundary sh) = ((({ y with free := k } : State).timedActions).chaseStates before).fieldWork false := by
  obtain ⟨h1, h2⟩ := linksDone_calm hh hc
  rw [frameBoundary_parts, h2]
  obtain ⟨k, e⟩ := runAndChase_none (linksDone b sh) (linksDone b sh).chases
  refine ⟨k, (linksDone b sh).chases, ?_⟩
  rw [e, lateInserts_none (by rw [(linksDone_keeps b).1]; exact hw), hy]

/-- The same when the run is not rolling after its second step. -/
theorem frameBoundary_waiting {y : State} (hh : b.ptu.hold = none) (hc : ∀ m, (b.chase m).computes = false)
    (hw : b.run.awaited = []) (hy : (linksDone b sh).clockAndState = y) (hr : y.run.state.rolling = false) :
    (b.frameBoundary sh).run = y.run ∧ (b.frameBoundary sh).links = y.links ∧ ∀ x ∈ y.marks, x ∈ (b.frameBoundary sh).marks := by
  obtain ⟨k, before, e⟩ := frameBoundary_calm hh hc hw hy
  rw [timedActions_rest (by exact hr), chaseStates_rest (by exact hr)] at e
  rw [e]
  have m := mixerOnly_fieldWork (s := ({ y with free := k } : State)) false
  exact ⟨m.run, m.links, fun x hx => (fieldWork_tame (r := true) _).marks rfl x hx⟩

end State

end Sys2Proof.Machine
end

