-- ==== Sys2Proof/Laws/Frames.lean ====
section
/-! SUPPORT. A frame from a deck, character by character, and an entry placed in a reply FIFO (04 R71, R72, 05 R101). -/

namespace Sys2Proof.Machine

set_option Elab.async false

namespace State

variable {s : State} {n : Transport} {l : Link} {c : Context} {k : Chase} {v : Iru}

/-- The start byte of a frame finds the receiver hunting. -/
theorem char_start (h : l.receiver = .hunt) :
    receiveChar n (s.port n l c k v) ⟨0xC3, true, true⟩ =
      s.port n { l with receiver := .frame [], gapLeft := some Config.gapUnits } c k v := by
  unfold receiveChar
  simp only [port_views]
  rw [h]
  simp only
  rw [if_pos (by decide), onLink_port]

/-- A good byte inside a frame. -/
theorem char_byte {bs : List Byte} {x : Byte} (h : l.receiver = .frame bs) :
    receiveChar n (s.port n l c k v) ⟨x, true, true⟩ = (s.port n l c k v).frameByte n (bs ++ [x]) := by
  unfold receiveChar
  simp only [port_views]
  rw [h]
  rfl

/-- A byte that does not complete its frame. -/
theorem byte_more {bs : List Byte} (h1 : bs.length ≠ 2 ∨ (bs.getD 1 0).toNat % 16 ≤ 12) (h2 : bs.length ≠ (bs.getD 1 0).toNat % 16 + 3) :
    (s.port n l c k v).frameByte n bs = s.port n { l with receiver := .frame bs, gapLeft := some Config.gapUnits } c k v := by
  unfold frameByte
  simp only
  rw [if_neg (by omega), if_neg h2, onLink_port]

/-- The byte that completes its frame. -/
theorem byte_last {bs : List Byte} (h1 : bs.length ≠ 2) (h2 : bs.length = (bs.getD 1 0).toNat % 16 + 3) :
    (s.port n l c k v).frameByte n bs = (s.port n l c k v).frameReceived n bs := by
  unfold frameByte
  simp only
  rw [if_neg (by omega), if_pos h2]

theorem seqByte (q len : Nat) (hq : q ≤ 15) (hl : len ≤ 12) : (BitVec.ofNat 8 (16 * q + len)).toNat = 16 * q + len := by
  rw [BitVec.toNat_ofNat]
  omega

/-- A frame with no payload, received well. -/
theorem receive_frame0 (hc : s.configured = true) (h : l.receiver = .hunt) (kind q : Nat) (hq : q ≤ 15) :
    let body : List Byte := [BitVec.ofNat 8 kind, BitVec.ofNat 8 (16 * q)]
    (s.port n l c k v).receive n (sentWell (frameOf kind q [])) =
      (s.port n { l with receiver := .frame body, gapLeft := some Config.gapUnits } c k v).frameReceived n (body ++ [checkByte body]) := by
  intro body
  have e : sentWell (frameOf kind q []) = [⟨0xC3, true, true⟩, ⟨BitVec.ofNat 8 kind, true, true⟩, ⟨BitVec.ofNat 8 (16 * q), true, true⟩, ⟨checkByte body, true, true⟩] := rfl
  have hb := seqByte q 0 hq (by omega)
  rw [Nat.add_zero] at hb
  unfold receive
  rw [if_pos (by exact hc), e]
  simp only [List.foldl_cons, List.foldl_nil]
  rw [char_start h, char_byte rfl, byte_more (by simp) (by simp), char_byte rfl, byte_more (by right; simp [hb]) (by simp [hb])]
  rw [char_byte rfl, byte_last (by simp) (by simp [hb])]
  rfl

/-- A frame with one payload byte, received well. -/
theorem receive_frame1 (hc : s.configured = true) (h : l.receiver = .hunt) (kind q : Nat) (x : Byte) (hq : q ≤ 15) :
    let body : List Byte := [BitVec.ofNat 8 kind, BitVec.ofNat 8 (16 * q + 1), x]
    (s.port n l c k v).receive n (sentWell (frameOf kind q [x])) =
      (s.port n { l with receiver := .frame body, gapLeft := some Config.gapUnits } c k v).frameReceived n (body ++ [checkByte body]) := by
  intro body
  have e : sentWell (frameOf kind q [x]) = [⟨0xC3, true, true⟩, ⟨BitVec.ofNat 8 kind, true, true⟩, ⟨BitVec.ofNat 8 (16 * q + 1), true, true⟩, ⟨x, true, true⟩, ⟨checkByte body, true, true⟩] := rfl
  have hb := seqByte q 1 hq (by omega)
  unfold receive
  rw [if_pos (by exact hc), e]
  simp only [List.foldl_cons, List.foldl_nil]
  have hm : (16 * q + 1) % 16 = 1 := by omega
  rw [char_start h, char_byte rfl, byte_more (by simp) (by simp), char_byte rfl, byte_more (by right; simp [hb, hm]) (by simp [hb, hm])]
  rw [char_byte rfl, byte_more (by simp) (by simp [hb, hm]), char_byte rfl, byte_last (by simp) (by simp [hb, hm])]
  rfl

theorem check_sum (body : List Byte) : (body ++ [checkByte body]).sum = 0 := by
  unfold checkByte
  rw [List.sum_append, List.sum_cons, List.sum_nil, add_zero]
  exact (add_sub_cancel _ _).trans rfl

/-- An entry placed in a reply FIFO with room, while no read is held. -/
theorem fifoOffer_port (hc : s.configured = true) (hh : s.ptu.hold = none) (e : FifoEntry) (h : c.fifo.length < 3) :
    (s.port n l c k v).fifoOffer n e =
      s.port n l { c.countEntry e.notice true with fifo := c.fifo ++ [e] } k (v.follow (.deck n) true) := by
  unfold fifoOffer
  simp only [port_views]
  rw [if_pos h, onCtx_port]
  unfold entryPlaced
  simp only [port_views]
  rw [hh]
  simp only
  rw [syncDeck_port hc hh]
  congr 2
  unfold Context.deckCondition
  simp

/-- A link and a context replaced, as a port. -/
theorem port_ctx (l : Link) (c : Context) (v : Iru) :
    ({ s with links := s.links.set n l, ctxs := s.ctxs.set n c, iru := v } : State) = s.port n l c (s.chase n) v := by
  unfold port
  rw [show s.chases.set n (s.chase n) = s.chases from Six.set_get _ _]

end State

end Sys2Proof.Machine
end

