-- ==== Sys2Proof/Laws/ReaderWords.lean ====
section
/-! SUPPORT. The arithmetic of timecode words and what a reader put in place does (03 R45, R55). -/

namespace Sys2Proof.Machine

set_option Elab.async false

namespace State

variable {s : State} {n : Transport}

theorem reduce_succ (m j : Nat) : reduce m ((j : Int) + 1) = (j + 1) % m := by
  unfold reduce
  rw [show ((j : Int) + 1) % (m : Int) = (((j + 1) % m : Nat) : Int) by push_cast; rfl]
  rfl

theorem reduce_pred (m j : Nat) (hm : 0 < m) : reduce m ((j : Int) - 1) = (j + (m - 1)) % m := by
  unfold reduce
  have : ((j : Int) - 1) % (m : Int) = (((j + (m - 1)) % m : Nat) : Int) := by
    push_cast
    rw [Nat.cast_sub (by omega)]
    rw [show (j : Int) + ((m : Int) - (1 : Nat)) = ((j : Int) - 1) + m by push_cast; ring]
    rw [Int.add_emod_right]
  rw [this]
  rfl

theorem day_pos (std : Standard) : 0 < std.day := by cases std <;> decide

/-- Continuation of a candidate. -/
theorem continues_iff (std : Standard) (k : Option Candidate) (i : Nat) (d : Dir) : continues std k i d = true ↔
    ∃ j, k = some ⟨j, d⟩ ∧ (d = .forward ∧ i = (j + 1) % std.day ∨ d = .reverse ∧ i = (j + (std.day - 1)) % std.day) := by
  unfold continues
  cases k with
  | none => simp
  | some c =>
    obtain ⟨j, d'⟩ := c
    simp only [Bool.and_eq_true, decide_eq_true_eq]
    constructor
    · rintro ⟨rfl, h⟩
      refine ⟨j, rfl, ?_⟩
      cases d with
      | forward => exact .inl ⟨rfl, h.trans (reduce_succ _ _)⟩
      | reverse => exact .inr ⟨rfl, h.trans (reduce_pred _ _ (day_pos _))⟩
    · rintro ⟨j', h1, h2⟩
      cases h1
      refine ⟨rfl, ?_⟩
      rcases h2 with ⟨rfl, h⟩ | ⟨rfl, h⟩
      · exact h.trans (reduce_succ _ _).symm
      · exact h.trans (reduce_pred _ _ (day_pos _)).symm

/-- A reader put in place with no change of state, and with one (03 R55). -/
theorem putReader_same {r : Reader} (h : (s.reader n).state = r.state) : s.putReader n r = { s with readers := s.readers.set n r } := by
  unfold putReader
  rw [if_pos h]
  rfl

theorem putReader_moved (hc : s.configured = true) (hh : s.ptu.hold = none) {r : Reader} (h : (s.reader n).state ≠ r.state) :
    s.putReader n r = { s with readers := s.readers.set n r, iru := s.iru.raise .reader } := by
  unfold putReader
  rw [if_neg h, raise_ready (by exact hc) (by exact hh)]
  rfl

end State

end Sys2Proof.Machine
end

