-- ==== Sys2Proof/Laws/Regions.lean ====
section
/-! SUPPORT. Where a cycle goes: the class of an offset of the region (01 R12), an address of a word, a cycle on a free bus;
and the lanes of a word. -/

namespace Sys2Proof.Machine

set_option Elab.async false

/-- A number above 5 names no transport. -/
theorem Transport.ofNum?_ge {k : Nat} (h : 6 ≤ k) : Transport.ofNum? k = none := by
  obtain ⟨j, rfl⟩ : ∃ j, k = j + 6 := ⟨k - 6, by omega⟩
  rfl

@[simp] theorem hiByte_mkWord (a b : Byte) : hiByte (mkWord a b) = a := by
  unfold hiByte mkWord
  apply BitVec.eq_of_getLsbD_eq
  intro i hi
  rw [BitVec.getLsbD_setWidth, BitVec.getLsbD_ushiftRight,
    show (a ++ b : BitVec 16).getLsbD (8 + i) = _ from BitVec.getLsbD_append]
  simp [hi]

@[simp] theorem loByte_mkWord (a b : Byte) : loByte (mkWord a b) = b := by
  unfold loByte mkWord
  apply BitVec.eq_of_getLsbD_eq
  intro i hi
  rw [BitVec.getLsbD_setWidth, show (a ++ b : BitVec 16).getLsbD i = _ from BitVec.getLsbD_append]
  simp [hi]

namespace State

theorem regionBase_eq {s : State} {u : Setup} (h : s.cfg.setup = some u) : s.regionBase = u.regionBase.setWidth 24 <<< 14 := by
  unfold State.regionBase
  rw [h]

/-- The class of an offset of the suite region is its class in the map (01 R1, R12, R14). -/
theorem classify_region {s : State} (hc : s.configured = true) (hs : s.cfg.Sound) (off : Nat) (ho : off < 0x4000) :
    s.classify (s.regionAddr off) = regionTarget off := by
  unfold State.configured at hc
  cases hu : s.cfg.setup with
  | none => rw [hu] at hc; cases hc
  | some u =>
    have hl := (hs.setup u hu).region
    unfold State.classify
    simp only [hu]
    have hb : s.regionAddr off = u.regionBase.setWidth 24 <<< 14 + BitVec.ofNat 24 off := by
      unfold State.regionAddr; rw [regionBase_eq hu]
    have hoff : (BitVec.ofNat 24 off).toNat = off := by simp; omega
    have hlt : BitVec.ofNat 24 off < 0x4000 := by
      rw [BitVec.lt_def, hoff]; exact ho
    generalize hx : BitVec.ofNat 24 off = x at *
    have hh : highBits (s.regionAddr off) = u.regionBase := by
      rw [hb]; unfold highBits
      generalize u.regionBase = r at *
      revert hlt
      clear * -
      intro hlt
      apply BitVec.eq_of_toNat_eq
      simp [BitVec.toNat_shiftLeft, BitVec.extractLsb'_toNat, Nat.shiftLeft_eq, Nat.shiftRight_eq_div_pow]
      have := r.isLt
      rw [BitVec.lt_def] at hlt
      simp at hlt
      omega
    have hlo : ((s.regionAddr off).setWidth 14).toNat = off := by
      rw [hb]
      simp [Nat.shiftLeft_eq]
      omega
    have hd : ¬(s.regionAddr off - setupAddr s.cfg.straps).toNat < 32 := by
      intro hd
      apply hl
      rw [← hh]
      have key : ∀ (y : BitVec 24) (st : BitVec 2), (y - setupAddr st).toNat < 32 → highBits (setupAddr st) = highBits y := by
        intro y st h
        have hy : y = setupAddr st + (y - setupAddr st) := by simp
        generalize y - setupAddr st = z at *
        subst hy
        obtain ⟨k, rfl⟩ : ∃ k : Fin 32, z = BitVec.ofNat 24 k.val := ⟨⟨z.toNat, h⟩, by simp⟩
        clear h
        revert st k
        decide
      exact key _ _ hd
    rw [if_neg hd, hh, if_pos rfl, hlo]

/-- A word of the slots of six. -/
theorem slotTarget_eq (f : Transport → Fin 16 → Watched) (n : Transport) (k : Fin 16) :
    slotTarget f (32 * n.num + 2 * k.val) = .watched (f n k) := by
  unfold slotTarget
  have h : (32 * n.num + 2 * k.val) / 32 = n.num := by omega
  have hk : Fin.ofNat 16 ((32 * n.num + 2 * k.val) / 2) = k := by
    apply Fin.ext
    simp [Fin.ofNat]
    omega
  rw [h, hk]
  cases n <;> rfl

/-- An offset past the last slot of six. -/
theorem slotTarget_pass (f : Transport → Fin 16 → Watched) {x : Nat} (h : 192 ≤ x) : slotTarget f x = .pass := by
  unfold slotTarget
  rw [Transport.ofNum?_ge (by omega)]

theorem wordAddr_aligned {a : Addr} (h : wordAligned a = true) : wordAddr a = a := by
  unfold wordAligned at h
  unfold wordAddr
  apply BitVec.eq_of_getLsbD_eq
  intro i hi
  rw [BitVec.getLsbD_and]
  have : (0xFFFFFE : BitVec 24).getLsbD i = decide (i ≠ 0) := by
    have : ∀ i : Fin 24, (0xFFFFFE : BitVec 24).getLsbD i.val = decide (i.val ≠ 0) := by decide
    exact this ⟨i, hi⟩
  rw [this]
  by_cases h0 : i = 0
  · subst h0; simpa using h
  · simp [h0]

theorem cycle_free {s : State} (h : s.ptu.hold = none) (f : State → State) : s.cycle f = f s.newCycle := by
  unfold State.cycle State.busFree; rw [h]; rfl

end State

end Sys2Proof.Machine
end

