-- ==== Sys2Proof/Laws/RunSlots.lean ====
section
/-! SUPPORT. A record of the run control slot, from the command of the table to the operation it asks for (08 R147 to R149,
11.3). -/

namespace Sys2Proof.Machine

set_option Elab.async false

namespace State

variable {s : State} {n : Transport}

theorem exec_runRow (hr : s.Ready) (code tag : Word) (args : List (Fin 16 × Word)) (i : Instr) (hi : exec i s = .next (s.slotRecord (recordStores .run 15 code tag args)))
    (ha : ∀ p ∈ args, (Watched.run p.1).quiet = true) :
    exec i s = .next ((s.stored (recordStores .run 15 code tag args)).handOver (.run 15)) :=
  hi.trans (congrArg _ (slotRecord_record hr .run 15 code tag args rfl rfl ha rfl))

theorem latch_runStores (hr : s.Ready) (code tag : Word) (args : List Word) (hl : args.length ≤ 5) (k : Fin 16) (hk : k.val < 2 + args.length) :
    (s.stored (recordStores .run 15 code tag (args.zipIdx.map fun p => (Fin.ofNat 16 (p.2 + 2), p.1)))).latch (.run k) = (code :: tag :: args).getD k.val 0 := by
  rw [latch_stored hr.cfg]
  match args, hl with
  | [], _ => simp at hk; obtain ⟨k, hk'⟩ := k; interval_cases k <;> simp [recordStores]
  | [a], _ => simp at hk; obtain ⟨k, hk'⟩ := k; interval_cases k <;> simp [recordStores]
  | [a, b], _ => simp at hk; obtain ⟨k, hk'⟩ := k; interval_cases k <;> simp [recordStores]
  | [a, b, c], _ => simp at hk; obtain ⟨k, hk'⟩ := k; interval_cases k <;> simp [recordStores]
  | [a, b, c, d], _ => simp at hk; obtain ⟨k, hk'⟩ := k; interval_cases k <;> simp [recordStores]
  | [a, b, c, d, e], _ => simp at hk; obtain ⟨k, hk'⟩ := k; interval_cases k <;> simp [recordStores]

theorem exec_startRun (hr : s.Ready) (tag a b c d e : Word) :
    exec (.startRun tag a b c d e) s = .next ((s.stored (recordStores .run 15 1 tag [(2, a), (3, b), (4, c), (5, d), (6, e)])).runRecord 1 tag a b c d e) := by
  rw [exec_runRow hr 1 tag [(2, a), (3, b), (4, c), (5, d), (6, e)] (.startRun tag a b c d e) rfl (by simp [Watched.quiet]), handOver_run]
  have h := latch_runStores hr 1 tag [a, b, c, d, e] (by simp)
  have e1 : (([a, b, c, d, e] : List Word).zipIdx.map fun p => (Fin.ofNat 16 (p.2 + 2), p.1)) = [(2, a), (3, b), (4, c), (5, d), (6, e)] := rfl
  rw [e1] at h
  rw [h 0 (by simp), h 1 (by simp), h 2 (by simp), h 3 (by simp), h 4 (by simp), h 5 (by simp), h 6 (by simp)]
  rfl

theorem exec_runBare (hr : s.Ready) (code tag : Word) (i : Instr) (hi : exec i s = .next (s.slotRecord (recordStores .run 15 code tag []))) :
    ∃ w2 w3 w4 w5 w6, exec i s = .next ((s.stored (recordStores .run 15 code tag [])).runRecord code tag w2 w3 w4 w5 w6) := by
  rw [exec_runRow hr code tag [] i hi (by simp), handOver_run]
  have h := latch_runStores hr code tag [] (by simp)
  have e1 : (([] : List Word).zipIdx.map fun p => (Fin.ofNat 16 (p.2 + 2), p.1)) = [] := rfl
  rw [e1] at h
  rw [h 0 (by simp), h 1 (by simp)]
  exact ⟨_, _, _, _, _, rfl⟩

theorem exec_setNext (hr : s.Ready) (tag a : Word) :
    ∃ w3 w4 w5 w6, exec (.setNext tag a) s = .next ((s.stored (recordStores .run 15 6 tag [(2, a)])).runRecord 6 tag a w3 w4 w5 w6) := by
  rw [exec_runRow hr 6 tag [(2, a)] (.setNext tag a) rfl (by simp [Watched.quiet]), handOver_run]
  have h := latch_runStores hr 6 tag [a] (by simp)
  have e1 : (([a] : List Word).zipIdx.map fun p => (Fin.ofNat 16 (p.2 + 2), p.1)) = [(2, a)] := rfl
  rw [e1] at h
  rw [h 0 (by simp), h 1 (by simp), h 2 (by simp)]
  exact ⟨_, _, _, _, rfl⟩

theorem exec_setSuiteClock (hr : s.Ready) (tag a b : Word) :
    ∃ w4 w5 w6, exec (.setSuiteClock tag a b) s = .next ((s.stored (recordStores .run 15 8 tag [(2, a), (3, b)])).runRecord 8 tag a b w4 w5 w6) := by
  rw [exec_runRow hr 8 tag [(2, a), (3, b)] (.setSuiteClock tag a b) rfl (by simp [Watched.quiet]), handOver_run]
  have h := latch_runStores hr 8 tag [a, b] (by simp)
  have e1 : (([a, b] : List Word).zipIdx.map fun p => (Fin.ofNat 16 (p.2 + 2), p.1)) = [(2, a), (3, b)] := rfl
  rw [e1] at h
  rw [h 0 (by simp), h 1 (by simp), h 2 (by simp), h 3 (by simp)]
  exact ⟨_, _, _, rfl⟩

theorem runRecord_1 (t : State) (tag a b c d e : Word) : t.runRecord 1 tag a b c d e = (t.startRun a b c d e).2.runResult (t.startRun a b c d e).1 1 tag := rfl
theorem runRecord_2 (t : State) (tag a b c d e : Word) : t.runRecord 2 tag a b c d e = t.rollCommand.2.runResult t.rollCommand.1 2 tag := rfl
theorem runRecord_3 (t : State) (tag a b c d e : Word) : t.runRecord 3 tag a b c d e = (t.unlessIdle stopRun).2.runResult (t.unlessIdle stopRun).1 3 tag := rfl
theorem runRecord_4 (t : State) (tag a b c d e : Word) : t.runRecord 4 tag a b c d e = (t.unlessIdle abortRun).2.runResult (t.unlessIdle abortRun).1 4 tag := rfl
theorem runRecord_5 (t : State) (tag a b c d e : Word) : t.runRecord 5 tag a b c d e = t.clearFault.2.runResult t.clearFault.1 5 tag := rfl
theorem runRecord_6 (t : State) (tag a b c d e : Word) : t.runRecord 6 tag a b c d e = (t.setNext a).2.runResult (t.setNext a).1 6 tag := rfl
theorem runRecord_7 (t : State) (tag a b c d e : Word) : t.runRecord 7 tag a b c d e = t.clearAll.runResult .accepted 7 tag := rfl
theorem runRecord_8 (t : State) (tag a b c d e : Word) : t.runRecord 8 tag a b c d e = (t.setSuiteClock a b).2.runResult (t.setSuiteClock a b).1 8 tag := rfl

theorem linkOf_none (w : Word) : linkOf? w = none ↔ (64 ≤ w.toNat ∧ w ≠ 0xFFFF) := by
  unfold linkOf? eventOf?
  split_ifs with h1 h2
  · simp [h1]
  · simp; omega
  · simp only [Option.map_none, true_iff]; exact ⟨by omega, h1⟩

theorem mode_none (w : Word) : RunMode.ofWord? w = none ↔ 2 ≤ w.toNat := by
  unfold RunMode.ofWord?
  split_ifs with h1 h2
  · subst h1; simp
  · subst h2; simp
  · simp
    have a : w.toNat ≠ 0 := fun h => h1 (BitVec.eq_of_toNat_eq h)
    have b : w.toNat ≠ 1 := fun h => h2 (BitVec.eq_of_toNat_eq h)
    omega

/-- Entering a state with no hold. -/
theorem runEnter_ready (hc : s.configured = true) (hh : s.ptu.hold = none) (st : RunState) (h : s.run.state ≠ st) :
    s.runEnter st = { s with run := { s.run with state := st }, iru := (s.iru.raise .runPhase).follow .runFault (decide (st = .faulted)) } := by
  unfold runEnter
  rw [if_neg h, raise_ready (by exact hc) (by exact hh)]
  unfold syncRunFault
  rw [follow_ready (by exact hc) (by exact hh)]
  rfl


/-- A run slot record whose operation is known is decided. -/
theorem runDone {p : SlotCode × State} {code : SlotCode} {y : State} (h : p = (code, y)) (hc : y.configured = true) (hh : y.ptu.hold = none) (k tag : Word) :
    p.2.runResult p.1 k tag = y.runDecided code k tag := by
  subst h; exact runResult_ready hc hh _ _ _


end State

end Sys2Proof.Machine
end

