-- ==== Sys2Proof/Laws/RunStart.lean ====
section
/-! SUPPORT. The start of a run: its working fields, its arming, and the cues that begin (08 R149, R157). -/

namespace Sys2Proof.Machine

set_option Elab.async false

namespace State

variable {s t : State} {n : Transport}

/-- The start of a run up to its arming (08 R149). -/
theorem beginRun_begins (hc : s.configured = true) (hh : s.ptu.hold = none) (hi : s.run.state = .idle) {u : Setup} (hu : s.cfg.setup = some u) (m : RunMode) (auto : Bool) (g l : Nat) :
    ((s.clearRun m auto g l).reloadDone.runEnter .cueing) =
      { s with run := s.run.started m auto g l u.requireReference, et := { s.et with states := s.et.states.map EventState.reloaded }, iru := (s.iru.raise .runPhase).follow .runFault false } := by
  rw [runEnter_ready (by exact hc) (by exact hh) .cueing (by show s.run.state ≠ _; rw [hi]; decide)]
  unfold clearRun onRun setRun
  rw [hu]
  rfl

theorem eventOf_val (w : Word) (e : Fin 64) (h : w.toNat = e.val) : eventOf? w = some e := by
  unfold eventOf?
  rw [dif_pos (by rw [h]; exact e.isLt)]
  exact congrArg some (Fin.ext h)

theorem modeOf (m : RunMode) : RunMode.ofWord? (if m = .record then 1 else 0) = some m := by cases m <;> rfl

/-- A START_RUN of good form in IDLE. -/
theorem startRun_begins (hi : s.run.state = .idle) (first mode auto margin limit : Word) (e : Fin 64) (m : RunMode) (h1 : first.toNat = e.val) (h2 : mode = (if m = .record then 1 else 0)) :
    s.startRun first mode auto margin limit = (.accepted, s.beginRun e m (auto.getLsbD 0) (marginOf margin) (cueLimitOf limit)) := by
  unfold State.startRun
  rw [eventOf_val _ _ h1, h2, modeOf]
  simp only
  rw [if_pos hi]

theorem names_transports (a : Armed) : n ∈ a.transports ↔ a.names n = true := by
  unfold Armed.transports
  rw [List.mem_filter]
  exact ⟨fun h => h.2, fun h => ⟨Transport.mem_all n, h⟩⟩

/-- The transports of a newly current event are taken and their cues begin (08 R157, steps 4 and 5). -/
theorem takeCurrent_cues {a : Armed} (hc : s.configured = true) (hh : s.ptu.hold = none) (hst : s.run.state = .cueing) (hcur : s.et.current = some a) (hlook : s.et.lookahead = none)
    (hcue : ∀ n, (s.run.cues.get n).progress = .none) (hl : ∀ n, a.names n = true → (s.link n).state = .up ∧ (s.link n).queue.length < 4) :
    Lanes a.transports (fun n x y => ∃ z, LaneTaken n x z ∧ LaneCued (a.cueTarget? s.standard n) s.standard z y)
      ((s.adoptEvent a).onRun ({ · with syncPassed := false })) ((s.takeCurrent a).checkReady) := by
  have hnd : a.transports.Nodup := List.Nodup.filter _ (by decide)
  have hq := hl
  unfold takeCurrent
  simp only
  have he : ((s.adoptEvent a).onRun ({ · with syncPassed := false })).runEnter .cueing = (s.adoptEvent a).onRun ({ · with syncPassed := false }) := by
    unfold runEnter
    exact if_pos hst
  rw [he]
  generalize hb : (s.adoptEvent a).onRun ({ · with syncPassed := false }) = b
  have b1 : b.configured = true := by rw [← hb]; exact hc
  have b2 : b.ptu.hold = none := by rw [← hb]; exact hh
  have b3 : b.run.state = .cueing := by rw [← hb]; exact hst
  have b4 : b.et = s.et := by rw [← hb]; rfl
  have b5 : b.standard = s.standard := by rw [← hb]; rfl
  have b6 : ∀ n, b.link n = s.link n := by intro n; rw [← hb]; rfl
  have b7 : ∀ n, b.run.cues.get n = s.run.cues.get n := by intro n; rw [← hb]; rfl
  clear hb he
  have h1 := Lanes.forTransports (P := fun s => s.configured = true ∧ s.ptu.hold = none) (fun s t h f => by rw [f]; exact h)
    (fun n s h => runTake_lanes h.1 h.2 n) a.transports hnd b ⟨b1, b2⟩
  generalize forTransports a.transports (fun n s => s.runTake n) b = x at h1
  have hx : x.run.state = .cueing ∧ x.et.current = some a ∧ x.et.lookahead = none ∧ x.standard = s.standard := by
    rw [h1.frame]
    exact ⟨b3, by rw [← hcur, ← b4], by rw [← hlook, ← b4], b5⟩
  have h2 := Lanes.forTransports_if
    (f := fun n s => if (s.run.cues.get n).progress = .cued then s else s.beginCue n 1)
    (R := fun n z y => LaneCued (a.cueTarget? s.standard n) s.standard z y)
    (P := fun x => x.run.state = .cueing ∧ x.et.current = some a ∧ x.et.lookahead = none ∧ x.standard = s.standard)
    (Q := fun n z => a.names n = true ∧ z.cue.progress = .none ∧ z.link.state = .up ∧ z.link.queue.length < 4)
    (fun s t h f => by rw [f]; exact h)
    (fun n x h q => by
      rw [if_neg (by show ¬ (x.lane n).cue.progress = _; rw [q.2.1]; decide)]
      have := beginCue_lanes (s := x) (n := n) (a := a) (by rw [h.1]; rfl) h.2.1 h.2.2.1 q.1 q.2.2.1 q.2.2.2
      rw [h.2.2.2] at this
      exact this)
    a.transports hnd x hx
    (by
      intro n hn
      have hna := (names_transports a).1 hn
      have t := h1.on n hn
      have ql := hq n hna
      refine ⟨hna, ?_, ?_, ?_⟩
      · rw [t.cue]
        show (b.run.cues.get n).progress = .none
        rw [b7]; exact hcue n
      · rw [t.link]; show (b.link n).state = .up; rw [b6]; exact ql.1
      · refine lt_of_le_of_lt t.queue ?_
        show (b.link n).queue.length < 4
        rw [b6]; exact ql.2)
  have h3 := h1.then_ h2
  generalize forTransports a.transports (fun n s => if (s.run.cues.get n).progress = .cued then s else s.beginCue n 1) x = y at h2 h3
  have : y.checkReady = y := by
    unfold checkReady
    rw [if_neg]
    rw [Bool.and_eq_true, not_and]
    intro _
    unfold allCued currentTransports
    have hy : y.et.current = some a := by rw [h2.frame]; exact hx.2.1
    rw [hy]
    intro hall
    have hr : a.recorder ∈ a.transports := by
      rw [names_transports]; unfold Armed.names; simp
    have := List.all_eq_true.1 hall _ hr
    have hrec := (h2.on _ hr).cue
    have e : (y.run.cues.get a.recorder) = (y.lane a.recorder).cue := rfl
    rw [e, hrec] at this
    simp at this
  rw [this]
  exact h3

theorem forTransports_none {f : Transport → State → State} (h : ∀ n, f n s = s) : ∀ ts, forTransports ts f s = s
  | [] => rfl
  | n :: ts => by
    show forTransports ts f (f n s) = s
    rw [h n]; exact forTransports_none h ts

/-- The abort path with nothing armed, owned or running. -/
theorem abortPath_nothing (hc : s.configured = true) (hh : s.ptu.hold = none) (hst : s.run.state ≠ .aborting) (h1 : s.et.current = none) (h2 : s.et.lookahead = none)
    (h3 : ∀ n, (s.ctx n).owner ≠ .run) (h4 : ∀ n, (s.chase n).state = .idle ∨ (s.chase n).origin = .processor) (h5 : s.mixer.owner ≠ .run)
    (h6 : s.run.outstanding = 0) (h7 : s.run.pendingFault = none) (h8 : s.run.pendingExtra = 0) :
    ∃ v, s.abortPath .fault = { s with
      run := { s.run with state := .faulted, abortCause := .fault, awaited := [], lookahead := .none, endCause := .faulted }
      mixer := { s.mixer with timers := Vector.replicate 8 0, handed := [] }, iru := v } ∧ v.isPending .runFault = true := by
  unfold abortPath
  simp only
  rw [runEnter_ready (by exact hc) (by exact hh) .aborting (by exact hst)]
  obtain ⟨x, hx⟩ : ∃ x, x = ({ s.onRun ({ · with abortCause := .fault, awaited := [] }) with
    run := { (s.onRun ({ · with abortCause := .fault, awaited := [] })).run with state := .aborting }, iru := ((s.onRun ({ · with abortCause := .fault, awaited := [] })).iru.raise .runPhase).follow .runFault (decide (RunState.aborting = .faulted)) } : State) := ⟨_, rfl⟩
  rw [← hx]
  have a1 : x.abortStops = x := by
    unfold abortStops
    have : forTransports Transport.all (fun n s => s.stopRunChase n) x = x := by
      refine forTransports_none (fun n => ?_) _
      unfold stopRunChase runChase
      rw [if_neg]
      have : x.chase n = s.chase n := by rw [hx]; rfl
      rw [this]
      simp only [Bool.and_eq_true, bne_iff_ne, decide_eq_true_eq, not_and]
      intro hne
      rcases h4 n with h | h
      · exact absurd h hne
      · rw [h]; decide
    simp only [this]
    have hat : x.armedTransports = [] := by
      unfold armedTransports
      rw [List.filter_eq_nil_iff]
      intro n _
      unfold EditTable.names EditTable.currentNames EditTable.lookaheadNames
      rw [show x.et = s.et by rw [hx]; rfl, h1, h2]
      exact fun h => Bool.noConfusion h
    rw [hat]
    rfl
  have hat : x.armedTransports = [] := by
    unfold armedTransports
    rw [List.filter_eq_nil_iff]
    intro n _
    unfold EditTable.names EditTable.currentNames EditTable.lookaheadNames
    rw [show x.et = s.et by rw [hx]; rfl, h1, h2]
    exact fun h => Bool.noConfusion h
  have a2 : x.abortInserts = x := by
    unfold abortInserts
    rw [show x.et = s.et by rw [hx]; rfl, h1]
  rw [a1, a2, hat]
  rw [show forTransports [] (fun n s => s.offerAbort n .halt .none) x = x from rfl]
  have a3 : x.freezeMixer = x.onMixer fun m => { m with timers := Vector.replicate 8 0, handed := [] } := by
    unfold freezeMixer freezeLevel
    rw [if_neg (by rw [show x.mixer = s.mixer by rw [hx]; rfl]; exact h5)]
    rfl
  rw [a3]
  obtain ⟨y, hy⟩ : ∃ y, y = (x.onMixer fun m => { m with timers := Vector.replicate 8 0, handed := [] }).discardPending := ⟨_, rfl⟩
  rw [← hy]
  have y1 : y = { s with
      run := { s.run with state := .aborting, abortCause := .fault, awaited := [], lookahead := .none }
      mixer := { s.mixer with timers := Vector.replicate 8 0, handed := [] }, iru := x.iru } := by
    rw [hy, hx]
    unfold discardPending onMixer onRun setRun setMixer
    dsimp only
    rw [h7, h8]
    rfl
  rw [if_pos (by rw [y1]; exact h6)]
  unfold abortEnd
  rw [show y.run.abortCause = .fault by rw [y1]]
  simp only
  rw [if_neg (by decide), if_pos trivial]
  unfold endRun
  simp only
  have b1 : y.releaseAll = y := by
    unfold releaseAll
    refine forTransports_none (fun n => ?_) _
    rw [if_neg (by rw [y1]; exact h3 n)]
  have b2 : ∀ p, y.releasePlace p = y := by
    intro p
    unfold releasePlace leavePlace
    cases p
    · rw [show y.et = s.et by rw [y1], h1]
    · rw [show y.et = s.et by rw [y1], h2]
  have b3 : y.releaseMixer = y := by
    unfold releaseMixer
    rw [if_neg (by rw [y1]; exact h5)]
  rw [b1, b2, b2, b3, runEnter_ready (by rw [y1]; exact hc) (by rw [y1]; exact hh) _ (by rw [y1]; show RunState.aborting ≠ _; decide)]
  refine ⟨_, by rw [y1]; rfl, ?_⟩
  rw [Iru.isPending_follow, if_pos rfl]
  rfl

end State

end Sys2Proof.Machine
end

