-- ==== Sys2Proof/Laws/Takes.lean ====
section
/-! SUPPORT. What a refusal and a take are on a CONFIGURED part, field by field (01 R11, R17, R18). -/

namespace Sys2Proof.Machine

set_option Elab.async false

namespace State

variable {s : State}

theorem raiseFree_configured (hc : s.configured = true) (i : Irq) : s.raiseFree i = s.setIru (s.iru.raise i) := if_pos hc

theorem followFree_configured (hc : s.configured = true) (i : Irq) (b : Bool) :
    s.followFree i b = s.setIru (s.iru.follow i b) := if_pos hc

/-- A refusal: the record, ACCESS raised, a bus fault. -/
theorem refuse_configured (hc : s.configured = true) (reason : AccessReason) (a : Addr) (lanes : Strobes) (rmw : Bool) :
    s.refuse reason a lanes rmw =
      { s with
        ptu := { s.ptu with access := s.accessRecord reason a lanes rmw, bus := { s.ptu.bus with ending := .refused } }
        iru := s.iru.raise .access } := by
  have hc' : (s.setPtu { s.ptu with access := s.accessRecord reason a lanes rmw }).configured = true := hc
  exact congrArg (fun u => endCycle u .refused) (raiseFree_configured hc' .access)

/-- A refusal of an UNCONFIGURED part raises nothing. -/
theorem refuse_unconfigured (hc : s.configured = false) (reason : AccessReason) (a : Addr) (lanes : Strobes) (rmw : Bool) :
    s.refuse reason a lanes rmw =
      { s with
        ptu := { s.ptu with access := s.accessRecord reason a lanes rmw, bus := { s.ptu.bus with ending := .refused } } } := by
  have hc' : ¬(s.setPtu { s.ptu with access := s.accessRecord reason a lanes rmw }).configured = true := by
    show ¬s.configured = true
    rw [hc]
    simp
  exact congrArg (fun u => endCycle u .refused) (if_neg hc')

/-- A take completes: the header is kept and returned, the link change counts as seen, the DECK flag follows. -/
theorem completeTake_configured (hc : s.configured = true) (n : Transport) (w : Word) :
    s.completeTake n w =
      { s with
        ptu := { s.ptu with
          lastHeader := s.ptu.lastHeader.set n w, bus := { s.ptu.bus with ending := .answered, data := some w } }
        ctxs := s.ctxs.set n { s.ctx n with linkChange := false }
        iru := s.iru.follow (.deck n) ({ s.ctx n with linkChange := false } : Context).deckCondition } := by
  unfold completeTake deckFree
  simp only
  rw [followFree_configured (s := (s.setPtu { s.ptu with lastHeader := s.ptu.lastHeader.set n w }).setCtx n
    { (s.setPtu { s.ptu with lastHeader := s.ptu.lastHeader.set n w }).ctx n with linkChange := false }) hc]
  rw [ctx_setCtx, if_pos rfl]
  rfl

/-- An address inside the region whose offset is even is an address of a word. -/
theorem regionAddr_even {off : Nat} (h : off % 2 = 0) : wordAligned (s.regionAddr off) = true := by
  have add : ∀ b : Addr, b.getLsbD 0 = false → (b + BitVec.ofNat 24 off).getLsbD 0 = false := by
    intro b hb
    have ho : (BitVec.ofNat 24 off).getLsbD 0 = false := by
      rw [BitVec.getLsbD_ofNat, Nat.testBit_zero]
      simp [h]
    rw [BitVec.getLsbD_add (by omega), hb, ho]
    simp [BitVec.carry, Nat.mod_one]
  unfold wordAligned regionAddr regionBase
  rw [add]
  · rfl
  · split
    · rw [BitVec.getLsbD_shiftLeft]
      simp
    · rfl

/-- The take word at an overlay offset is the take word of its port. -/
theorem takeWordOf?_addr {off : Nat} {n : Transport} (h : takeWordOf? off = some n) : s.takeAddr n = s.regionAddr off := by
  unfold takeWordOf? at h
  split_ifs at h with hc
  have hk : ∀ k, Transport.ofNum? k = some n → k = n.num := by
    intro k hk
    match k with
    | 0 | 1 | 2 | 3 | 4 | 5 => cases hk; rfl
    | k + 6 => cases hk
  have ho : 0x2800 + 32 * n.num = off := by
    have := hk _ h
    omega
  unfold takeAddr regionAddr
  rw [ho]

/-- What the end of a held read leaves is read off a state that shares the fields it speaks of. -/
theorem HeldReadEnds.of {y : State} {half : Option Strobes} {w : Word} {v : Six (Option FifoEntry)}
    (h : y.HeldReadEnds n half w v t) (h1 : y.ptu.lastHeader = s.ptu.lastHeader) (h2 : y.ptu.access = s.ptu.access)
    (h3 : y.stamp = s.stamp) (h4 : y.cfg = s.cfg) (h5 : y.iru.levels = s.iru.levels) : s.HeldReadEnds n half w v t where
  hold := h.hold
  header := by rw [h.header, h1]
  data := h.data
  view := h.view
  plain e := by rw [← h2]; exact h.plain e
  refused lanes e := by
    obtain ⟨a, b, c⟩ := h.refused lanes e
    refine ⟨a, ?_, fun hl => c ?_⟩
    · rw [b]; unfold accessRecord takeAddr regionBase; rw [h2, h3, h4]
    · unfold Iru.level at *; rwa [h5]

/-- A held read completes: the header answered and kept, the link change seen, and then the refusal of a write half. -/
theorem completeHold_ends (hc : s.configured = true) (left : Nat) (half : Option Strobes) (w : Word) :
    s.HeldReadEnds n half w s.ptu.view (s.completeHold ⟨n, left, half⟩ w) ∧
    (s.completeHold ⟨n, left, half⟩ w).ctxs = s.ctxs.set n { s.ctx n with linkChange := false } ∧
    (half = none → (s.completeHold ⟨n, left, half⟩ w).iru =
      s.iru.follow (.deck n) ({ s.ctx n with linkChange := false } : Context).deckCondition) ∧
    s.completeHold ⟨n, left, half⟩ w =
      { s with
        ptu := (s.completeHold ⟨n, left, half⟩ w).ptu, ctxs := (s.completeHold ⟨n, left, half⟩ w).ctxs
        iru := (s.completeHold ⟨n, left, half⟩ w).iru } := by
  unfold completeHold
  rw [completeTake_configured (by exact hc)]
  cases half with
  | none =>
    simp only [takeWriteHalf]
    exact ⟨⟨rfl, rfl, rfl, rfl, fun _ => ⟨rfl, rfl⟩, fun _ h => by cases h⟩, rfl, fun _ => rfl, rfl⟩
  | some lanes =>
    simp only [takeWriteHalf]
    rw [refuse_configured (by exact hc)]
    refine ⟨⟨rfl, rfl, rfl, rfl, fun h => (by cases h), fun _ h => ?_⟩, rfl, fun h => (by cases h), rfl⟩
    cases h
    refine ⟨rfl, rfl, fun hl => ?_⟩
    refine (Iru.isPending_raise _ _ _).trans (if_pos ⟨rfl, ?_⟩)
    unfold Iru.level at *
    exact hl

end State

end Sys2Proof.Machine
end

