-- ==== Sys2Proof/Tests/Slice0.lean ====
section
/-! SUPPORT. Tests: ill-formed commands that the check refuses, single steps on small states, and for every obligation with
hypotheses a state that meets all of them together. -/

namespace Sys2Proof.Tests

open Sys2Proof.Machine

/-! ## States the tests start from -/

/-- A setup record: region at 0x004000, 25 frames, vector base 0x40, no hold, coast limit 25, FRAME allowed. -/
def record : Setup := ⟨1, .std25, 0x40, 0, 25, false, true⟩

/-- The part after a first take of `record`, with every link UP. -/
def base : State :=
  { State.reset with
    cfg := { State.reset.cfg with setup := some record }
    links := .replicate { Link.reset with state := .up } }

/-- `base` with a hold limit. -/
def holding : State := { base with cfg := { base.cfg with setup := some { record with holdLimit := 10 } } }

theorem ready_of {s : State} {u : Setup} (hs : s.cfg.setup = some u) (hu : u.Legal s.cfg.straps) (hh : s.ptu.hold = none)
    (h1 : WordMap.wf s.cfg.latches = true) (h2 : WordMap.wf s.cfg.setupLatches = true)
    (h3 : WordMap.wf s.cfg.eventWords = true) : s.Ready := by
  refine ⟨by unfold State.configured; rw [hs]; rfl, hh, ⟨h1, h2, h3, fun v h => ?_⟩⟩
  rw [hs] at h
  cases h
  exact hu

theorem legal_record : record.Legal 0 := ⟨by decide, by decide, by decide⟩

/-- A state whose setup and maps are those of `base` is ready. -/
theorem ready_base {s : State} (hc : s.cfg = base.cfg) (hh : s.ptu.hold = none) : s.Ready :=
  ready_of (u := record) (by rw [hc]; rfl) (by rw [hc]; exact legal_record) hh (by rw [hc]; rfl) (by rw [hc]; rfl) (by rw [hc]; rfl)

theorem ready_holding : holding.Ready := ready_of rfl ⟨by decide, by decide, by decide⟩ rfl rfl rfl rfl

/-! ## Ill-formed commands (WellFormed) -/

theorem test_wf_refuses_level_0 : Instr.wf (.acknowledgeCycle ⟨0xFFFFF0, .both, .completes⟩) = false := by decide

theorem test_wf_refuses_an_odd_acknowledge : Instr.wf (.acknowledgeCycle ⟨0xFFFFF3, .lower, .completes⟩) = false := by decide

theorem test_wf_refuses_an_odd_store : Instr.wf (.watchedWordStore 0x5001 .both 0 .completes) = false := by decide

theorem test_wf_refuses_an_odd_rmw : Instr.wf (.readModifyWrite 0x5001 .both 0 .completes .completes) = false := by decide

theorem test_wf_refuses_offsets_below_the_overlay : Instr.wf (.overlayStore 0x1FFE .both ⟨0, .completes⟩) = false := by decide

theorem test_wf_refuses_offsets_above_the_overlay : Instr.wf (.overlayStore 0x28C0 .both ⟨0, .completes⟩) = false := by decide

theorem test_wf_refuses_word_0_as_an_event_word : Instr.wf (.eventWordStore 0 0 .both 0 .completes) = false := by decide

theorem test_wf_refuses_an_empty_reply : Instr.wf (.deckReply .t0 []) = false := by decide

theorem test_wf_refuses_a_named_command_as_reserved : Instr.wf (.reservedCommand .run 8 0) = false := by decide

theorem test_wf_takes_the_bounds : Instr.wf (.overlayStore 0x2000 .both ⟨0, .completes⟩) = true ∧ Instr.wf (.overlayStore 0x28BE .both ⟨0, .completes⟩) = true ∧
    Instr.wf (.reservedCommand (.transport .t0) 12 0) = true ∧ Instr.wf (.reservedCommand (.chase .t0) 4 0) = true ∧
    Instr.wf (.reservedCommand .run 9 0) = true ∧ Instr.wf (.reservedCommand .switcher 0 0) = true := by decide

/-! ## The queue and the whole part -/

theorem test_no_word_spells_a_command : decodeTableWord 16 0 = none := by decide

theorem test_a_queue_with_a_front :
    ({ base with pending := [.framePulse, .fieldPulse] } : State).pending = .framePulse :: [.fieldPulse] := by rfl

theorem test_empty_queues : State.reset.pending = [] ∧ State.reset.configured = false ∧ base.pending = [] ∧ base.due = none ∧
    (base.onRtu ({ · with phase := 64, field2Made := true })).due = some .frameBoundary := by decide

/-- `base` meets the invariant. -/
theorem test_a_sound_state : base.Sound := by
  refine ⟨(ready_base rfl rfl).cfg, ?_, ?_, ?_, ?_, ?_⟩
  · exact Iru.reset_sound
  · intro n; cases n <;> decide
  · intro n; cases n <;> decide
  · intro n _; cases n <;> decide
  · intro _; decide

theorem test_balanced_books : base.Balanced .t0 ∧ (base.onCtx .t5 ({ · with taken := 2, cancelled := 2 })).Balanced .t5 := ⟨by rfl, by rfl⟩

/-! ## The bus -/

/-- The state that a command answers. -/
def after (i : Instr) (s : State) : State := match exec i s with | .next t => t | _ => s

theorem test_the_map_at_its_bounds :
    base.classify 0xFFFFC0 = .setup 0 ∧ base.classify 0xFFFFDE = .setup 15 ∧ base.classify 0xFFFFE0 = .pass ∧
    base.classify (base.regionAddr 0) = .event 0 0 ∧ base.classify (base.regionAddr 0xFFE) = .event 63 31 ∧
    base.classify (base.regionAddr 0x1000) = .watched (.transport .t0 0) ∧
    base.classify (base.regionAddr 0x10BE) = .watched (.transport .t5 15) ∧ base.classify (base.regionAddr 0x10C0) = .pass ∧
    base.classify (base.regionAddr 0x10FE) = .pass ∧ base.classify (base.regionAddr 0x1100) = .watched (.chase .t0 0) ∧
    base.classify (base.regionAddr 0x11BE) = .watched (.chase .t5 15) ∧ base.classify (base.regionAddr 0x11C0) = .pass ∧
    base.classify (base.regionAddr 0x1200) = .watched (.run 0) ∧ base.classify (base.regionAddr 0x123E) = .watched (.switcher 15) ∧
    base.classify (base.regionAddr 0x124E) = .watched (.crosspoint 7) ∧ base.classify (base.regionAddr 0x1250) = .pass ∧
    base.classify (base.regionAddr 0x125E) = .pass ∧ base.classify (base.regionAddr 0x127E) = .watched (.level 15) ∧
    base.classify (base.regionAddr 0x1280) = .watched .service ∧ base.classify (base.regionAddr 0x1282) = .pass ∧
    base.classify (base.regionAddr 0x1FFE) = .pass ∧ base.classify (base.regionAddr 0x2000) = .overlay 0x2000 ∧
    base.classify (base.regionAddr 0x28BE) = .overlay 0x28BE ∧ base.classify (base.regionAddr 0x28C0) = .pass ∧
    base.classify (base.regionAddr 0x3FFE) = .pass := by decide

theorem test_configured_part_with_a_sound_map : base.configured = true ∧ base.cfg.Sound := ⟨by decide, (ready_base rfl rfl).cfg⟩

theorem test_stores_of_each_class : wordAligned 0x8000 = true ∧ base.ptu.hold = none ∧ base.classify 0x8000 = .pass ∧
    wordAligned 0x5200 = true ∧ base.classify 0x5200 = .watched (.run 0) ∧ (Watched.run 0).table = false ∧
    (Watched.run 0).quiet = true ∧ wordAligned 0x5280 = true ∧ base.classify 0x5280 = .watched .service ∧
    Watched.service.table = false ∧ wordAligned 0x521E = true ∧ base.classify 0x521E = .watched (.run 15) ∧
    base.classify 0xFFFFC0 = .setup 0 ∧ base.classify 0xFFFFDE = .setup 15 := by decide

theorem test_a_canonical_latch_map : WordMap.wf [(0x1200, 5)] = true := by decide

theorem test_overlay_bounds : base.Ready ∧ 0x2000 ≤ (0x2000 : BitVec 14).toNat ∧ (0x28BF : BitVec 14).toNat < 0x28C0 :=
  ⟨ready_base rfl rfl, by decide, by decide⟩

/-- The two ways the read half of a read-modify-write on the overlay goes: at once, and held on an empty port. -/
theorem test_overlay_read_halves : holding.Ready ∧
    (after (.readModifyWrite (holding.regionAddr 0x2000) .both 0 .completes .completes) holding).ptu.hold = none ∧
    (after (.readModifyWrite (holding.regionAddr 0x2800) .both 0 .completes .completes) holding).ptu.hold =
      some ⟨.t0, 10 * Config.holdUnits, some .both⟩ := ⟨ready_holding, by decide, by decide⟩

/-- Read-modify-writes of every class: plain, slot, table, service-done, event and setup words. -/
theorem test_words_to_modify : base.ptu.hold = none ∧ wordAligned 0x8000 = true ∧ base.classify 0x8000 = .pass ∧
    WordMap.wf base.cfg.latches = true ∧ base.classify 0x500E = .watched (.transport .t0 7) ∧
    (Watched.transport .t0 7).slot = true ∧ base.classify 0x5240 = .watched (.crosspoint 0) ∧
    base.classify 0x527E = .watched (.level Irq.gpi.num) ∧ base.classify 0x5280 = .watched .service ∧ base.iru.stack = [] ∧
    base.configured = true ∧ base.classify 0x4FFE = .event 63 31 ∧ base.et.states[(63 : Fin 64)] ≠ .armed ∧
    base.classify 0xFFFFC0 = .setup 0 ∧ base.classify 0xFFFFDE = .setup 15 ∧
    base.checkSetup = .ok ⟨0, .std25, 0, 0, 25, false, false⟩ ∧
    (base.setCfg { base.cfg with setupLatches := [(1, 3)] }).checkSetup = .error .setupStandard ∧
    WordMap.wf base.cfg.setupLatches = true := by decide

/-- A go word and a take word, a command that carries its record, and a word that hands nothing over. -/
theorem test_records_to_hand_over : base.Ready ∧ base.classify 0x500E = .watched (.transport .t0 7) ∧
    base.classify 0x501E = .watched (.transport .t0 15) ∧ (Watched.transport .t0 15).slot = true ∧
    recordOf? (.clearErrors .t0 9) = some ([(.transport .t0 0, 10), (.transport .t0 1, 9), (.transport .t0 7, 0)], .transport .t0 7) ∧
    (Watched.run 0).quiet = true := ⟨ready_base rfl rfl, by decide⟩

theorem test_events_that_take_stores : base.Ready ∧ (1 : Fin 32) ≠ 0 ∧ (31 : Fin 32) ≠ 0 ∧
    base.et.states[(0 : Fin 64)] ≠ .armed ∧ base.et.states[(63 : Fin 64)] ≠ .armed := ⟨ready_base rfl rfl, by decide⟩

/-- `base` with an armed event. -/
def armedBase (e : Fin 64) : State := { base with et := { base.et with states := base.et.states.set e .armed } }

theorem test_armed_events : (armedBase 0).Ready ∧ (armedBase 0).et.states[(0 : Fin 64)] = .armed ∧
    (armedBase 63).Ready ∧ (armedBase 63).et.states[(63 : Fin 64)] = .armed :=
  ⟨ready_base rfl rfl, by decide, ready_base rfl rfl, by decide⟩

theorem test_kind_word_stores : (after (.kindWordStore 5 .both 1 .completes) base).et.states[(5 : Fin 64)] = .loaded ∧
    (after (.kindWordStore 5 .lower 1 .completes) base).et.states[(5 : Fin 64)] = .draft ∧
    (after (.kindWordStore 5 .both 2 .completes) base).et.states[(5 : Fin 64)] = .draft ∧
    (after (.kindWordStore 5 .both 0 .completes) base).et.states[(5 : Fin 64)] = .empty := by decide

/-- UNCONFIGURED, with a record stored in the setup latches. -/
def stored (m : WordMap) : State := { State.reset with cfg := { State.reset.cfg with setupLatches := m } }

theorem test_first_takes : (stored [(0, 1)]).configured = false ∧ (stored [(0, 1)]).ptu.hold = none ∧
    WordMap.wf (stored [(0, 1)]).cfg.setupLatches = true ∧
    Standard.ofCode? (((stored [(0, 1)]).cfg.setupLatches.read 1).toNat % 4) = some .std25 ∧
    highBits (setupAddr (stored [(0, 1)]).cfg.straps) ≠ ((stored [(0, 1)]).cfg.setupLatches.read 0).setWidth 10 ∧
    Standard.ofCode? (((stored [(0, 1), (1, 2)]).cfg.setupLatches.read 1).toNat % 4) = some .std30d := by decide

theorem test_takes_that_fail : (stored [(1, 3)]).ptu.hold = none ∧
    ((stored [(1, 3)]).cfg.setupLatches.read 1).toNat % 4 = 3 ∧
    ¬((stored [(0, 0x3FF)]).cfg.setupLatches.read 1).toNat % 4 = 3 ∧
    highBits (setupAddr (stored [(0, 0x3FF)]).cfg.straps) = ((stored [(0, 0x3FF)]).cfg.setupLatches.read 0).setWidth 10 ∧
    base.ptu.hold = none ∧ ¬(base.cfg.setupLatches.read 1).toNat % 4 = 3 ∧
    ¬highBits (setupAddr base.cfg.straps) = (base.cfg.setupLatches.read 0).setWidth 10 ∧
    (base.onRun ({ · with state := .faulted })).configured = true ∧ (base.onRun ({ · with state := .faulted })).run.state ≠ .idle ∧
    base.run.state = .idle ∧ ((base.onChase .t5 ({ · with state := .fault })).chase .t5).state ≠ .idle := by decide

theorem test_a_retake : base.Ready ∧ base.run.state = .idle ∧ (∀ n, (base.chase n).state = .idle) ∧
    base.requestedSetup = some ⟨0, .std25, 0, 0, 25, false, false⟩ ∧ highBits (setupAddr base.cfg.straps) ≠ 0 ∧
    base.standard = .std25 := ⟨ready_base rfl rfl, by decide, fun n => by cases n <;> decide, by decide, by decide, by decide⟩

/-- `base` with a record of another standard stored, its reference LOCKED at a phase. -/
def restandarding (phase : Nat) : State :=
  (base.setCfg { base.cfg with setupLatches := [(0, 2), (1, 1)] }).onRtu ({ · with state := .locked, phase })

theorem test_retakes_with_another_standard : (restandarding 63).Ready ∧
    (restandarding 63).requestedSetup = some ⟨2, .std30n, 0, 0, 25, false, false⟩ ∧
    highBits (setupAddr (restandarding 63).cfg.straps) ≠ 2 ∧ (restandarding 63).standard ≠ .std30n ∧
    ¬64 ≤ (restandarding 63).rtu.phase ∧ (restandarding 64).rtu.state = .locked ∧ 64 ≤ (restandarding 64).rtu.phase ∧
    (∀ n, ((restandarding 63).chase n).state = .idle) :=
  ⟨ready_of rfl legal_record rfl rfl rfl rfl, by decide, by decide, by decide, by decide, by decide, by decide,
    fun n => by cases n <;> decide⟩

theorem test_a_retake_of_a_late_frame : (after (.setupTake 0 .completes) (restandarding 64)).rtu.frames = 1 ∧
    (after (.setupTake 0 .completes) (restandarding 64)).rtu.state = .acquiring ∧
    (after (.setupTake 0 .completes) (restandarding 63)).rtu.phase = 63 := by decide +kernel

/-- An entry of a reply FIFO. -/
def entry : FifoEntry := ⟨some 7, .reply, some .halt, some .ack, false, some 3, [], 0⟩

theorem test_takes_answered_at_once : (base.onCtx .t5 ({ · with fifo := [entry] })).Ready ∧
    ((base.onCtx .t5 ({ · with fifo := [entry] })).ctx .t5).fifo = entry :: [] ∧ (base.ctx .t0).fifo = [] ∧
    base.cfg.setup = some record ∧ record.holdLimit = 0 ∧
    (holding.setIru { holding.iru with request := 1 }).Ready ∧
    holding.iru.top < (holding.setIru { holding.iru with request := 1 }).iru.request :=
  ⟨ready_base rfl rfl, by decide, by decide, by decide, by decide, ready_of rfl ⟨by decide, by decide, by decide⟩ rfl rfl rfl rfl, by decide⟩

theorem test_a_take_that_is_held : holding.Ready ∧ holding.cfg.setup = some { record with holdLimit := 10 } ∧
    (holding.ctx .t0).fifo = [] ∧ ¬holding.iru.top < holding.iru.request := ⟨ready_holding, by decide, by decide, by decide⟩

/-- `holding` with a read held on T0's port, and FRAME at level 1. -/
def held : State :=
  { holding with
    ptu := { holding.ptu with hold := some ⟨.t0, 7680, none⟩ }
    iru := { holding.iru with levels := holding.iru.levels.set 0 1 } }

/-- The same, the read half of a read-modify-write. -/
def heldModify : State := { held with ptu := { held.ptu with hold := some ⟨.t0, 7680, some .both⟩ } }

theorem test_a_held_modify : heldModify.configured = true ∧ heldModify.ptu.hold = some ⟨.t0, 7680, some .both⟩ ∧
    heldModify.iru.top < (heldModify.iru.raise .frame).request ∧ (heldModify.ctx .t0).fifo = [] ∧
    (heldModify.link .t0).receiver = .hunt ∧ (heldModify.ctx .t0).owner ≠ .run ∧
    Instr.isCycle (.take ⟨.t1, .completes⟩) = true := by decide

theorem test_a_held_modify_is_refused : (after .holdTimeout heldModify).ptu.bus.ending = .refused ∧
    (after .holdTimeout heldModify).ptu.lastHeader.get .t0 = wordOf ExitCause.timeout.code := by decide

theorem test_a_held_read : held.configured = true ∧ held.ptu.hold = some ⟨.t0, 7680, none⟩ ∧
    held.iru.top < (held.iru.raise .frame).request := by decide

/-! ## Interrupts -/

/-- `base` with FRAME pending and requested at level 1, and level 7 driven with nothing pending there. -/
def requesting : State :=
  base.setIru
    { base.iru with
      levels := base.iru.levels.set 0 1, pending := base.iru.pending.set 0 true, request := 1
      driven := (base.iru.driven.set 1 true).set 7 true }

theorem test_acknowledges : requesting.Ready ∧ requesting.cfg.setup = some record ∧
    requesting.iru.driven[(1 : Level)] = true ∧ requesting.iru.isPending .frame = true ∧
    requesting.iru.level .frame = (1 : Level) ∧ (∀ j : Irq, ¬j.num < Irq.frame.num) ∧
    requesting.iru.driven[(7 : Level)] = true ∧ requesting.iru.level .frame ≠ (7 : Level) ∧
    requesting.iru.driven[(2 : Level)] = false :=
  ⟨ready_base rfl rfl, by decide, by decide, by decide, by decide, fun j h => absurd h (by simp [Irq.num]), by decide, by decide, by decide⟩

theorem test_nothing_else_is_pending_there : ∀ i : Irq, requesting.iru.isPending i = true → requesting.iru.level i ≠ (7 : Level) := by
  intro i
  cases i with
  | deck n => cases n <;> decide
  | _ => decide

theorem test_acknowledge_levels : (((0xFFFFF2 : Addr).extractLsb' 1 3).toFin : Level) = 1 ∧
    (((0xFFFFFE : Addr).extractLsb' 1 3).toFin : Level) = 7 ∧ wordAligned 0xFFFFF2 = true ∧ State.reset.configured = false := by decide

theorem test_a_released_acknowledge_is_forwarded :
    (after (.acknowledgeCycle ⟨0xFFFFF4, .upper, .faults⟩) requesting).ptu.bus = ⟨.memFault, none, [⟨0xFFFFF4, false, .upper, 0⟩]⟩ := by
  decide

theorem test_an_answer_is_the_base_plus_the_source :
    (after (.acknowledgeCycle ⟨0xFFFFF2, .both, .completes⟩) requesting).ptu.bus.data = some 0x40 ∧ (after (.acknowledgeCycle ⟨0xFFFFFE, .lower, .faults⟩) requesting).ptu.bus.data = some 0x50 ∧
    (after (.acknowledgeCycle ⟨0xFFFFF2, .both, .completes⟩) requesting).iru.stack = [(1, .frame)] := by decide

theorem test_service_stacks : (base.setIru { base.iru with stack := [(1, .frame)] }).Ready ∧
    (base.setIru { base.iru with stack := [(1, .frame)] }).iru.stack = (1, .frame) :: [] ∧ base.Ready ∧ base.iru.stack = [] :=
  ⟨ready_base rfl rfl, rfl, ready_base rfl rfl, rfl⟩

theorem test_a_pending_source_above_the_top : requesting.iru.isPending .frame = true ∧ requesting.iru.top < requesting.iru.level .frame := by
  decide

/-! ## Transport slots -/

/-- `base` with transport T0 owned. -/
def owned (o : Owner) : State := base.onCtx .t0 ({ · with owner := o })

/-- `base` with T0's command queue holding `k` entries. -/
def queued (k : Nat) : State := base.onLink .t0 ({ · with queue := List.replicate k (processorEntry .sense .none 0) })

theorem test_link_commands_to_queue : (queued 3).Ready ∧ LinkKind.halt.argument? base.standard 0 0 = some .none ∧
    LinkKind.locate.argument? base.standard 0x0100 0 = some (.label ⟨1, 0, 0, 0⟩) ∧
    LinkKind.arm.argument? base.standard 0xF 0 = some (.mask 0xF) ∧
    LinkKind.standby.argument? base.standard 1 0 = some (.setting true) ∧ ((queued 3).link .t0).state = .up ∧
    ((queued 3).link .t0).queue.length < 4 ∧ ((queued 3).ctx .t0).owner = .free ∧ (owned .chase).Ready ∧
    ((owned .chase).ctx .t0).owner = .chase ∧ (owned .run).Ready ∧ ((owned .run).link .t0).state = .up :=
  ⟨ready_base rfl rfl, by decide, by decide, by decide, by decide, by decide, by decide, by decide, ready_base rfl rfl, by decide,
    ready_base rfl rfl, by decide⟩

theorem test_a_sense_moves_nothing : ¬LinkKind.sense.moves ∧ LinkKind.locate.moves := by
  constructor
  · rintro (h | h | h | h) <;> cases h
  · exact .inr (.inr (.inr rfl))

theorem test_link_commands_to_turn_away : LinkKind.standby.argument? base.standard 2 0 = none ∧
    LinkKind.speed.argument? base.standard 0x8000 0 = none ∧ LinkKind.arm.argument? base.standard 0xFFF0 0 = none ∧
    LinkKind.locate.argument? base.standard 0x1800 0 = none ∧
    ((base.onLink .t0 ({ · with state := .failed })).link .t0).state ≠ .up ∧ ((owned .run).ctx .t0).owner = .run ∧
    (queued 4).Ready ∧ 4 ≤ ((queued 4).link .t0).queue.length ∧ ((queued 4).ctx .t0).owner = .free :=
  ⟨by decide, by decide, by decide, by decide, by decide, by decide, ready_base rfl rfl, by decide, by decide⟩

/-- `base` with T0 chasing T1 for the processor. -/
def chasing (st : ChaseState) : State := (owned .chase).onChase .t0 ({ · with state := st, master := .transport .t1 })

theorem test_motion_on_a_chase : (chasing .locked).Ready ∧ ((chasing .locked).link .t0).state = .up ∧
    ((chasing .locked).link .t0).queue.length < 4 ∧ ((chasing .locked).ctx .t0).owner = .chase ∧
    ((chasing .locked).chase .t0).state ≠ .idle ∧ ((chasing .locked).chase .t0).origin = .processor ∧
    LinkKind.speed.argument? (chasing .locked).standard 0x7FFF 0 = some (.speed 32767) :=
  ⟨ready_base rfl rfl, by decide⟩

theorem test_motion_on_a_chase_with_a_full_queue :
    ((chasing .hold).onLink .t0 ({ · with queue := List.replicate 4 (processorEntry .sense .none 0) })).Ready ∧
    4 ≤ (((chasing .hold).onLink .t0 ({ · with queue := List.replicate 4 (processorEntry .sense .none 0) })).link .t0).queue.length ∧
    LinkKind.halt ≠ .speed := ⟨ready_base rfl rfl, by decide, by decide⟩

theorem test_a_speed_on_a_free_transport : base.Ready ∧ (0x8001 : Word) ≠ 0x8000 ∧ (base.link .t0).state = .up ∧
    (base.ctx .t0).owner = .free := ⟨ready_base rfl rfl, by decide⟩

theorem test_a_ready_part : base.Ready := ready_base rfl rfl

theorem test_deck_resets : (owned .run).Ready ∧ ((owned .run).ctx .t0).owner = .run ∧ base.Ready ∧ (base.ctx .t0).owner = .free ∧
    base.run.state = .idle ∧ (base.chase .t0).computes = false ∧ (chasing .fault).Ready ∧ ((chasing .fault).ctx .t0).owner = .chase ∧
    ((chasing .fault).chase .t0).state ≠ .idle ∧ ((chasing .fault).chase .t0).origin = .processor :=
  ⟨ready_base rfl rfl, by decide, ready_base rfl rfl, by decide, by decide, by decide, ready_base rfl rfl, by decide⟩

theorem test_a_deck_reset_breaks : ((after (.deckReset .t0 9) base).link .t0).breakLeft = some 4800000 ∧
    ((after (.deckReset .t0 9) base).link .t0).state = .unprobed ∧ ((after (.deckReset .t0 9) base).ctx .t0).mode = .unknown := by decide

theorem test_parameters_are_clamped : ((after (.parameterTake .t2 1 16 0xFFFF 0) base).ctx .t2).latency = 15 ∧
    ((after (.parameterTake .t2 1 16 0xFFFF 0) base).ctx .t2).tolerance = 15 ∧
    ((after (.parameterTake .t2 1 16 0xFFFF 0) base).ctx .t2).replyTimeout = 2 ∧
    ((after (.parameterTake .t2 1 16 0xFFFF 41) base).ctx .t2).replyTimeout = 40 := by decide

/-! ## Chase slots -/

/-- The parameter words of the defaults of 06 R108. -/
def defaults : ParamWords := ⟨0x3004, 102, 0x2010, 0x0A10, 150, 16384, 50⟩

/-- A CHASE_START of T0 on T1 with an offset of −1 hour. -/
def startArgs : ChaseArgs := ⟨1, 1, 0x0100, 0, defaults⟩

theorem test_default_parameters : ChaseParams.ofWords defaults = .default := by decide

theorem test_a_chase_start : base.Ready ∧ (base.link .t0).state = .up ∧ (base.ctx .t0).owner ≠ .run ∧
    Master.ofWord? startArgs.master = some (.transport .t1) ∧ (Transport.t1 ≠ Transport.t0) ∧ base.walkReaches .t0 .t1 7 = false ∧
    startArgs.sign = 1 ∧ (Label.ofWords startArgs.labelHi startArgs.labelLo).legal base.standard = true ∧
    Master.ofWord? 0x0100 = some .suiteClock := ⟨ready_base rfl rfl, by decide⟩

/-- `base` with T1 chasing T0. -/
def chased : State := base.onChase .t1 ({ · with state := .locked, master := .transport .t0 })

theorem test_chase_starts_to_turn_away : chased.walkReaches .t0 .t1 7 = true ∧ Master.ofWord? 6 = none ∧
    Master.ofWord? 0x0200 = some .editClock ∧ ((base.onLink .t0 ({ · with state := .unprobed })).link .t0).state ≠ .up ∧
    ((owned .run).ctx .t0).owner = .run := by decide

theorem test_chase_stops : base.Ready ∧ (base.chase .t0).state = .idle ∧
    ((base.onChase .t0 ({ · with state := .locked, origin := .run })).chase .t0).origin = .run ∧
    (chasing .locked).Ready ∧ ((chasing .locked).chase .t0).state ≠ .idle ∧ ((chasing .locked).chase .t0).origin = .processor ∧
    ((chasing .locked).ctx .t0).owner ≠ .run ∧ ((chasing .locked).link .t0).queue.length < 4 ∧
    4 ≤ (((chasing .locked).onLink .t0 ({ · with queue := List.replicate 4 (processorEntry .sense .none 0) })).link .t0).queue.length ∧
    (((chasing .locked).onLink .t0 ({ · with state := .failed })).link .t0).state ≠ .up :=
  ⟨ready_base rfl rfl, by decide, by decide, ready_base rfl rfl, by decide⟩

/-! ## The switcher slot -/

/-- `base` with the mixer owned. -/
def mixing (o : MixOwner) : State := base.onMixer ({ · with owner := o })

theorem test_mixer_sets : base.Ready ∧ MixSource.ofCode? (0 : Word).toNat = some (.deck .t0) ∧
    MixSource.ofCode? (7 : Word).toNat = some .matte ∧ (1023 : Word).toNat ≤ 1023 ∧ (63 : Word).toNat ≤ 63 ∧
    base.mixer.owner = .free ∧ (mixing .run).mixer.owner = .run ∧ (mixing .processor).mixer.owner = .processor ∧
    ¬(8 : Word).toNat < 8 := ⟨ready_base rfl rfl, by decide⟩

theorem test_auto_transitions : base.Ready ∧ ((2 : Word) = 2 ∨ (2 : Word) = 3) ∧ 1 ≤ (1 : Word).toNat ∧ (999 : Word).toNat ≤ 999 ∧
    ¬((1 : Word) = 2 ∨ (1 : Word) = 3) := ⟨ready_base rfl rfl, by decide⟩

theorem test_gpi_pulses : base.Ready ∧ 1 ≤ (1 : Word).toNat ∧ (15 : Word).toNat ≤ 15 ∧ 8 ≤ (8 : Word).toNat ∧ (0 : Word).toNat = 0 ∧
    15 < (16 : Word).toNat := ⟨ready_base rfl rfl, by decide⟩

theorem test_reserved_commands : base.Ready ∧ 11 < (12 : Word).toNat ∧ (0 : Word).toNat = 0 ∧ 3 < (4 : Word).toNat ∧
    8 < (9 : Word).toNat := ⟨ready_base rfl rfl, by decide⟩

/-! ## The run control slot -/

/-- The words of event 0: T0 records V from BLACK at 01:00:00:00, 100 frames after a preroll of 50, with no transition. -/
def eventWords : WordMap :=
  [(0, 1), (6, 0x0001), (8, 0x0608), (10, 0x0100), (22, 100), (24, 50), (34, 0xFFFF)]

/-- `base` with event 0 stored and LOADED. -/
def loaded : State :=
  { base with
    cfg := { base.cfg with eventWords }, et := { base.et with states := base.et.states.set 0 .loaded } }

theorem ready_loaded {s : State} (hc : s.cfg = loaded.cfg) (hh : s.ptu.hold = none) : s.Ready :=
  ready_of (u := record) (by rw [hc]; rfl) (by rw [hc]; exact legal_record) hh (by rw [hc]; rfl) (by rw [hc]; rfl) (by rw [hc]; decide)

/-- What the checks of event 0 answer. -/
def codes : EventCodes := ⟨.none, .linear, .t0, .black, none, none, []⟩

theorem atRest_of {s : State} (h1 : s.run = Run.reset) (h2 : s.et.current = none) (h3 : s.et.lookahead = none)
    (h4 : s.ctxs = .replicate .reset) (h5 : s.chases = State.reset.chases) (h6 : s.mixer.owner ≠ .run) : s.AtRest := by
  refine ⟨by rw [h1]; rfl, h2, h3, fun n => ?_, fun n => .inl ?_, h6, fun n => ?_⟩
  · unfold State.ctx; rw [h4]; cases n <;> decide
  · unfold State.chase; rw [h5]; cases n <;> decide
  · rw [h1]; cases n <;> decide

theorem test_a_start_run : loaded.Ready ∧ loaded.AtRest ∧ loaded.cfg.setup = some record ∧ (0 : Word).toNat = (0 : Fin 64).val ∧
    loaded.et.states[(0 : Fin 64)] = .loaded ∧
    (loaded.fieldsOf 0).check loaded.standard (marginOf 0) (fun n => (loaded.ctx n).latency) = .ok codes ∧
    (∀ n, ((loaded.fieldsOf 0).armed codes 0 .current loaded.standard (marginOf 0) (loaded.ctx codes.recorder).latency).names n = true →
      (loaded.link n).state = .up ∧ (loaded.link n).queue.length < 4) := by
  refine ⟨ready_loaded rfl rfl, atRest_of rfl rfl rfl rfl rfl (by decide), rfl, rfl, by decide, by decide, ?_⟩
  intro n _
  cases n <;> decide

theorem test_start_runs_refused : base.Ready ∧ base.AtRest ∧ base.et.states[(0 : Fin 64)] = .empty ∧
    ({ loaded with cfg := base.cfg } : State).Ready ∧ ({ loaded with cfg := base.cfg } : State).et.states[(0 : Fin 64)] = .loaded ∧
    (({ loaded with cfg := base.cfg } : State).fieldsOf 0).check base.standard (marginOf 1) (fun n => (base.ctx n).latency) = .error .fieldRange :=
  ⟨ready_base rfl rfl, atRest_of rfl rfl rfl rfl rfl (by decide), by decide, ready_base rfl rfl, by decide, by decide⟩

/-- `base` with the run in a state. -/
def running (st : RunState) : State := base.onRun ({ · with state := st })

theorem test_run_commands_to_turn_away : 64 ≤ (64 : Word).toNat ∧ (63 : Word).toNat < 64 ∧ 2 ≤ (2 : Word).toNat ∧
    (running .cueing).run.state ≠ .idle ∧ (running .cueing).run.state ≠ .ready ∧ base.run.state = .idle ∧ base.run.state ≠ .faulted ∧
    (0xFFFF : Word) = 0xFFFF ∧ ¬(base.run.state.active = true ∧
      (base.run.lookahead = .notYet ∨ base.run.lookahead = .none) ∧ base.run.stopRequested = false) ∧
    (Label.ofWords 0x1800 0).legal base.standard = false := by decide

theorem test_run_commands_at_once : (running .ready).Ready ∧ (running .ready).run.state = .ready ∧
    (running .faulted).run.state = .faulted ∧ (63 : Word).toNat = (63 : Fin 64).val ∧ (running .edit).run.state.active = true ∧
    (running .edit).run.lookahead = .none ∧ (running .edit).run.stopRequested = false ∧
    (Label.ofWords 0x1703 0x3B18).legal base.standard = true := ⟨ready_base rfl rfl, by decide⟩

theorem test_stops_and_clears : (running .preroll).Ready ∧ (running .preroll).run.state.rolling = true ∧
    (running .preroll).run.stopRequested = false ∧ (running .preroll).et.lookahead = none ∧
    ((running .edit).onRun ({ · with stopRequested := true })).run.stopRequested = true ∧
    (running .aborting).run.state = .aborting ∧ (running .faulted).run.state = .faulted := ⟨ready_base rfl rfl, by decide⟩

theorem test_abort_requests : (running .cueing).Ready ∧ (running .cueing).run.state.active = true ∧
    ((running .ready).onCtx .t0 ({ · with owner := .run })).Ready ∧
    (((running .ready).onCtx .t0 ({ · with owner := .run })).ctx .t0).owner = .run ∧
    (((running .ready).onCtx .t0 ({ · with owner := .run })).link .t0).state = .up :=
  ⟨ready_base rfl rfl, by decide, ready_base rfl rfl, by decide⟩

theorem test_a_clear_all : (chasing .seek).Ready ∧ (chasing .seek).RunQuiet ∧ (∀ n, ((chasing .seek).ctx n).owner ≠ .run) ∧
    (∀ n, ((chasing .seek).ctx n).owner = .chase →
      ((chasing .seek).chase n).state ≠ .idle ∧ ((chasing .seek).chase n).origin = .processor) := by
  refine ⟨ready_base rfl rfl, .inl (by decide), fun n => by cases n <;> decide, fun n => by cases n <;> decide⟩

/-! ## The house reference and the boundaries -/

/-- `base` in a reference state with the phase counter, pulse timer, good-pulse run and disturbance run given. -/
def timed (st : RefState) (phase timer good disturbed : Nat) (owed : Bool) : State :=
  base.onRtu ({ · with state := st, phase, pulseTimer := timer, goodRun := good, disturbanceRun := disturbed, owed })

theorem test_frame_pulses : base.configured = true ∧ base.rtu.state = .absent ∧ (timed .free 0 0 0 0 false).rtu.state = .free ∧
    base.ptu.hold = none ∧ (timed .acquiring 0 63 6 0 false).rtu.state = .acquiring ∧
    63 ≤ (timed .acquiring 0 63 6 0 false).rtu.pulseTimer ∧ (timed .acquiring 0 65 6 0 false).rtu.pulseTimer ≤ 65 ∧
    (timed .acquiring 0 63 6 0 false).rtu.goodRun < 7 ∧ (timed .acquiring 0 62 6 0 false).rtu.pulseTimer < 63 ∧
    65 < (timed .acquiring 0 66 6 0 false).rtu.pulseTimer := by decide

theorem test_locking_and_disturbing : (timed .acquiring 0 65 7 0 false).configured = true ∧
    (timed .acquiring 0 65 7 0 false).ptu.hold = none ∧ (timed .acquiring 0 65 7 0 false).rtu.state = .acquiring ∧
    7 ≤ (timed .acquiring 0 65 7 0 false).rtu.goodRun ∧ (timed .acquiring 0 65 7 0 false).rtu.phase = 0 ∧
    (timed .acquiring 63 63 7 0 false).rtu.phase ≠ 0 ∧ (timed .locked 8 72 0 0 true).rtu.state = .locked ∧
    (timed .locked 8 72 0 0 true).rtu.owed = true ∧ (timed .locked 8 72 0 0 true).run.state = .idle ∧
    (timed .locked 62 62 0 1 false).rtu.pulseTimer < 63 ∧ (timed .locked 62 62 0 1 false).rtu.disturbanceRun < 2 ∧
    2 ≤ (timed .locked 62 62 0 2 false).rtu.disturbanceRun ∧ (timed .locked 63 62 0 2 false).rtu.phase < 64 := by decide

theorem test_every_cause_makes_a_boundary : (base.atBoundary .wrap).isSome = true ∧
    (∃ b, (timed .locked 64 64 0 0 false).atBoundary .generated = some b ∧ b.frameAllowed = true) ∧
    (∃ b, (timed .locked 63 63 0 0 false).atBoundary .pulse = some b ∧ b.rtu.pulseTimer = 0) ∧
    (∃ b, (timed .locked 64 62 0 2 false).atBoundary .pulse = some b ∧ b.rtu.state = .acquiring) ∧
    ∃ b, (timed .acquiring 1 63 7 0 false).atBoundary .pulse = some b ∧ b.rtu.state = .locked ∧ b.rtu.shortFrames = 1 :=
  ⟨by decide, ⟨_, rfl, rfl⟩, ⟨_, rfl, rfl⟩, ⟨_, rfl, by decide⟩, ⟨_, rfl, by decide⟩⟩

theorem test_frame_raised_at_its_level : ∃ b, (base.setIru { base.iru with levels := base.iru.levels.set 0 7 }).atBoundary .wrap = some b ∧
    b.frameAllowed = true ∧ b.iru.level .frame ≠ 0 := ⟨_, rfl, by decide, by decide⟩

theorem test_both_field_boundaries : (∃ b, (timed .absent 32 0 0 0 false).atField .point = some b) ∧
    (∃ b, (timed .locked 36 36 0 0 false).atField .point = some b) ∧ (∃ b, (timed .locked 28 28 0 0 false).atField .pulse = some b) ∧
    (∃ b, (timed .locked 36 36 0 0 false).atField .pulse = some b) ∧ (timed .locked 27 27 0 0 false).rtu.pulseTimer < 28 ∧
    36 < (timed .locked 37 37 0 0 false).rtu.pulseTimer ∧ base.rtu.state ≠ .locked :=
  ⟨⟨_, rfl⟩, ⟨_, rfl⟩, ⟨_, rfl⟩, ⟨_, rfl⟩, by decide, by decide, by decide⟩

theorem test_a_boundary_advances_the_counters : (after .frameBoundary base).rtu.frames = 1 ∧
    (after .frameBoundary base).rtu.clock = 1 ∧ (after .frameBoundary base).rtu.phase = 0 ∧
    (after .field2Boundary base).rtu.parity2 = true := by decide +kernel

/-! ## The readers -/

/-- `base` with T0's reader changed. -/
def reading (f : Reader → Reader) : State := base.setReader .t0 (f (base.reader .t0))

/-- The word of label 00:00:00:01 in order of arrival, tape running forward. -/
def wordOne : BitVec 80 := 0xBFFC0000000000000001#80

theorem test_words_by_label : orientWord wordOne = some (wordOne, .forward) ∧ badDigit wordOne = false ∧
    (readWord wordOne .forward).label.legal .std25 = true ∧ (readWord wordOne .forward).label.index .std25 = 1 ∧
    orientWord wordOne.reverse = some (wordOne, .reverse) ∧ badDigit 0xBFFC000000000000000A#80 = true ∧
    badDigit 0xBFFC0204000000000000#80 = false ∧ (readWord 0xBFFC0204000000000000#80 .forward).label.legal .std25 = false := by decide +kernel

theorem test_readers_for_words : base.configured = true ∧ base.ptu.hold = none ∧ (base.reader .t0).state = .silent ∧
    (reading ({ · with state := .acquiring, candidate := some ⟨0, .forward⟩ })).reader .t0 =
      { base.reader .t0 with state := .acquiring, candidate := some ⟨0, .forward⟩ } ∧
    1 = (0 + 1) % Standard.std25.day ∧ 1 = (2 + (Standard.std25.day - 1)) % Standard.std25.day ∧
    (wrap Standard.std25.day ((1 : Int) - (3 : Nat))).natAbs ≤ 2 + (0 : Int).natAbs / 512 ∧
    ¬(wrap Standard.std25.day ((1 : Int) - (4 : Nat))).natAbs ≤ 2 + (0 : Int).natAbs / 512 := by decide

theorem test_readers_at_a_boundary :
    (∃ b, (reading ({ · with state := .reading, quiet := 2, position := some 640 })).dropMarks.atBoundary .wrap = some b ∧
      (b.reader .t0).state = .reading ∧ 2 ≤ (b.reader .t0).quiet ∧ (b.reader .t0).position = some 640) ∧
    ∃ b, (reading ({ · with state := .coasting, quiet := 25 })).dropMarks.atBoundary .wrap = some b ∧
      (b.reader .t0).state = .coasting ∧ b.coastLimit < satSucc 255 (b.reader .t0).quiet :=
  ⟨⟨_, rfl, by decide⟩, ⟨_, rfl, by decide⟩⟩

/-! ## The deck links -/

/-- A HALT of the processor in flight, sent once or twice with sequence 14, its transmission at a phase. -/
def flying (sends : Nat) (phase : SendPhase) : InFlight := ⟨processorEntry .halt .none 7, some 14, sends, false, phase⟩

/-- A probe in flight, sent twice. -/
def probing : InFlight := ⟨probeEntry, some 0, 2, false, .sent⟩

/-- `base` with T0's link changed. -/
def linked (f : Link → Link) : State := base.onLink .t0 f

theorem test_links_with_timers :
    ((linked ({ · with tx := some ⟨[0xA5], 0⟩, inFlight := some (flying 1 .sending) })).link .t0).inFlight = some (flying 1 .sending) ∧
    ((linked ({ · with state := .unprobed, breakLeft := some 0 })).link .t0).breakLeft = some 0 ∧
    ((linked ({ · with state := .unprobed, breakLeft := some 0 })).link .t0).state ≠ .up ∧
    ((linked ({ · with state := .unprobed, breakLeft := some 0 })).link .t0).tx = none ∧
    ∃ b, (linked ({ · with state := .failed, probeInterval := 31 })).dropMarks.atBoundary .wrap = some b ∧
      (b.link .t0).state ≠ .up ∧ (b.link .t0).breakLeft = none ∧ (b.link .t0).inFlight = none ∧ (b.link .t0).tx = none ∧
      31 ≤ (b.link .t0).probeInterval := ⟨by decide, by decide, by decide, by decide, ⟨_, rfl, by decide⟩⟩

theorem test_frames_to_take :
    (linked ({ · with inFlight := some (flying 1 .sent) })).configured = true ∧
    ((linked ({ · with inFlight := some (flying 1 .sent) })).link .t0).receiver = .hunt ∧
    ((linked ({ · with inFlight := some (flying 1 .sent) })).ctx .t0).fifo.length < 3 ∧
    ((linked ({ · with inFlight := some (flying 1 .sent) })).link .t0).queue = [] ∧
    ((linked ({ · with inFlight := some (flying 1 .sent) })).link .t0).slot = none ∧
    ((linked ({ · with inFlight := some (flying 1 .sent) })).ctx .t0).owner ≠ .run ∧
    ((linked ({ · with gapLeft := some 0, receiver := .frame [] })).link .t0).gapLeft = some 0 ∧
    ((linked ({ · with gapLeft := some 0, receiver := .frame [] })).link .t0).inFlight = none ∧
    ((linked ({ · with gapLeft := some 0, receiver := .frame [] })).link .t0).err = none := by decide

theorem test_an_ack_is_taken : ((after (.deckReply .t0 (sentWell (frameOf 0x20 14 [])))
    (linked ({ · with inFlight := some (flying 1 .sent) }))).ctx .t0).mode = .stopped := by decide

/-- `base` with a frame in flight on T0's link, sent, with sequence 14. -/
def awaiting (source : Source) (kind : LinkKind) (arg : Arg) (orphan : Bool) : State :=
  linked ({ · with inFlight := some ⟨⟨source, kind, arg, none, false, false⟩, some 14, 1, orphan, .sent⟩ })

theorem test_frames_to_answer : (awaiting .processor .sense .none true).configured = true ∧
    (awaiting .processor .sense .none true).ptu.hold = none ∧ ((awaiting .processor .sense .none true).link .t0).receiver = .hunt ∧
    ((awaiting .processor .sense .none true).link .t0).queue = [] ∧ ((awaiting .processor .sense .none true).link .t0).slot = none ∧
    ((awaiting .processor .sense .none false).ctx .t0).fifo.length < 3 ∧
    ((awaiting .processor .sense .none false).setReader .t0 { Reader.reset with state := .reading }).reader .t0 =
      { Reader.reset with state := .reading } ∧
    (awaiting .chase .speed (.speed 1024) false).configured = true ∧
    (((awaiting .chase .speed (.speed 1024) false).onChase .t0 ({ · with state := .locked, nakRun := 2 })).chase .t0).state ≠ .idle ∧
    (((awaiting .chase .speed (.speed 1024) false).onChase .t0 ({ · with state := .locked, nakRun := 2 })).chase .t0).origin = .processor ∧
    (linked ({ · with state := .unprobed, inFlight := some { probing with sends := 1 } })).configured = true := by decide

theorem test_replies_to_the_part :
    ((after (.deckReply .t0 (sentWell (frameOf 0x20 0 []))) (linked ({ · with state := .unprobed, inFlight := some probing }))).link .t0).state = .up ∧
    ((after (.deckReply .t0 (sentWell (frameOf 0x21 14 [5])))
      ((awaiting .chase .speed (.speed 0) false).onChase .t0 ({ · with state := .seek, nakRun := 2 }))).chase .t0).state = .fault ∧
    ((after (.deckReply .t0 (sentWell (frameOf 0x22 13 [1, 0, 0, 0, 0, 0]))) (awaiting .processor .sense .none false)).link .t0).stale = 1 := by
  decide +kernel

theorem test_receive_errors :
    (linked ({ · with receiver := .frame [0x20], gapLeft := some 0 })).ReceiveError .t0 .parity (.deckReply .t0 [⟨0, false, true⟩]) ∧
    (linked ({ · with receiver := .frame [0x20], gapLeft := some 0 })).ReceiveError .t0 .framing (.deckReply .t0 [⟨0, true, false⟩]) ∧
    (linked ({ · with receiver := .frame [0x20], gapLeft := some 0 })).ReceiveError .t0 .format (.deckReply .t0 [⟨13, true, true⟩]) ∧
    (linked ({ · with receiver := .frame [0x20, 0], gapLeft := some 0 })).ReceiveError .t0 .check (.deckReply .t0 [⟨0, true, true⟩]) ∧
    (linked ({ · with receiver := .frame [0x23, 0], gapLeft := some 0 })).ReceiveError .t0 .format (.deckReply .t0 [⟨0xDD, true, true⟩]) ∧
    (linked ({ · with receiver := .frame [], gapLeft := some 0 })).ReceiveError .t0 .gap (.gapError .t0) :=
  ⟨.inl ⟨[0x20], 0, rfl, .inl ⟨rfl, _, rfl⟩⟩, .inl ⟨[0x20], 0, rfl, .inr (.inl ⟨rfl, rfl⟩)⟩,
    .inl ⟨[0x20], 13, rfl, .inr (.inr ⟨rfl, .inl ⟨rfl, rfl, by decide⟩⟩)⟩,
    .inl ⟨[0x20, 0], 0, rfl, .inr (.inr ⟨rfl, .inr ⟨rfl, .inl ⟨rfl, by decide⟩⟩⟩)⟩,
    .inl ⟨[0x23, 0], 0xDD, rfl, .inr (.inr ⟨rfl, .inr ⟨rfl, .inr ⟨rfl, by decide, by unfold replyForm; decide⟩⟩⟩)⟩,
    .inr ⟨rfl, rfl, rfl⟩⟩

theorem test_links_about_to_fail :
    ((linked ({ · with inFlight := some (flying 2 .sent), replyTimer := some 0 })).link .t0).queue = [] ∧
    (flying 2 .sent).sends = 2 ∧ (flying 2 .sent).entry.source = .processor ∧ base.run.state = .idle ∧
    (base.chase .t0).computes = false ∧
    ((linked ({ · with silence := 3 })).link .t0).silence = 3 ∧ ((linked ({ · with silence := 2 })).link .t0).silence < 3 ∧
    ((after (.replyTimeout .t0) (linked ({ · with inFlight := some (flying 2 .sent), replyTimer := some 0 }))).link .t0).state = .failed := by
  decide

theorem test_unanswered_frames :
    ((linked ({ · with inFlight := some (flying 1 .sent), replyTimer := some 0 })).link .t0).replyTimer = some 0 ∧
    (flying 1 .sent).orphan = false ∧ (flying 1 .sent).entry.source ≠ .link ∧ (flying 1 .sent).entry.kind ≠ .speed ∧
    ((linked ({ · with inFlight := some (flying 1 .sent), replyTimer := some 0 })).link .t0).tx = none ∧
    ((linked ({ · with state := .unprobed, inFlight := some probing, replyTimer := some 0 })).link .t0).inFlight = some probing ∧
    probing.entry.source = .link ∧ probing.sends = 2 ∧ probing.orphan = false ∧
    ((linked ({ · with state := .unprobed, inFlight := some probing, replyTimer := some 0 })).link .t0).state = .unprobed := by decide

/-! ## Chases, cues and the mixer at a boundary -/

/-- T0 chases T1 for the processor, both readers coasting at speed 0 at the positions given. -/
def abreast (st : ChaseState) (p m : Nat) (inRun outRun holdCount : Nat) : State :=
  ((chasing st).onChase .t0 ({ · with inRun, outRun, holdCount })).setReader .t0 { Reader.reset with state := .coasting, position := some p }
    |>.setReader .t1 { Reader.reset with state := .coasting, position := some m }

theorem test_chases_to_lock_slip_and_expire :
    (∃ b, (abreast .approach 640 656 9 0 0).dropMarks.atBoundary .wrap = some b ∧ b.run.state = .idle ∧
      (b.chase .t0).pending = none ∧ b.chaseInput .t0 = (some 640, some 656, 0) ∧ (b.link .t0).state = .up ∧
      (b.chase .t0).state = .approach ∧ (wrap (64 * b.standard.day) (656 - 640)).natAbs ≤ (b.chase .t0).params.lockWindow ∧
      (b.chase .t0).params.lockCount ≤ (b.chase .t0).inRun + 1) ∧
    (∃ b, (abreast .locked 640 705 0 2 0).dropMarks.atBoundary .wrap = some b ∧ b.chaseInput .t0 = (some 640, some 705, 0) ∧
      (b.chase .t0).state = .locked ∧ 4 * (b.chase .t0).params.lockWindow < (wrap (64 * b.standard.day) (705 - 640)).natAbs ∧
      2 ≤ (b.chase .t0).outRun) ∧
    ∃ b, ((abreast .hold 0 0 0 0 50).setReader .t1 Reader.reset).dropMarks.atBoundary .wrap = some b ∧
      (b.chase .t0).state = .hold ∧ (b.chaseInput .t0).2.1 = none ∧ (b.chase .t0).params.holdLimit ≤ (b.chase .t0).holdCount :=
  ⟨⟨_, rfl, by decide⟩, ⟨_, rfl, by decide⟩, ⟨_, rfl, by decide⟩⟩

theorem test_chases_that_compute :
    (∃ b, (abreast .seek 0 (64 * 200) 0 0 0).atBoundary .wrap = some b ∧ b.run.state = .idle ∧
      b.chaseInput .t0 = (some 0, some (64 * 200), 0) ∧ (b.chase .t0).state ≠ .idle ∧ (b.chase .t0).state ≠ .fault ∧
      (b.link .t0).state = .up ∧ (b.chase .t0).params.approachWindow < 200) ∧
    (∃ b, (abreast .hold 0 (64 * 187) 0 0 3).atBoundary .wrap = some b ∧ b.chaseInput .t0 = (some 0, some (64 * 187), 0) ∧
      (b.chase .t0).params.approachWindow + (b.chase .t0).params.approachWindow / 4 = 187) ∧
    ∃ b, ((abreast .locked 0 0 0 0 0).onLink .t0 ({ · with state := .failed })).atBoundary .wrap = some b ∧
      (b.link .t0).state ≠ .up ∧ b.chaseInput .t0 = (some 0, some 0, 0) :=
  ⟨⟨_, rfl, by decide⟩, ⟨_, rfl, by decide⟩, ⟨_, rfl, by decide⟩⟩

/-- An armed event on T0, or on T1 as the look-ahead. -/
def event (e : Fin 64) (n : Transport) : Armed :=
  ⟨e, .current, false, .none, .linear, n, 1, .black, none, 90000, none, none, 100, 50, 5, 0, 0, 0, none, none, [], 5, 12⟩

/-- A run in a state with event 0 current, its counts at the limit given, and one transport waiting for its cue. -/
def cueing (st : RunState) (n : Transport) (count la : Nat) : State :=
  { base with
    et := { base.et with current := some (event 0 .t0) }
    run :=
      { base.run with
        state := st, cueCount := count, laCueCount := la, clock := 1
        cues := base.run.cues.set n ⟨.waiting, 1, 7, false, false⟩ } }

theorem test_cues_to_poll_and_time_out :
    (∃ b, (cueing .cueing .t0 1499 0).dropMarks.atBoundary .wrap = some b ∧ b.ptu.hold = none ∧ b.run.awaited = [] ∧
      b.et.current = some (event 0 .t0) ∧ (event 0 .t0).names .t0 = true ∧ b.et.lookahead = none ∧
      b.run.cueCount + 1 ≤ b.run.cueLimit ∧ (b.run.cues.get .t0).progress = .waiting ∧ 7 ≤ (b.run.cues.get .t0).polls ∧
      (b.run.cues.get .t0).senseOut = false ∧ (b.link .t0).state = .up ∧ (b.link .t0).queue.length < 4) ∧
    (∃ b, (cueing .cueing .t0 1500 0).dropMarks.atBoundary .wrap = some b ∧ b.run.cueLimit < b.run.cueCount + 1) ∧
    ∃ b, ({ cueing .edit .t1 0 1500 with et := { base.et with current := some (event 0 .t0), lookahead := some (event 1 .t1) } } : State
      ).dropMarks.atBoundary .wrap = some b ∧ b.et.lookahead = some (event 1 .t1) ∧ (event 1 .t1).names .t1 = true ∧
      (event 0 .t0).names .t1 = false ∧ b.run.mode = .preview ∧ b.run.laCueCount = b.run.cueLimit ∧ b.run.pendingFault = none ∧
      0 < b.run.clock + 1 ∧ b.run.clock + 1 ≠ (event 0 .t0).duration ∧
      b.run.clock + 1 ≠ ((event 0 .t0).duration : Int) + (event 0 .t0).postroll ∧ (event 0 .t0).kind = .none :=
  ⟨⟨_, rfl, by decide⟩, ⟨_, rfl, by decide⟩, ⟨_, rfl, by decide⟩⟩

theorem test_no_other_cue_has_work : (∀ m, (base.chase m).computes = false) ∧
    (∀ m, m ≠ .t0 → ((cueing .cueing .t0 1499 0).run.cues.get m).progress = .none) ∧
    (∀ m, m ≠ .t0 → (event 0 .t0).names m = false) ∧ ∀ m, m ≠ .t1 → (event 1 .t1).names m = false := by
  refine ⟨fun m => by cases m <;> decide, fun m _ => ?_, fun m _ => ?_, fun m _ => ?_⟩ <;> cases m <;>
    first | decide | contradiction

/-- A run at a state and clock, event 0 current on T0, which chases the edit clock in a state. -/
def rolling (st : RunState) (clock : Int) (ch : ChaseState) : State :=
  { base with
    et := ⟨base.et.states.set 0 .armed, some (event 0 .t0), none⟩
    run := { base.run with state := st, clock, successor := none }
    ctxs := base.ctxs.set .t0 { base.ctx .t0 with owner := .run }
    chases := base.chases.set .t0 { base.chase .t0 with state := ch, origin := .run, master := .editClock } }

theorem test_runs_at_a_boundary : (∃ b, (rolling .preroll 0 .locked).atBoundary .wrap = some b ∧ b.run.awaited = []) ∧
    ((rolling .preroll 0 .locked).onRun ({ · with awaited := [⟨false, 1⟩] })).run.awaited ≠ [] ∧
    (rolling .preroll 0 .locked).et.current = some (event 0 .t0) ∧ (rolling .preroll 0 .locked).run.state.active = true ∧
    (rolling .preroll 0 .locked).run.state.rolling = true ∧ (rolling .preroll 0 .locked).et.lookahead = none ∧
    (rolling .ready 0 .idle).run.state = .ready ∧
    ((rolling .ready 0 .idle).onRun ({ · with rollRequested := true, mode := .record, requireReference := true })).run.rollRequested = true ∧
    (rolling .ready 0 .idle).rtu.state ≠ .locked := ⟨⟨_, rfl, rfl⟩, by decide⟩

theorem test_no_cue_of_the_rolling_run_has_work : ∀ n, ((rolling .edit 0 .locked).run.cues.get n).progress = .none := by
  intro n; cases n <;> decide

theorem test_a_run_rolls : (after .frameBoundary
      ((rolling .ready 0 .idle).onRun ({ · with rollRequested := true }))).run.clock = -50 ∧
    ((after .frameBoundary ((rolling .ready 0 .idle).onRun ({ · with rollRequested := true }))).chase .t0).state = .seek := by decide +kernel

theorem test_clock_values_with_actions : (rolling .preroll (-6) .locked).run.clock = -((event 0 .t0).latency + 1 : Int) ∧
    (rolling .preroll (-12) .locked).run.clock = -((event 0 .t0).margin : Int) ∧
    (event 0 .t0).transports = [.t0] ∧ ((rolling .preroll (-12) .locked).chase .t0).state = .locked ∧
    (rolling .edit 94 .locked).run.clock = ((event 0 .t0).duration : Int) - ((event 0 .t0).latency + 1 : Int) ∧
    (rolling .edit 100 .locked).run.clock = (event 0 .t0).duration ∧
    (rolling .postroll 105 .locked).run.clock = ((event 0 .t0).duration : Int) + (event 0 .t0).postroll ∧
    ((rolling .postroll 105 .locked).link .t0).state = .up ∧ ((rolling .postroll 105 .locked).link .t0).queue.length < 2 := by decide

theorem test_actions_at_their_clock :
    ((rolling .preroll (-6) .locked).onRun ({ · with mode := .record, syncPassed := true })).timedActions.run.awaited = [⟨false, 1⟩] ∧
    ((rolling .preroll (-12) .seek).chaseStates base.chases).run.fault = some ⟨.notLocked, 0, some .t0, some (-12), false⟩ ∧
    (rolling .edit 100 .locked).timedActions.run.state = .postroll ∧
    (rolling .postroll 105 .locked).timedActions.run.endCause = .completed ∧
    (rolling .postroll 105 .locked).timedActions.et.states[(0 : Fin 64)] = .done := by decide +kernel

/-- `rolling` with event 1 stored and LOADED as the successor: on T1, its source BLACK. -/
def chaining (st : RunState) (clock : Int) (la : Lookahead) : State :=
  { rolling st clock .locked with
    cfg := { base.cfg with eventWords := [(64, 1), (70, 0x0101), (72, 0x0608), (74, 0x0100), (86, 100), (88, 50), (98, 0xFFFF)] }
    et := { (rolling st clock .locked).et with states := (base.et.states.set 0 .armed).set 1 .loaded }
    run := { (rolling st clock .locked).run with successor := some 1, lookahead := la } }

theorem test_successors_to_arm : (chaining .preroll 0 .notYet).et.current = some (event 0 .t0) ∧
    (chaining .preroll 0 .notYet).et.states[(1 : Fin 64)] = .loaded ∧ (chaining .preroll 0 .notYet).run.pendingFault = none ∧
    ((chaining .preroll 0 .notYet).fieldsOf 1).check base.standard 12 (fun n => (base.ctx n).latency) =
      .ok ⟨.none, .linear, .t1, .black, none, none, []⟩ ∧ (∀ n, ((chaining .preroll 0 .notYet).link n).state = .up) ∧
    1 ≤ (event 0 .t0).duration ∧ (rolling .preroll 0 .locked).et.states[(1 : Fin 64)] = .empty ∧
    (chaining .postroll 105 .none).run.lookahead = .none ∧ (chaining .postroll 105 .none).run.stopRequested = false :=
  ⟨rfl, by decide, rfl, by decide, fun n => by cases n <;> decide, by decide⟩

theorem test_successors_armed : (chaining .preroll 0 .notYet).timedActions.run.lookahead = .armed ∧
    (chaining .postroll 105 .none).timedActions.run.state = .cueing ∧
    ((chaining .postroll 105 .none).setEt ⟨base.et.states.set 0 .armed, some (event 0 .t0), none⟩).timedActions.run.fault =
      some ⟨.eventNotLoaded, 1, none, none, false⟩ := by decide +kernel

/-- T0's cue, waiting for event 0 at its preroll, with a command of the run in flight. -/
def cueAnswered (kind : LinkKind) (arg : Arg) (progress : Progress) (locates : Nat) : State :=
  { cueing .cueing .t0 0 0 with
    links := (awaiting .run kind arg false).links
    run := { (cueing .cueing .t0 0 0).run with cues := base.run.cues.set .t0 ⟨progress, locates, 0, true, false⟩ } }

theorem test_replies_to_the_run :
    ((cueAnswered .locate .none .locating 1).et.names .t0 = true ∧ (cueAnswered .locate .none .locating 1).run.state.active = true ∧
      ((cueAnswered .locate .none .locating 1).run.cues.get .t0).progress = .locating ∧
      (event 0 .t0).cueTarget? base.standard .t0 = some 89950) ∧
    ((after (.deckReply .t0 (sentWell (frameOf 0x22 14 [1, 8, 0, 59, 58, 0]))) (cueAnswered .sense .none .waiting 1)).run.state = .ready) ∧
    ((after (.deckReply .t0 (sentWell (frameOf 0x22 14 [1, 8, 0, 59, 57, 21]))) (cueAnswered .sense .none .waiting 2)).run.fault =
      some ⟨.cueMissed, 0, some .t0, none, false⟩) ∧
    ((after (.deckReply .t0 (sentWell (frameOf 0x21 14 [1]))) (cueAnswered .locate .none .locating 1)).run.fault =
      some ⟨.deckRefused 1, 0, some .t0, none, false⟩) := by decide +kernel

theorem test_a_mixer_at_a_boundary :
    (∃ b, (base.onMixer ({ · with transition := some ⟨.mix, .linear, 2, 3, true⟩ })).dropMarks.atField (.frame .wrap) = some b ∧
      b.run.state = .idle ∧ b.mixer.handed = [] ∧ b.mixer.transition = some ⟨.mix, .linear, 2, 3, true⟩) ∧
    (∃ b, (base.onMixer ({ · with timers := base.mixer.timers.set 7 1 })).dropMarks.atBoundary .wrap = some b ∧
      b.mixer.timers[(7 : Fin 8)] = 1) ∧
    (base.onMixer ({ · with tx := .sending [1] 0 (some [2]) })).mixer.tx = .sending [1] 0 (some [2]) ∧
    (base.onMixer ({ · with tx := .sending [1] 0 none })).mixer.tx = .sending [1] 0 none :=
  ⟨⟨_, rfl, by decide⟩, ⟨_, rfl, by decide⟩, rfl, rfl⟩

theorem test_a_transition_ends : (after (.transitionEnd (.frame .wrap))
      (base.onMixer ({ · with transition := some ⟨.mix, .linear, 2, 3, true⟩, owner := .processor }))).mixer.owner = .free := by decide +kernel

/-! ## Numbers that the spec works out -/

/-- The conversions of 03 section 3.1.1. -/
theorem test_worked_conversions : Label.index .std25 ⟨1, 0, 0, 0⟩ = 90000 ∧ Label.index .std25 ⟨23, 59, 59, 24⟩ = 2159999 ∧
    Label.index .std30n ⟨10, 0, 0, 0⟩ = 1080000 ∧ Label.index .std30d ⟨0, 1, 0, 2⟩ = 1800 ∧
    Label.index .std30d ⟨0, 10, 0, 0⟩ = 17982 ∧ Label.index .std30d ⟨1, 0, 0, 0⟩ = 107892 ∧
    Label.index .std30d ⟨23, 59, 59, 29⟩ = 2589407 ∧ Label.legal .std30d ⟨0, 1, 0, 0⟩ = false ∧
    Label.legal .std25 ⟨0, 0, 0, 25⟩ = false ∧ Label.ofIndex .std30d 1800 = ⟨0, 1, 0, 2⟩ ∧
    Label.ofIndex .std30d 2589407 = ⟨23, 59, 59, 29⟩ := by decide

/-- The speed frame of 11.7. -/
theorem test_worked_frame : frameOf 0x12 3 [0x04, 0x15] = [0xC3, 0x12, 0x32, 0x04, 0x15, 0xA3] := by decide

/-- A context with the default parameters. -/
def slave (state : ChaseState) (offset acc vPrev : Int) (lastClamp : ClampEnd) : Chase :=
  { Chase.reset .t3 with state, offset, acc, vPrev, lastClamp }

/-- The boundary in APPROACH, the clamped correction and the two that follow it, of 06 sections 6.8.1 to 6.8.3. -/
theorem test_worked_approach :
    ((slave .approach 90000 200 1030 .none).compute .std25 5756072 138236160 1024 false).2 = 1045 ∧
    ((slave .approach 0 1000 1045 .none).compute .std25 6400900 6400000 1024 false).2 = 1013 ∧
    ((slave .approach 0 100 1013 .minus).compute .std25 6400850 6400000 1024 false).2 = 981 ∧
    ((slave .approach 0 100 981 .minus).compute .std25 6400000 6400030 1024 false).2 = 1013 := by decide

/-- The boundary in SEEK and the error across midnight of 06 sections 6.8.4 and 6.8.5. -/
theorem test_worked_seek :
    ((slave .seek 250 0 0 .none).compute .std25 5746880 5760000 1024 false).2 = 8304 ∧
    ((slave .approach 0 0 0 .none).compute .std30d 165721600 320 1024 false).1.lastError = some (832, 13) := by decide

/-- The ramps of 09 section 9.4.1 and fields of the dissolve of 09 section 9.10. -/
theorem test_worked_ramps : rampLevel .mix .linear 2 1 = 512 ∧ rampLevel .mix .s 2 2 = 1023 ∧ rampLevel .mix .linear 4 1 = 256 ∧
    rampLevel .wipe .s 4 1 = 160 ∧ rampLevel .wipe .s 4 3 = 863 ∧ rampLevel .mix .linear 50 1 = 20 ∧
    rampLevel .mix .linear 50 2 = 41 ∧ rampLevel .mix .linear 50 49 = 1003 ∧ rampLevel .mix .s 50 1 = 1 ∧
    rampLevel .mix .s 50 49 = 1022 ∧ rampLevel .mix .linear 50 21 = 430 := by decide

/-- Event 0 of 07 section 7.6, as its words are stored. -/
def workedEvent : WordMap :=
  [(0, 1), (6, 0x0307), (8, 0x0108), (10, 0x0100), (14, 0x0A00), (22, 250), (24, 125), (26, 50), (34, 1), (36, 1),
    (40, 1), (42, 10), (44, 0x0205), (46, 0xFFCE)]

/-- The arming of event 0 of 07 section 7.6. -/
theorem test_worked_arming :
    (EventFields.ofWords fun w => WordMap.read workedEvent (eventOffset 0 w)).check .std25 12 (fun _ => 5) =
      .ok ⟨.none, .linear, .t3, .deck .t1, none, some 1, [⟨2, 5, -50⟩]⟩ := by decide

end Sys2Proof.Tests
end

section
/-! PROOF. The house reference: the frame pulse that begins an acquisition (02 R26). -/

namespace Sys2Proof.Machine

/-- The RTU as the pulse that begins an acquisition leaves it (02 R26); compare `Rtu.locking` and `Rtu.unlocking`. -/
def Rtu.acquiring (r : Rtu) : Rtu := { r with state := .acquiring, goodRun := 1, pulseTimer := 0 }

namespace State

variable {s : State}

/-- In ABSENT or FREE a frame pulse is the change of reference state and the raise it makes: the run does not act, since the
part was not LOCKED. -/
theorem framePulse_of_absent_or_free (hc : s.configured = true) (hs : s.rtu.state = .absent ∨ s.rtu.state = .free) :
    s.framePulse = (s.setRtu s.rtu.acquiring).raise .reference := by
  have enters : s.framePulse = s.enterReference s.rtu.acquiring := by
    unfold framePulse
    rw [if_pos hc]
    obtain absent | free := hs
    · rw [absent]; rfl
    · rw [free]; rfl
  have leaves : s.rtu.state ≠ s.rtu.acquiring.state := by
    obtain absent | free := hs <;> simp [Rtu.acquiring, *]
  have unlocked : s.rtu.state ≠ .locked := by
    obtain absent | free := hs <;> simp [*]
  rw [enters, enterReference_apart _ leaves (.inl unlocked)]

/-- While a CONFIGURED part free-runs, its next boundary is the phase counter's (02 R23). -/
theorem atBoundary_wrap (hc : s.configured = true) (hf : s.rtu.state.freeRunning = true) :
    s.atBoundary .wrap = some (elapse (64 - s.rtu.phase) s) := by
  simp only [atBoundary, hc, hf, Bool.and_self, if_true]

end State

/-- Settles O43: the pulse is `Rtu.acquiring` and a raise, which reaches neither the RTU nor the setup record in force; the part
still free-runs, with the phase counter where it stood. -/
theorem framePulsesBeginAcquisition : Obligations.FramePulsesBeginAcquisition := by
  unfold Obligations.FramePulsesBeginAcquisition
  intro s hc hs
  have raised := State.raise_apart (s := s.setRtu s.rtu.acquiring) .reference
  refine ⟨(s.setRtu s.rtu.acquiring).raise .reference, ?pulse, raised.rtu, ?next⟩
  case pulse =>
    rw [← State.framePulse_of_absent_or_free hc hs]
    exact State.exec_boundary .pulse
  case next =>
    have configured : ((s.setRtu s.rtu.acquiring).raise .reference).configured = true := by
      unfold State.configured
      rw [raised.cfg]
      exact hc
    have freeRunning : ((s.setRtu s.rtu.acquiring).raise .reference).rtu.state.freeRunning = true := by
      rw [raised.rtu]
      rfl
    rw [State.atBoundary_wrap configured freeRunning, raised.rtu]
    rfl

end Sys2Proof.Machine
end

section
/-! PROOF. Stores to the edit table of an event that is not ARMED (01 R6, 07 R133, R134). -/

namespace Sys2Proof.Machine

namespace State

variable {s : State}

/-- The state after one store that memory completed has been copied into the part's edit table, with the change of event
state that it makes (01 R6, 07 R133, R134); compare `State.captured`. -/
def eventStored (s : State) (e : Fin 64) (w : Fin 32) (lanes : Strobes) (value : Word) : State :=
  { s with
    cfg := { s.cfg with
      eventWords := s.cfg.eventWords.write (eventOffset e w.val)
        (mergeLanes lanes (s.cfg.eventWords.read (eventOffset e w.val)) value) }
    et := { s.et with states := s.et.states.set e (storedState w.val lanes value) }
    ptu := { s.ptu with bus := ⟨.byMemory, none, [⟨s.regionAddr (eventOffset e w.val), true, lanes, value⟩]⟩ } }

/-- A store to a word of an event that is not ARMED, completed by memory: not refused, forwarded, and copied. -/
theorem storeEvent_completes {e : Fin 64} (h : s.eventState e ≠ .armed) (w : Fin 32) (a : Addr) (lanes : Strobes) (value : Word)
    (rmw : Bool) :
    s.storeEvent e w a lanes value .completes rmw =
      (s.forward ⟨a, true, lanes, value⟩ .completes).copyEvent e w lanes value := if_neg h

/-- A store to a word of an event that is not ARMED, which memory faults: not refused, forwarded, and not copied. -/
theorem storeEvent_faults {e : Fin 64} (h : s.eventState e ≠ .armed) (w : Fin 32) (a : Addr) (lanes : Strobes) (value : Word)
    (rmw : Bool) :
    s.storeEvent e w a lanes value .faults rmw = s.forward ⟨a, true, lanes, value⟩ .faults := if_neg h

/-- A store cycle to an event word, on a free bus of a CONFIGURED part, reaches the edit table. -/
theorem regionStore_event (hr : s.Ready) (e : Fin 64) (w : Fin 32) (lanes : Strobes) (value : Word) (mem : MemEnd) :
    s.regionStore (.event e w) (eventOffset e w.val) lanes value mem =
      s.newCycle.storeEvent e w (s.regionAddr (eventOffset e w.val)) lanes value mem false := by
  have inside : s.newCycle.inRegion (.event e w) = .event e w := if_pos hr.configured
  unfold regionStore
  rw [cycle_free hr.free, inside]
  rfl

theorem regionStore_event_completes (hr : s.Ready) {e : Fin 64} (h : s.et.states[e] ≠ .armed) (w : Fin 32) (lanes : Strobes)
    (value : Word) :
    s.regionStore (.event e w) (eventOffset e w.val) lanes value .completes = s.eventStored e w lanes value := by
  rw [regionStore_event hr, storeEvent_completes (s := s.newCycle) h]
  rfl

theorem regionStore_event_faults (hr : s.Ready) {e : Fin 64} (h : s.et.states[e] ≠ .armed) (w : Fin 32) (lanes : Strobes)
    (value : Word) :
    s.regionStore (.event e w) (eventOffset e w.val) lanes value .faults =
      s.faultedStore (s.regionAddr (eventOffset e w.val)) lanes value := by
  rw [regionStore_event hr, storeEvent_faults (s := s.newCycle) h]
  rfl

@[simp] theorem eventStored_state (s : State) (e : Fin 64) (w : Fin 32) (lanes : Strobes) (value : Word) :
    (s.eventStored e w lanes value).et.states[e] = storedState w.val lanes value :=
  Vector.getElem_set_self ..

/-- The store is merged into its own word, and no other word changes. -/
theorem eventStored_read (hr : s.Ready) (e : Fin 64) (w : Fin 32) (lanes : Strobes) (value : Word) (k : Nat) :
    (s.eventStored e w lanes value).cfg.eventWords.read k =
      if k = eventOffset e w.val then mergeLanes lanes (s.cfg.eventWords.read k) value else s.cfg.eventWords.read k := by
  have written := WordMap.read_write s.cfg.eventWords (eventOffset e w.val) k
    (mergeLanes lanes (s.cfg.eventWords.read (eventOffset e w.val)) value) hr.cfg.eventWords
  refine written.trans ?_
  split_ifs with own
  · rw [own]
  · rfl

end State

/-- Only a full-word store can leave an event LOADED or EMPTY (07 R134). -/
theorem kindState_eq (lanes : Strobes) (stored : Word) :
    kindState lanes stored =
      if lanes = .both ∧ loByte stored = 1 then .loaded else if lanes = .both ∧ loByte stored = 0 then .empty else .draft := by
  cases lanes <;> simp [kindState]

/-- Settles O13: the store is `State.eventStored` of word 0, or `State.faultedStore`, whose fields the clauses name. -/
theorem kindWordStoresSetTheEventState : Obligations.KindWordStoresSetTheEventState := by
  unfold Obligations.KindWordStoresSetTheEventState
  intro e lanes value s ready unarmed
  refine ⟨⟨s.eventStored e 0 lanes value, ?completes, ?state, ?others, ?word, ?words, rfl⟩,
    ⟨s.faultedStore (s.regionAddr (eventOffset e 0)) lanes value, ?faults, rfl⟩⟩
  case completes => exact congrArg _ (State.regionStore_event_completes ready unarmed 0 lanes value)
  case state => rw [State.eventStored_state, ← kindState_eq]; rfl
  case others => rw [State.eventStored_state]; rfl
  case word => rw [State.eventStored_read ready]; exact if_pos rfl
  case words =>
    intro k other
    rw [State.eventStored_read ready]
    exact if_neg other
  case faults => exact congrArg _ (State.regionStore_event_faults ready unarmed 0 lanes value)

end Sys2Proof.Machine
end

section
/-! PROOF. The queue and the whole part: what every step answers, consumes and keeps (log 1, 05 R105), and the reset state. -/

namespace Sys2Proof.Machine

/-- A step on a queue that holds a command runs its meaning on the rest. -/
theorem step_of_cons {c : Instr} {rest : List Instr} {s : State} (h : s.pending = c :: rest) :
    step s = exec c { s with pending := rest } := by
  unfold step
  rw [h]

/-- A step on an empty queue is a tick (log 1). -/
theorem step_of_nil {s : State} (h : s.pending = []) : step s = tick s := by
  unfold step
  rw [h]

theorem tick_of_due {c : Instr} {s : State} (h : s.due = some c) : tick s = exec c s := by
  unfold tick
  rw [h]

theorem tick_of_none {s : State} (h : s.due = none) : tick s = .next (elapse 1 s) := by
  unfold tick
  rw [h]

/-- Nothing is due in an UNCONFIGURED part. -/
theorem State.due_of_unconfigured {s : State} (h : s.configured = false) : s.due = none := by
  unfold State.due
  rw [h]
  rfl

/-- No time passes in an UNCONFIGURED part (01 R15). -/
theorem elapse_of_unconfigured {s : State} (k : Nat) (h : s.configured = false) : elapse k s = s := by
  unfold elapse
  rw [h]
  rfl

/-- Removing the front command concerns the queue alone. -/
theorem State.Sound.dropFront {s : State} (rest : List Instr) (h : s.Sound) : ({ s with pending := rest } : State).Sound :=
  ⟨h.cfg, h.iru, h.fifo, h.queue, h.deck, h.runFault⟩

/-- What a step answers: a state that accepts the command taken, or on an empty queue the timed event or the phase unit. -/
theorem step_accepts (s : State) : ∃ t, step s = .next t ∧ Accepts { s with pending := s.pending.tail } t := by
  cases queue : s.pending with
  | nil =>
    rw [step_of_nil queue, List.tail_nil, ← queue]
    cases due : s.due with
    | none => exact ⟨_, tick_of_none due, (Keeps.of_tame (elapse_rough 1 s)).accepts⟩
    | some c => rw [tick_of_due due]; exact exec_accepts c s
  | cons c rest => rw [step_of_cons queue]; exact exec_accepts c _

/-- Settles O1. -/
theorem stepRunsTheFrontCommand : Obligations.StepRunsTheFrontCommand := by
  unfold Obligations.StepRunsTheFrontCommand
  intro c rest s
  exact step_of_cons

/-- Settles O2: what a step answers accepts the command taken; an UNCONFIGURED part has nothing due, and no time passes in it. -/
theorem stepsAnswerAndConsumeOneCommand : Obligations.StepsAnswerAndConsumeOneCommand := by
  unfold Obligations.StepsAnswerAndConsumeOneCommand
  intro s
  refine ⟨?answers, fun queue => ⟨fun unconfigured => ?idles, fun c due => ?acts, fun idle => ?passes⟩⟩
  case answers =>
    obtain ⟨t, answered, accepts⟩ := step_accepts s
    exact ⟨t, answered, accepts.pending⟩
  case idles =>
    rw [step_of_nil queue, tick_of_none (State.due_of_unconfigured unconfigured), elapse_of_unconfigured 1 unconfigured]
  case acts => rw [step_of_nil queue, tick_of_due due]
  case passes => rw [step_of_nil queue, tick_of_none idle]

/-- Settles O3. -/
theorem resetIsSound : Obligations.ResetIsSound := by
  unfold Obligations.ResetIsSound
  exact ⟨State.resetWith_sound .., fun n => (State.balanced_iff _ n).2 (State.resetWith_owed ..)⟩

/-- Settles O4: every command, and the passing of time, keeps soundness. -/
theorem everyStepKeepsThePartSound : Obligations.EveryStepKeepsThePartSound := by
  unfold Obligations.EveryStepKeepsThePartSound
  intro s sound
  obtain ⟨t, answered, accepts⟩ := step_accepts s
  exact ⟨t, answered, accepts.sound (sound.dropFront _)⟩

/-- Settles O5: no command changes what a transport's books owe, except a reset, after which they owe nothing. -/
theorem everyStepKeepsTheBooks : Obligations.EveryStepKeepsTheBooks := by
  unfold Obligations.EveryStepKeepsTheBooks
  intro s n balanced
  obtain ⟨t, answered, accepts⟩ := step_accepts s
  refine ⟨t, answered, (State.balanced_iff t n).2 ?_⟩
  obtain cleared | same := accepts.books n
  · exact cleared
  · rw [same]
    exact (State.balanced_iff s n).1 balanced

/-- Settles O6: the reset state is written out field by field, one value for every transport. -/
theorem resetLeavesTheStatedValues : Obligations.ResetLeavesTheStatedValues := by
  unfold Obligations.ResetLeavesTheStatedValues
  refine ⟨rfl, rfl, rfl, rfl, ?views, rfl, rfl, ?readers, ?links, ?contexts, ?chases, ?events, rfl, rfl, rfl, rfl, rfl, rfl,
    rfl, rfl, rfl, rfl, ?sources, rfl, rfl, ?driven, ?command⟩
  case views => intro n; cases n <;> exact ⟨rfl, rfl⟩
  case readers => intro n; cases n <;> exact ⟨rfl, rfl, rfl, rfl, rfl, rfl⟩
  case links => intro n; cases n <;> exact ⟨rfl, rfl, rfl, rfl, rfl, rfl, rfl, rfl⟩
  case contexts => intro n; cases n <;> exact ⟨rfl, rfl, rfl, rfl, rfl, rfl, rfl, rfl⟩
  case chases => intro n; cases n <;> exact ⟨rfl, rfl, rfl⟩
  case events => intro e; simp [State.reset, State.resetWith, EditTable.reset]
  case sources => intro i; cases i with
    | deck n => cases n <;> exact ⟨rfl, rfl⟩
    | _ => exact ⟨rfl, rfl⟩
  case driven => intro m; simp [State.reset, State.resetWith, Iru.reset]
  case command => intro straps s; rfl

end Sys2Proof.Machine
end

section
/-! PROOF. The region map (01 R1, R12, R13): the class of every address of the setup block and of the suite region. -/

namespace Sys2Proof.Machine

/-! The class of an offset, range by range (01 R12). -/

theorem regionTarget_event (e : Fin 64) (w : Fin 32) : regionTarget (64 * e.val + 2 * w.val) = .event e w := by
  have inside : 64 * e.val + 2 * w.val < 0x1000 := by omega
  have event : Fin.ofNat 64 ((64 * e.val + 2 * w.val) / 64) = e := Fin.ext (by simp only [Fin.ofNat]; omega)
  have word : Fin.ofNat 32 ((64 * e.val + 2 * w.val) / 2) = w := Fin.ext (by simp only [Fin.ofNat]; omega)
  rw [regionTarget, if_pos inside, event, word]

theorem regionTarget_transport (n : Transport) (k : Fin 16) :
    regionTarget (0x1000 + 32 * n.num + 2 * k.val) = .watched (.transport n k) := by
  have := Transport.num_lt n
  have place : 0x1000 + 32 * n.num + 2 * k.val - 0x1000 = 32 * n.num + 2 * k.val := by omega
  rw [regionTarget, if_neg (by omega), if_pos (by omega), place, State.slotTarget_eq]

theorem regionTarget_chase (n : Transport) (k : Fin 16) :
    regionTarget (0x1100 + 32 * n.num + 2 * k.val) = .watched (.chase n k) := by
  have := Transport.num_lt n
  have place : 0x1100 + 32 * n.num + 2 * k.val - 0x1100 = 32 * n.num + 2 * k.val := by omega
  rw [regionTarget, if_neg (by omega), if_neg (by omega), if_pos (by omega), place, State.slotTarget_eq]

theorem regionTarget_run (k : Fin 16) : regionTarget (0x1200 + 2 * k.val) = .watched (.run k) := by
  revert k; decide

theorem regionTarget_switcher (k : Fin 16) : regionTarget (0x1220 + 2 * k.val) = .watched (.switcher k) := by
  revert k; decide

theorem regionTarget_crosspoint (k : Fin 8) : regionTarget (0x1240 + 2 * k.val) = .watched (.crosspoint k) := by
  revert k; decide

theorem regionTarget_level (k : Fin 16) : regionTarget (0x1260 + 2 * k.val) = .watched (.level k) := by
  revert k; decide

theorem regionTarget_overlay {off : Nat} (low : 0x2000 ≤ off) (high : off < 0x28C0) :
    regionTarget off = .overlay (off / 2 * 2) := by
  simp (disch := omega) only [regionTarget, if_neg, if_pos]

/-- The gaps of the map are memory's (01 R12): after the last transport slot, after the last chase slot, after the crosspoint
table, after the service-done word, and after the reply ports. -/
theorem regionTarget_pass {off : Nat}
    (gap : 0x10C0 ≤ off ∧ off < 0x1100 ∨ 0x11C0 ≤ off ∧ off < 0x1200 ∨ 0x1250 ≤ off ∧ off < 0x1260 ∨
      0x1282 ≤ off ∧ off < 0x2000 ∨ 0x28C0 ≤ off) : regionTarget off = .pass := by
  obtain ⟨low, high⟩ | ⟨low, high⟩ | ⟨low, high⟩ | ⟨low, high⟩ | low := gap
  · rw [regionTarget, if_neg (by omega), if_pos high, State.slotTarget_pass _ (by omega)]
  · rw [regionTarget, if_neg (by omega), if_neg (by omega), if_pos high, State.slotTarget_pass _ (by omega)]
  all_goals simp (disch := omega) only [regionTarget, if_neg, if_pos]

/-- Each word of the setup block lies at its own place from the address of the straps (01 R13). -/
theorem State.classify_setup (s : State) (k : Fin 16) :
    s.classify (setupAddr s.cfg.straps + BitVec.ofNat 24 (2 * k.val)) = .setup k := by
  have place : (setupAddr s.cfg.straps + BitVec.ofNat 24 (2 * k.val) - setupAddr s.cfg.straps).toNat = 2 * k.val := by
    rw [add_sub_cancel_left, BitVec.toNat_ofNat]
    omega
  have word : Fin.ofNat 16 (2 * k.val / 2) = k := Fin.ext (by simp only [Fin.ofNat]; omega)
  simp only [State.classify, place, word]
  exact if_pos (by omega)

/-- Settles O7: an address of the region has the class of its offset, and the offset the class of its range. -/
theorem addressesHaveTheClassOfTheMap : Obligations.AddressesHaveTheClassOfTheMap := by
  unfold Obligations.AddressesHaveTheClassOfTheMap
  refine ⟨State.classify_setup, fun s configured sound => ?_⟩
  have placed : ∀ {off : Nat} {t : Target}, off < 0x4000 → regionTarget off = t → s.classify (s.regionAddr off) = t := by
    intro off t inside h
    rw [State.classify_region configured sound off inside, h]
  refine ⟨fun e w => placed (by omega) (regionTarget_event e w),
    fun n k => placed (by have := Transport.num_lt n; omega) (regionTarget_transport n k),
    fun n k => placed (by have := Transport.num_lt n; omega) (regionTarget_chase n k),
    fun k => placed (by omega) (regionTarget_run k), fun k => placed (by omega) (regionTarget_switcher k),
    fun k => placed (by omega) (regionTarget_crosspoint k), fun k => placed (by omega) (regionTarget_level k),
    placed (by decide) (by decide), fun off low high even => ?overlay, fun off inside gap => placed inside (regionTarget_pass gap)⟩
  case overlay =>
    have whole : off / 2 * 2 = off := by omega
    exact placed (by omega) ((regionTarget_overlay low high).trans (congrArg _ whole))

end Sys2Proof.Machine
end

section
/-! PROOF. Stores by their class (01 R1 to R10): what each class forwards, captures and refuses, in a store cycle and in the write
half of a read-modify-write. -/

namespace Sys2Proof.Machine

/-- How a forwarded cycle ends (01 R1); compare the `match` of `State.forward`. -/
theorem ending_eq (mem : MemEnd) :
    (match mem with | .completes => CycleEnd.byMemory | .faults => .memFault) = if mem = .completes then .byMemory else .memFault := by
  cases mem <;> rfl

theorem hiByte_mergeLanes (lanes : Strobes) (old new : Word) :
    hiByte (mergeLanes lanes old new) = if lanes = .lower then hiByte old else hiByte new := by
  cases lanes <;> simp [mergeLanes]

theorem loByte_mergeLanes (lanes : Strobes) (old new : Word) :
    loByte (mergeLanes lanes old new) = if lanes = .upper then loByte old else loByte new := by
  cases lanes <;> simp [mergeLanes]

/-- A watched word is a word of a slot, a word of a table, or the service-done word. -/
theorem Watched.kinds (w : Watched) : w.slot = true ∨ w.table = true ∨ w = .service := by
  cases w <;> simp [Watched.slot, Watched.table]

namespace State

variable {s : State} {a : Addr}

/-! ## Cycles on a free bus -/

theorem exec_store (aligned : wordAligned a = true) (free : s.ptu.hold = none) (lanes : Strobes) (value : Word) (mem : MemEnd) :
    exec (.watchedWordStore a lanes value mem) s = .next (s.newCycle.storeTo (s.classify a) a lanes value mem false) := by
  show Host.Outcome.next _ = _
  rw [cycle_free free, wordAddr_aligned aligned]
  rfl

/-- A read-modify-write outside the overlay is its read half, and where memory completes it a store of its class (01 R10). -/
theorem exec_modify (aligned : wordAligned a = true) (free : s.ptu.hold = none) (plain : ∀ off, s.classify a ≠ .overlay off)
    (lanes : Strobes) (value : Word) (readMem writeMem : MemEnd) :
    exec (.readModifyWrite a lanes value readMem writeMem) s = .next
      (match readMem with
        | .faults => s.showing .memFault [⟨a, false, lanes, 0⟩]
        | .completes => (s.showing .byMemory [⟨a, false, lanes, 0⟩]).storeTo (s.classify a) a lanes value writeMem true) := by
  show Host.Outcome.next _ = _
  rw [cycle_free free, wordAddr_aligned aligned, show s.newCycle.classify a = s.classify a from rfl]
  unfold modify
  split
  case h_1 off overlay => exact absurd overlay (plain off)
  case h_2 => cases readMem <;> rfl

theorem regionStore_ready (hr : s.Ready) (t : Target) (off : Nat) (lanes : Strobes) (value : Word) (mem : MemEnd) :
    s.regionStore t off lanes value mem = s.newCycle.storeTo t (s.regionAddr off) lanes value mem false := by
  have inside : s.newCycle.inRegion t = t := if_pos hr.configured
  unfold regionStore
  rw [cycle_free hr.free, inside]
  rfl

/-- A store forwarded after the cycle's read half, if it has one. -/
theorem forward_showing (ending : CycleEnd) (fs : List Forwarded) (f : Forwarded) (mem : MemEnd) :
    (s.showing ending fs).forward f mem = s.showing (if mem = .completes then .byMemory else .memFault) (fs ++ [f]) := by
  cases mem <;> rfl

theorem newCycle_eq (s : State) : s.newCycle = s.showing .none [] := rfl

/-! ## Watched words (01 R2 to R5) -/

theorem storeWatched_faults {w : Watched} {lanes : Strobes} (taken : ¬(w = .service ∧ lanes = .both ∧ s.iru.stack = []))
    (a : Addr) (value : Word) (rmw : Bool) :
    s.storeWatched w a lanes value .faults rmw = s.forward ⟨a, true, lanes, value⟩ .faults := if_neg taken

theorem storeWatched_completes {w : Watched} {lanes : Strobes} (taken : ¬(w = .service ∧ lanes = .both ∧ s.iru.stack = []))
    (a : Addr) (value : Word) (rmw : Bool) :
    s.storeWatched w a lanes value .completes rmw =
      ((s.forward ⟨a, true, lanes, value⟩ .completes).capture w lanes value).afterCapture w lanes := if_neg taken

/-- A word of a slot is handed over by a full-word store alone (01 R3). -/
theorem afterCapture_slot {w : Watched} (h : w.slot = true) (s : State) (lanes : Strobes) :
    s.afterCapture w lanes = if lanes = .both then s.handOver w else s := by
  cases w with
  | crosspoint | level | service => cases h
  | _ => rfl

/-- Nothing follows the capture of a byte store to a go, take or service-done word, or of any store to a plain slot word. -/
theorem afterCapture_plain {w : Watched} {lanes : Strobes} (untabled : w.table = false) (quiet : lanes = .both → w.quiet = true)
    (s : State) : s.afterCapture w lanes = s := by
  by_cases full : lanes = .both
  · rw [afterCapture_slot (Watched.slot_of_quiet (quiet full)), if_pos full, handOver_quiet (quiet full)]
  · obtain slot | table | rfl := w.kinds
    · rw [afterCapture_slot slot, if_neg full]
    · rw [untabled] at table; cases table
    · exact if_neg full

/-! ## Setup words (01 R14) -/

theorem storeSetup_faults {k : Fin 16} {lanes : Strobes} (h : lanes = .both → k ≠ 15) (a : Addr) (value : Word) (rmw : Bool) :
    s.storeSetup k a lanes value .faults rmw = s.forward ⟨a, true, lanes, value⟩ .faults :=
  if_neg fun take => h take.2 take.1

theorem storeSetup_completes {k : Fin 16} {lanes : Strobes} (h : lanes = .both → k ≠ 15) (a : Addr) (value : Word) (rmw : Bool) :
    s.storeSetup k a lanes value .completes rmw = (s.forward ⟨a, true, lanes, value⟩ .completes).captureSetup k lanes value :=
  if_neg fun take => h take.2 take.1

end State

/-- Settles O8: a store that its class takes is forwarded, and where memory completes it captured; the latch then reads the
written lanes. -/
theorem storesAreForwardedAndCaptured : Obligations.StoresAreForwardedAndCaptured := by
  unfold Obligations.StoresAreForwardedAndCaptured
  refine ⟨fun a lanes value s aligned free => ?cycles, fun s w a lanes value wf => ?latches⟩
  case cycles =>
    have store := State.exec_store aligned free lanes value
    refine ⟨fun mem pass => ?pass, fun w watched kept => ?faults, fun w watched untabled quiet => ?captured,
      fun k setup plain => ⟨?setupFaults, ?setupCaptured⟩⟩
    case pass => rw [store, pass]; cases mem <;> rfl
    case faults =>
      have taken : ¬(w = .service ∧ lanes = .both ∧ s.newCycle.iru.stack = []) := fun h => kept ⟨h.1, h.2.1⟩
      rw [store, watched]
      exact congrArg _ (State.storeWatched_faults taken a value false)
    case captured =>
      have taken : ¬(w = .service ∧ lanes = .both ∧ s.newCycle.iru.stack = []) := by
        rintro ⟨rfl, full, -⟩
        cases quiet full
      rw [store, watched]
      exact congrArg _ ((State.storeWatched_completes taken a value false).trans (State.afterCapture_plain untabled quiet _))
    case setupFaults => rw [store, setup]; exact congrArg _ (State.storeSetup_faults plain a value false)
    case setupCaptured => rw [store, setup]; exact congrArg _ (State.storeSetup_completes plain a value false)
  case latches =>
    have read := State.latch_captured wf w a lanes value
    refine ⟨?_, ?_, fun v other => by rw [read, if_neg other]⟩
    · rw [read, if_pos rfl, hiByte_mergeLanes]
    · rw [read, if_pos rfl, loByte_mergeLanes]

end Sys2Proof.Machine
end

section
/-! PROOF. Stores that are refused: to the overlay (01 R9, R10) and to an ARMED event (01 R6, 07 R135). -/

namespace Sys2Proof.Machine

namespace State

variable {s x : State} {a : Addr} {lanes : Strobes}

/-! ## Refusals -/

/-- A store that is refused before anything is forwarded (01 R11). -/
theorem newCycle_refuse (hc : s.configured = true) (reason : AccessReason) (a : Addr) (lanes : Strobes) :
    s.newCycle.refuse reason a lanes false = s.refusal reason a lanes :=
  refuse_configured (s := s.newCycle) hc reason a lanes false

/-- The overlay has one class for the two addresses of a word (01 R12). -/
theorem classify_overlay (hr : s.Ready) {off : Nat} (low : 0x2000 ≤ off) (high : off < 0x28C0) :
    s.classify (s.regionAddr (off / 2 * 2)) = .overlay (off / 2 * 2) := by
  rw [classify_region hr.configured hr.cfg _ (by omega), regionTarget_overlay (by omega) (by omega)]
  congr 1
  omega

/-! ## Read-modify-writes of the overlay (01 R10) -/

/-- What a read-modify-write on an overlay word leaves: its write half refused at once, or standing with a held read half. -/
structure OverlayModified (s : State) (a : Addr) (lanes : Strobes) (t : State) : Prop where
  forwarded : t.ptu.bus.forwarded = []
  cfg : t.cfg = s.cfg
  ended : t.ptu.hold = none →
    t.ptu.bus.ending = .refused ∧ t.ptu.access = s.accessRecord .overlayStore a lanes true ∧
    (s.iru.level .access ≠ 0 → t.iru.isPending .access = true)
  held : ∀ h, t.ptu.hold = some h → h.writeHalf = some lanes ∧ t.ptu.bus.ending = .held ∧ t.ptu.access = s.ptu.access

/-- What the read half of a cycle that is answered at once leaves as the write half needs it. -/
structure ReadHalf (s x : State) : Prop where
  cfg : x.cfg = s.cfg
  rtu : x.rtu = s.rtu
  hold : x.ptu.hold = none
  access : x.ptu.access = s.ptu.access
  forwarded : x.ptu.bus.forwarded = []
  levels : x.iru.levels = s.iru.levels

theorem ReadHalf.modified (h : ReadHalf s x) (hc : s.configured = true) :
    OverlayModified s a lanes (x.refuse .overlayStore a lanes true) := by
  have configured : x.configured = true := by rw [configured, h.cfg]; exact hc
  rw [refuse_configured configured]
  refine ⟨h.forwarded, h.cfg, fun _ => ⟨rfl, ?record, fun raised => ?flag⟩, fun k held => ?held⟩
  case record => simp only [accessRecord, stamp, h.rtu, h.access]
  case flag =>
    refine (Iru.isPending_raise _ _ _).trans (if_pos ⟨rfl, ?_⟩)
    rwa [Iru.level, h.levels]
  case held => cases h.hold.symm.trans held

/-- The read half that a take completes (01 R17). -/
theorem ReadHalf.completeTake (h : ReadHalf s x) (hc : s.configured = true) (n : Transport) (w : Word) :
    ReadHalf s (x.completeTake n w) := by
  have configured : x.configured = true := by rw [configured, h.cfg]; exact hc
  rw [completeTake_configured configured]
  exact ⟨h.cfg, h.rtu, h.hold, h.access, h.forwarded, h.levels⟩

theorem ReadHalf.newCycle (free : s.ptu.hold = none) : ReadHalf s s.newCycle := ⟨rfl, rfl, free, rfl, rfl, rfl⟩

/-- The read half of a take word: an entry, EMPTY at once, EMPTY by INTERRUPT, or held (01 R17, R18). -/
theorem takeRead_modified (hr : s.Ready) {off : Nat} {n : Transport} (port : takeWordOf? off = some n) :
    OverlayModified s (s.regionAddr off) .both (s.newCycle.takeRead n (some .both)) := by
  have refused : ∀ {x : State} (w : Word), ReadHalf s x →
      OverlayModified s (s.regionAddr off) .both ((x.completeTake n w).takeWriteHalf n (some .both)) := by
    intro x w half
    have half' := half.completeTake hr.configured n w
    have port' : (x.completeTake n w).takeAddr n = s.regionAddr off := by
      rw [← takeWordOf?_addr port]
      simp only [takeAddr, regionBase, half'.cfg]
    unfold takeWriteHalf
    rw [port']
    exact half'.modified hr.configured
  have start := ReadHalf.newCycle hr.free
  unfold takeRead
  split
  · exact refused _ ⟨start.cfg, start.rtu, start.hold, start.access, start.forwarded, start.levels⟩
  · split_ifs with atOnce raised
    · exact refused _ start
    · exact refused _ start
    · exact ⟨rfl, rfl, fun free => (by cases free), fun h held => (by cases held; exact ⟨rfl, rfl, rfl⟩)⟩

theorem overlayModify_modified (hr : s.Ready) (off : Nat) (lanes : Strobes) :
    OverlayModified s (s.regionAddr off) lanes (s.newCycle.overlayModify off (s.regionAddr off) lanes) := by
  have start := ReadHalf.newCycle hr.free
  unfold overlayModify
  split
  · exact takeRead_modified hr ‹_›
  · exact ReadHalf.modified ⟨start.cfg, start.rtu, start.hold, start.access, start.forwarded, start.levels⟩ hr.configured

/-! ## Events (01 R6) -/

/-- A store to a word of an ARMED event is refused (07 R135). -/
theorem storeEvent_armed {e : Fin 64} (h : s.eventState e = .armed) (w : Fin 32) (a : Addr) (lanes : Strobes) (value : Word)
    (mem : MemEnd) (rmw : Bool) : s.storeEvent e w a lanes value mem rmw = s.refuse .eventArmed a lanes rmw := if_pos h

end State

/-- Settles O9: the word has the class of the overlay, whose stores are refused; a read-modify-write answers its read half, and
its write half is refused or stands with the hold. -/
theorem overlayStoresAreRefused : Obligations.OverlayStoresAreRefused := by
  unfold Obligations.OverlayStoresAreRefused
  intro off lanes value s low high ready
  have even : wordAligned (s.regionAddr (off.toNat / 2 * 2)) = true := State.regionAddr_even (by omega)
  have overlay := State.classify_overlay ready low high
  refine ⟨fun mem => ⟨?overlayStore, ?store⟩, fun rm wm => ?modify⟩
  case overlayStore =>
    show Host.Outcome.next _ = _
    rw [State.regionStore_ready ready, regionTarget_overlay low high]
    exact congrArg _ (State.newCycle_refuse ready.configured ..)
  case store =>
    rw [State.exec_store even ready.free, overlay]
    exact congrArg _ (State.newCycle_refuse ready.configured ..)
  case modify =>
    have modified := State.overlayModify_modified ready (off.toNat / 2 * 2) lanes
    refine ⟨_, ?answers, modified.forwarded, modified.cfg, modified.ended, modified.held⟩
    show Host.Outcome.next _ = _
    rw [State.cycle_free ready.free, State.wordAddr_aligned even,
      show s.newCycle.classify (s.regionAddr _) = s.classify (s.regionAddr _) from rfl, overlay]
    rfl

/-- Settles O14: the event state is tested before anything is forwarded, whatever the word and the strobes. -/
theorem storesToAnArmedEventAreRefused : Obligations.StoresToAnArmedEventAreRefused := by
  unfold Obligations.StoresToAnArmedEventAreRefused
  intro e w lanes value mem s ready armed
  have refused : ∀ w : Fin 32, s.regionStore (.event e w) (eventOffset e w.val) lanes value mem =
      s.refusal .eventArmed (s.regionAddr (eventOffset e w.val)) lanes := by
    intro w
    rw [State.regionStore_event ready, State.storeEvent_armed (s := s.newCycle) armed, State.newCycle_refuse ready.configured]
  have event : s.classify (s.regionAddr (64 * e.val + 2 * w.val)) = .event e w := by
    rw [State.classify_region ready.configured ready.cfg _ (by omega), regionTarget_event]
  have even : wordAligned (s.regionAddr (64 * e.val + 2 * w.val)) = true := State.regionAddr_even (by omega)
  have modified := State.exec_modify even ready.free (by rw [event]; simp) lanes value .completes mem
  rw [event] at modified
  exact ⟨fun _ => congrArg _ (refused w), congrArg _ (refused 0), _,
    modified.trans (congrArg _ ((State.storeEvent_armed (s := s.showing ..) armed ..).trans
      (State.refuse_configured (s := s.showing ..) ready.configured ..))), rfl, rfl, rfl, rfl⟩

/-- Settles O12: the store is `State.eventStored` of a word other than the kind word, or `State.faultedStore`. -/
theorem eventWordStoresMakeADraft : Obligations.EventWordStoresMakeADraft := by
  unfold Obligations.EventWordStoresMakeADraft
  intro e w lanes value s other ready unarmed
  have draft : storedState w.val lanes value = .draft :=
    if_neg fun kind => other (Fin.ext kind)
  refine ⟨?completes, congrArg _ (State.regionStore_event_faults ready unarmed w lanes value)⟩
  show Host.Outcome.next _ = _
  rw [State.regionStore_event_completes ready unarmed, State.eventStored, draft]
  rfl

end Sys2Proof.Machine
end

section
/-! PROOF. The setup take (01 R14 to R16): its checks, the first take, and the two retakes. -/

namespace Sys2Proof.Machine

/-- A link told of a take sends a probe if it may (04 R65). -/
theorem Link.setupTaken_eq (l : Link) :
    l.setupTaken = if l.state ≠ .up ∧ l.breakLeft = none ∧ l.inFlight = none
      then ({ l with probeInterval := 0 } : Link).launch probeEntry else l := by
  simp only [Link.setupTaken, Link.canProbe_iff]
  rfl

/-- The code 3 is the one reserved code of a frame standard (11.2). -/
theorem Standard.ofCode?_eq_none {k : Nat} (h : k < 4) : Standard.ofCode? k = none ↔ k = 3 := by
  have all : ∀ k : Fin 4, Standard.ofCode? k.val = none ↔ k.val = 3 := by decide
  exact all ⟨k, h⟩

theorem Six.any_toList {α : Type} (x : Six α) (p : α → Bool) : x.toList.any p = true ↔ ∃ n, p (x.get n) = true := by
  constructor
  · intro h
    simp only [Six.toList, List.any_cons, List.any_nil, Bool.or_false, Bool.or_eq_true] at h
    obtain h | h | h | h | h | h := h
    exacts [⟨.t0, h⟩, ⟨.t1, h⟩, ⟨.t2, h⟩, ⟨.t3, h⟩, ⟨.t4, h⟩, ⟨.t5, h⟩]
  · rintro ⟨n, h⟩
    cases n <;> simp_all [Six.toList, Six.get]

/-- A reader as after a retake that changes the standard is as after another. -/
theorem Reader.restart_restart (r : Reader) : r.restart.restart = r.restart := by
  simp [Reader.restart, Reader.reset]

namespace State

variable {s : State} {u : Setup}

/-! ## The checks (01 R14) -/

theorem requestedSetup_eq_none : s.requestedSetup = none ↔ (s.cfg.setupLatches.read 1).toNat % 4 = 3 := by
  rw [requestedSetup, Setup.ofWords, Option.map_eq_none_iff]
  exact Standard.ofCode?_eq_none (Nat.mod_lt _ (by decide))

theorem requestedSetup_base (h : s.requestedSetup = some u) : u.regionBase = (s.cfg.setupLatches.read 0).setWidth 10 := by
  rw [requestedSetup, Setup.ofWords, Option.map_eq_some_iff] at h
  obtain ⟨std, -, rfl⟩ := h
  rfl

/-- The record that is requested with a standard that is not reserved (01 R13, R15). -/
theorem requestedSetup_of_code {std : Standard} (h : Standard.ofCode? ((s.cfg.setupLatches.read 1).toNat % 4) = some std) :
    ∃ u, s.requestedSetup = some u ∧ u =
      { regionBase := (s.cfg.setupLatches.read 0).setWidth 10, standard := std
        vectorBase := loByte (s.cfg.setupLatches.read 2) &&& 0xE0, holdLimit := loByte (s.cfg.setupLatches.read 3)
        coastLimit := if loByte (s.cfg.setupLatches.read 4) = 0 then 25 else loByte (s.cfg.setupLatches.read 4)
        requireReference := (s.cfg.setupLatches.read 5).getLsbD 0, frameAllowed := (s.cfg.setupLatches.read 5).getLsbD 1 } :=
  ⟨_, by rw [requestedSetup, Setup.ofWords, h, Option.map_some], rfl⟩

theorem chasing_iff : s.chases.toList.any (fun c => c.state != .idle) = true ↔ ∃ n, (s.chase n).state ≠ .idle := by
  rw [Six.any_toList]
  simp only [bne_iff_ne]
  rfl

/-- The four checks in their order. -/
theorem checkSetup_of_requested (h : s.requestedSetup = some u) :
    s.checkSetup =
      if highBits (setupAddr s.cfg.straps) = u.regionBase then .error .setupOverlap
      else if s.configured = true ∧ s.run.state ≠ .idle then .error .setupRunActive
      else if s.configured = true ∧ s.chases.toList.any (fun c => c.state != .idle) = true then .error .setupChaseActive
      else .ok u := by
  simp only [checkSetup, h, Bool.and_eq_true, bne_iff_ne]

theorem checkSetup_reserved (h : s.requestedSetup = none) : s.checkSetup = .error .setupStandard := by
  simp only [checkSetup, h]

/-! ## A take request on a free bus -/

theorem exec_setupTake (free : s.ptu.hold = none) (value : Word) (mem : MemEnd) :
    exec (.setupTake value mem) s = .next (s.newCycle.takeRequest (setupAddr s.cfg.straps + 30) value mem false) := by
  show Host.Outcome.next _ = _
  rw [cycle_free free]
  rfl

theorem takeRequest_refused {r : AccessReason} (h : s.checkSetup = .error r) (a : Addr) (value : Word) (mem : MemEnd) (rmw : Bool) :
    s.takeRequest a value mem rmw = s.refuse r a .both rmw := by
  simp only [takeRequest, h]

/-- A take that memory completes is captured in the latch of word 15, and is then a first take or a retake. -/
theorem takeRequest_taken (h : s.checkSetup = .ok u) (a : Addr) (value : Word) (rmw : Bool) :
    s.takeRequest a value .completes rmw =
      let x := (s.forward ⟨a, true, .both, value⟩ .completes).captureSetup 15 .both value
      match s.cfg.setup with
      | none => x.firstTake u
      | some old => x.retake u old.standard := by
  simp only [takeRequest, h]
  rfl

theorem firstTake_cfg (s : State) (u : Setup) : (s.firstTake u).cfg = { s.cfg with setup := some u } :=
  (followConditions_tame (r := true)).cfg

theorem retake_cfg (s : State) (u : Setup) (old : Standard) : (s.retake u old).cfg = { s.cfg with setup := some u } := by
  unfold retake
  simp only
  split_ifs
  · rfl
  · exact ((changeStandard_rough (s := s.setSetup u)).then_ tellLinks_rough |>.then_ overdueBoundary_rough).cfg
  · exact ((changeStandard_rough (s := s.setSetup u)).then_ tellLinks_rough).cfg

/-- What a take that is not refused leaves in the configuration. -/
theorem takeRequest_cfg (h : s.checkSetup = .ok u) (a : Addr) (value : Word) (rmw : Bool) :
    (s.takeRequest a value .completes rmw).cfg =
      { s.cfg with setup := some u, setupLatches := s.cfg.setupLatches.write 15 value } := by
  rw [takeRequest_taken h]
  split
  · exact firstTake_cfg _ u
  · exact retake_cfg _ u _

/-- The latch of word 15 holds the take's word, and the other setup latches stand. -/
theorem takeLatches (wf : WordMap.wf s.cfg.setupLatches = true) (value : Word) :
    (s.cfg.setupLatches.write 15 value).read 15 = value ∧
    ∀ k, k ≠ 15 → (s.cfg.setupLatches.write 15 value).read k = s.cfg.setupLatches.read k :=
  ⟨by rw [WordMap.read_write _ _ _ _ wf, if_pos rfl], fun k other => by rw [WordMap.read_write _ _ _ _ wf, if_neg other]⟩

/-- The state in which a take acts: its word captured, and shown on the bus. -/
def takeCaptured (s : State) (value : Word) : State :=
  (s.newCycle.forward ⟨setupAddr s.cfg.straps + 30, true, .both, value⟩ .completes).captureSetup 15 .both value

/-- A take by SETUP_TAKE while UNCONFIGURED. -/
theorem exec_firstTake (unconfigured : s.configured = false) (free : s.ptu.hold = none) (ok : s.checkSetup = .ok u) (value : Word) :
    exec (.setupTake value .completes) s = .next ((s.takeCaptured value).firstTake u) := by
  have none : s.newCycle.cfg.setup = none := Option.isSome_eq_false_iff.1 unconfigured |> Option.isNone_iff_eq_none.1
  rw [exec_setupTake free, takeRequest_taken (s := s.newCycle) ok, none]
  rfl

/-- A take by SETUP_TAKE while CONFIGURED. -/
theorem exec_retake (ready : s.Ready) (ok : s.checkSetup = .ok u) (value : Word) :
    exec (.setupTake value .completes) s = .next ((s.takeCaptured value).retake u s.standard) := by
  obtain ⟨old, some⟩ := Option.isSome_iff_exists.1 ready.configured
  have inForce : s.standard = old.standard := by rw [standard, some]
  rw [exec_setupTake ready.free, takeRequest_taken (s := s.newCycle) ok, show s.newCycle.cfg.setup = _ from some, inForce]
  rfl

/-- A retake of an idle part passes its checks if its region does not contain the setup block. -/
theorem checkSetup_idle (idle : s.run.state = .idle) (chases : ∀ n, (s.chase n).state = .idle) (h : s.requestedSetup = some u)
    (apart : highBits (setupAddr s.cfg.straps) ≠ u.regionBase) : s.checkSetup = .ok u := by
  rw [checkSetup_of_requested h, if_neg apart, if_neg (fun c => c.2 idle), if_neg]
  rintro ⟨-, working⟩
  obtain ⟨n, busy⟩ := chasing_iff.1 working
  exact busy (chases n)

theorem tellLinks_link (s : State) (n : Transport) : s.tellLinks.link n = (s.link n).setupTaken := Six.get_map ..

/-! ## A retake with another standard (01 R16) -/

/-- The readers of `ts` begin again, and those that were not SILENT raise READER (03 R55, R58). -/
theorem restartReaders (hc : s.configured = true) (hh : s.ptu.hold = none) (ts : List Transport) :
    let t := forTransports ts (fun n s => s.putReader n (s.reader n).restart) s
    (∃ x v, t = { s with readers := x, iru := v }) ∧
    (∀ m, t.reader m = if m ∈ ts then (s.reader m).restart else s.reader m) ∧
    ∀ m ∈ ts, (s.reader m).state ≠ .silent → s.iru.level .reader ≠ 0 → t.iru.isPending .reader = true := by
  induction ts generalizing s with
  | nil => exact ⟨⟨_, _, rfl⟩, fun _ => rfl, fun _ h => by cases h⟩
  | cons n ts ih =>
    obtain ⟨x, put, raised⟩ : ∃ v, s.putReader n (s.reader n).restart =
        { s with readers := s.readers.set n (s.reader n).restart, iru := v } ∧
        ((s.reader n).state ≠ .silent → v = s.iru.raise .reader) := by
      by_cases silent : (s.reader n).state = .silent
      · exact ⟨s.iru, putReader_same silent, fun h => absurd silent h⟩
      · exact ⟨_, putReader_moved hc hh silent, fun _ => rfl⟩
    have tame : Tame false s (s.putReader n (s.reader n).restart) := putReader_rough ..
    have rest : Tame false (s.putReader n (s.reader n).restart)
        (forTransports ts (fun n s => s.putReader n (s.reader n).restart) (s.putReader n (s.reader n).restart)) :=
      Tame.forTransports (fun n s => putReader_rough n _) _ _
    obtain ⟨⟨y, v, same⟩, readers, pending⟩ := ih (s := s.putReader n (s.reader n).restart)
      (by rw [configured, tame.cfg]; exact hc) (tame.hold hh)
    have reader : ∀ m, (s.putReader n (s.reader n).restart).reader m = if m = n then (s.reader n).restart else s.reader m := by
      intro m
      rw [put]
      exact Six.get_set ..
    refine ⟨?same, fun m => ?readers, fun m hm moved level => ?pending⟩
    case same => exact ⟨y, v, same.trans (by rw [put])⟩
    case readers =>
      refine (readers m).trans ?_
      rw [reader m]
      by_cases first : m = n
      · simp [first, Reader.restart_restart]
      · simp [first]
    case pending =>
      by_cases first : m = n
      · refine rest.events _ rfl ?_
        rw [put, raised (first ▸ moved)]
        exact (Iru.isPending_raise ..).trans (if_pos ⟨rfl, level⟩)
      · refine pending m ((List.mem_cons.1 hm).resolve_left first) ?_ ?_
        · rw [reader m, if_neg first]; exact moved
        · rw [Iru.level, tame.levels]; exact level

end State

end Sys2Proof.Machine
end

section
/-! PROOF. The setup take: what it puts in force, what it refuses, and what it leaves (01 R14 to R16). -/

namespace Sys2Proof.Machine

/-- Settles O17: the first failing check is the answer of `State.checkSetup`, and the take is refused with it. -/
theorem aTakeThatFailsACheckIsRefused : Obligations.ATakeThatFailsACheckIsRefused := by
  unfold Obligations.ATakeThatFailsACheckIsRefused
  intro value mem s free reserved overlap running chasing reason failing
  have refused : s.checkSetup = .error reason := by
    cases requested : s.requestedSetup with
    | none =>
      have reserved' : reserved := State.requestedSetup_eq_none.1 requested
      obtain ⟨-, rfl⟩ | ⟨no, -⟩ | ⟨no, -⟩ | ⟨no, -⟩ := failing
      · exact State.checkSetup_reserved requested
      all_goals exact absurd reserved' no
    | some u =>
      have unreserved : ¬reserved := fun h => by rw [State.requestedSetup_eq_none.2 h] at requested; cases requested
      have inside : highBits (setupAddr s.cfg.straps) = u.regionBase ↔ overlap := by
        rw [State.requestedSetup_base requested]
      have busy : (s.configured = true ∧ s.chases.toList.any (fun c => c.state != .idle) = true) ↔ chasing :=
        and_congr_right fun _ => State.chasing_iff
      have checks := State.checkSetup_of_requested requested
      obtain ⟨yes, -⟩ | ⟨-, yes, rfl⟩ | ⟨-, no, yes, rfl⟩ | ⟨-, no, no', yes, rfl⟩ := failing
      · exact absurd yes unreserved
      · rw [checks, if_pos (inside.2 yes)]
      · rw [checks, if_neg (mt inside.1 no), if_pos yes]
      · rw [checks, if_neg (mt inside.1 no), if_neg no', if_pos (busy.2 yes)]
  rw [State.exec_setupTake free, State.takeRequest_refused (s := s.newCycle) refused]
  cases configured : s.configured with
  | true => exact congrArg _ (State.refuse_configured (s := s.newCycle) configured ..)
  | false => exact congrArg _ (State.refuse_unconfigured (s := s.newCycle) configured ..)

/-- Settles O16: the record in force is the one requested; the conditions are followed, which changes the Interrupt Unit alone,
and then the links are told. -/
theorem aFirstTakeConfiguresThePart : Obligations.AFirstTakeConfiguresThePart := by
  unfold Obligations.AFirstTakeConfiguresThePart
  intro value s std unconfigured free wf code apart
  obtain ⟨u, requested, inForce⟩ := State.requestedSetup_of_code code
  have off : ∀ p : Prop, ¬(s.configured = true ∧ p) := fun p h => by rw [unconfigured] at h; cases h.1
  have ok : s.checkSetup = .ok u := by
    rw [State.checkSetup_of_requested requested, if_neg (inForce ▸ apart), if_neg (off _), if_neg (off _)]
  obtain ⟨own, others⟩ := State.takeLatches wf value
  have answered := State.exec_firstTake unconfigured free ok value
  obtain ⟨v, followed⟩ := State.followConditions_free (s := (s.takeCaptured value).setSetup u) free
  have links : ∀ n, ((s.takeCaptured value).firstTake u).link n = (s.link n).setupTaken := by
    intro n
    rw [State.firstTake, State.tellLinks_link, followed]
    rfl
  refine ⟨_, answered, ?_⟩
  have shape : (s.takeCaptured value).firstTake u =
      ({ (s.takeCaptured value).setSetup u with iru := v } : State).tellLinks := by rw [State.firstTake, followed]
  refine ⟨?setup, ?cfg, ?own, ?others, ?ptu, ?deck, ?run, fun n => ?link, ?same⟩
  case deck => exact fun n => State.syncDecks_follow Transport.all _ n (.inr (Transport.mem_all n))
  case run => exact (Tame.forTransports (r := true) (fun n _ => State.syncDeck_tame n) _ _).runFault State.syncRunFault_follows
  case link => rw [links n, Link.setupTaken_eq]
  case setup => rw [shape, inForce]; rfl
  case same => rw [shape]; rfl
  case ptu => rw [shape]; rfl
  case cfg => rw [shape]; rfl
  case own => rw [shape]; exact own
  case others => rw [shape]; exact others

/-- Settles O18: with the same standard the retake puts the record in force and tells the links. -/
theorem aRetakeReplacesTheRecord : Obligations.ARetakeReplacesTheRecord := by
  unfold Obligations.ARetakeReplacesTheRecord
  intro value s u ready idle chases requested apart same
  have retaken : (s.takeCaptured value).retake u s.standard = ((s.takeCaptured value).setSetup u).tellLinks := if_pos same.symm
  have answered := State.exec_retake ready (State.checkSetup_idle idle chases requested apart) value
  rw [retaken] at answered
  obtain ⟨own, others⟩ := State.takeLatches ready.cfg.setupLatches value
  refine ⟨_, answered, rfl, rfl, own, others, rfl, fun n => ?_, rfl⟩
  rw [State.tellLinks_link, Link.setupTaken_eq]
  rfl

end Sys2Proof.Machine
end

section
/-! PROOF. A retake that changes the frame standard (01 R16): what begins again in the readers, the reference and the contexts. -/

namespace Sys2Proof.Machine

/-- A SILENT reader with no position has no work at a boundary (03 R50): a reader just restarted stands. -/
theorem Reader.boundary_restart (r : Reader) (std : Standard) (coast len : Nat) : r.restart.boundary std coast len = r.restart := rfl

theorem Reader.restart_eq (r : Reader) :
    r.restart = { Reader.reset with changeFlag := r.changeFlag || decide (r.state ≠ .silent) } := by
  simp [Reader.restart, bne, beq_eq_decide]

/-- The reference begins again (02 R36): LOCKED becomes ACQUIRING, and the suite clock is 0. -/
def Rtu.restandarded (r : Rtu) : Rtu :=
  { r with
    state := if r.state = .locked then .acquiring else r.state
    pulseTimer := 0, owed := false, goodRun := 0, disturbanceRun := 0, clock := 0 }

namespace State

variable {s : State} {u : Setup}

theorem restandard_ready (hc : s.configured = true) (hh : s.ptu.hold = none) (idle : s.run.state = .idle) :
    ∃ v, s.restandard = { s with rtu := s.rtu.restandarded, iru := v } ∧ (s.rtu.state = .locked → v = s.iru.raise .reference) ∧
      (s.iru.isPending .reader = true → v.isPending .reader = true) := by
  by_cases locked : s.rtu.state = .locked
  · have leaves : s.rtu.state ≠ s.rtu.restandarded.state := by simp [Rtu.restandarded, locked]
    exact ⟨_, enterReference_ready hc hh s.rtu.restandarded leaves (.inr (.inl idle)), fun _ => rfl,
      fun h => (Iru.isPending_raise ..).trans ((if_neg (by simp)).trans h)⟩
  · have stays : s.rtu.state = s.rtu.restandarded.state := by simp [Rtu.restandarded, locked]
    exact ⟨s.iru, if_pos stays, fun h => absurd h locked, id⟩

/-- What a changed standard leaves of a ready part whose run is IDLE, before the boundary that it may make. -/
structure Restandarded (s t : State) : Prop where
  same : t = { s with rtu := s.rtu.restandarded, readers := t.readers, links := t.links, ctxs := t.ctxs, iru := t.iru }
  reader : ∀ n, t.reader n = (s.reader n).restart
  ctx : ∀ n, t.ctx n = { s.ctx n with sensedPos := none }
  link : ∀ n, t.link n = (s.link n).setupTaken
  reference : s.rtu.state = .locked → s.iru.level .reference ≠ 0 → t.iru.isPending .reference = true
  raised : ∀ n, (s.reader n).state ≠ .silent → s.iru.level .reader ≠ 0 → t.iru.isPending .reader = true

theorem changeStandard_ready (hc : s.configured = true) (hh : s.ptu.hold = none) (idle : s.run.state = .idle) :
    Restandarded s s.changeStandard.tellLinks := by
  have tame : Tame false s (forTransports Transport.all (fun n s => s.putReader n (s.reader n).restart) s) :=
    Tame.forTransports (fun n s => putReader_rough n _) _ _
  have levels := tame.levels
  obtain ⟨⟨x, v, same⟩, reader, raised⟩ := restartReaders hc hh Transport.all
  obtain ⟨w, again, locked, kept⟩ := restandard_ready
    (s := { s with readers := x, iru := v, ctxs := s.ctxs.map ({ · with sensedPos := none }) }) hc hh idle
  have shape : s.changeStandard =
      { s with rtu := s.rtu.restandarded, readers := x, iru := w, ctxs := s.ctxs.map ({ · with sensedPos := none }) } := by
    unfold changeStandard
    simp only
    rw [same]
    exact again
  rw [same] at reader raised levels
  rw [shape]
  refine ⟨rfl, fun n => ?_, fun n => Six.get_map .., fun n => tellLinks_link _ n, fun was level => ?_, fun n moved level => ?_⟩
  · exact (reader n).trans (if_pos (Transport.mem_all n))
  · show w.isPending .reference = true
    rw [locked was]
    exact (Iru.isPending_raise ..).trans (if_pos ⟨rfl, by rw [Iru.level, levels]; exact level⟩)
  · exact kept (raised n (Transport.mem_all n) moved level)

/-- The retake, up to the boundary that it makes at once where the reference was LOCKED. -/
theorem retake_other (s : State) {old : Standard} (other : u.standard ≠ old) :
    s.retake u old =
      if s.rtu.state = .locked then (s.setSetup u).changeStandard.tellLinks.overdueBoundary
      else (s.setSetup u).changeStandard.tellLinks := if_neg other

/-- A boundary is overdue only in ACQUIRING with the phase counter at 64 or above (02 R36). -/
theorem overdueBoundary_none (h : ¬(s.rtu.state = .acquiring ∧ 64 ≤ s.rtu.phase)) : s.overdueBoundary = s := if_neg h

theorem overdueBoundary_made (h : s.rtu.state = .acquiring) (h' : 64 ≤ s.rtu.phase) : s.overdueBoundary = s.frameBoundary false :=
  if_pos ⟨h, h'⟩

end State

/-- Settles O19: the standard changed and the links told; from LOCKED with the phase counter at 64 or above the frame boundary
follows, which leaves restarted readers and raised sources as they are. -/
theorem aRetakeWithAnotherStandardRestarts : Obligations.ARetakeWithAnotherStandardRestarts := by
  unfold Obligations.ARetakeWithAnotherStandardRestarts
  intro value s u ready idle chases requested apart other rtu
  have answered := State.exec_retake ready (State.checkSetup_idle idle chases requested apart) value
  rw [State.retake_other _ (Ne.symm other)] at answered
  obtain ⟨own, others⟩ := State.takeLatches ready.cfg.setupLatches value
  have changed := State.changeStandard_ready (s := (s.takeCaptured value).setSetup u) rfl ready.free idle
  generalize ht : ((s.takeCaptured value).setSetup u).changeStandard.tellLinks = t at answered changed
  have cfg : t.cfg = ((s.takeCaptured value).setSetup u).cfg := by rw [changed.same]
  have ptu : t.ptu = ((s.takeCaptured value).setSetup u).ptu := by rw [changed.same]
  have new : t.rtu = rtu := by rw [changed.same]; rfl
  by_cases overdue : s.rtu.state = .locked ∧ 64 ≤ s.rtu.phase
  · obtain ⟨locked, late⟩ := overdue
    have acquiring : t.rtu.state = .acquiring := by rw [new]; exact if_pos locked
    have past : 64 ≤ t.rtu.phase := by rw [new]; exact late
    have standard : t.standard = u.standard := by rw [State.standard, cfg]; rfl
    have bounded : Tame false t (t.frameBoundary false) := State.frameBoundary_rough
    rw [if_pos (show (s.takeCaptured value).rtu.state = .locked from locked), State.overdueBoundary_made acquiring past] at answered
    refine ⟨_, answered, ?_, ?_, ?_, fun n => ?_, fun _ level => ?_, fun n moved level => ?_, fun no => absurd ⟨locked, late⟩ no,
      fun _ _ => ?_⟩
    · rw [bounded.cfg, cfg]; rfl
    · rw [bounded.cfg, cfg]; exact own
    · rw [bounded.cfg, cfg]; exact others
    · rw [State.frameBoundary_reader, changed.reader n, Reader.boundary_restart, Reader.restart_eq]
      rfl
    · exact bounded.events _ rfl (changed.reference locked level)
    · exact bounded.events _ rfl (changed.raised n moved level)
    · rw [State.frameBoundary_rtu, standard, new]
  · have unbounded : (if (s.takeCaptured value).rtu.state = .locked then t.overdueBoundary else t) = t := by
      split_ifs with locked
      · refine State.overdueBoundary_none fun late => overdue ⟨locked, ?_⟩
        have past := late.2
        rw [new] at past
        exact past
      · rfl
    rw [unbounded] at answered
    refine ⟨_, answered, ?_, ?_, ?_, fun n => ?_, changed.reference, changed.raised, fun _ => ⟨new, ?_, changed.ctx, fun n => ?_, ?_⟩,
      fun locked late => absurd ⟨locked, late⟩ overdue⟩
    · rw [cfg]; rfl
    · rw [cfg]; exact own
    · rw [cfg]; exact others
    · rw [changed.reader n, Reader.restart_eq]; rfl
    · rw [ptu]; rfl
    · rw [changed.link n, Link.setupTaken_eq]; rfl
    · rw [cfg, ptu, new]; exact changed.same

end Sys2Proof.Machine
end

section
/-! PROOF. The request level, the level table, the in-service stack and the crosspoint table (10 R193 to R197, 01 R4, R5). -/

namespace Sys2Proof.Machine

namespace Iru

/-- The request level is 0 or that of a source that asks (10 R194). -/
theorem formed_zero_or_asked (u : Iru) : u.formed = 0 ∨ ∃ i, u.asks i = true ∧ u.level i = u.formed := by
  obtain ⟨none | ⟨i, asking, highest⟩, -⟩ := foldl_higher_spec u.level (Irq.all.filter u.asks) 0
  · exact .inl none
  · exact .inr ⟨i, (List.mem_filter.1 asking).2, highest.symm⟩

/-- No source that asks has a level above the request level (10 R194). -/
theorem level_le_formed (u : Iru) {i : Irq} (h : u.asks i = true) : u.level i ≤ u.formed := by
  obtain ⟨-, -, highest⟩ := foldl_higher_spec u.level (Irq.all.filter u.asks) 0
  exact highest i (List.mem_filter.2 ⟨Irq.mem_all i, h⟩)

theorem asks_iff {u : Iru} {i : Irq} : u.asks i = true ↔ u.isPending i = true ∧ u.top < u.level i := by
  simp only [asks, Bool.and_eq_true, decide_eq_true_eq]

/-! A level stored for a source (10 R193). -/

/-- Level 0 clears the flag of an event source, and of no condition source. -/
theorem isPending_setLevel_eq (u : Iru) (i j : Irq) (l : Level) :
    (u.setLevel i l).isPending j = if j = i ∧ l = 0 ∧ i.condition = false then false else u.isPending j := by
  unfold setLevel
  simp only [isPending_reform, Bool.and_eq_true, decide_eq_true_eq, Bool.not_eq_true']
  by_cases clears : l = 0 ∧ i.condition = false
  · rw [if_pos clears, isPending_setPending]
    simp only [clears, and_self, and_true]
    rfl
  · rw [if_neg clears, if_neg fun h => clears h.2]
    rfl

/-- The rest of a level store: the stack stands, and the request level is formed again and driven. -/
theorem setLevel_fields (u : Iru) (i : Irq) (l : Level) :
    (u.setLevel i l).stack = u.stack ∧ (u.setLevel i l).request = (u.setLevel i l).formed ∧
    ∀ m : Level, (u.setLevel i l).driven[m] =
      (u.driven[m] || (decide (m ≠ 0) && decide (m = (u.setLevel i l).request))) := by
  unfold setLevel
  simp only
  split_ifs <;> exact ⟨rfl, rfl, driven_reform _⟩

end Iru

namespace State

variable {s : State}

theorem afterCapture_crosspoint (s : State) (k : Fin 8) (lanes : Strobes) :
    s.afterCapture (.crosspoint k) lanes =
      { s with mixer := { s.mixer with
          pendingCross := s.mixer.pendingCross.set k (some ((s.latch (.crosspoint k)).setWidth 5)) } } := rfl

theorem afterCapture_level (s : State) (i : Irq) (lanes : Strobes) :
    s.afterCapture (.level i.num) lanes =
      { s with iru := s.iru.setLevel i (Fin.ofNat 8 (s.latch (.level i.num)).toNat) } := by
  show s.setIru (s.iru.setLevel (levelSource i.num) _) = _
  rw [levelSource_num]
  rfl

theorem afterCapture_service (s : State) (lanes : Strobes) :
    s.afterCapture .service lanes = if lanes = .both then { s with iru := s.iru.pop } else s := rfl

/-- The latch reads the store that has just been captured. -/
theorem latch_captured_self (wf : WordMap.wf s.cfg.latches = true) (w : Watched) (a : Addr) (lanes : Strobes) (value : Word) :
    (s.captured w a lanes value).latch w = mergeLanes lanes (s.latch w) value :=
  (latch_captured wf w a lanes value w).trans (if_pos rfl)

/-- A store cycle of the region to a watched word that memory completes. -/
theorem regionStore_completes (hr : s.Ready) {w : Watched} {lanes : Strobes}
    (taken : ¬(w = .service ∧ lanes = .both ∧ s.iru.stack = [])) (value : Word) :
    s.regionStore (.watched w) w.offset lanes value .completes =
      (s.captured w (s.regionAddr w.offset) lanes value).afterCapture w lanes := by
  rw [regionStore_ready hr]
  exact storeWatched_completes (s := s.newCycle) taken ..

theorem regionStore_faults (hr : s.Ready) {w : Watched} {lanes : Strobes}
    (taken : ¬(w = .service ∧ lanes = .both ∧ s.iru.stack = [])) (value : Word) :
    s.regionStore (.watched w) w.offset lanes value .faults = s.faultedStore (s.regionAddr w.offset) lanes value := by
  rw [regionStore_ready hr]
  exact storeWatched_faults (s := s.newCycle) taken ..

end State

/-- Settles O24: the request level is formed over the sources that ask. -/
theorem theRequestIsTheHighestPendingLevel : Obligations.TheRequestIsTheHighestPendingLevel := by
  unfold Obligations.TheRequestIsTheHighestPendingLevel
  intro u
  refine ⟨u.formed_zero_or_asked.imp_right ?_, fun i pending above => u.level_le_formed (Iru.asks_iff.2 ⟨pending, above⟩)⟩
  rintro ⟨i, asks, level⟩
  obtain ⟨pending, above⟩ := Iru.asks_iff.1 asks
  exact ⟨i, pending, level, level ▸ above⟩

/-- Settles O15: the captured word is handed to the Transition Generator, or set as the level of its source. -/
theorem tableStoresAreHandedToTheirOwners : Obligations.TableStoresAreHandedToTheirOwners := by
  unfold Obligations.TableStoresAreHandedToTheirOwners
  intro lanes value s ready
  have crosspoint : ∀ k : Fin 8, ¬(Watched.crosspoint k = .service ∧ lanes = .both ∧ s.iru.stack = []) := by simp
  have level : ∀ k : Fin 16, ¬(Watched.level k = .service ∧ lanes = .both ∧ s.iru.stack = []) := by simp
  refine ⟨fun k => ?pending, fun i => ?level, fun k => congrArg _ (State.regionStore_faults ready (crosspoint k) value),
    fun k => congrArg _ (State.regionStore_faults ready (level k) value)⟩
  case pending =>
    have stored := State.regionStore_completes ready (crosspoint k) value
    rw [State.afterCapture_crosspoint, State.latch_captured_self ready.cfg.latches] at stored
    exact congrArg _ stored
  case level =>
    have stored := State.regionStore_completes ready (level i.num) value
    rw [State.afterCapture_level, State.latch_captured_self ready.cfg.latches] at stored
    generalize Fin.ofNat 8 (mergeLanes lanes (s.latch (.level i.num)) value).toNat = l at stored ⊢
    obtain ⟨stack, request, driven⟩ := s.iru.setLevel_fields i l
    refine ⟨_, congrArg Host.Outcome.next stored, fun j => s.iru.level_setLevel i j l, fun j => ?_, stack, request, driven, rfl⟩
    have own : (s.iru.setLevel i l).level i = l := (s.iru.level_setLevel i i l).trans (if_pos rfl)
    exact (s.iru.isPending_setLevel_eq i j l).trans
      (if_congr (and_congr_right fun _ => and_congr_left fun _ => Eq.congr_left own.symm) rfl rfl)

/-- Settles O23: the word is captured and the top entry popped; on an empty stack the store is refused before it is forwarded. -/
theorem serviceDonePopsTheStack : Obligations.ServiceDonePopsTheStack := by
  unfold Obligations.ServiceDonePopsTheStack
  intro value s ready
  refine ⟨fun e rest stack => ?pops, fun empty mem => ?refused⟩
  case pops =>
    have taken : ¬(Watched.service = .service ∧ Strobes.both = .both ∧ s.iru.stack = []) := by simp [stack]
    have tail : s.iru.pop.stack = rest := by show s.iru.stack.tail = rest; rw [stack]; rfl
    exact ⟨⟨_, congrArg Host.Outcome.next (State.regionStore_completes ready taken value), tail, rfl, rfl, rfl, Iru.driven_reform _, rfl, rfl, rfl⟩,
      congrArg _ (State.regionStore_faults ready taken value)⟩
  case refused =>
    show Host.Outcome.next _ = _
    rw [State.regionStore_ready ready]
    exact congrArg _ ((if_pos ⟨rfl, rfl, empty⟩).trans (State.newCycle_refuse ready.configured ..))

end Sys2Proof.Machine
end

section
/-! PROOF. Acknowledge cycles (10 R195). -/

namespace Sys2Proof.Machine

theorem Irq.all_sorted : Irq.all.Pairwise fun i j => i.num < j.num := by decide

/-- The first source of the list that has a property is the lowest-numbered one. -/
theorem Irq.find_lowest {p : Irq → Bool} {i : Irq} (own : p i = true) (lower : ∀ j : Irq, j.num < i.num → p j = false) :
    Irq.all.find? p = some i := by
  obtain ⟨before, after, split⟩ := List.append_of_mem (Irq.mem_all i)
  have sorted := Irq.all_sorted
  rw [split, List.pairwise_append] at sorted
  obtain ⟨-, -, first⟩ := sorted
  refine List.find?_eq_some_iff_append.2 ⟨own, before, after, split, fun j earlier => ?_⟩
  rw [lower j (first j earlier i (List.mem_cons_self ..))]
  rfl

namespace Iru

/-- The driven set after an answer: emptied, then the request level formed again (10 R195). -/
theorem driven_emptied_reform (u : Iru) (empty : u.driven = Vector.replicate 8 false) (m : Level) :
    u.reform.driven[m] = (decide (m ≠ 0) && decide (m = u.formed)) := by
  rw [driven_reform, empty]
  simp

end Iru

namespace State

variable {s : State}

/-- The source is pushed, and is pending no more if it is an event source. -/
theorem pushSource_fields (m : Level) (i : Irq) (u : Iru) :
    (pushSource m i u).stack = (m, i) :: u.stack ∧ (pushSource m i u).levels = u.levels ∧
    (pushSource m i u).driven = u.driven ∧ (pushSource m i u).lastVector = u.lastVector ∧
    (pushSource m i u).spurious = u.spurious ∧
    ∀ j, (pushSource m i u).isPending j = if j = i ∧ i.condition = false then false else u.isPending j := by
  cases event : i.condition with
  | true =>
    rw [show pushSource m i u = { u with stack := (m, i) :: u.stack } from if_pos event]
    exact ⟨rfl, rfl, rfl, rfl, rfl, fun j => (if_neg (by simp)).symm⟩
  | false =>
    rw [show pushSource m i u = ({ u with stack := (m, i) :: u.stack } : Iru).setPending i false from if_neg (by simp [event])]
    exact ⟨rfl, rfl, rfl, rfl, rfl, fun j => (Iru.isPending_setPending ..).trans (if_congr (by simp) rfl rfl)⟩

theorem clearChangeFlags_eq (s : State) (i : Irq) :
    s.clearChangeFlags i =
      { s with
        readers := if i = .reader then s.readers.map ({ · with changeFlag := false }) else s.readers
        chases := if i = .chase then s.chases.map ({ · with changeFlag := false }) else s.chases } := by
  cases i <;> rfl

theorem exec_acknowledge {a : Addr} (aligned : wordAligned a = true) (free : s.ptu.hold = none) (lanes : Strobes) (mem : MemEnd) :
    exec (.acknowledgeCycle ⟨a, lanes, mem⟩) s = .next (s.newCycle.acknowledge a lanes mem) := by
  show Host.Outcome.next _ = _
  rw [cycle_free free, wordAddr_aligned aligned]

/-- The part answers an acknowledge at a driven level other than 0. -/
theorem acknowledge_answered {a : Addr} (hc : s.configured = true) (level : ackLevel a ≠ 0) (driven : s.iru.driven[ackLevel a] = true)
    (lanes : Strobes) (mem : MemEnd) :
    s.acknowledge a lanes mem =
      match Irq.all.find? fun i => s.iru.isPending i && s.iru.level i = ackLevel a with
      | some i => (s.answerVector (s.vector i.num.val) (pushSource (ackLevel a) i)).clearChangeFlags i
      | none => s.answerVector (s.vector 16) fun u => { u with spurious := satSucc 65535 u.spurious } :=
  if_pos (by simp [hc, level, driven])

theorem acknowledge_released {a : Addr} (h : s.configured = false ∨ ackLevel a = 0 ∨ s.iru.driven[ackLevel a] = false)
    (lanes : Strobes) (mem : MemEnd) : s.acknowledge a lanes mem = s.passRead a lanes mem := by
  refine if_neg ?_
  obtain h | h | h := h <;> simp [h]

theorem vector_eq {u : Setup} (h : s.cfg.setup = some u) (k : Nat) : s.vector k = u.vectorBase + BitVec.ofNat 8 k := by
  rw [vector, h]

end State

/-- Settles O22: a driven level is answered with the first pending source of that level, or the spurious vector; every other
acknowledge is forwarded. -/
theorem acknowledgesAreAnsweredByTheDrivenSet : Obligations.AcknowledgesAreAnsweredByTheDrivenSet := by
  unfold Obligations.AcknowledgesAreAnsweredByTheDrivenSet
  intro a lanes mem s aligned free m
  have acknowledged := State.exec_acknowledge aligned free lanes mem
  have answered : ∀ u, s.cfg.setup = some u → m ≠ 0 → s.iru.driven[m] = true → _ := fun u setup level driven =>
    State.acknowledge_answered (s := s.newCycle) (a := a) (by rw [State.configured]; exact setup ▸ rfl) level driven lanes mem
  refine ⟨fun i u setup level driven pending own lower => ?source, fun u setup level driven idle => ?spurious, fun h => ?released⟩
  case source =>
    have first : (Irq.all.find? fun i => s.newCycle.iru.isPending i && decide (s.newCycle.iru.level i = State.ackLevel a)) = some i := by
      refine Irq.find_lowest ?_ fun j before => ?_
      · exact Bool.and_eq_true_iff.2 ⟨pending, decide_eq_true own⟩
      · rw [Bool.and_eq_false_iff, decide_eq_false_iff_not]
        exact (Bool.eq_false_or_eq_true _).symm.imp_right (lower j before)
    rw [answered u setup level driven, first] at acknowledged
    dsimp only at acknowledged
    rw [State.clearChangeFlags_eq, State.vector_eq (s := s.newCycle) setup] at acknowledged
    obtain ⟨stack, levels, emptied, vector, spurious, flags⟩ := State.pushSource_fields m i
      { s.iru with lastVector := u.vectorBase + BitVec.ofNat 8 i.num.val, driven := Vector.replicate 8 false }
    refine ⟨_, acknowledged, rfl, vector, stack, flags, levels, spurious, rfl, Iru.driven_emptied_reform _ emptied,
      fun n => ?_, fun n => ?_, rfl⟩
    · show Six.get (if i = .reader then _ else _) n = _
      split_ifs
      · exact Six.get_map ..
      · rfl
    · show Six.get (if i = .chase then _ else _) n = _
      split_ifs
      · exact Six.get_map ..
      · rfl
  case spurious =>
    have unfound : (Irq.all.find? fun i => s.newCycle.iru.isPending i && decide (s.newCycle.iru.level i = State.ackLevel a)) = none := by
      refine List.find?_eq_none.2 fun i _ found => ?_
      obtain ⟨pending, own⟩ := Bool.and_eq_true_iff.1 found
      exact idle i pending (of_decide_eq_true own)
    rw [answered u setup level driven, unfound] at acknowledged
    dsimp only at acknowledged
    rw [State.vector_eq (s := s.newCycle) setup] at acknowledged
    exact ⟨_, acknowledged, rfl, rfl, Iru.driven_emptied_reform _ rfl, rfl⟩
  case released =>
    rw [acknowledged, State.acknowledge_released (s := s.newCycle) h]
    cases mem <;> rfl

end Sys2Proof.Machine
end

section
/-! PROOF. Takes of a reply port and the ends of a held read (01 R17 to R19, 05 R101, R102). -/

namespace Sys2Proof.Machine

@[simp] theorem Context.countEntry_fifo (c : Context) (notice placed : Bool) : (c.countEntry notice placed).fifo = c.fifo := by
  cases notice <;> cases placed <;> rfl

/-- The tracking of a notice concerns the mode, the insert mask and the last speed (05 R88). -/
theorem Context.noticed_fields (c : Context) (code : Byte) :
    (c.noticed code).fifo = c.fifo ∧ (c.noticed code).owner = c.owner ∧
    (c.noticed code).noticesDelivered = c.noticesDelivered := by
  unfold Context.noticed
  split <;> exact ⟨rfl, rfl, rfl⟩

namespace State

variable {s : State} {n : Transport}

/-! ## Takes -/

theorem exec_take (hr : s.Ready) (n : Transport) (mem : MemEnd) :
    exec (.take ⟨n, mem⟩) s = .next (s.newCycle.takeRead n none) := by
  show Host.Outcome.next _ = _
  rw [cycle_free hr.free, if_pos (show s.newCycle.configured = true from hr.configured)]

theorem takeRead_entry {e : FifoEntry} {rest : List FifoEntry} (h : (s.ctx n).fifo = e :: rest) :
    s.takeRead n none = (s.popFifo n e rest).completeTake n (e.header rest.length .none) := by
  simp only [takeRead, h]
  rfl

theorem holdUnits_eq {u : Setup} (h : s.cfg.setup = some u) : s.holdUnits = u.holdLimit.toNat * Config.holdUnits := by
  rw [holdUnits, h]

theorem holdUnits_eq_zero {u : Setup} (h : s.cfg.setup = some u) : s.holdUnits = 0 ↔ u.holdLimit = 0 := by
  rw [holdUnits_eq h, Nat.mul_eq_zero, or_iff_left (by decide)]
  exact ⟨fun zero => BitVec.eq_of_toNat_eq zero, fun zero => zero ▸ rfl⟩

/-- A take of an empty port that is answered at once (01 R17). -/
theorem takeRead_empty (empty : (s.ctx n).fifo = []) {x : ExitCause}
    (h : s.holdUnits = 0 ∧ x = .none ∨ s.holdUnits ≠ 0 ∧ s.iru.top < s.iru.request ∧ x = .interrupt) :
    s.takeRead n none = s.completeTake n (wordOf x.code) := by
  simp only [takeRead, empty]
  obtain ⟨atOnce, rfl⟩ | ⟨limit, risen, rfl⟩ := h
  · exact if_pos atOnce
  · exact (if_neg limit).trans (if_pos risen)

theorem takeRead_held (empty : (s.ctx n).fifo = []) (limit : s.holdUnits ≠ 0) (low : ¬s.iru.top < s.iru.request)
    (half : Option Strobes) : s.takeRead n half = s.hold n half := by
  simp only [takeRead, empty]
  exact (if_neg limit).trans (if_neg low)

/-- What a completed take leaves: the link change of its port seen, and the DECK flag following. -/
theorem completeTake_leaves (hc : s.configured = true) (n : Transport) (w : Word) :
    s.completeTake n w =
      { s with
        ptu := (s.completeTake n w).ptu, ctxs := (s.completeTake n w).ctxs
        iru := s.iru.follow (.deck n) ((s.completeTake n w).ctx n).deckCondition } ∧
    (s.completeTake n w).ctx n = { s.ctx n with linkChange := false } ∧ ∀ m, m ≠ n → (s.completeTake n w).ctx m = s.ctx m := by
  have own : (s.completeTake n w).ctx n = { s.ctx n with linkChange := false } := by
    rw [completeTake_configured hc]
    exact Six.get_set_self ..
  refine ⟨?_, own, fun m other => ?_⟩
  · rw [own, completeTake_configured hc]
  · rw [completeTake_configured hc]
    exact (Six.get_set ..).trans (if_neg other)

/-! ## The ends of a held read -/

/-- A raise that lifts the request level above the top of the stack ends the held read (10 R198). -/
theorem raise_ends {left : Nat} {half : Option Strobes} (hc : s.configured = true) (hold : s.ptu.hold = some ⟨n, left, half⟩)
    {i : Irq} (risen : s.iru.top < (s.iru.raise i).request) :
    s.raise i = ({ s with iru := s.iru.raise i } : State).completeHold ⟨n, left, half⟩ (wordOf ExitCause.interrupt.code) := by
  have above : (s.iru.raise i).top < (s.iru.raise i).request := by rwa [(s.iru.raise_fields i).2.2.1]
  rw [raise, raiseFree_configured hc]
  unfold yieldHold
  rw [show (s.setIru (s.iru.raise i)).ptu.hold = _ from hold]
  exact if_pos above

/-- The state in which an entry that enters the FIFO of a held port has been taken at once (01 R18, log 15). -/
def offerTaken (s : State) (n : Transport) (e : FifoEntry) : State :=
  { s with
    ctxs := s.ctxs.set n { (s.ctx n).countEntry e.notice true with fifo := [] }
    ptu := { s.ptu with view := s.ptu.view.set n (some e) } }

theorem fifoOffer_ends {left : Nat} {half : Option Strobes} (hold : s.ptu.hold = some ⟨n, left, half⟩)
    (empty : (s.ctx n).fifo = []) (e : FifoEntry) :
    s.fifoOffer n e = (s.offerTaken n e).completeHold ⟨n, left, half⟩ (e.header 0 .reply) := by
  have room : (s.ctx n).fifo.length < 3 := by rw [empty]; decide
  have entered : ((s.onCtx n fun c => { c.countEntry e.notice true with fifo := c.fifo ++ [e] }).ctx n).fifo = [e] := by
    show (Six.get (s.ctxs.set n _) n).fifo = _
    rw [Six.get_set_self]
    show (s.ctx n).fifo ++ [e] = [e]
    rw [empty, List.nil_append]
  have popped : (s.onCtx n fun c => { c.countEntry e.notice true with fifo := c.fifo ++ [e] }).popFifo n e [] = s.offerTaken n e := by
    simp only [popFifo, onCtx, setCtx, setPtu, ctx, Six.get_set_self, Six.set_set]
    rfl
  rw [fifoOffer, if_pos room]
  unfold entryPlaced
  rw [entered, show (s.onCtx n _).ptu.hold = _ from hold]
  exact (if_pos rfl).trans (congrArg (fun x => completeHold x _ _) popped)

/-- An entry offered to the held port ends the read with exit cause REPLY, and leaves the FIFO empty. -/
theorem fifoOffer_heldReadEnds {left : Nat} {half : Option Strobes} (hc : s.configured = true)
    (hold : s.ptu.hold = some ⟨n, left, half⟩) (empty : (s.ctx n).fifo = []) (e : FifoEntry) :
    s.HeldReadEnds n half (e.header 0 .reply) (s.ptu.view.set n (some e)) (s.fifoOffer n e) ∧
    (s.fifoOffer n e).ctx n = { (s.ctx n).countEntry e.notice true with fifo := [], linkChange := false } := by
  obtain ⟨ends, ctxs, -, -⟩ := completeHold_ends (s := s.offerTaken n e) (n := n) hc left half (e.header 0 .reply)
  rw [fifoOffer_ends hold empty]
  refine ⟨ends.of rfl rfl rfl rfl rfl, ?_⟩
  rw [ctx, ctxs, Six.get_set_self, ctx, offerTaken, Six.get_set_self]

/-! ## Notice frames -/

/-- The characters of a notice frame, from a receiver that hunts, are one notice (05 R88). -/
theorem receive_notice (hc : s.configured = true) (hunt : (s.link n).receiver = .hunt) (code : Byte) :
    s.receive n (noticeChars code) = (s.setLink n { s.link n with gapLeft := none }).noticeFrame n code := by
  have chars : noticeChars code = sentWell (frameOf 0x2F 15 [code]) := rfl
  have framed := receive_frame1 (s := s) (n := n) (c := s.ctx n) (k := s.chase n) (v := s.iru) hc hunt 0x2F 15 code (by decide)
  rw [← port_self] at framed
  rw [chars, framed, frameReceived, if_neg (not_not_intro (check_sum _)), onLink_port]
  have form : (BitVec.ofNat 8 (16 * 15 + 1)).toNat % 16 = 1 ∧ (BitVec.ofNat 8 (16 * 15 + 1)).toNat / 16 = 15 := by decide
  refine (if_pos ⟨rfl, form⟩).trans ?_
  congr 1
  · simp only [port, setLink, ctx, chase, Six.set_get, ← hunt]
  · show (List.take ((BitVec.ofNat 8 (16 * 15 + 1)).toNat % 16) [code, _]).getD 0 0 = code
    rw [form.1]
    rfl

/-- The entry of a notice (05 R88, R101). -/
def noticeEntry (s : State) (code : Byte) : FifoEntry := ⟨none, .reply, none, none, true, some 15, [code], s.stamp⟩

/-- A notice is tracked and offered to the reply FIFO; a transport that is not RUN tells the run nothing. -/
theorem noticeFrame_apart {code : Byte}
    (apart : (((s.setCtx n ((s.ctx n).noticed code)).fifoOffer n (s.noticeEntry code)).ctx n).owner ≠ .run) :
    s.noticeFrame n code = (s.setCtx n ((s.ctx n).noticed code)).fifoOffer n (s.noticeEntry code) := if_neg apart

end State

/-- Settles O20: a take reads the head of the FIFO, or its empty FIFO is tested against the hold limit and the request level. -/
theorem takesAreAnsweredOrHeld : Obligations.TakesAreAnsweredOrHeld := by
  unfold Obligations.TakesAreAnsweredOrHeld
  intro n mem s u ready setup
  have taken := State.exec_take ready n mem
  have limit : s.newCycle.holdUnits = 0 ↔ u.holdLimit = 0 := State.holdUnits_eq_zero (s := s.newCycle) setup
  refine ⟨fun e rest fifo => ?entry, fun x empty atOnce => ?empty, fun empty positive low => ?held⟩
  case entry =>
    have popped : (s.newCycle.popFifo n e rest).ctx n = { s.ctx n with fifo := rest } := Six.get_set_self ..
    have apart : ∀ m, m ≠ n → (s.newCycle.popFifo n e rest).ctx m = s.ctx m := fun m other =>
      (Six.get_set ..).trans (if_neg other)
    obtain ⟨same, own, others⟩ := State.completeTake_leaves (s := s.newCycle.popFifo n e rest) ready.configured n
      (e.header rest.length .none)
    refine ⟨_, taken.trans (congrArg _ (State.takeRead_entry (s := s.newCycle) fifo)), ?_, own.trans (by rw [popped]),
      fun m other => (others m other).trans (apart m other), same⟩
    rw [State.completeTake_configured (by exact ready.configured)]
    rfl
  case empty =>
    have cause : s.newCycle.holdUnits = 0 ∧ x = .none ∨ s.newCycle.holdUnits ≠ 0 ∧ s.iru.top < s.iru.request ∧ x = .interrupt := by
      rw [Ne, limit]
      exact atOnce
    obtain ⟨same, own, others⟩ := State.completeTake_leaves (s := s.newCycle) ready.configured n (wordOf x.code)
    refine ⟨_, taken.trans (congrArg _ (State.takeRead_empty (s := s.newCycle) empty cause)), ?_, own, others, same⟩
    rw [State.completeTake_configured (by exact ready.configured)]
    rfl
  case held =>
    rw [State.takeRead_held (s := s.newCycle) empty (mt limit.1 positive) low, State.hold,
      State.holdUnits_eq (s := s.newCycle) setup] at taken
    exact taken

/-- Settles O21: each end of the hold is `State.completeHold` with its own header, on the state that the end finds. -/
theorem aHeldReadEndsByAnEntryTimeOrInterrupt : Obligations.AHeldReadEndsByAnEntryTimeOrInterrupt := by
  unfold Obligations.AHeldReadEndsByAnEntryTimeOrInterrupt
  intro s n left half configured hold
  refine ⟨?timeout, fun i risen => ?interrupt, fun empty => ⟨fun e => ?entry, fun code hunt owner => ?notice⟩, fun c cycle => ?busy⟩
  case timeout =>
    have expired : s.holdTimedOut = s.completeHold ⟨n, left, half⟩ (wordOf ExitCause.timeout.code) := by
      rw [State.holdTimedOut, hold]
      rfl
    obtain ⟨ends, ctxs, iru, same⟩ := State.completeHold_ends configured (n := n) left half (wordOf ExitCause.timeout.code)
    have own : (s.completeHold ⟨n, left, half⟩ (wordOf ExitCause.timeout.code)).ctx n = { s.ctx n with linkChange := false } := by
      rw [State.ctx, ctxs, Six.get_set_self]
    refine ⟨_, congrArg Host.Outcome.next expired, ends, own, fun m other => ?_, fun plain => ?_, same⟩
    · rw [State.ctx, ctxs, Six.get_set, if_neg other]; rfl
    · rw [iru plain, own]
  case interrupt =>
    rw [State.raise_ends configured hold risen]
    obtain ⟨ends, -⟩ := State.completeHold_ends (s := { s with iru := s.iru.raise i }) configured (n := n) left half
      (wordOf ExitCause.interrupt.code)
    exact ends.of rfl rfl rfl rfl (s.iru.raise_fields i).1
  case entry =>
    obtain ⟨ends, own⟩ := State.fifoOffer_heldReadEnds configured hold empty e
    exact ⟨ends, by rw [own]⟩
  case notice =>
    intro e
    have received := State.receive_notice configured hunt code
    generalize hx : s.setLink n { s.link n with gapLeft := none } = x at received
    obtain ⟨fifo, kept, counts⟩ := (s.ctx n).noticed_fields code
    have ctx : (x.setCtx n ((x.ctx n).noticed code)).ctx n = (s.ctx n).noticed code := by rw [← hx]; exact Six.get_set_self ..
    obtain ⟨ends, own⟩ := State.fifoOffer_heldReadEnds (s := x.setCtx n ((x.ctx n).noticed code)) (n := n) (left := left)
      (half := half) (by rw [← hx]; exact configured) (by rw [← hx]; exact hold) (by rw [ctx, fifo, empty]) (x.noticeEntry code)
    rw [ctx] at own
    rw [State.noticeFrame_apart (by rw [own]; exact kept ▸ owner)] at received
    refine ⟨_, congrArg Host.Outcome.next received, ?_, ?_⟩
    · rw [← hx] at ends ⊢
      exact ends.of rfl rfl rfl rfl rfl
    · rw [own, ← counts]; rfl
  case busy =>
    have shut : ∀ f, s.cycle f = s := fun f => by rw [State.cycle, State.busFree, hold]; rfl
    cases c with
    | systemReset | holdTimeout | framePulse | fieldPulse | acquireTimeout | generatedBoundary | referenceLost | frameBoundary
    | field2Boundary | timecodeWord | readerCoasting | readerLost | deckReply | gapError | notice | transmitComplete
    | replyTimeout | breakEnd | probeIntervalExpiry | holdExpired | chaseLock | chaseSlip | sensePoll | cueTimeout
    | lookaheadCueTimeout | transitionEnd | switcherFrameSent | gpiPulseEnd => cases cycle
    | _ => exact congrArg Host.Outcome.next (shut _)

end Sys2Proof.Machine
end

section
/-! PROOF. Read-modify-writes outside the overlay (01 R10): a read half, and then a store of the class of its word. -/

namespace Sys2Proof.Machine

namespace State

variable {s : State} {a : Addr}

/-- The state in which the write half of a read-modify-write begins: memory has completed the read half. -/
def readDone (s : State) (a : Addr) (lanes : Strobes) : State := s.showing .byMemory [⟨a, false, lanes, 0⟩]

/-- A refused write half (01 R10, R11). -/
theorem readDone_refuse (reason : AccessReason) (a : Addr) (lanes : Strobes) :
    (s.readDone a lanes).refuse reason a lanes true = s.modifyRefusal reason a lanes := by
  unfold modifyRefusal
  cases configured : s.configured with
  | true => exact refuse_configured (s := s.readDone a lanes) configured ..
  | false => exact refuse_unconfigured (s := s.readDone a lanes) configured ..

/-- A write half that memory faults has no effect but on the bus, whatever its class, unless it is refused. -/
theorem readDone_storeTo_faults {t : Target} {lanes : Strobes} (value : Word)
    (h : (∃ w, t = .watched w ∧ ¬(w = .service ∧ lanes = .both ∧ s.iru.stack = [])) ∨
      (∃ e w, t = .event e w ∧ s.et.states[e] ≠ .armed) ∨ ∃ k, t = .setup k ∧ (lanes = .both → k ≠ 15)) :
    (s.readDone a lanes).storeTo t a lanes value .faults true =
      s.showing .memFault [⟨a, false, lanes, 0⟩, ⟨a, true, lanes, value⟩] := by
  obtain ⟨w, rfl, taken⟩ | ⟨e, w, rfl, unarmed⟩ | ⟨k, rfl, plain⟩ := h
  · exact storeWatched_faults (s := s.readDone a lanes) taken a value true
  · exact storeEvent_faults (s := s.readDone a lanes) unarmed w a lanes value true
  · exact storeSetup_faults (s := s.readDone a lanes) plain a value true

/-- The state after a write half that memory completed has been captured. -/
def modified (s : State) (w : Watched) (a : Addr) (lanes : Strobes) (value : Word) : State :=
  (s.captured w a lanes value).showing .byMemory [⟨a, false, lanes, 0⟩, ⟨a, true, lanes, value⟩]

theorem readDone_storeWatched {w : Watched} {lanes : Strobes} (taken : ¬(w = .service ∧ lanes = .both ∧ s.iru.stack = []))
    (value : Word) :
    (s.readDone a lanes).storeTo (.watched w) a lanes value .completes true = (s.modified w a lanes value).afterCapture w lanes :=
  storeWatched_completes (s := s.readDone a lanes) taken a value true

/-- The latch of the word that has been modified. -/
theorem modified_latch (wf : WordMap.wf s.cfg.latches = true) (w : Watched) (a : Addr) (lanes : Strobes) (value : Word) :
    (s.modified w a lanes value).latch w = mergeLanes lanes (s.latch w) value := latch_captured_self wf w a lanes value

theorem readDone_storeSetup {k : Fin 16} {lanes : Strobes} (plain : lanes = .both → k ≠ 15) (value : Word) :
    (s.readDone a lanes).storeTo (.setup k) a lanes value .completes true =
      ((s.readDone a lanes).forward ⟨a, true, lanes, value⟩ .completes).captureSetup k lanes value :=
  storeSetup_completes (s := s.readDone a lanes) plain a value true

/-- The setup take in a write half. -/
theorem readDone_takeRequest (value : Word) (mem : MemEnd) :
    (s.readDone a .both).storeTo (.setup 15) a .both value mem true = (s.readDone a .both).takeRequest a value mem true := by
  show (s.readDone a .both).storeSetup 15 a .both value mem true = _
  rw [storeSetup, if_pos ⟨rfl, rfl⟩]

end State

/-- The state that a completed store leaves of an event, told by word, strobes and kind (07 R133, R134). -/
theorem storedState_eq (w : Fin 32) (lanes : Strobes) (stored : Word) :
    storedState w.val lanes stored =
      if w ≠ 0 ∨ lanes ≠ .both then .draft else if loByte stored = 1 then .loaded
        else if loByte stored = 0 then .empty else .draft := by
  by_cases kind : w = 0
  · subst kind
    cases lanes <;> simp [storedState, kindState]
  · have other : w.val ≠ 0 := fun h => kind (Fin.ext h)
    simp [storedState, kind, other]

/-- Settles O10: memory's completion of the read half is followed by the store of the word's class. -/
theorem readModifyWriteIsAReadThenAStore : Obligations.ReadModifyWriteIsAReadThenAStore := by
  unfold Obligations.ReadModifyWriteIsAReadThenAStore
  intro a lanes value s aligned free rd wr
  have modify : ∀ {t : Target}, s.classify a = t → (∀ off, t ≠ .overlay off) → ∀ rm wm,
      exec (.readModifyWrite a lanes value rm wm) s = .next (match rm with
        | .faults => s.showing .memFault [rd]
        | .completes => (s.readDone a lanes).storeTo t a lanes value wm true) := by
    rintro t rfl plain rm wm
    exact State.exec_modify aligned free plain lanes value rm wm
  refine ⟨fun wm plain => modify rfl plain .faults wm, fun wm pass => ?pass, fun faulted => ?faulted,
    fun w watched wf => ⟨fun slot => ?slot, ?crosspoint, ?level, ?service, ?empty⟩, fun e w event unarmed => ?event,
    fun k setup => ⟨fun plain => ?captured, ?take⟩⟩
  case pass => rw [modify pass (by simp)]; exact congrArg _ (State.forward_showing ..)
  case faulted =>
    have plain : ∀ off, s.classify a ≠ .overlay off := by
      obtain ⟨w, h, -⟩ | ⟨e, w, h, -⟩ | ⟨k, h, -⟩ := faulted <;> simp [h]
    rw [modify rfl plain]
    exact congrArg _ (State.readDone_storeTo_faults value faulted)
  case slot =>
    have taken : ¬(w = .service ∧ lanes = .both ∧ s.iru.stack = []) := by rintro ⟨rfl, -⟩; cases slot
    rw [modify watched (by simp)]
    exact congrArg _ ((State.readDone_storeWatched taken value).trans (State.afterCapture_slot slot _ lanes))
  case crosspoint =>
    rintro k rfl
    rw [modify watched (by simp)]
    dsimp only
    rw [State.readDone_storeWatched (by simp), State.afterCapture_crosspoint, State.modified_latch wf]
    rfl
  case level =>
    rintro i rfl
    rw [modify watched (by simp)]
    dsimp only
    rw [State.readDone_storeWatched (by simp), State.afterCapture_level, State.modified_latch wf]
    rfl
  case service =>
    rintro rfl kept
    have taken : ¬(Watched.service = .service ∧ lanes = .both ∧ s.iru.stack = []) := fun h => kept.elim (· h.2.1) (· h.2.2)
    rw [modify watched (by simp)]
    exact congrArg _ (State.readDone_storeWatched taken value)
  case empty =>
    rintro rfl rfl stack - wm
    rw [modify watched (by simp)]
    exact congrArg _ ((if_pos ⟨rfl, rfl, stack⟩).trans (State.readDone_refuse ..))
  case event =>
    rw [modify event (by simp), ← storedState_eq]
    exact congrArg _ (State.storeEvent_completes (s := s.readDone a lanes) unarmed w a lanes value true)
  case captured =>
    rw [modify setup (by simp)]
    exact congrArg _ (State.readDone_storeSetup plain value)
  case take =>
    rintro rfl rfl
    refine ⟨fun wm r refused => ?refused, fun u ok wf => ?taken⟩
    case refused =>
      rw [modify setup (by simp)]
      dsimp only
      rw [State.readDone_takeRequest, State.takeRequest_refused (s := s.readDone a .both) refused, State.readDone_refuse]
    case taken =>
      have cfg := State.takeRequest_cfg (s := s.readDone a .both) ok a value true
      obtain ⟨own, others⟩ := State.takeLatches wf value
      refine ⟨_, (modify setup (by simp) .completes .completes).trans (congrArg Host.Outcome.next (State.readDone_takeRequest ..)),
        ?_, ?_, ?_⟩
      · rw [cfg]
      · rw [cfg]; exact own
      · rw [cfg]; exact others

end Sys2Proof.Machine
end

section
/-! PROOF. The hand-over of a record: from its stores to the owner's decision and its result (01 R3, 11.3). -/

namespace Sys2Proof.Machine

/-- A record of the table is stores to plain slot words, then its go word or take word. -/
theorem recordOf_parts {i : Instr} {ws : List (Watched × Word)} {go : Watched} (h : recordOf? i = some (ws, go)) :
    ∃ args, ws = args ++ [(go, 0)] ∧ (∀ p ∈ args, p.1.quiet = true) ∧ go.slot = true ∧
      ∀ s : State, exec i s = .next (s.slotRecord ws) := by
  unfold recordOf? at h
  split at h
  case h_12 n tag latency tolerance timeout =>
    cases h
    exact ⟨[(.transport n 8, tag), (.transport n 9, latency), (.transport n 10, tolerance), (.transport n 11, timeout)], rfl,
      by simp [Watched.quiet], rfl, fun _ => rfl⟩
  case h_31 => cases h
  all_goals
    cases h
    exact ⟨_, rfl, by simp [Watched.quiet, ChaseArgs.args, ParamWords.args], rfl, fun _ => rfl⟩

namespace State

variable {s u : State}

theorem exec_recordOf (ready : s.Ready) {i : Instr} {ws : List (Watched × Word)} {go : Watched}
    (h : recordOf? i = some (ws, go)) : exec i s = .next ((s.stored ws).handOver go) := by
  obtain ⟨args, rfl, quiet, slot, row⟩ := recordOf_parts h
  rw [row, slotRecord_eq ready args go 0 quiet slot]

/-- A raise of SLOT leaves it pending unless its level is 0. -/
theorem slotRaised_of_raise {t : State} (h : t.iru = u.iru.raise .slot) : t.SlotRaised := by
  intro level
  rw [h] at level
  have unmasked : u.iru.level .slot ≠ 0 := by unfold Iru.level at level ⊢; rwa [(Iru.raise_fields u.iru .slot).1] at level
  rw [h, Iru.isPending_raise, if_pos ⟨rfl, unmasked⟩]

section Results

variable (tame : Tame false s u) (configured : s.configured = true) (free : s.ptu.hold = none)
include tame configured free

theorem transportResult_leaves (n : Transport) (code : SlotCode) (p : Bool) (command tag : Word) :
    ((u.transportResult n code p command tag).ctx n).result = ⟨some code, p, command, tag⟩ ∧
      (u.transportResult n code p command tag).SlotRaised := by
  rw [transportResult_ready (configured_of tame.cfg configured) (tame.hold free)]
  exact ⟨congrArg Context.result (Six.get_set_self ..), slotRaised_of_raise (u := u) rfl⟩

theorem chaseResult_leaves (n : Transport) (code : SlotCode) (command tag : Word) :
    ((u.chaseResult n code command tag).chase n).result = ⟨some code, false, command, tag⟩ ∧
      (u.chaseResult n code command tag).SlotRaised := by
  rw [chaseResult_ready (configured_of tame.cfg configured) (tame.hold free)]
  exact ⟨congrArg Chase.result (Six.get_set_self ..), slotRaised_of_raise (u := u) rfl⟩

theorem runResult_leaves (code : SlotCode) (command tag : Word) :
    (u.runResult code command tag).run.result = ⟨some code, false, command, tag⟩ ∧ (u.runResult code command tag).SlotRaised := by
  rw [runResult_ready (configured_of tame.cfg configured) (tame.hold free)]
  exact ⟨rfl, slotRaised_of_raise (u := u) rfl⟩

theorem switcherResult_leaves (code : SlotCode) (command tag : Word) :
    (u.switcherResult code command tag).mixer.result = ⟨some code, false, command, tag⟩ ∧
      (u.switcherResult code command tag).SlotRaised := by
  rw [switcherResult_ready (configured_of tame.cfg configured) (tame.hold free)]
  exact ⟨rfl, slotRaised_of_raise (u := u) rfl⟩

end Results

/-- A parameter record is decided by one operation and one result. -/
theorem parameterRecord_decides (n : Transport) (tag latency tolerance timeout : Word) :
    ∃ u code, Tame false s u ∧ s.parameterRecord n tag latency tolerance timeout = u.transportResult n code true 0 tag := by
  unfold parameterRecord
  split_ifs
  · exact ⟨s, .held, .refl s, rfl⟩
  · exact ⟨_, .accepted, onCtx_tame rfl, rfl⟩

end State

open State in
/-- Settles O11: a record's stores are captured and its owner takes it; every owner ends in one result. -/
theorem goWordsHandOverTheRecord : Obligations.GoWordsHandOverTheRecord := by
  unfold Obligations.GoWordsHandOverTheRecord
  intro s
  refine ⟨?_, fun i ws go row ready => exec_recordOf ready row, fun w quiet => handOver_quiet quiet s, fun _ => rfl, fun _ => rfl,
    fun _ => rfl, rfl, rfl, ?_⟩
  · intro w a value aligned free cls slot
    have taken : ¬(w = .service ∧ Strobes.both = .both ∧ s.newCycle.iru.stack = []) := fun h => by
      rw [h.1] at slot; cases slot
    rw [exec_store aligned free, cls]
    show Host.Outcome.next (s.newCycle.storeWatched w a .both value .completes false) = _
    rw [storeWatched_completes taken, afterCapture_slot slot, if_pos rfl]
    rfl
  · intro configured free command tag w2 w3 w4 w5 w6
    refine ⟨fun n => ?_, fun n => ?_, fun n args => ?_, ?_, ?_⟩
    · obtain ⟨u, code, tame, h⟩ := transportRecord_decides (s := s) n command tag w2 w3
      exact ⟨_, code, h, transportResult_leaves tame configured free n code false command tag⟩
    · obtain ⟨u, code, tame, h⟩ := parameterRecord_decides (s := s) n tag w2 w3 w4
      exact ⟨_, code, h, transportResult_leaves tame configured free n code true 0 tag⟩
    · obtain ⟨u, code, tame, h⟩ := chaseRecord_decides (s := s) (r := false) n command tag args
      exact ⟨_, code, h, chaseResult_leaves tame configured free n code command tag⟩
    · obtain ⟨u, code, tame, h⟩ := runRecord_decides (s := s) command tag w2 w3 w4 w5 w6
      exact ⟨_, code, h, runResult_leaves tame configured free code command tag⟩
    · obtain ⟨u, code, tame, h⟩ := switcherRecord_decides (s := s) (r := false) command tag w2 w3 w4 w5
      exact ⟨_, code, h, switcherResult_leaves tame configured free code command tag⟩

end Sys2Proof.Machine
end

section
/-! PROOF. Link commands of the transport slots: queued, turned away, or taking the transport from a chase (05 R91 to R95). -/

namespace Sys2Proof.Machine

namespace State

variable {s : State} {n : Transport} {k : LinkKind} {arg : Arg} {tag : Word}

/-- A command whose outcome is known, with the result written and SLOT raised. -/
theorem exec_link_decided (ready : s.Ready) (k : LinkKind) (n : Transport) (tag w2 w3 : Word) {code : SlotCode} {t : State}
    (outcome : (s.stored (k.stores n tag w2 w3)).linkOutcome k n tag w2 w3 = (code, t))
    (configured : t.configured = true) (free : t.ptu.hold = none) :
    exec (k.row n tag w2 w3) s = .next (t.transportDecided n code false k.number tag) := by
  rw [exec_link ready k n tag w2 w3 outcome, transportResult_ready configured free]

theorem linkOutcome_some {w2 w3 : Word} (h : k.argument? s.standard w2 w3 = some arg) :
    s.linkOutcome k n tag w2 w3 = s.linkCommand n k arg tag := by
  unfold linkOutcome
  rw [h]

theorem linkOutcome_none {w2 w3 : Word} (h : k.argument? s.standard w2 w3 = none) :
    s.linkOutcome k n tag w2 w3 = (.malformed, s) := by
  unfold linkOutcome
  rw [h]

theorem linkCommand_down (down : (s.link n).state ≠ .up) : s.linkCommand n k arg tag = (.linkDown, s) := if_pos down

theorem linkCommand_barred (up : (s.link n).state = .up) (owner : (s.ctx n).owner = .run) (sense : k ≠ .sense) (halt : k ≠ .halt) :
    s.linkCommand n k arg tag = (.held, s) := by
  have refuses : ownerRefuses (s.ctx n).owner k = true := by simp [ownerRefuses, owner, sense, halt]
  unfold linkCommand
  simp only
  rw [if_neg (not_not.2 up), if_pos refuses]

/-- A command that its link and its owner let pass is offered, a chase in its way stopped first. -/
theorem linkCommand_offered (up : (s.link n).state = .up) (owner : (s.ctx n).owner ≠ .run ∨ k = .sense) :
    s.linkCommand n k arg tag = (if k.motion then s.takeFromChase n else s).offerCommand n k arg tag false := by
  have passes : ownerRefuses (s.ctx n).owner k = false := by
    rcases owner with own | rfl
    · simp [ownerRefuses, own]
    · simp [ownerRefuses]
  have calm : (decide ((s.ctx n).owner = .run) && decide (k = .halt)) = false := by
    rcases owner with own | rfl
    · simp [own]
    · simp
  unfold linkCommand
  simp only
  rw [if_neg (not_not.2 up), passes, calm, if_neg Bool.false_ne_true]
  rfl

theorem takeFromChase_other (owner : (s.ctx n).owner ≠ .chase) : s.takeFromChase n = s := if_neg owner

/-- Nothing stops for a command on a free transport, or for one that moves no tape. -/
theorem noChaseTaken (plain : (s.ctx n).owner = .free ∨ (s.ctx n).owner = .chase ∧ ¬k.moves ∨ k = .sense) :
    (if k.motion then s.takeFromChase n else s) = s := by
  split_ifs with motion
  · rcases plain with own | ⟨-, still⟩ | rfl
    · exact takeFromChase_other (by rw [own]; decide)
    · exact absurd ((motion_iff k).1 motion) still
    · cases motion
  · rfl

/-- A well-formed command that its link and its owner let pass, with no chase to stop, is offered. -/
theorem linkOutcome_plain {w2 w3 : Word} (good : k.argument? s.standard w2 w3 = some arg) (up : (s.link n).state = .up)
    (plain : (s.ctx n).owner = .free ∨ (s.ctx n).owner = .chase ∧ ¬k.moves ∨ k = .sense) :
    s.linkOutcome k n tag w2 w3 = s.offerCommand n k arg tag false := by
  have passes : (s.ctx n).owner ≠ .run ∨ k = .sense := by
    rcases plain with own | ⟨own, -⟩ | sense
    · exact .inl fun h => by cases own.symm.trans h
    · exact .inl fun h => by cases own.symm.trans h
    · exact .inr sense
  rw [linkOutcome_some good, linkCommand_offered up passes, noChaseTaken plain]

/-- The offer of any command but SPEED is an offer to the queue (05 R94). -/
theorem offerCommand_entry (kind : k ≠ .speed) (urgent : Bool) :
    s.offerCommand n k arg tag urgent =
      match s.offerEntry n ⟨.processor, k, arg, some tag, urgent, false⟩ with
      | (.placed, s) => (.accepted, s.countTaken n)
      | (.queueFull, s) => (.queueFull, s)
      | (.linkDown, s) => (.linkDown, s) := by
  unfold offerCommand
  cases k with
  | speed => exact absurd rfl kind
  | _ => rfl

theorem offerCommand_room (kind : k ≠ .speed) (up : (s.link n).state = .up) (room : (s.link n).queue.length < 4) :
    s.offerCommand n k arg tag false =
      (.accepted, { s with
        links := s.links.set n ({ s.link n with queue := (s.link n).queue ++ [processorEntry k arg tag] } : Link).choose
        ctxs := s.ctxs.set n { s.ctx n with taken := (s.ctx n).taken + 1 } }) := by
  rw [offerCommand_entry kind, offerEntry_room up room]
  rfl

theorem offerCommand_full (kind : k ≠ .speed) (up : (s.link n).state = .up) (full : 4 ≤ (s.link n).queue.length) :
    s.offerCommand n k arg tag false = (.queueFull, s) := by
  rw [offerCommand_entry kind, offerEntry_full up (by omega) rfl]

/-- A speed that leaves the slot completes as CANCELLED, which only the processor counts (05 R95, R100). -/
theorem cancelled_speed (s : State) (n : Transport) (v : SlotSpeed) :
    s.cancelled n v.source .speed =
      { s with ctxs := s.ctxs.set n { s.ctx n with cancelled := (s.ctx n).cancelled + displaced (some v) } } := by
  have same : s.ctxs.set n { s.ctx n with cancelled := (s.ctx n).cancelled + 0 } = s.ctxs := by
    rw [show (s.ctx n).cancelled + 0 = (s.ctx n).cancelled from BitVec.add_zero _]
    exact Six.set_get _ _
  have other (h : v.source ≠ .processor) :
      s = { s with ctxs := s.ctxs.set n { s.ctx n with cancelled := (s.ctx n).cancelled + displaced (some v) } } := by
    rw [show displaced (some v) = 0 from if_neg h, same]
  cases src : v.source with
  | processor =>
    rw [show displaced (some v) = 1 from if_pos src]
    rfl
  | run => exact other (by rw [src]; decide)
  | chase => exact other (by rw [src]; decide)
  | link => exact other (by rw [src]; decide)

/-- A speed offered to a link that is UP takes the slot (04 R68). -/
theorem offerSpeed_up (up : (s.link n).state = .up) (v : SlotSpeed) :
    (s.offerSpeed n v).2 =
      { s with
        links := s.links.set n
          ({ s.link n with
              slot := some v
              superseded := if (s.link n).slot.isSome then satSucc 65535 (s.link n).superseded else (s.link n).superseded
            } : Link).choose
        ctxs := s.ctxs.set n { s.ctx n with cancelled := (s.ctx n).cancelled + displaced (s.link n).slot } } := by
  cases waits : (s.link n).slot with
  | none =>
    have same : s.ctxs.set n { s.ctx n with cancelled := (s.ctx n).cancelled + displaced none } = s.ctxs := by
      rw [show (s.ctx n).cancelled + displaced none = (s.ctx n).cancelled from BitVec.add_zero _]
      exact Six.set_get _ _
    rw [offerSpeed_empty up waits, same]
    rfl
  | some old =>
    rw [offerSpeed_replaces up waits]
    simp only [cancelled_speed]
    rfl

theorem offerCommand_speed (up : (s.link n).state = .up) (v : Int) (urgent : Bool) :
    s.offerCommand n .speed (.speed v) tag urgent =
      (.accepted, { s with
        links := s.links.set n
          ({ s.link n with
              slot := some ⟨v, .processor, some tag⟩
              superseded := if (s.link n).slot.isSome then satSucc 65535 (s.link n).superseded else (s.link n).superseded
            } : Link).choose
        ctxs := s.ctxs.set n
          { s.ctx n with
            taken := (s.ctx n).taken + 1, cancelled := (s.ctx n).cancelled + displaced (s.link n).slot } }) := by
  show (SlotCode.accepted, (s.offerSpeed n ⟨v, .processor, some tag⟩).2.countTaken n) = _
  rw [offerSpeed_up up]
  unfold countTaken onCtx setCtx ctx
  simp only [Six.get_set_self, Six.set_set]

end State

theorem LinkKind.argument?_speed {std : Standard} {w2 w3 : Word} {arg : Arg} (h : LinkKind.speed.argument? std w2 w3 = some arg) :
    arg = .speed w2.toInt := by
  unfold LinkKind.argument? at h
  simp only at h
  split_ifs at h
  exact (Option.some.inj h).symm

/-- Only SPEED, of the kinds that move tape, takes a speed. -/
theorem LinkKind.argument?_ne_speed {k : LinkKind} (moves : k.moves) (kind : k ≠ .speed) {std : Standard} {w2 w3 : Word} {arg : Arg}
    (h : k.argument? std w2 w3 = some arg) (v : Int) : arg ≠ .speed v := by
  rintro rfl
  rcases moves with rfl | rfl | rfl | rfl
  · cases h
  · cases h
  · exact kind rfl
  · unfold LinkKind.argument? at h
    simp only at h
    split_ifs at h
    cases h

namespace State

variable {s : State} {n : Transport} {k : LinkKind} {arg : Arg} {tag : Word}

/-- A transport that a processor motion command has taken from a chase (05 R93). -/
def takenFromChase (s : State) (n : Transport) : State :=
  { s with
    links := s.links.set n { s.link n with slot := none }
    ctxs := s.ctxs.set n { s.ctx n with owner := .free, cancelled := (s.ctx n).cancelled + displaced (s.link n).slot }
    chases := s.chases.set n
      { s.chase n with state := .idle, changeFlag := true, changeCount := wrapSucc 255 (s.chase n).changeCount }
    iru := s.iru.raise .chase }

theorem takenFromChase_link (s : State) (n : Transport) : (s.takenFromChase n).link n = { s.link n with slot := none } :=
  Six.get_set_self ..

theorem takenFromChase_ctx (s : State) (n : Transport) : (s.takenFromChase n).ctx n =
    { s.ctx n with owner := .free, cancelled := (s.ctx n).cancelled + displaced (s.link n).slot } := Six.get_set_self ..

theorem linkCommand_fromChase (configured : s.configured = true) (free : s.ptu.hold = none) (moves : k.moves)
    (up : (s.link n).state = .up) (owner : (s.ctx n).owner = .chase) (running : (s.chase n).state ≠ .idle)
    (origin : (s.chase n).origin = .processor) :
    s.linkCommand n k arg tag = (s.takenFromChase n).offerCommand n k arg tag false := by
  rw [linkCommand_offered up (.inl (by rw [owner]; decide)), if_pos ((motion_iff k).2 moves),
    takeFromChase_ready configured free owner running origin]
  rfl

end State

open State in
/-- Settles O25: the offer to the queue or to the slot, once form, link and owner have let the command pass. -/
theorem linkCommandsAreQueued : Obligations.LinkCommandsAreQueued := by
  unfold Obligations.LinkCommandsAreQueued
  constructor
  · intro k n tag w2 w3 arg s ready kind good up room plain
    have outcome := (linkOutcome_plain (s := s.stored (k.stores n tag w2 w3)) (tag := tag) good up plain).trans
      (offerCommand_room (s := s.stored _) kind up room)
    exact exec_link_decided ready k n tag w2 w3 outcome ready.configured ready.free
  · intro n tag value s ready legal up owner
    have good : LinkKind.speed.argument? s.standard value 0 = some (.speed value.toInt) := if_neg legal
    have outcome := (linkOutcome_plain (s := s.stored (LinkKind.speed.stores n tag value 0)) (tag := tag) good up
      (.inl owner)).trans (offerCommand_speed (s := s.stored _) up _ _)
    exact exec_link_decided ready .speed n tag value 0 outcome ready.configured ready.free

open State in
/-- Settles O26: each check turned away leaves the state it was given. -/
theorem linkCommandsAreTurnedAway : Obligations.LinkCommandsAreTurnedAway := by
  unfold Obligations.LinkCommandsAreTurnedAway
  intro k n tag w2 w3 s ready good up barred full plain code why
  refine exec_link_decided ready k n tag w2 w3 ?_ ready.configured ready.free
  have formed (h : good) : ∃ arg, k.argument? s.standard w2 w3 = some arg := Option.isSome_iff_exists.1 h
  rcases why with ⟨bad, rfl⟩ | ⟨form, down, rfl⟩ | ⟨form, isUp, ⟨owner, sense, halt⟩, rfl⟩ | ⟨form, isUp, pass, ⟨long, kind⟩, rfl⟩
  · exact linkOutcome_none (s := s.stored _) (Option.not_isSome_iff_eq_none.1 bad)
  · obtain ⟨arg, h⟩ := formed form
    exact (linkOutcome_some (s := s.stored _) h).trans (linkCommand_down down)
  · obtain ⟨arg, h⟩ := formed form
    exact (linkOutcome_some (s := s.stored _) h).trans (linkCommand_barred isUp owner sense halt)
  · obtain ⟨arg, h⟩ := formed form
    exact (linkOutcome_plain (s := s.stored _) h isUp pass).trans (offerCommand_full kind isUp long)

open State in
/-- Settles O27: the chase is stopped first, and the command then offered to the transport it leaves. -/
theorem motionCommandsTakeTheTransportFromAChase : Obligations.MotionCommandsTakeTheTransportFromAChase := by
  unfold Obligations.MotionCommandsTakeTheTransportFromAChase
  intro k n tag w2 w3 arg s ready moves good up owner running origin
  have taken : (s.stored (k.stores n tag w2 w3)).linkOutcome k n tag w2 w3 =
      ((s.stored (k.stores n tag w2 w3)).takenFromChase n).offerCommand n k arg tag false :=
    (linkOutcome_some (s := s.stored _) good).trans (linkCommand_fromChase ready.configured ready.free moves up owner running origin)
  have link := takenFromChase_link (s.stored (k.stores n tag w2 w3)) n
  have ctx := takenFromChase_ctx (s.stored (k.stores n tag w2 w3)) n
  have isUp : (((s.stored (k.stores n tag w2 w3)).takenFromChase n).link n).state = .up := (congrArg Link.state link).trans up
  constructor
  · intro room
    refine exec_link_decided ready k n tag w2 w3 ?_ ready.configured ready.free
    rw [taken]
    by_cases kind : k = .speed
    · subst kind
      obtain rfl := LinkKind.argument?_speed good
      rw [offerCommand_speed isUp, link, ctx]
      have empty (x : Word) : x + displaced none = x := BitVec.add_zero x
      refine congrArg (Prod.mk SlotCode.accepted) ?_
      rw [empty]
      unfold takenFromChase
      simp only [Six.set_set]
      rfl
    · rw [offerCommand_room kind isUp (by rw [link]; exact room.resolve_right kind), link, ctx]
      refine congrArg (Prod.mk SlotCode.accepted) ?_
      unfold takenFromChase
      simp only [Six.set_set]
      have plain := LinkKind.argument?_ne_speed moves kind good
      cases arg with
      | speed v => exact absurd rfl (plain v)
      | _ => rfl
  · intro full kind
    refine exec_link_decided ready k n tag w2 w3 ?_ ready.configured ready.free
    rw [taken, offerCommand_full kind isUp (by rw [link]; exact full)]
    rfl

end Sys2Proof.Machine
end

section
/-! PROOF. The local commands of a transport slot: CLEAR_ERRORS, PARAMETER_TAKE and DECK_RESET (05 R90, R96, R97, 04 R79). -/

namespace Sys2Proof.Machine

namespace State

variable {s : State} {n : Transport}

/-- A record of a transport slot that carries no argument words: what its owner decides. -/
theorem exec_bareDeck (ready : s.Ready) (n : Transport) (code tag : Word) (i : Instr)
    (row : exec i s = .next (s.slotRecord (recordStores (.transport n) 7 code tag []))) :
    ∃ w2 w3, exec i s =
      .next ((s.stored (recordStores (.transport n) 7 code tag [])).transportRecord n code tag w2 w3) := by
  have code0 : (s.stored (recordStores (.transport n) 7 code tag [])).latch (.transport n 0) = code := by
    rw [latch_stored ready.cfg]; simp [recordStores]
  have tag1 : (s.stored (recordStores (.transport n) 7 code tag [])).latch (.transport n 1) = tag := by
    rw [latch_stored ready.cfg]; simp [recordStores]
  rw [row, slotRecord_record ready (.transport n) 7 code tag [] rfl rfl (by simp) rfl, handOver7, code0, tag1]
  exact ⟨_, _, rfl⟩

theorem clearLinkErrors_ready (configured : s.configured = true) (free : s.ptu.hold = none) (n : Transport) :
    s.clearLinkErrors n =
      { s with
        links := s.links.set n (s.link n).clearErrors
        ctxs := s.ctxs.set n { s.ctx n with errFrozen := false }
        iru := s.iru.follow (.deck n) ({ s.ctx n with errFrozen := false } : Context).deckCondition } := by
  conv_lhs => rw [port_self s n]
  rw [clearLinkErrors_port configured free, ← port_ctx]

theorem parameterRecord_held (configured : s.configured = true) (free : s.ptu.hold = none) (owner : (s.ctx n).owner = .run)
    (tag latency tolerance timeout : Word) :
    s.parameterRecord n tag latency tolerance timeout = s.transportDecided n .held true 0 tag := by
  unfold parameterRecord
  rw [if_pos owner, transportResult_ready configured free]

theorem parameterRecord_taken (configured : s.configured = true) (free : s.ptu.hold = none) (owner : (s.ctx n).owner ≠ .run)
    (tag latency tolerance timeout : Word) :
    s.parameterRecord n tag latency tolerance timeout =
      ({ s with
        ctxs := s.ctxs.set n
          { s.ctx n with
            latency := if 15 < latency.toNat then 15 else latency.toNat
            tolerance := if 15 < tolerance.toNat then 15 else tolerance.toNat
            replyTimeout := if timeout.toNat < 2 then 2 else if 40 < timeout.toNat then 40 else timeout.toNat }
        } : State).transportDecided n .accepted true 0 tag := by
  unfold parameterRecord
  rw [if_neg owner]
  simp only
  rw [transportResult_ready (s := s.onCtx n _) configured free]
  have clamps : deckParams latency tolerance timeout =
      (if 15 < latency.toNat then 15 else latency.toNat, if 15 < tolerance.toNat then 15 else tolerance.toNat,
        if timeout.toNat < 2 then 2 else if 40 < timeout.toNat then 40 else timeout.toNat) := by
    unfold deckParams clampNat
    refine Prod.ext ?_ (Prod.ext ?_ ?_) <;> simp only <;> split_ifs <;> omega
  rw [clamps]
  rfl

theorem transportRecord_clearErrors (configured : s.configured = true) (free : s.ptu.hold = none) (n : Transport) (tag w2 w3 : Word) :
    s.transportRecord n 10 tag w2 w3 =
      ({ s with
        links := s.links.set n (s.link n).clearErrors
        ctxs := s.ctxs.set n { s.ctx n with errFrozen := false }
        iru := s.iru.follow (.deck n) ({ s.ctx n with errFrozen := false } : Context).deckCondition
        } : State).transportDecided n .accepted false 10 tag := by
  show (s.clearLinkErrors n).transportResult n .accepted false 10 tag = _
  rw [clearLinkErrors_ready configured free, transportResult_ready (by exact configured) (by exact free)]

/-! ### DECK_RESET -/

/-- The entries of a link are those left when its waiting speed is withdrawn, and the speed. -/
theorem processorEntries_slot (l : Link) :
    BitVec.ofNat 16 l.processorEntries = displaced l.slot + BitVec.ofNat 16 ({ l with slot := none } : Link).processorEntries := by
  have count : l.processorEntries =
      l.slot.toList.countP (·.source = .processor) + ({ l with slot := none } : Link).processorEntries := by
    unfold Link.processorEntries
    simp only [Option.toList_none, List.countP_nil]
    omega
  have slot : displaced l.slot = BitVec.ofNat 16 (l.slot.toList.countP (·.source = .processor)) := by
    cases l.slot with
    | none => rfl
    | some v => by_cases src : v.source = .processor <;> simp [displaced, src]
  rw [slot, ← BitVec.ofNat_add, ← count]

/-- The chase context that a DECK_RESET leaves: stopped, where it held the transport (05 R97). -/
def resetChase (s : State) (n : Transport) : Chase :=
  if (s.ctx n).owner = .chase then
    { s.chase n with state := .idle, changeFlag := true, changeCount := wrapSucc 255 (s.chase n).changeCount }
  else s.chase n

/-- The transport context that a DECK_RESET leaves (05 R97, R89, R100). -/
def resetCtx (s : State) (n : Transport) : Context :=
  { s.ctx n with
    owner := .free, fifo := [], errFrozen := false
    mode := if (s.link n).state = .up then .unknown else (s.ctx n).mode
    linkChange := (s.ctx n).linkChange || decide ((s.link n).state ≠ .unprobed)
    cancelled := (s.ctx n).cancelled + BitVec.ofNat 16 (s.link n).processorEntries }

theorem deckReset_ends (configured : s.configured = true) (free : s.ptu.hold = none) (quiet : s.RunQuiet)
    (owner : (s.ctx n).owner ≠ .run) (idle : (s.ctx n).owner = .free → (s.chase n).computes = false)
    (running : (s.ctx n).owner = .chase → (s.chase n).state ≠ .idle ∧ (s.chase n).origin = .processor) :
    ∃ w, s.deckReset n = (.accepted, s.port n (resetLink (s.link n)).clearErrors (s.resetCtx n) (s.resetChase n) w) ∧
      w.isPending (.deck n) = (s.resetCtx n).deckCondition := by
  have condition : (s.resetCtx n).deckCondition = ((s.ctx n).linkChange || decide ((s.link n).state ≠ .unprobed)) := by
    simp [resetCtx, Context.deckCondition]
  rw [condition]
  have accepted : s.deckReset n = (.accepted, (s.takeFromChase n).linkReset n) := if_neg owner
  rw [accepted]
  cases own : (s.ctx n).owner with
  | run => exact absurd own owner
  | free =>
    obtain ⟨w, reset, pending⟩ := linkReset_port (n := n) (l := s.link n) (c := s.ctx n) (k := s.chase n) (v := s.iru)
      configured free quiet (idle own)
    refine ⟨w, congrArg (Prod.mk SlotCode.accepted) ?_, pending⟩
    rw [takeFromChase_other (by rw [own]; decide)]
    conv_lhs => rw [port_self s n]
    rw [reset]
    unfold resetCtx resetChase
    rw [own]
    rfl
  | chase =>
    obtain ⟨moves, origin⟩ := running own
    obtain ⟨w, reset, pending⟩ := linkReset_port (n := n) (l := { s.link n with slot := none })
      (c := { s.ctx n with owner := .free, cancelled := (s.ctx n).cancelled + displaced (s.link n).slot })
      (k := chaseChanged (s.chase n) .idle) (v := s.iru.raise .chase) configured free quiet rfl
    refine ⟨w, congrArg (Prod.mk SlotCode.accepted) ?_, pending⟩
    rw [takeFromChase_ready configured free own moves origin]
    refine reset.trans ?_
    unfold resetCtx resetChase
    rw [own, processorEntries_slot (s.link n), ← BitVec.add_assoc]
    rfl

end State

open State in
/-- Settles O28: the link's record and the context's mark are cleared, and the parameters clamped. -/
theorem errorsAreClearedAndParametersTaken : Obligations.ErrorsAreClearedAndParametersTaken := by
  unfold Obligations.ErrorsAreClearedAndParametersTaken
  constructor
  · intro n tag s ready
    obtain ⟨w2, w3, row⟩ := exec_bareDeck ready n 10 tag (.clearErrors n tag) rfl
    exact row.trans (congrArg Host.Outcome.next (transportRecord_clearErrors (s := s.stored _) ready.configured ready.free n tag w2 w3))
  · intro n tag latency tolerance timeout s ready ws
    have quiet : ∀ p ∈ ([(.transport n 8, tag), (.transport n 9, latency), (.transport n 10, tolerance),
        (.transport n 11, timeout)] : List (Watched × Word)), p.1.quiet = true := by simp [Watched.quiet]
    have row : exec (.parameterTake n tag latency tolerance timeout) s =
        .next ((s.stored ws).parameterRecord n tag latency tolerance timeout) := by
      have l8 : (s.stored ws).latch (.transport n 8) = tag := by rw [latch_stored ready.cfg]; simp [ws]
      have l9 : (s.stored ws).latch (.transport n 9) = latency := by rw [latch_stored ready.cfg]; simp [ws]
      have l10 : (s.stored ws).latch (.transport n 10) = tolerance := by rw [latch_stored ready.cfg]; simp [ws]
      have l11 : (s.stored ws).latch (.transport n 11) = timeout := by rw [latch_stored ready.cfg]; simp [ws]
      have captured := slotRecord_eq ready _ (.transport n 15) 0 quiet rfl
      refine (congrArg Host.Outcome.next captured).trans (congrArg Host.Outcome.next ?_)
      show (s.stored ws).parameterRecord n ((s.stored ws).latch (.transport n 8)) ((s.stored ws).latch (.transport n 9))
        ((s.stored ws).latch (.transport n 10)) ((s.stored ws).latch (.transport n 11)) = _
      rw [l8, l9, l10, l11]
    refine ⟨fun owner => ?_, fun owner => ?_⟩
    · rw [row, parameterRecord_held (s := s.stored ws) ready.configured ready.free owner]
    · rw [row, parameterRecord_taken (s := s.stored ws) ready.configured ready.free owner]
      rfl

open State in
/-- Settles O29: the chase is stopped, and what the link held completes as CANCELLED. -/
theorem deckResetResetsTheLink : Obligations.DeckResetResetsTheLink := by
  unfold Obligations.DeckResetResetsTheLink
  intro n tag s ready
  obtain ⟨w2, w3, row⟩ := exec_bareDeck ready n 11 tag (.deckReset n tag) rfl
  refine ⟨fun owner => ?_, fun owner quiet idle running => ?_⟩
  · rw [row, ← transportResult_ready (s := s.stored _) ready.configured ready.free]
    have held : (s.stored (recordStores (.transport n) 7 11 tag [])).deckReset n = (.held, s.stored _) := if_pos owner
    refine congrArg Host.Outcome.next ?_
    show (match State.deckReset _ n with | (code, u) => u.transportResult n code false 11 tag) = _
    rw [held]
    rfl
  · obtain ⟨w, reset, pending⟩ := deckReset_ends (s := s.stored (recordStores (.transport n) 7 11 tag [])) (n := n)
      ready.configured ready.free quiet owner idle running
    have outcome : exec (.deckReset n tag) s = .next ((s.stored (recordStores (.transport n) 7 11 tag [])).port n
        (resetLink (s.link n)).clearErrors
        { State.resetCtx (s.stored (recordStores (.transport n) 7 11 tag [])) n with result := ⟨some .accepted, false, 11, tag⟩ }
        (State.resetChase (s.stored (recordStores (.transport n) 7 11 tag [])) n) (w.raise .slot)) := by
      rw [row]
      refine congrArg Host.Outcome.next ?_
      show (match State.deckReset _ n with | (code, u) => u.transportResult n code false 11 tag) = _
      rw [reset]
      exact transportResult_port (s := s.stored _) ready.configured ready.free .accepted false 11 tag
    refine ⟨_, outcome, port_views.1, fun m other => (port_other other).1, port_views.2.1, fun m other => (port_other other).2.1,
      port_views.2.2.1, fun m other => (port_other other).2.2, fun _ => ?_, rfl⟩
    rw [port_views.2.1, port_views.2.2.2.1, Iru.isPending_raise, if_neg (by simp)]
    exact pending

end Sys2Proof.Machine
end

section
/-! PROOF. The chase slots: CHASE_START, CHASE_STOP and PARAMS (06 R108 to R114). -/

namespace Sys2Proof.Machine

namespace State

variable {s : State} {n : Transport}

theorem exec_chaseStart (ready : s.Ready) (n : Transport) (tag : Word) (a : ChaseArgs) :
    exec (.chaseStart n tag a) s = .next ((s.stored (recordStores (.chase n) 15 1 tag a.args)).chaseRecord n 1 tag a) := by
  have latch (w : Watched) := latch_stored ready.cfg (recordStores (.chase n) 15 1 tag a.args) w
  rw [exec_recordOf ready (i := .chaseStart n tag a) rfl, handOver_chase]
  unfold paramLatches
  simp only [latch]
  simp [recordStores, ChaseArgs.args, ParamWords.args]

/-- A record of a chase slot that carries no argument words: what its owner decides. -/
theorem exec_bareChase (ready : s.Ready) (n : Transport) (code tag : Word) {i : Instr}
    (row : recordOf? i = some (recordStores (.chase n) 15 code tag [], .chase n 15)) :
    ∃ args, exec i s = .next ((s.stored (recordStores (.chase n) 15 code tag [])).chaseRecord n code tag args) := by
  have code0 : (s.stored (recordStores (.chase n) 15 code tag [])).latch (.chase n 0) = code := by
    rw [latch_stored ready.cfg]; simp [recordStores]
  have tag1 : (s.stored (recordStores (.chase n) 15 code tag [])).latch (.chase n 1) = tag := by
    rw [latch_stored ready.cfg]; simp [recordStores]
  rw [exec_recordOf ready row, handOver_chase, code0, tag1]
  exact ⟨_, rfl⟩

theorem exec_params (ready : s.Ready) (n : Transport) (tag : Word) (p : ParamWords) :
    exec (.params n tag p) s = .next (((s.stored (recordStores (.chase n) 15 3 tag p.args)).chaseParams n p).chaseResult
      n .accepted 3 tag) := by
  have latch (w : Watched) := latch_stored ready.cfg (recordStores (.chase n) 15 3 tag p.args) w
  have code0 : (s.stored (recordStores (.chase n) 15 3 tag p.args)).latch (.chase n 0) = 3 := by
    rw [latch]; simp [recordStores, ParamWords.args]
  have tag1 : (s.stored (recordStores (.chase n) 15 3 tag p.args)).latch (.chase n 1) = tag := by
    rw [latch]; simp [recordStores, ParamWords.args]
  have set : (s.stored (recordStores (.chase n) 15 3 tag p.args)).paramLatches n = p := by
    unfold paramLatches
    simp only [latch]
    simp [recordStores, ParamWords.args]
  rw [exec_recordOf ready (i := .params n tag p) rfl, handOver_chase, code0, tag1, set]
  rfl

/-! ### The form of a CHASE_START (06 R110, check 1) -/

theorem walkReaches_of_chases {t : State} (same : t.chases = s.chases) (n m : Transport) (fuel : Nat) :
    t.walkReaches n m fuel = s.walkReaches n m fuel := by
  induction fuel generalizing m with
  | zero => rfl
  | succ fuel ih =>
    unfold walkReaches chase
    rw [same]
    cases (s.chases.get m).master with
    | transport k => simp only [ih]
    | _ => rfl

/-- What the form check asks of a CHASE_START for a master. -/
def FormGood (s : State) (n : Transport) (a : ChaseArgs) (m : Master) : Prop :=
  m ≠ .editClock ∧ (∀ k, m = .transport k → k ≠ n ∧ s.walkReaches n k 7 = false) ∧
    (Label.ofWords a.labelHi a.labelLo).legal s.standard = true

theorem formGood_stored (s : State) (ws : List (Watched × Word)) (n : Transport) (a : ChaseArgs) (m : Master) :
    (s.stored ws).FormGood n a m ↔ s.FormGood n a m := by
  unfold FormGood
  simp only [walkReaches_of_chases (s := s) (t := s.stored ws) rfl, (stored_fields s ws).2.1]

theorem startForm?_some {a : ChaseArgs} {m : Master} {minus : Bool} (master : Master.ofWord? a.master = some m)
    (sign : signOf? a.sign = some minus) (form : s.FormGood n a m) :
    s.startForm? n a = some (m,
      if minus then -((Label.ofWords a.labelHi a.labelLo).index s.standard : Int)
      else ((Label.ofWords a.labelHi a.labelLo).index s.standard : Int)) := by
  obtain ⟨clock, walk, legal⟩ := form
  unfold startForm?
  rw [master, sign]
  cases m with
  | editClock => exact absurd rfl clock
  | suiteClock => simp [legal]
  | transport k =>
    obtain ⟨other, away⟩ := walk k rfl
    simp [legal, other, away]

theorem startForm?_none {a : ChaseArgs}
    (bad : ¬∃ m, Master.ofWord? a.master = some m ∧ (∃ minus, signOf? a.sign = some minus) ∧ s.FormGood n a m) :
    s.startForm? n a = none := by
  unfold startForm?
  split
  · rename_i m minus master sign
    have form : ¬s.FormGood n a m := fun form => bad ⟨m, master, ⟨minus, sign⟩, form⟩
    refine if_pos ?_
    by_contra passes
    refine form ⟨?_, ?_, ?_⟩ <;> cases m <;> simp_all
  · rfl

theorem signOf?_iff {w : Word} : (∃ minus, signOf? w = some minus) ↔ w = 0 ∨ w = 1 := by
  unfold signOf?
  split_ifs with zero one
  · exact iff_of_true ⟨_, rfl⟩ (.inl zero)
  · exact iff_of_true ⟨_, rfl⟩ (.inr one)
  · exact iff_of_false (fun ⟨_, h⟩ => nomatch h) (not_or.2 ⟨zero, one⟩)

/-! ### The outcomes of CHASE_START and CHASE_STOP -/

theorem chaseStart_begins {a : ChaseArgs} {m : Master} {offset : Int} (form : s.startForm? n a = some (m, offset))
    (up : (s.link n).state = .up) (owner : (s.ctx n).owner ≠ .run) :
    s.chaseStart n a = (.accepted, (s.setOwner n .chase).beginChase n
      { s.chase n with origin := .processor, master := m, offset, pending := some (.ofWords a.params) }) := by
  unfold chaseStart
  rw [form]
  simp only
  rw [if_neg (not_not.2 up), if_neg owner]

theorem chaseStart_down {a : ChaseArgs} {f : Master × Int} (form : s.startForm? n a = some f) (down : (s.link n).state ≠ .up) :
    s.chaseStart n a = (.linkDown, s) := by
  unfold chaseStart
  rw [form]
  exact if_pos down

theorem chaseStart_held {a : ChaseArgs} {f : Master × Int} (form : s.startForm? n a = some f) (up : (s.link n).state = .up)
    (owner : (s.ctx n).owner = .run) : s.chaseStart n a = (.held, s) := by
  unfold chaseStart
  rw [form]
  exact (if_neg (not_not.2 up)).trans (if_pos owner)

theorem chaseStart_arg {a : ChaseArgs} (form : s.startForm? n a = none) : s.chaseStart n a = (.arg, s) := by
  unfold chaseStart
  rw [form]

theorem chaseRecord_start {a : ChaseArgs} {code : SlotCode} {t : State} (start : s.chaseStart n a = (code, t))
    (configured : t.configured = true) (free : t.ptu.hold = none) (tag : Word) :
    s.chaseRecord n 1 tag a = t.chaseDecided n code 1 tag := by
  show (match s.chaseStart n a with | (code, u) => u.chaseResult n code 1 tag) = _
  rw [start]
  exact chaseResult_ready configured free n code 1 tag

theorem chaseRecord_stop {a : ChaseArgs} {code : SlotCode} {t : State} (stop : s.chaseStop n = (code, t))
    (configured : t.configured = true) (free : t.ptu.hold = none) (tag : Word) :
    s.chaseRecord n 2 tag a = t.chaseDecided n code 2 tag := by
  show (match s.chaseStop n with | (code, u) => u.chaseResult n code 2 tag) = _
  rw [stop]
  exact chaseResult_ready configured free n code 2 tag

theorem startSpeed_eq (c : Context) :
    Chase.startSpeed c = if c.mode = .stopped then 0 else if c.mode = .playing then 1024 else c.lastSpeed := by
  unfold Chase.startSpeed
  cases c.mode <;> rfl

theorem beginChase_ready (configured : s.configured = true) (free : s.ptu.hold = none) (n : Transport) (c : Chase) :
    s.beginChase n c =
      { s with
        chases := s.chases.set n (chaseChanged { c.cleared with vPrev := Chase.startSpeed (s.ctx n) } .seek)
        iru := s.iru.raise .chase } := by
  unfold beginChase
  rw [raise_ready (by exact configured) (by exact free)]
  rfl

theorem freeFromChase_eq (owner : (s.ctx n).owner ≠ .run) : s.freeFromChase n = s.setOwner n .free := by
  unfold freeFromChase
  split_ifs with chase
  · rfl
  · have own : (s.ctx n).owner = .free := by
      cases own : (s.ctx n).owner with
      | free => rfl
      | chase => exact absurd own chase
      | run => exact absurd own owner
    have same : s.ctxs.set n { s.ctx n with owner := .free } = s.ctxs := by
      rw [← own]
      exact Six.set_get _ _
    exact (congrArg (fun c => ({ s with ctxs := c } : State)) same).symm

/-- A CHASE_START that passes form, link and ownership, as its record's outcome (06 R110, R112). -/
theorem chaseRecord_begins (configured : s.configured = true) (free : s.ptu.hold = none) {a : ChaseArgs} {m : Master}
    {minus : Bool} (master : Master.ofWord? a.master = some m) (sign : a.sign = if minus then 1 else 0)
    (form : s.FormGood n a m) (up : (s.link n).state = .up) (owner : (s.ctx n).owner ≠ .run) (tag : Word) :
    s.chaseRecord n 1 tag a =
      ({ s with
        ctxs := s.ctxs.set n { s.ctx n with owner := .chase }
        chases := s.chases.set n
          { s.chase n with
            state := .seek, origin := .processor, master := m
            offset :=
              if minus then -((Label.ofWords a.labelHi a.labelLo).index s.standard : Int)
              else ((Label.ofWords a.labelHi a.labelLo).index s.standard : Int)
            pending := some (ChaseParams.ofWords a.params), acc := 0
            vPrev :=
              if (s.ctx n).mode = .stopped then 0 else if (s.ctx n).mode = .playing then 1024 else (s.ctx n).lastSpeed
            lastClamp := .none, inRun := 0, outRun := 0, nakRun := 0, holdCount := 0, slips := 0, cause := none
            lastError := none, changeFlag := true, changeCount := wrapSucc 255 (s.chase n).changeCount }
        iru := s.iru.raise .chase } : State).chaseDecided n .accepted 1 tag := by
  have signed : signOf? a.sign = some minus := by
    rw [sign]
    cases minus <;> rfl
  have start := chaseStart_begins (startForm?_some master signed form) up owner
  have mode : (s.setOwner n .chase).ctx n = { s.ctx n with owner := .chase } := Six.get_set_self ..
  rw [beginChase_ready (by exact configured) (by exact free), startSpeed_eq, mode] at start
  exact chaseRecord_start start configured free tag

/-- A chase that is not the run's is stopped and its transport freed (06 R113, 05 R84). -/
theorem stopChase_ready (configured : s.configured = true) (free : s.ptu.hold = none) (owner : (s.ctx n).owner ≠ .run) :
    (s.idleChase n).freeFromChase n = s.takenFromChase n := by
  rw [idleChase_ready configured free, freeFromChase_eq (by unfold ctx; rw [Six.get_set_self]; exact owner)]
  unfold setOwner onCtx setCtx ctx takenFromChase
  simp only [Six.get_set_self, Six.set_set]
  rfl

theorem chaseStop_offers (running : (s.chase n).state ≠ .idle) (origin : (s.chase n).origin = .processor) :
    s.chaseStop n =
      match ((s.idleChase n).freeFromChase n).offerEntry n ⟨.chase, .halt, .none, none, false, false⟩ with
      | (.placed, s) => (.accepted, s)
      | (.queueFull, s) => (.queueFull, s)
      | (.linkDown, s) => (.linkDown, s) :=
  (if_neg running).trans (if_neg fun h => by cases origin.symm.trans h)

end State

open State in
/-- Settles O30: the checks of a CHASE_START in their order, and the start they let through. -/
theorem chaseStartsBegin : Obligations.ChaseStartsBegin := by
  unfold Obligations.ChaseStartsBegin
  constructor
  · intro n tag a m minus s ready up owner master clock walk sign legal
    rw [exec_chaseStart ready]
    exact congrArg Host.Outcome.next (chaseRecord_begins (s := s.stored _) ready.configured ready.free master sign
      ((formGood_stored ..).2 ⟨clock, walk, legal⟩) up owner tag)
  · intro n tag a s ready good code why
    have formed (h : good) : ∃ f, (s.stored (recordStores (.chase n) 15 1 tag a.args)).startForm? n a = some f := by
      obtain ⟨m, master, clock, walk, sign, legal⟩ := h
      obtain ⟨minus, signed⟩ := signOf?_iff.2 sign
      exact ⟨_, startForm?_some (s := s.stored _) master signed ((formGood_stored ..).2 ⟨clock, walk, legal⟩)⟩
    rw [exec_chaseStart ready]
    refine congrArg Host.Outcome.next (chaseRecord_start (t := s.stored _) ?_ ready.configured ready.free tag)
    rcases why with ⟨bad, rfl⟩ | ⟨form, down, rfl⟩ | ⟨form, up, owner, rfl⟩
    · refine chaseStart_arg (startForm?_none fun ⟨m, master, sign, form⟩ => bad ?_)
      obtain ⟨clock, walk, legal⟩ := (formGood_stored ..).1 form
      exact ⟨m, master, clock, walk, signOf?_iff.1 sign, legal⟩
    · obtain ⟨f, h⟩ := formed form
      exact chaseStart_down (s := s.stored _) h down
    · obtain ⟨f, h⟩ := formed form
      exact chaseStart_held (s := s.stored _) h up owner

open State in
/-- Settles O31: the context is idled before its HALT is offered, so it stays IDLE whatever the link answers. -/
theorem chaseStopsEnd : Obligations.ChaseStopsEnd := by
  unfold Obligations.ChaseStopsEnd
  intro n tag s ready rec0
  obtain ⟨args, row⟩ := exec_bareChase ready n 2 tag (i := .chaseStop n tag) rfl
  rw [row]
  refine ⟨fun idle => ?_, fun running origin => ?_, fun running origin owner code l answer => ?_⟩
  · exact congrArg Host.Outcome.next (chaseRecord_stop (s := rec0) (if_pos idle) ready.configured ready.free tag)
  · exact congrArg Host.Outcome.next
      (chaseRecord_stop (s := rec0) ((if_neg running).trans (if_pos origin)) ready.configured ready.free tag)
  · have stopped (t : State) (e : rec0.chaseStop n = (code, t)) (same : t.cfg = rec0.cfg ∧ t.ptu = rec0.ptu) :
        rec0.chaseRecord n 2 tag args = t.chaseDecided n code 2 tag :=
      chaseRecord_stop e ((configured_of_cfg same.1).trans ready.configured) (same.2 ▸ ready.free) tag
    refine congrArg Host.Outcome.next (stopped _ ?_ ⟨rfl, rfl⟩)
    have link := takenFromChase_link rec0 n
    rw [chaseStop_offers (s := rec0) running origin, stopChase_ready (s := rec0) ready.configured ready.free owner]
    rcases answer with ⟨up, room, rfl, rfl⟩ | ⟨up, full, rfl, rfl⟩ | ⟨down, rfl, rfl⟩
    · rw [offerEntry_room (by rw [link]; exact up) (by rw [link]; exact room)]
      unfold placeEntry onLink setLink
      rw [link]
      unfold takenFromChase
      simp only [Six.set_set]
      rfl
    · rw [offerEntry_full (by rw [link]; exact up) (by rw [link]; exact not_lt.2 full) rfl]
      rfl
    · rw [offerEntry_down (by rw [link]; exact down)]
      rfl

open State in
/-- Settles O32: PARAMS writes the pending set and nothing else. -/
theorem paramsBecomePending : Obligations.ParamsBecomePending := by
  unfold Obligations.ParamsBecomePending
  intro n tag p s ready
  rw [exec_params ready, chaseResult_ready (s := (s.stored _).chaseParams n p) ready.configured ready.free]
  have zero (hi x : Nat) : clampNat 0 hi x = min x hi := by
    rw [clampNat, if_neg (Nat.not_lt_zero x), min_comm, min_def_lt]
  unfold chaseParams onChase ChaseParams.ofWords setChase
  simp only [zero]
  rfl

end Sys2Proof.Machine
end

section
/-! PROOF. The switcher slot: MIXER_SET, AUTO_TRANS and GPI_PULSE, and the commands that no slot knows (09 R178, R185 to R189,
11 R203). -/

namespace Sys2Proof.Machine

/-- The mixer source codes are 0 to 7. -/
theorem MixSource.ofCode?_isSome_iff (c : Nat) : (MixSource.ofCode? c).isSome = true ↔ c < 8 := by
  constructor
  · intro some
    by_contra large
    have number : Transport.ofNum? c = none := by
      unfold Transport.ofNum?
      split
      case h_7 => rfl
      all_goals omega
    unfold MixSource.ofCode? at some
    rw [number] at some
    simp only at some
    rw [if_neg (by omega), if_neg (by omega)] at some
    cases some
  · intro small
    interval_cases c <;> rfl

theorem Curve.ofCode?_word {w : Word} (h : w = 0 ∨ w = 1) :
    Curve.ofCode? w.toNat = some (if w = 0 then .linear else .s) := by
  rcases h with rfl | rfl <;> rfl

theorem Curve.of_ofCode?_word {w : Word} {c : Curve} (h : Curve.ofCode? w.toNat = some c) : w = 0 ∨ w = 1 := by
  unfold Curve.ofCode? at h
  split at h
  · exact .inl (BitVec.eq_of_toNat_eq (by assumption))
  · exact .inr (BitVec.eq_of_toNat_eq (by assumption))
  · cases h

namespace State

variable {s : State}

theorem autoKind?_eq {w : Word} (h : w = 2 ∨ w = 3) : autoKind? w = some (if w = 2 then .mix else .wipe) := by
  rcases h with rfl | rfl <;> rfl

theorem of_autoKind? {w : Word} {k : TransKind} (h : autoKind? w = some k) : w = 2 ∨ w = 3 := by
  unfold autoKind? at h
  split_ifs at h with two three
  · exact .inl two
  · exact .inr three

/-! ### The mixer owner's answer (09 R178) -/

theorem byOwner_free (owner : s.mixer.owner = .free) (f : State → State) : s.byOwner f = (.accepted, f s) := by
  unfold byOwner
  rw [owner]

theorem byOwner_run (owner : s.mixer.owner = .run) (f : State → State) : s.byOwner f = (.held, s) := by
  unfold byOwner
  rw [owner]

theorem byOwner_processor (owner : s.mixer.owner = .processor) (f : State → State) : s.byOwner f = (.busy, s) := by
  unfold byOwner
  rw [owner]

/-! ### The three commands -/

theorem mixerSet_good {a b level pattern : Word} {x y : MixSource} (aBus : MixSource.ofCode? a.toNat = some x)
    (bBus : MixSource.ofCode? b.toNat = some y) (range : level.toNat ≤ 1023 ∧ pattern.toNat ≤ 63) :
    s.mixerSet a b level pattern = s.byOwner fun s =>
      s.onMixer ({ · with aBus := x, bBus := y, level := level.toNat, pattern := pattern.toNat }) := by
  unfold mixerSet
  rw [aBus, bBus]
  exact if_pos range

theorem mixerSet_bad {a b level pattern : Word}
    (bad : ¬(a.toNat < 8 ∧ b.toNat < 8 ∧ level.toNat ≤ 1023 ∧ pattern.toNat ≤ 63)) :
    s.mixerSet a b level pattern = (.arg, s) := by
  unfold mixerSet
  split
  · rename_i x y aBus bBus
    refine if_neg fun range => bad ⟨?_, ?_, range⟩
    · exact (MixSource.ofCode?_isSome_iff _).1 (Option.isSome_of_eq_some aBus)
    · exact (MixSource.ofCode?_isSome_iff _).1 (Option.isSome_of_eq_some bBus)
  · rfl

theorem autoTrans_good {kind length curve pattern : Word} (kinds : kind = 2 ∨ kind = 3) (curves : curve = 0 ∨ curve = 1)
    (range : 1 ≤ length.toNat ∧ length.toNat ≤ 999 ∧ pattern.toNat ≤ 63) :
    s.autoTrans kind length curve pattern = s.byOwner fun s => s.onMixer fun m =>
      { m with
        owner := .processor, pattern := pattern.toNat
        transition := some ⟨if kind = 2 then .mix else .wipe, if curve = 0 then .linear else .s, 2 * length.toNat, 1, true⟩ } := by
  have fields : fieldCount (if kind = 2 then .mix else .wipe) length.toNat = 2 * length.toNat := by
    split_ifs <;> rfl
  unfold autoTrans
  rw [autoKind?_eq kinds, Curve.ofCode?_word curves]
  simp only [fields]
  exact if_pos range

theorem autoTrans_bad {kind length curve pattern : Word}
    (bad : ¬((kind = 2 ∨ kind = 3) ∧ (curve = 0 ∨ curve = 1) ∧ 1 ≤ length.toNat ∧ length.toNat ≤ 999 ∧ pattern.toNat ≤ 63)) :
    s.autoTrans kind length curve pattern = (.arg, s) := by
  unfold autoTrans
  split
  · rename_i k c kinds curves
    exact if_neg fun range => bad ⟨of_autoKind? kinds, Curve.of_ofCode?_word curves, range⟩
  · rfl

theorem gpiPulse_good (line : Fin 8) {width : Word} (range : 1 ≤ width.toNat ∧ width.toNat ≤ 15) :
    s.gpiPulse (BitVec.ofNat 16 line.val) width = (.accepted, s.onMixer (·.pulse line width.toNat)) := by
  have number : (BitVec.ofNat 16 line.val).toNat = line.val := by
    rw [BitVec.toNat_ofNat]
    omega
  unfold gpiPulse
  rw [dif_pos (by rw [number]; exact line.isLt), if_pos range]
  simp only [number]

theorem gpiPulse_bad {line width : Word} (bad : 8 ≤ line.toNat ∨ width.toNat = 0 ∨ 15 < width.toNat) :
    s.gpiPulse line width = (.arg, s) := by
  unfold gpiPulse
  split_ifs with small range
  · omega
  · rfl
  · rfl

/-! ### A record of the switcher slot, from the command to its outcome -/

theorem switcherOutcome {outcome : SlotCode × State} {code : SlotCode} {t : State} (h : outcome = (code, t))
    (configured : t.configured = true) (free : t.ptu.hold = none) (command tag : Word) :
    outcome.2.switcherResult outcome.1 command tag = t.switcherDecided code command tag := by
  rw [h]
  exact switcherResult_ready configured free code command tag

theorem exec_mixerSet (ready : s.Ready) {tag a b level pattern : Word} {code : SlotCode} {t : State}
    (h : (s.stored (recordStores .switcher 15 1 tag [(2, a), (3, b), (4, level), (5, pattern)])).mixerSet a b level pattern = (code, t))
    (configured : t.configured = true) (free : t.ptu.hold = none) :
    exec (.mixerSet tag a b level pattern) s = .next (t.switcherDecided code 1 tag) := by
  have latch (w : Watched) := latch_stored ready.cfg (recordStores .switcher 15 1 tag [(2, a), (3, b), (4, level), (5, pattern)]) w
  rw [exec_recordOf ready (i := .mixerSet tag a b level pattern) rfl, handOver_switcher, ← switcherOutcome h configured free]
  simp only [latch]
  simp [recordStores]
  rfl

theorem exec_autoTrans (ready : s.Ready) {tag kind length curve pattern : Word} {code : SlotCode} {t : State}
    (h : (s.stored (recordStores .switcher 15 2 tag [(2, kind), (3, length), (4, curve), (5, pattern)])).autoTrans kind length curve
      pattern = (code, t))
    (configured : t.configured = true) (free : t.ptu.hold = none) :
    exec (.autoTrans tag kind length curve pattern) s = .next (t.switcherDecided code 2 tag) := by
  have latch (w : Watched) :=
    latch_stored ready.cfg (recordStores .switcher 15 2 tag [(2, kind), (3, length), (4, curve), (5, pattern)]) w
  rw [exec_recordOf ready (i := .autoTrans tag kind length curve pattern) rfl, handOver_switcher, ← switcherOutcome h configured free]
  simp only [latch]
  simp [recordStores]
  rfl

theorem exec_gpiPulse (ready : s.Ready) {tag line width : Word} {code : SlotCode} {t : State}
    (h : (s.stored (recordStores .switcher 15 3 tag [(2, line), (3, width)])).gpiPulse line width = (code, t))
    (configured : t.configured = true) (free : t.ptu.hold = none) :
    exec (.gpiPulse tag line width) s = .next (t.switcherDecided code 3 tag) := by
  have latch (w : Watched) := latch_stored ready.cfg (recordStores .switcher 15 3 tag [(2, line), (3, width)]) w
  rw [exec_recordOf ready (i := .gpiPulse tag line width) rfl, handOver_switcher, ← switcherOutcome h configured free]
  simp only [latch]
  simp [recordStores]
  rfl

end State

open State in
/-- Settles O33: the form of the record, then the mixer's owner; a GPI line asks no owner. -/
theorem mixerSetAndGpiPulse : Obligations.MixerSetAndGpiPulse := by
  unfold Obligations.MixerSetAndGpiPulse
  constructor
  · intro tag a b level pattern s ready rec0 good
    have sources (h : good) : ∃ x y, MixSource.ofCode? a.toNat = some x ∧ MixSource.ofCode? b.toNat = some y := by
      obtain ⟨x, hx⟩ := Option.isSome_iff_exists.1 ((MixSource.ofCode?_isSome_iff _).2 h.1)
      obtain ⟨y, hy⟩ := Option.isSome_iff_exists.1 ((MixSource.ofCode?_isSome_iff _).2 h.2.1)
      exact ⟨x, y, hx, hy⟩
    refine ⟨fun x y hx hy h owner => ?_, fun h owner => ?_, fun h owner => ?_, fun h => ?_,
      fun c => (MixSource.ofCode?_isSome_iff c).2⟩
    · exact exec_mixerSet ready ((mixerSet_good hx hy h.2.2).trans (byOwner_free (s := rec0) owner _)) ready.configured ready.free
    · obtain ⟨x, y, hx, hy⟩ := sources h
      exact exec_mixerSet ready ((mixerSet_good hx hy h.2.2).trans (byOwner_run (s := rec0) owner _)) ready.configured ready.free
    · obtain ⟨x, y, hx, hy⟩ := sources h
      exact exec_mixerSet ready ((mixerSet_good hx hy h.2.2).trans (byOwner_processor (s := rec0) owner _)) ready.configured
        ready.free
    · exact exec_mixerSet ready (mixerSet_bad (s := rec0) h) ready.configured ready.free
  · intro tag width s ready
    refine ⟨fun line low high => ?_, fun line bad => ?_⟩
    · rw [exec_gpiPulse ready (gpiPulse_good (s := s.stored _) line ⟨low, high⟩) ready.configured ready.free]
      have pulse : s.mixer.pulse line width.toNat = { s.mixer with
          timers := s.mixer.timers.set line width.toNat
          pulses :=
            if s.mixer.timers[line] = 0 then s.mixer.pulses.set line (satSucc 65535 s.mixer.pulses[line])
            else s.mixer.pulses
          retriggers :=
            if s.mixer.timers[line] = 0 then s.mixer.retriggers
            else s.mixer.retriggers.set line (satSucc 65535 s.mixer.retriggers[line]) } := by
        unfold Mixer.pulse
        split_ifs <;> rfl
      exact congrArg (fun m => Host.Outcome.next (State.switcherDecided { s.stored _ with mixer := m } .accepted 3 tag)) pulse
    · exact exec_gpiPulse ready (gpiPulse_bad (s := s.stored _) bad) ready.configured ready.free

open State in
/-- Settles O34: the form of the record, then the mixer's owner. -/
theorem autoTransStartsATransition : Obligations.AutoTransStartsATransition := by
  unfold Obligations.AutoTransStartsATransition
  intro tag kind length curve pattern s ready rec0 good
  refine ⟨fun h owner => ?_, fun h owner => ?_, fun h owner => ?_, fun h => ?_⟩
  · exact exec_autoTrans ready ((autoTrans_good h.1 h.2.1 h.2.2).trans (byOwner_free (s := rec0) owner _)) ready.configured
      ready.free
  · exact exec_autoTrans ready ((autoTrans_good h.1 h.2.1 h.2.2).trans (byOwner_run (s := rec0) owner _)) ready.configured
      ready.free
  · exact exec_autoTrans ready ((autoTrans_good h.1 h.2.1 h.2.2).trans (byOwner_processor (s := rec0) owner _)) ready.configured
      ready.free
  · exact exec_autoTrans ready (autoTrans_bad (s := rec0) h) ready.configured ready.free

/-! ### Command words that name no command (11 R203) -/

namespace State

variable {s : State} {n : Transport} {command tag : Word}

theorem deckRecord_reserved (std : Standard) (reserved : command.toNat = 0 ∨ 11 < command.toNat) (w2 w3 : Word) :
    deckRecord std command w2 w3 = .malformed := by
  unfold deckRecord
  split
  case h_12 => rfl
  all_goals omega

theorem transportRecord_reserved (reserved : command.toNat = 0 ∨ 11 < command.toNat) (w2 w3 : Word) :
    s.transportRecord n command tag w2 w3 = s.transportResult n .malformed false command tag := by
  unfold transportRecord
  rw [deckRecord_reserved s.standard reserved]

theorem chaseRecord_reserved (reserved : command.toNat = 0 ∨ 3 < command.toNat) (a : ChaseArgs) :
    s.chaseRecord n command tag a = s.chaseResult n .arg command tag := by
  unfold chaseRecord
  simp only
  split
  case h_4 => rfl
  all_goals omega

theorem runRecord_reserved (reserved : command.toNat = 0 ∨ 8 < command.toNat) (w2 w3 w4 w5 w6 : Word) :
    s.runRecord command tag w2 w3 w4 w5 w6 = s.runResult .arg command tag := by
  unfold runRecord
  simp only
  split
  case h_9 => rfl
  all_goals omega

theorem switcherRecord_reserved (reserved : command.toNat = 0 ∨ 3 < command.toNat) (w2 w3 w4 w5 : Word) :
    s.switcherRecord command tag w2 w3 w4 w5 = s.switcherResult .arg command tag := by
  unfold switcherRecord
  simp only
  split
  case h_4 => rfl
  all_goals omega

end State

open State in
/-- Settles O35: no slot's owner has a case for the command word. -/
theorem reservedCommandsAreRefused : Obligations.ReservedCommandsAreRefused := by
  unfold Obligations.ReservedCommandsAreRefused
  intro command tag s ready
  refine ⟨fun n reserved => ?_, fun n reserved => ?_, fun reserved => ?_, fun reserved => ?_⟩
  · obtain ⟨w2, w3, row⟩ := exec_bareDeck ready n command tag (.reservedCommand (.transport n) command tag) rfl
    rw [row, transportRecord_reserved reserved, transportResult_ready (s := s.stored _) ready.configured ready.free]
  · obtain ⟨args, row⟩ := exec_bareChase ready n command tag (i := .reservedCommand (.chase n) command tag) rfl
    rw [row, chaseRecord_reserved reserved, chaseResult_ready (s := s.stored _) ready.configured ready.free]
  · obtain ⟨w2, w3, w4, w5, w6, row⟩ := exec_runBare ready command tag (.reservedCommand .run command tag) rfl
    rw [row, runRecord_reserved reserved, runResult_ready (s := s.stored _) ready.configured ready.free]
  · have code0 : (s.stored (recordStores .switcher 15 command tag [])).latch (.switcher 0) = command := by
      rw [latch_stored ready.cfg]; simp [recordStores]
    have tag1 : (s.stored (recordStores .switcher 15 command tag [])).latch (.switcher 1) = tag := by
      rw [latch_stored ready.cfg]; simp [recordStores]
    rw [exec_recordOf ready (i := .reservedCommand .switcher command tag) rfl, handOver_switcher, code0, tag1,
      switcherRecord_reserved reserved, switcherResult_ready (s := s.stored _) ready.configured ready.free]

end Sys2Proof.Machine
end

section
/-! PROOF. The run control slot: commands turned away, commands that act at once, and a busy run stopped or cleared
(08 R148 to R153, R171). -/

namespace Sys2Proof.Machine

namespace State

variable {s t : State} {tag : Word} {code : SlotCode}

/-! ### From the command of the table to its outcome -/

theorem exec_startRun_decided (ready : s.Ready) {first mode autoRoll margin limit : Word}
    (h : (s.stored (recordStores .run 15 1 tag [(2, first), (3, mode), (4, autoRoll), (5, margin), (6, limit)])).startRun
      first mode autoRoll margin limit = (code, t)) (configured : t.configured = true) (free : t.ptu.hold = none) :
    exec (.startRun tag first mode autoRoll margin limit) s = .next (t.runDecided code 1 tag) := by
  rw [exec_startRun ready, runRecord_1, runDone h configured free]

theorem exec_roll_decided (ready : s.Ready) (h : (s.stored (recordStores .run 15 2 tag [])).rollCommand = (code, t))
    (configured : t.configured = true) (free : t.ptu.hold = none) : exec (.roll tag) s = .next (t.runDecided code 2 tag) := by
  obtain ⟨w2, w3, w4, w5, w6, row⟩ := exec_runBare ready 2 tag (.roll tag) rfl
  rw [row, runRecord_2, runDone h configured free]

theorem exec_stop_decided (ready : s.Ready) (h : (s.stored (recordStores .run 15 3 tag [])).unlessIdle stopRun = (code, t))
    (configured : t.configured = true) (free : t.ptu.hold = none) : exec (.stop tag) s = .next (t.runDecided code 3 tag) := by
  obtain ⟨w2, w3, w4, w5, w6, row⟩ := exec_runBare ready 3 tag (.stop tag) rfl
  rw [row, runRecord_3, runDone h configured free]

theorem exec_abort_decided (ready : s.Ready) (h : (s.stored (recordStores .run 15 4 tag [])).unlessIdle abortRun = (code, t))
    (configured : t.configured = true) (free : t.ptu.hold = none) : exec (.abort tag) s = .next (t.runDecided code 4 tag) := by
  obtain ⟨w2, w3, w4, w5, w6, row⟩ := exec_runBare ready 4 tag (.abort tag) rfl
  rw [row, runRecord_4, runDone h configured free]

theorem exec_clearFault_decided (ready : s.Ready) (h : (s.stored (recordStores .run 15 5 tag [])).clearFault = (code, t))
    (configured : t.configured = true) (free : t.ptu.hold = none) :
    exec (.clearFault tag) s = .next (t.runDecided code 5 tag) := by
  obtain ⟨w2, w3, w4, w5, w6, row⟩ := exec_runBare ready 5 tag (.clearFault tag) rfl
  rw [row, runRecord_5, runDone h configured free]

theorem exec_setNext_decided (ready : s.Ready) {next : Word}
    (h : (s.stored (recordStores .run 15 6 tag [(2, next)])).setNext next = (code, t))
    (configured : t.configured = true) (free : t.ptu.hold = none) :
    exec (.setNext tag next) s = .next (t.runDecided code 6 tag) := by
  obtain ⟨w3, w4, w5, w6, row⟩ := exec_setNext ready tag next
  rw [row, runRecord_6, runDone h configured free]

theorem exec_clearAll_decided (ready : s.Ready) (h : (s.stored (recordStores .run 15 7 tag [])).clearAll = t)
    (configured : t.configured = true) (free : t.ptu.hold = none) :
    exec (.clearAll tag) s = .next (t.runDecided .accepted 7 tag) := by
  obtain ⟨w2, w3, w4, w5, w6, row⟩ := exec_runBare ready 7 tag (.clearAll tag) rfl
  rw [row, runRecord_7, h, runResult_ready configured free]

theorem exec_setSuiteClock_decided (ready : s.Ready) {hi lo : Word}
    (h : (s.stored (recordStores .run 15 8 tag [(2, hi), (3, lo)])).setSuiteClock hi lo = (code, t))
    (configured : t.configured = true) (free : t.ptu.hold = none) :
    exec (.setSuiteClock tag hi lo) s = .next (t.runDecided code 8 tag) := by
  obtain ⟨w4, w5, w6, row⟩ := exec_setSuiteClock ready tag hi lo
  rw [row, runRecord_8, runDone h configured free]

/-! ### ROLL, CLEAR_FAULT and SET_SUITE_CLOCK -/

theorem rollCommand_ready (st : s.run.state = .ready) :
    s.rollCommand = (.accepted, s.onRun ({ · with rollRequested := true })) := if_pos st

theorem rollCommand_other (st : s.run.state ≠ .ready) : s.rollCommand = (.state, s) := if_neg st

theorem clearFault_faulted (configured : s.configured = true) (free : s.ptu.hold = none) (st : s.run.state = .faulted) :
    s.clearFault = (.accepted,
      { s with run := { s.run with state := .idle }, iru := (s.iru.raise .runPhase).follow .runFault false }) := by
  unfold clearFault
  rw [if_pos st, runEnter_ready configured free .idle (by rw [st]; decide)]
  rfl

theorem clearFault_other (st : s.run.state ≠ .faulted) : s.clearFault = (.state, s) := if_neg st

theorem setSuiteClock_legal {hi lo : Word} (legal : (Label.ofWords hi lo).legal s.standard = true) :
    s.setSuiteClock hi lo =
      (.accepted, { s with rtu := { s.rtu with clock := (Label.ofWords hi lo).index s.standard } }) := if_pos legal

theorem setSuiteClock_illegal {hi lo : Word} (bad : (Label.ofWords hi lo).legal s.standard = false) :
    s.setSuiteClock hi lo = (.arg, s) := if_neg (by rw [bad]; decide)

/-! ### START_RUN and SET_NEXT turned away -/

theorem startRun_arg {first mode : Word} (bad : 64 ≤ first.toNat ∨ 2 ≤ mode.toNat) (autoRoll margin limit : Word) :
    s.startRun first mode autoRoll margin limit = (.arg, s) := by
  unfold startRun
  split
  · rename_i e m event isMode
    rcases bad with large | large
    · unfold eventOf? at event
      rw [dif_neg (by omega)] at event
      cases event
    · rw [(mode_none mode).2 large] at isMode
      cases isMode
  · rfl

theorem startRun_busy {first mode : Word} (event : first.toNat < 64) (isMode : mode.toNat < 2) (busy : s.run.state ≠ .idle)
    (autoRoll margin limit : Word) : s.startRun first mode autoRoll margin limit = (.state, s) := by
  have formed : ∃ m, RunMode.ofWord? mode = some m := by
    refine Option.ne_none_iff_exists'.1 fun none => ?_
    have := (mode_none mode).1 none
    omega
  obtain ⟨m, hm⟩ := formed
  unfold startRun
  rw [hm, show eventOf? first = some ⟨first.toNat, event⟩ from dif_pos event]
  exact if_neg busy

theorem maySetNext_iff : s.maySetNext = true ↔
    s.run.state.active = true ∧ (s.run.lookahead = .notYet ∨ s.run.lookahead = .none) ∧ s.run.stopRequested = false := by
  simp [maySetNext, and_assoc]

theorem setNext_arg {next : Word} (bad : 64 ≤ next.toNat ∧ next ≠ 0xFFFF) : s.setNext next = (.arg, s) := by
  unfold setNext
  rw [(linkOf_none next).2 bad]

theorem setNext_state {next : Word} {e : Option (Fin 64)} (link : linkOf? next = some e) (bars : s.maySetNext = false) :
    s.setNext next = (.state, s) := by
  unfold setNext
  rw [link]
  exact if_neg (by rw [bars]; decide)

theorem setNext_accepted {next : Word} {e : Option (Fin 64)} (link : linkOf? next = some e) (lets : s.maySetNext = true) :
    s.setNext next = (.accepted, { s with run := { s.run with
      successor := e, lookahead := if e = none then .none else s.run.lookahead } }) := by
  have status : (if e.isNone && decide (s.run.lookahead = .notYet) then Lookahead.none else s.run.lookahead) =
      if e = none then .none else s.run.lookahead := by
    obtain ⟨-, look, -⟩ := maySetNext_iff.1 lets
    cases e with
    | some k => rfl
    | none => rcases look with look | look <;> rw [look] <;> rfl
  unfold setNext
  rw [link]
  simp only
  rw [if_pos lets]
  unfold onRun setRun
  simp only
  rw [status]

theorem linkOf?_eq {next : Word} {e : Option (Fin 64)}
    (h : next = 0xFFFF ∧ e = none ∨ ∃ k : Fin 64, next.toNat = k.val ∧ e = some k) : linkOf? next = some e := by
  rcases h with ⟨rfl, rfl⟩ | ⟨k, number, rfl⟩
  · rfl
  · unfold linkOf?
    rw [if_neg, eventOf_val next k number]
    · rfl
    · rintro rfl
      have := k.isLt
      rw [← number] at this
      exact absurd this (by decide)

/-! ### STOP and CLEAR_ALL of a busy run -/

theorem unlessIdle_idle (idle : s.run.state = .idle) (f : State → State) : s.unlessIdle f = (.state, s) := if_pos idle

theorem unlessIdle_busy (busy : s.run.state ≠ .idle) (f : State → State) : s.unlessIdle f = (.accepted, f s) := if_neg busy

theorem rolling_iff (st : RunState) : st.rolling = true ↔ st = .preroll ∨ st = .edit ∨ st = .postroll := by
  cases st <;> simp [RunState.rolling]

theorem stopRun_rolling (rolling : s.run.state.rolling = true) :
    s.stopRun = if s.run.stopRequested then s else (s.onRun ({ · with stopRequested := true })).cancelLookahead := by
  unfold stopRun
  rcases (rolling_iff _).1 rolling with st | st | st <;> rw [st]

theorem stopRun_ending (ending : s.run.state = .aborting ∨ s.run.state = .faulted) : s.stopRun = s := by
  unfold stopRun
  rcases ending with st | st <;> rw [st]

/-- A look-ahead that is not armed is cancelled in the run's own fields alone (08 R171). -/
theorem cancelLookahead_none (empty : s.et.lookahead = none) :
    s.cancelLookahead =
      { s with run := { s.run with lookahead := .none, pendingFault := none, pendingExtra := 0 } } := by
  have quiet : Transport.all.filter s.et.lookaheadOnly = [] := by
    rw [List.filter_eq_nil_iff]
    intro n _
    simp [EditTable.lookaheadOnly, EditTable.lookaheadNames, empty]
  unfold cancelLookahead
  simp only
  rw [show (s.onRun _).et = s.et from rfl, quiet]
  have released (u : State) (h : u.et.lookahead = none) : (forTransports [] haltAndRelease u).releasePlace .lookahead = u := by
    show u.releasePlace .lookahead = u
    unfold releasePlace leavePlace
    rw [h]
  exact released _ empty

end State

open State in
/-- Settles O38: the form is decided before the state of the run. -/
theorem runCommandsAreTurnedAway : Obligations.RunCommandsAreTurnedAway := by
  unfold Obligations.RunCommandsAreTurnedAway
  intro tag s ready
  refine ⟨fun first mode autoRoll margin limit code why => ?_, fun st => ?_, fun st => ⟨?_, ?_⟩, fun st => ?_,
    fun next code why => ?_, fun hi lo bad => ?_⟩
  · refine exec_startRun_decided ready (t := s.stored _) ?_ ready.configured ready.free
    rcases why with ⟨bad, rfl⟩ | ⟨event, isMode, busy, rfl⟩
    · exact startRun_arg (s := s.stored _) bad ..
    · exact startRun_busy (s := s.stored _) event isMode busy ..
  · exact exec_roll_decided ready (rollCommand_other (s := s.stored _) st) ready.configured ready.free
  · exact exec_stop_decided ready (unlessIdle_idle (s := s.stored _) st _) ready.configured ready.free
  · exact exec_abort_decided ready (unlessIdle_idle (s := s.stored _) st _) ready.configured ready.free
  · exact exec_clearFault_decided ready (clearFault_other (s := s.stored _) st) ready.configured ready.free
  · refine exec_setNext_decided ready (t := s.stored _) ?_ ready.configured ready.free
    rcases why with ⟨large, other, rfl⟩ | ⟨form, rfl, bars⟩
    · exact setNext_arg (s := s.stored _) ⟨large, other⟩
    · have formed : ∃ e, linkOf? next = some e := by
        refine Option.ne_none_iff_exists'.1 fun none => ?_
        obtain ⟨large, other⟩ := (linkOf_none next).1 none
        exact form.elim (fun small => absurd small (by omega)) other
      obtain ⟨e, link⟩ := formed
      exact setNext_state (s := s.stored _) link (Bool.eq_false_iff.2 fun may => bars (maySetNext_iff.1 may))
  · exact exec_setSuiteClock_decided ready (setSuiteClock_illegal (s := s.stored _) bad) ready.configured ready.free

open State in
/-- Settles O39: each accepted command writes its own fields. -/
theorem runCommandsActAtOnce : Obligations.RunCommandsActAtOnce := by
  unfold Obligations.RunCommandsActAtOnce
  intro tag s ready
  refine ⟨fun st => ?_, fun st => ?_, fun next e form active look stop => ?_, fun hi lo legal => ?_⟩
  · exact exec_roll_decided ready (rollCommand_ready (s := s.stored _) st) ready.configured ready.free
  · exact exec_clearFault_decided ready (clearFault_faulted (s := s.stored _) ready.configured ready.free st) ready.configured
      ready.free
  · exact exec_setNext_decided ready (setNext_accepted (s := s.stored _) (linkOf?_eq form) (maySetNext_iff.2 ⟨active, look, stop⟩))
      ready.configured ready.free
  · exact exec_setSuiteClock_decided ready (setSuiteClock_legal (s := s.stored _) legal) ready.configured ready.free

open State in
/-- Settles O40: what each command leaves of a run that rolls, aborts or has faulted. -/
theorem stopsAndClearsOfABusyRun : Obligations.StopsAndClearsOfABusyRun := by
  unfold Obligations.StopsAndClearsOfABusyRun
  intro tag s ready
  refine ⟨fun rolling fresh empty => ?_, fun why => ?_, fun why => ?_, fun st => ?_⟩
  · have busy : s.run.state ≠ .idle := fun st => by rw [st] at rolling; cases rolling
    refine exec_stop_decided ready ((unlessIdle_busy (s := s.stored _) busy _).trans (congrArg (Prod.mk SlotCode.accepted) ?_))
      ready.configured ready.free
    rw [stopRun_rolling (s := s.stored _) rolling, show (s.stored _).run.stopRequested = false from fresh,
      if_neg Bool.false_ne_true, cancelLookahead_none (by exact empty)]
    rfl
  · have busy : s.run.state ≠ .idle := by
      rcases why with ⟨rolling, -⟩ | st | st
      · exact fun st => by rw [st] at rolling; cases rolling
      · rw [st]; decide
      · rw [st]; decide
    refine exec_stop_decided ready ((unlessIdle_busy (s := s.stored _) busy _).trans (congrArg (Prod.mk SlotCode.accepted) ?_))
      ready.configured ready.free
    rcases why with ⟨rolling, again⟩ | ending
    · exact (stopRun_rolling (s := s.stored _) rolling).trans (if_pos again)
    · exact stopRun_ending (s := s.stored _) ending
  · have busy : s.run.state ≠ .idle := by rcases why with st | st <;> rw [st] <;> decide
    have still : s.run.state.active = false := by rcases why with st | st <;> rw [st] <;> rfl
    refine exec_abort_decided ready ((unlessIdle_busy (s := s.stored _) busy _).trans (congrArg (Prod.mk SlotCode.accepted) ?_))
      ready.configured ready.free
    exact if_neg (by show ¬s.run.state.active = true; rw [still]; decide)
  · refine exec_clearAll_decided ready ?_ ready.configured ready.free
    unfold clearAll
    rw [show (s.stored _).run.state = .aborting from st]
    rfl

end Sys2Proof.Machine
end

section
/-! PROOF. Requests that enter the abort path, and CLEAR_ALL of a run at rest (08 R153, R173 to R175). -/

namespace Sys2Proof.Machine

namespace State

variable {s t u : State} {n : Transport} {tag : Word} {cause : AbortCause} {done : EndCause}

/-- What a request that enters the abort path leaves: the run ABORTING with commands outstanding, or ended at once. -/
def AbortEntered (s t : State) (cause : AbortCause) (done : EndCause) : Prop :=
  t.run.abortCause = cause ∧ t.run.awaited = [] ∧ t.run.lookahead = .none ∧ t.run.pendingFault = none ∧
    (∀ n, (t.chase n).state = .idle ∨ (t.chase n).origin = .processor) ∧
    (t.run.state = .aborting ∧ t.run.outstanding ≠ 0 ∧ t.run.endCause = s.run.endCause ∨
      t.run.state = .idle ∧ t.run.endCause = done ∧ t.et.current = none ∧ t.et.lookahead = none ∧ ∀ n, (t.ctx n).owner ≠ .run)

theorem Aborted.entered (h : Aborted s t cause) (other : cause ≠ .fault) : AbortEntered s t cause (endCauseOf cause) := by
  have state := h.state
  rw [if_neg other] at state
  exact ⟨h.abortCause, h.awaited, h.look, h.pending, h.chase, state⟩

theorem AbortEntered.runDecided (h : AbortEntered s t cause done) (code : SlotCode) (command tag : Word) :
    AbortEntered s (t.runDecided code command tag) cause done := h

theorem transportDecided_owner (code : SlotCode) (p : Bool) (command tag : Word) (m : Transport) :
    ((t.transportDecided n code p command tag).ctx m).owner = (t.ctx m).owner := by
  show ((t.ctxs.set n _).get m).owner = _
  rw [Six.get_set]
  split_ifs with same
  · rw [same]
  · rfl

theorem AbortEntered.transportDecided (h : AbortEntered s t cause done) (code : SlotCode) (command tag : Word) :
    AbortEntered s (t.transportDecided n code false command tag) cause done := by
  obtain ⟨abortCause, awaited, look, pending, chase, state⟩ := h
  refine ⟨abortCause, awaited, look, pending, chase, state.imp id ?_⟩
  rintro ⟨idle, ended, current, lookahead, owner⟩
  exact ⟨idle, ended, current, lookahead, fun m => by rw [transportDecided_owner]; exact owner m⟩

/-- A processor HALT on a transport of the run's: the urgent offer, then the abort request (05 R94, 08 R175). -/
theorem linkCommand_halt (up : (s.link n).state = .up) (owner : (s.ctx n).owner = .run) :
    s.linkCommand n .halt .none tag = ((s.offerCommand n .halt .none tag true).1,
      (s.offerCommand n .halt .none tag true).2.haltRequest) := by
  have noChase : s.takeFromChase n = s := takeFromChase_other (by rw [owner]; decide)
  unfold linkCommand
  simp only
  rw [if_neg (not_not.2 up), owner]
  show (((s.takeFromChase n).offerCommand n .halt .none tag true).1,
    ((s.takeFromChase n).offerCommand n .halt .none tag true).2.haltRequest) = _
  rw [noChase]

/-- The abort path needs nothing of the Interrupt Unit: a ready part stays ready for the result. -/
theorem Aborted.ready {ws : List (Watched × Word)} (h : Aborted (s.stored ws) t cause) (ready : s.Ready) :
    t.configured = true ∧ t.ptu.hold = none := ⟨(configured_of_cfg h.cfg).trans ready.configured, h.hold ready.free⟩

/-- The abort path entered after an operation that leaves the run alone. -/
theorem Aborted.entered_after (calm : Calm s t) (h : Aborted t u cause) (other : cause ≠ .fault) :
    AbortEntered s u cause (endCauseOf cause) := by
  have same : t.run.endCause = s.run.endCause := by rw [calm.run]
  have entered := h.entered other
  unfold AbortEntered at entered ⊢
  rwa [same] at entered

theorem clearAll_active (active : s.run.state.active = true) : s.clearAll = s.abortPath .cleared := by
  unfold clearAll
  cases st : s.run.state with
  | idle | aborting | faulted => rw [st] at active; cases active
  | _ => rfl

/-- CLEAR_ALL of a run that works no events and aborts none: IDLE, then the suite clear work (08 R153). -/
theorem clearAll_quiet (configured : s.configured = true) (free : s.ptu.hold = none) (quiet : s.RunQuiet) :
    ∃ v, s.clearAll = ({ s with run := { s.run with state := .idle }, iru := v } : State).suiteClear := by
  unfold clearAll
  rcases quiet with st | st
  · refine ⟨s.iru, ?_⟩
    rw [st]
    simp only
    rw [show ({ s.run with state := .idle } : Run) = s.run by rw [← st]]
  · refine ⟨(s.iru.raise .runPhase).follow .runFault false, ?_⟩
    rw [st]
    simp only
    rw [runEnter_ready configured free .idle (by rw [st]; decide)]
    rfl

theorem stopRun_early (st : s.run.state = .cueing ∨ s.run.state = .ready) : s.stopRun = s.abortPath .stopped := by
  unfold stopRun
  rcases st with st | st <;> rw [st]

end State

open State in
/-- Settles O41: every request is an entry of the abort path, and a processor HALT is offered before it. -/
theorem abortRequestsEnterTheAbortPath : Obligations.AbortRequestsEnterTheAbortPath := by
  unfold Obligations.AbortRequestsEnterTheAbortPath
  intro tag s i cause done ready active why
  have busy : s.run.state ≠ .idle := fun st => by rw [st] at active; cases active
  suffices entered : ∃ t, exec i s = .next t ∧ AbortEntered s t cause done by
    obtain ⟨t, row, abortCause, awaited, look, pending, chase, state⟩ := entered
    exact ⟨t, row, abortCause, awaited, look, pending, chase, state⟩
  rcases why with ⟨rfl, st, rfl, rfl⟩ | ⟨rfl, rfl, rfl⟩ | ⟨rfl, rfl, rfl⟩ | ⟨⟨n, rfl, owner, up⟩, rfl, rfl⟩
  · have path := abortPath_aborted (s := s.stored (recordStores .run 15 3 tag [])) .stopped
    obtain ⟨configured, free⟩ := path.ready ready
    have accepted := (unlessIdle_busy (s := s.stored (recordStores .run 15 3 tag [])) busy stopRun).trans
      (congrArg (Prod.mk SlotCode.accepted) (stopRun_early (s := s.stored _) st))
    exact ⟨_, exec_stop_decided ready accepted configured free, (path.entered (by decide)).runDecided ..⟩
  · have path := abortPath_aborted (s := s.stored (recordStores .run 15 4 tag [])) .processorAbort
    obtain ⟨configured, free⟩ := path.ready ready
    have accepted := (unlessIdle_busy (s := s.stored (recordStores .run 15 4 tag [])) busy abortRun).trans
      (congrArg (Prod.mk SlotCode.accepted) (if_pos active))
    exact ⟨_, exec_abort_decided ready accepted configured free, (path.entered (by decide)).runDecided ..⟩
  · have path := abortPath_aborted (s := s.stored (recordStores .run 15 7 tag [])) .cleared
    obtain ⟨configured, free⟩ := path.ready ready
    exact ⟨_, exec_clearAll_decided ready (clearAll_active (s := s.stored _) active) configured free,
      (path.entered (by decide)).runDecided ..⟩
  · have outcome := (linkOutcome_some (s := s.stored (LinkKind.halt.stores n tag 0 0)) (k := .halt) (n := n) (tag := tag)
      (w2 := 0) (w3 := 0) rfl).trans (linkCommand_halt up owner)
    have calm := calm_offerCommand (s := s.stored (LinkKind.halt.stores n tag 0 0)) (n := n) .halt .none tag true (by decide)
    generalize (s.stored (LinkKind.halt.stores n tag 0 0)).offerCommand n .halt .none tag true = offered at outcome calm
    have working : offered.2.run.state.active = true := by
      rw [calm.run]
      exact active
    have path := abortPath_aborted (s := offered.2) .processorHalt
    have requested : offered.2.haltRequest = offered.2.abortPath .processorHalt := if_pos working
    rw [requested] at outcome
    have row := exec_link_decided ready .halt n tag 0 0 outcome
      ((configured_of_cfg (path.cfg.trans calm.cfg)).trans ready.configured) (path.hold (calm.hold ready.free))
    exact ⟨_, row, (Aborted.entered_after (s := s.stored _) calm path (by decide)).transportDecided ..⟩

open State in
/-- Settles O42: the suite clear work, transport by transport, after CLEAR_FAULT where the run is FAULTED. -/
theorem clearAllDoesTheSuiteClearWork : Obligations.ClearAllDoesTheSuiteClearWork := by
  unfold Obligations.ClearAllDoesTheSuiteClearWork
  intro tag s ready quiet owners chases
  obtain ⟨v, cleared⟩ := clearAll_quiet (s := s.stored (recordStores .run 15 7 tag [])) ready.configured ready.free quiet
  obtain ⟨t, work, lanes, events, current, lookahead, owner, frozen, transition, timers, buses, crosspoints, pulses, run, frame⟩ :=
    suiteClear_ready (s := { s.stored (recordStores .run 15 7 tag []) with run := { s.run with state := .idle }, iru := v })
      ready.configured ready.free rfl
  have kept : t.cfg = (s.stored (recordStores .run 15 7 tag [])).cfg ∧ t.ptu = (s.stored (recordStores .run 15 7 tag [])).ptu := by
    rw [frame]
    exact ⟨rfl, rfl⟩
  have row := exec_clearAll_decided ready (cleared.trans work) ((configured_of_cfg kept.1).trans ready.configured)
    (by rw [kept.2]; exact ready.free)
  refine ⟨_, row, events, current, lookahead, fun n => ?_, fun n => ?_, fun n => ?_, owner, frozen, transition, timers, buses,
    crosspoints, pulses, ?_, ?_⟩
  · obtain ⟨b, link, chase⟩ := lanes n
    obtain ⟨state, err, seq⟩ := link.link
    have same := chase.link
    exact ⟨(congrArg Link.queue same).trans link.queue, chase.slot link.slot, (congrArg Link.state same).trans state,
      (congrArg Link.err same).trans err, (congrArg Link.nextSeq same).trans seq,
      (congrArg Link.inFlight same).trans link.inFlight⟩
  · obtain ⟨b, link, chase⟩ := lanes n
    have own := chase.owner
    rw [link.owner, link.chase] at own
    refine ⟨chase.fifo.trans link.fifo, own.trans ?_⟩
    split_ifs with running
    · rfl
    · cases is : (s.ctx n).owner with
      | free => exact is
      | chase => exact absurd ⟨is, chases n is⟩ running
      | run => exact absurd is (owners n)
  · obtain ⟨b, link, chase⟩ := lanes n
    have params := chase.params
    rw [link.chase] at params
    exact ⟨chase.idle, params⟩
  · show ({ t.run with result := _ } : Run) = _
    rw [run]
  · exact congrArg (State.runDecided · .accepted 7 tag) frame

end Sys2Proof.Machine
end

section
/-! PROOF. START_RUN: the working fields cleared, the event armed and its cues begun, or the run faulted (08 R149, R157, R172). -/

namespace Sys2Proof.Machine

namespace State

variable {s : State} {e : Fin 64} {m : RunMode} {autoRoll : Bool} {margin limit : Nat} {require : Bool}

/-- The state of an accepted START_RUN before its event is armed (08 R149, 07 R145). -/
def runStarted (s : State) (m : RunMode) (autoRoll : Bool) (margin limit : Nat) (require : Bool) : State :=
  { s with
    run := s.run.started m autoRoll margin limit require
    et := { s.et with states := s.et.states.map EventState.reloaded }
    iru := (s.iru.raise .runPhase).follow .runFault false }

theorem eventState_runStarted :
    (s.runStarted m autoRoll margin limit require).eventState e = s.et.states[e].reloaded := by
  show (s.et.states.map EventState.reloaded)[e] = _
  simp

theorem beginRun_eq (configured : s.configured = true) (free : s.ptu.hold = none) (idle : s.run.state = .idle) {u : Setup}
    (setup : s.cfg.setup = some u) :
    s.beginRun e m autoRoll margin limit =
      match (s.runStarted m autoRoll margin limit u.requireReference).armCurrent e with
      | .ok (_, t) => t
      | .error k => (s.runStarted m autoRoll margin limit u.requireReference).armFault k e := by
  unfold beginRun
  rw [beginRun_begins configured free idle setup]
  rfl

/-! ### The answers to an arming request (07 R137) -/

theorem arm_refused {p : Place} {k : FaultKind} (refused : armRefusal (s.eventState e) m = some k) :
    s.arm e p m margin = .error k := by
  unfold arm
  rw [refused]

theorem arm_invalid {p : Place} {r : ArmReason} (stands : armRefusal (s.eventState e) m = none)
    (bad : (s.fieldsOf e).check s.standard margin (fun n => (s.ctx n).latency) = .error r) :
    s.arm e p m margin = .error (.eventInvalid r) := by
  unfold fieldsOf at bad
  unfold arm
  rw [stands]
  simp only
  rw [bad]

theorem arm_armed {p : Place} {c : EventCodes} (stands : armRefusal (s.eventState e) m = none)
    (check : (s.fieldsOf e).check s.standard margin (fun n => (s.ctx n).latency) = .ok c) :
    s.arm e p m margin =
      .ok ((s.fieldsOf e).armed c e p s.standard margin (s.ctx c.recorder).latency,
        s.placeArmed p ((s.fieldsOf e).armed c e p s.standard margin (s.ctx c.recorder).latency)) := by
  unfold fieldsOf at check
  unfold arm
  rw [stands]
  simp only
  rw [check]
  rfl

theorem armCurrent_of_arm {a : Armed} {t : State} (h : s.arm e .current s.run.mode s.run.margin = .ok (a, t)) :
    s.armCurrent e = .ok (a, (t.takeCurrent a).checkReady) := by
  unfold armCurrent
  rw [h]

theorem armCurrent_of_refusal {k : FaultKind} (h : s.arm e .current s.run.mode s.run.margin = .error k) :
    s.armCurrent e = .error k := by
  unfold armCurrent
  rw [h]

/-- An event that stands LOADED once the DONE events are LOADED again is not refused. -/
theorem armRefusal_reloaded (loaded : s.et.states[e] = .loaded ∨ s.et.states[e] = .done) :
    armRefusal ((s.runStarted m autoRoll margin limit require).eventState e) m = none := by
  rw [eventState_runStarted]
  rcases loaded with st | st <;> rw [st] <;> rfl

theorem armCurrent_ok {c : EventCodes} (loaded : s.et.states[e] = .loaded ∨ s.et.states[e] = .done)
    (check : (s.fieldsOf e).check s.standard margin (fun n => (s.ctx n).latency) = .ok c) :
    let b := s.runStarted m autoRoll margin limit require
    let a := (s.fieldsOf e).armed c e .current s.standard margin (s.ctx c.recorder).latency
    b.armCurrent e = .ok (a, ((b.placeArmed .current a).takeCurrent a).checkReady) :=
  armCurrent_of_arm (arm_armed (s := s.runStarted m autoRoll margin limit require) (armRefusal_reloaded loaded) check)

theorem armCurrent_error {k : FaultKind}
    (why : (s.et.states[e] = .empty ∨ s.et.states[e] = .draft) ∧ k = .eventNotLoaded ∨
      (s.et.states[e] = .loaded ∨ s.et.states[e] = .done) ∧
      ∃ r, (s.fieldsOf e).check s.standard margin (fun n => (s.ctx n).latency) = .error r ∧ k = .eventInvalid r) :
    (s.runStarted m autoRoll margin limit require).armCurrent e = .error k := by
  refine armCurrent_of_refusal ?_
  rcases why with ⟨bare, rfl⟩ | ⟨loaded, r, bad, rfl⟩
  · refine arm_refused (s := s.runStarted m autoRoll margin limit require) (m := m) (margin := margin) ?_
    rw [eventState_runStarted]
    rcases bare with st | st <;> rw [st] <;> rfl
  · exact arm_invalid (s := s.runStarted m autoRoll margin limit require) (m := m) (margin := margin) (armRefusal_reloaded loaded) bad

/-- The refusal of its first event faults a run that has nothing to stop (08 R157, R172 to R174). -/
theorem armFault_nothing (configured : s.configured = true) (free : s.ptu.hold = none) (rest : s.AtRest) (k : FaultKind) :
    ∃ v, (s.runStarted m autoRoll margin limit require).armFault k e =
        { s with
          run :=
            { s.run.started m autoRoll margin limit require with
              state := .faulted, fault := some ⟨k, e, none, none, false⟩, abortCause := .fault, endCause := .faulted
              lookahead := .none }
          et := { s.et with states := s.et.states.map EventState.reloaded }
          mixer := { s.mixer with timers := Vector.replicate 8 0, handed := [] }, iru := v } ∧
      v.isPending .runFault = true := by
  obtain ⟨v, path, pending⟩ := abortPath_nothing
    (s := (s.runStarted m autoRoll margin limit require).onRun ({ · with fault := some ⟨k, e, none, none, false⟩ }))
    configured free (by show RunState.cueing ≠ _; decide) rest.current rest.lookahead rest.owner rest.chase rest.mixer rfl rfl rfl
  refine ⟨v, ?_, pending⟩
  unfold armFault runFault
  rw [if_pos (by rfl)]
  exact path

end State

open State in
/-- Settles O37: the refusal reaches the abort path, which finds nothing to stop and ends at once. -/
theorem startRunFaultsOnARefusedEvent : Obligations.StartRunFaultsOnARefusedEvent := by
  unfold Obligations.StartRunFaultsOnARefusedEvent
  intro tag first mode autoRoll margin limit e m k u s ready rest setup event isMode why
  let s0 := s.stored (recordStores .run 15 1 tag [(2, first), (3, mode), (4, autoRoll), (5, margin), (6, limit)])
  have start := startRun_begins (s := s0) rest.idle first mode autoRoll margin limit e m event isMode
  obtain ⟨v, fault, pending⟩ := armFault_nothing (s := s0) (e := e) (m := m) (autoRoll := autoRoll.getLsbD 0)
    (margin := marginOf margin) (limit := cueLimitOf limit) (require := u.requireReference) ready.configured ready.free
    ⟨rest.idle, rest.current, rest.lookahead, rest.owner, rest.chase, rest.mixer, rest.cue⟩ k
  rw [beginRun_eq (s := s0) ready.configured ready.free rest.idle setup, armCurrent_error (s := s0) why] at start
  simp only at start
  rw [fault] at start
  refine ⟨_, exec_startRun_decided ready start ready.configured ready.free, rfl, rfl, rfl, fun _ => ?_, rfl⟩
  exact ((Iru.isPending_raise v .slot .runFault).trans (if_neg (by simp))).trans pending

namespace State

variable {s : State} {n : Transport}

theorem startStatus_eq (a : Armed) : startStatus a = if a.noLookahead = true ∨ a.link = none then .none else .notYet := by
  unfold startStatus
  simp only [Bool.or_eq_true, Option.isNone_iff_eq_none]

/-- The stores of a record leave the words of the Edit Table alone. -/
theorem fieldsOf_stored (s : State) (ws : List (Watched × Word)) (e : Fin 64) : (s.stored ws).fieldsOf e = s.fieldsOf e := by
  unfold fieldsOf PartConfig.eventWord
  rfl

/-- The entries that stand at a link, as one list or the other (05 R94). -/
theorem inFlight_entries (l : Link) : (l.inFlight.map (·.entry)).toList = l.inFlight.toList.map (·.entry) := by
  cases l.inFlight <;> rfl

/-- What the start of a run and then the work on its transports leave alone. -/
theorem frame_of_start {b y : State} (start : b = { s with et := b.et, run := b.run, iru := b.iru }) (work : Frame b y) :
    y = { s with links := y.links, ctxs := y.ctxs, chases := y.chases, et := y.et, run := y.run, iru := y.iru } := by
  cases y
  cases b
  cases s
  unfold Frame at work
  simp only [State.mk.injEq] at start work ⊢
  simp [start, work]

theorem adopted_frame (m : RunMode) (autoRoll : Bool) (margin limit : Nat) (require : Bool) (a : Armed) :
    let b := (((s.runStarted m autoRoll margin limit require).placeArmed .current a).adoptEvent a).onRun
      ({ · with syncPassed := false })
    b = { s with et := b.et, run := b.run, iru := b.iru } := rfl

end State

open State in
/-- Settles O36: the armed event's transports are taken and their LOCATEs placed, one transport at a time. -/
theorem startRunArmsAndCues : Obligations.StartRunArmsAndCues := by
  unfold Obligations.StartRunArmsAndCues
  intro tag first mode autoRoll margin limit e m c u s ready rest setup event isMode loaded check a links
  let s0 := s.stored (recordStores .run 15 1 tag [(2, first), (3, mode), (4, autoRoll), (5, margin), (6, limit)])
  let b := (s0.runStarted m (autoRoll.getLsbD 0) (marginOf margin) (cueLimitOf limit) u.requireReference).placeArmed .current a
  have start := startRun_begins (s := s0) rest.idle first mode autoRoll margin limit e m event isMode
  have fields : s0.fieldsOf e = s.fieldsOf e := fieldsOf_stored s _ e
  rw [beginRun_eq (s := s0) ready.configured ready.free rest.idle setup,
    armCurrent_ok (s := s0) (c := c) loaded (by rw [fields]; exact check), fields] at start
  simp only at start
  have cued := takeCurrent_cues (s := b) (a := a) ready.configured ready.free rfl rfl rest.lookahead rest.cue links
  have armed : s0.startRun first mode autoRoll margin limit = (.accepted, (b.takeCurrent a).checkReady) := start
  generalize (b.takeCurrent a).checkReady = y at cued armed
  have frame := cued.frame
  have tame : Tame true s0 (s0.startRun first mode autoRoll margin limit).2 := startRun_tame ..
  rw [armed] at tame
  have started : s0.configured = true := ready.configured
  have held : s0.ptu.hold = none := ready.free
  have configured : y.configured = true := configured_of tame.cfg started
  have free : y.ptu.hold = none := tame.hold held
  have run : y.run = { s.run.started m (autoRoll.getLsbD 0) (marginOf margin) (cueLimitOf limit) u.requireReference with
      successor := a.link, lookahead := startStatus a, cueCount := 0, cues := y.run.cues } := congrArg State.run frame
  refine ⟨_, exec_startRun_decided ready armed configured free, ?_, ?_, fun n named => ?_, fun n other => ?_, ?_⟩
  · exact (congrArg State.et frame).trans (congrArg (EditTable.mk _ _) rest.lookahead)
  · show ({ y.run with result := _ } : Run) = _
    rw [run, startStatus_eq]
    rfl
  · obtain ⟨z, taken, cue⟩ := cued.on n ((names_transports a).2 named)
    refine ⟨(congrArg Context.owner cue.ctx).trans taken.owner, ?_, fun target is => ?_⟩
    · exact cue.cue.trans (by rw [taken.cue]; rfl)
    · have placed := cue.locate target is
      rw [inFlight_entries] at placed
      exact placed
  · have off := cued.off n fun mem => by rw [(names_transports a).1 mem] at other; cases other
    exact ⟨congrArg Lane.ctx off, congrArg Lane.link off, congrArg Lane.chase off, congrArg Lane.cue off⟩
  · exact congrArg (State.runDecided · .accepted 1 tag) (frame_of_start (adopted_frame ..) frame)

end Sys2Proof.Machine
end

section
/-! PROOF. The house reference: the pulses that begin, count, lock, disturb and lose it (02 R26 to R32). -/

namespace Sys2Proof.Machine

namespace State

variable {s b : State}

theorem framePulse_free (configured : s.configured = true) (st : s.rtu.state = .absent ∨ s.rtu.state = .free) :
    s.framePulse = s.enterReference { s.rtu with state := .acquiring, goodRun := 1, pulseTimer := 0 } := by
  unfold framePulse
  rw [if_pos configured]
  rcases st with st | st <;> rw [st]

theorem framePulse_acquiring (configured : s.configured = true) (st : s.rtu.state = .acquiring) : s.framePulse = s.acquiringPulse := by
  unfold framePulse
  rw [if_pos configured, st]

theorem framePulse_locked (configured : s.configured = true) (st : s.rtu.state = .locked) : s.framePulse = s.lockedPulse := by
  unfold framePulse
  rw [if_pos configured, st]

/-- A pulse on time that is not yet the eighth good one (02 R27). -/
theorem acquiringPulse_good (timely : 63 ≤ s.rtu.pulseTimer ∧ s.rtu.pulseTimer ≤ 65) (few : s.rtu.goodRun < 7) :
    s.acquiringPulse = s.onRtu fun r => { r with goodRun := r.goodRun + 1, pulseTimer := 0 } := by
  unfold acquiringPulse
  rw [if_pos timely, if_neg (by omega)]

theorem acquiringPulse_bad (untimely : s.rtu.pulseTimer < 63 ∨ 65 < s.rtu.pulseTimer) :
    s.acquiringPulse = s.onRtu ({ · with goodRun := 1, pulseTimer := 0 }) := by
  unfold acquiringPulse
  rw [if_neg (by omega)]

theorem acquiringPulse_lock (timely : 63 ≤ s.rtu.pulseTimer ∧ s.rtu.pulseTimer ≤ 65) (many : 7 ≤ s.rtu.goodRun) :
    s.acquiringPulse = s.lockPulse := by
  unfold acquiringPulse
  rw [if_pos timely, if_pos many]

/-- The locking pulse at the beginning of a frame makes no boundary (02 R28). -/
theorem lockPulse_still (configured : s.configured = true) (free : s.ptu.hold = none) (st : s.rtu.state = .acquiring)
    (phase : s.rtu.phase = 0) :
    s.lockPulse = { s with
      rtu := { s.rtu with state := .locked, pulseTimer := 0, owed := false, disturbanceRun := 0, goodRun := 0 }
      iru := s.iru.raise .reference } := by
  have locking : s.rtu.locking =
      { s.rtu with state := .locked, pulseTimer := 0, owed := false, disturbanceRun := 0, goodRun := 0 } := by
    unfold Rtu.locking
    rw [if_neg (by omega)]
  have entered := enterReference_ready configured free s.rtu.locking (by rw [st]; exact nofun) (.inl (by rw [st]; exact nofun))
  show (if (s.enterReference s.rtu.locking).rtu.phase = 0 then s.enterReference s.rtu.locking else _) = _
  rw [entered]
  refine (if_pos phase).trans ?_
  rw [locking]

theorem lockedPulse_owed (owed : s.rtu.owed = true) :
    s.lockedPulse = s.onRtu ({ · with owed := false, disturbanceRun := 0, pulseTimer := 0 }) := if_pos owed

theorem lockedPulse_early (owed : s.rtu.owed = false) (early : s.rtu.pulseTimer < 63) : s.lockedPulse = s.earlyPulse := by
  unfold lockedPulse
  rw [if_neg (by rw [owed]; decide), if_neg (by omega)]

theorem earlyPulse_counted (few : s.rtu.disturbanceRun < 2) :
    s.earlyPulse = { s with rtu := { s.rtu with
      disturbances := satSucc 65535 s.rtu.disturbances, disturbanceRun := s.rtu.disturbanceRun + 1 } } := by
  unfold earlyPulse
  simp only
  exact if_neg (not_le.2 few)

/-- The third early pulse in a row, before the counter is overdue (02 R31). -/
theorem earlyPulse_unlocks (configured : s.configured = true) (free : s.ptu.hold = none) (st : s.rtu.state = .locked)
    (quiet : s.RunQuiet) (many : 2 ≤ s.rtu.disturbanceRun) (phase : s.rtu.phase < 64) :
    s.earlyPulse = { s with rtu := s.rtu.unlocking, iru := s.iru.raise .reference } := by
  have entered := enterReference_ready (s := s.onRtu fun r => { r with disturbances := satSucc 65535 r.disturbances })
    configured free s.rtu.unlocking (by show s.rtu.state ≠ _; rw [st]; exact nofun) (.inr quiet)
  unfold earlyPulse
  simp only
  rw [if_pos (by exact many)]
  show (State.enterReference (s.onRtu _) s.rtu.unlocking).overdueBoundary = _
  rw [entered]
  exact if_neg fun late => absurd (show 64 ≤ s.rtu.phase from late.2) (by omega)

theorem acquireTimeout_ready (configured : s.configured = true) (free : s.ptu.hold = none) (st : s.rtu.state = .acquiring) :
    s.acquireTimeout =
      { elapse (128 - s.rtu.pulseTimer) s with
        rtu := { (elapse (128 - s.rtu.pulseTimer) s).rtu with state := .absent, goodRun := 0, pulseTimer := 0 }
        iru := s.iru.raise .reference } := by
  obtain ⟨state, iru, -⟩ := elapse_state (s := s) (128 - s.rtu.pulseTimer)
  unfold acquireTimeout
  rw [if_pos (by rw [configured, st]; rfl)]
  simp only
  rw [enterReference_ready ((elapse_configured _).trans configured) (elapse_hold _ free) _
    (by rw [state, st]; exact nofun) (.inl (by rw [state, st]; exact nofun)), iru]

theorem referenceLost_ready (configured : s.configured = true) (free : s.ptu.hold = none) (st : s.rtu.state = .locked)
    (owed : s.rtu.owed = true) (quiet : s.RunQuiet) :
    s.referenceLost =
      { elapse (72 - s.rtu.pulseTimer) s with
        rtu := { (elapse (72 - s.rtu.pulseTimer) s).rtu with state := .free, pulseTimer := 0, owed := false, disturbanceRun := 0 }
        iru := s.iru.raise .reference } := by
  obtain ⟨state, iru, run, -⟩ := elapse_state (s := s) (72 - s.rtu.pulseTimer)
  unfold referenceLost
  rw [if_pos (by rw [configured, st, owed]; rfl)]
  simp only
  rw [enterReference_ready ((elapse_configured _).trans configured) (elapse_hold _ free) _
    (by rw [state, st]; exact nofun) (.inr (by unfold RunQuiet; rw [run]; exact quiet)), iru]

/-- The locking pulse with the counter off 0 is a boundary (02 R28). -/
theorem atBoundary_lock (configured : s.configured = true) (st : s.rtu.state = .acquiring)
    (timely : 63 ≤ s.rtu.pulseTimer ∧ s.rtu.pulseTimer ≤ 65) (many : 7 ≤ s.rtu.goodRun) (phase : s.rtu.phase ≠ 0) :
    s.atBoundary .pulse = some ((s.setRtu s.rtu.locking).raise .reference) := by
  unfold atBoundary
  simp [configured, st, timely, many, phase]

theorem exec_atBoundary {c : FrameCause} (at_ : s.atBoundary c = some b) :
    exec (boundaryCommand c) s = .next (b.frameBoundary (s.shortens c)) := by
  rw [exec_boundary, frameCause_at at_]

end State

open State in
/-- Settles O44: the pulses by the state of the reference, and the counters' points. -/
theorem pulsesLockAndDisturbTheReference : Obligations.PulsesLockAndDisturbTheReference := by
  unfold Obligations.PulsesLockAndDisturbTheReference
  intro s configured free
  refine ⟨fun st => ?_, fun st => ⟨fun low high few => ?_, fun untimely => ?_⟩, fun st => ?_,
    fun st low high many => ⟨fun phase => ?_, fun phase => ?_⟩, fun st => ⟨fun owed => ⟨?_, fun quiet => ?_⟩,
      fun owed early => ⟨fun few => ?_, fun more phase quiet => ?_⟩⟩⟩
  · have entered : s.rtu.state ≠ .acquiring ∧ s.rtu.state ≠ .locked := by rcases st with st | st <;> rw [st] <;> decide
    exact congrArg Host.Outcome.next ((framePulse_free configured st).trans
      (enterReference_ready configured free _ entered.1 (.inl entered.2)))
  · exact congrArg Host.Outcome.next ((framePulse_acquiring configured st).trans (acquiringPulse_good ⟨low, high⟩ few))
  · exact congrArg Host.Outcome.next ((framePulse_acquiring configured st).trans (acquiringPulse_bad untimely))
  · exact congrArg Host.Outcome.next (acquireTimeout_ready configured free st)
  · exact congrArg Host.Outcome.next ((framePulse_acquiring configured st).trans
      ((acquiringPulse_lock ⟨low, high⟩ many).trans (lockPulse_still configured free st phase)))
  · have at_ := atBoundary_lock configured st ⟨low, high⟩ many phase
    have short : s.shortens .pulse = decide (1 ≤ s.rtu.phase ∧ s.rtu.phase ≤ 63) := by simp [shortens, st]
    rw [raise_ready (by exact configured) (by exact free)] at at_
    refine ⟨_, exec_atBoundary at_, ?_, fun level => ?_⟩
    · rw [frameBoundary_rtu, short]
      rfl
    · refine frameBoundary_rough.events _ rfl ?_
      exact (Iru.isPending_raise _ _ _).trans (if_pos ⟨rfl, level⟩)
  · exact congrArg Host.Outcome.next ((framePulse_locked configured st).trans (lockedPulse_owed owed))
  · exact congrArg Host.Outcome.next (referenceLost_ready configured free st owed quiet)
  · exact congrArg Host.Outcome.next ((framePulse_locked configured st).trans
      ((lockedPulse_early owed early).trans (earlyPulse_counted few)))
  · exact congrArg Host.Outcome.next ((framePulse_locked configured st).trans
      ((lockedPulse_early owed early).trans (earlyPulse_unlocks configured free st quiet more phase)))

open State in
/-- Settles O45: the parts of a frame boundary, each with what it keeps of the others. -/
theorem frameBoundariesAdvanceTheFrame : Obligations.FrameBoundariesAdvanceTheFrame := by
  unfold Obligations.FrameBoundariesAdvanceTheFrame
  intro s b c at_
  have tame : Tame false s (b.frameBoundary (s.shortens c)) := (atBoundary_rough at_).then_ frameBoundary_rough
  have counters := frameBoundary_rtu (s := b) (sh := s.shortens c)
  refine ⟨_, exec_atBoundary at_, counters, ?_, fun n => frameBoundary_reader b n,
    fun allowed level => frame_raised (atBoundary_configured at_) allowed level, tame.cfg, tame.pending, tame.levels, tame.stack⟩
  rw [counters]
  rfl

end Sys2Proof.Machine
end

section
/-! PROOF. The field-2 boundary: the Transition Generator's work at it, and the pulses it disregards (02 R25, 09 R179 to R181). -/

namespace Sys2Proof.Machine

namespace State

variable {s b : State}

/-- Step 4 of a field boundary raises TRANSITION at most (09 R181, R183). -/
theorem transitionField_iru (configured : s.configured = true) (free : s.ptu.hold = none) :
    s.transitionField.iru = s.iru ∨ s.transitionField.iru = s.iru.raise .transition := by
  unfold transitionField
  cases s.mixer.transition with
  | none => exact .inl rfl
  | some x =>
    simp only
    split_ifs
    · exact .inl rfl
    · rw [raise_ready (by exact configured) (by exact free)]
      exact .inr rfl

theorem transitionField_none (none : s.mixer.transition = none) : s.transitionField = s := by
  unfold transitionField
  rw [none]

/-- What the Transition Generator's work finds after its adoption at a field-2 boundary. -/
def field2Begun (b : State) : State :=
  (b.dropMarks.onRtu ({ · with parity2 := true, field2Made := true })).onMixer Mixer.adopt

theorem field2Boundary_eq (b : State) :
    b.field2Boundary = b.field2Begun.transitionField.onMixer fun m => m.send (m.frame true) := rfl

/-- A formed frame begins on a free line, or waits behind the frame on it (09 R180). -/
theorem send_tx (m : Mixer) (f : List Byte) :
    m.tx = .idle ∧ (m.send f).tx = .sending f Config.switcherFrameUnits none ∨
      ∃ g left w, m.tx = .sending g left w ∧ (m.send f).tx = .sending g left (some f) := by
  unfold Mixer.send
  cases tx : m.tx with
  | idle => exact .inl ⟨rfl, rfl⟩
  | sending g left w => exact .inr ⟨g, left, w, rfl, rfl⟩

theorem exec_field2 {i : Instr}
    (why : s.atField .point = some b ∧ i = .field2Boundary ∨ s.atField .pulse = some b ∧ i = .fieldPulse) :
    exec i s = .next b.field2Boundary := by
  rcases why with ⟨at_, rfl⟩ | ⟨at_, rfl⟩
  · exact congrArg Host.Outcome.next (fieldCause_point at_)
  · obtain ⟨rfl, made⟩ := fieldCause_pulse at_
    exact congrArg Host.Outcome.next made

/-- A field-2 boundary begins in the state itself, or in that of the counters moved to its point. -/
theorem atField2_keeps (at_ : s.atField .point = some b ∨ s.atField .pulse = some b) :
    b.cfg = s.cfg ∧ b.run = s.run ∧ b.readers = s.readers ∧ b.et = s.et ∧ b.pending = s.pending := by
  have moved (k : Nat) (is : elapse k s = b) :
      b.cfg = s.cfg ∧ b.run = s.run ∧ b.readers = s.readers ∧ b.et = s.et ∧ b.pending = s.pending := by
    obtain ⟨-, -, run, cfg, readers, et, pending, -⟩ := elapse_state (s := s) k
    subst is
    exact ⟨cfg, run, readers, et, pending⟩
  rcases at_ with at_ | at_
  · simp only [atField] at at_
    split_ifs at at_
    · exact moved _ (Option.some.inj at_)
    · exact moved _ (Option.some.inj at_)
  · obtain ⟨rfl, -⟩ := fieldCause_pulse at_
    exact ⟨rfl, rfl, rfl, rfl, rfl⟩

/-- A raise of TRANSITION touches no other source, and neither levels nor service stack. -/
theorem raise_transition_others (u : Iru) : (u.raise .transition).levels = u.levels ∧ (u.raise .transition).stack = u.stack ∧
    ∀ i, i ≠ .transition → (u.raise .transition).isPending i = u.isPending i := by
  obtain ⟨levels, stack, -⟩ := Iru.raise_fields u .transition
  exact ⟨levels, stack, fun i other => (Iru.isPending_raise ..).trans (if_neg fun same => other same.1)⟩

end State

open State in
/-- Settles O46: the mixer's work follows the parity, and TRANSITION is all it may raise. -/
theorem field2BoundariesAreMadeOnce : Obligations.Field2BoundariesAreMadeOnce := by
  unfold Obligations.Field2BoundariesAreMadeOnce
  intro s configured
  refine ⟨fun b i why => ?_, fun idle => congrArg Host.Outcome.next (if_neg ?_)⟩
  · obtain ⟨cfg, run, readers, et, pending⟩ := atField2_keeps (why.imp And.left And.left)
    have begun : b.configured = true := (configured_of_cfg cfg).trans configured
    have keeps := transitionField_keeps b.field2Begun
    have raised := transitionField_iru (s := b.field2Begun) begun
    have still := transitionField_none (s := b.field2Begun)
    have kinds := field2Boundary_eq b
    refine ⟨_, exec_field2 why, ?_⟩
    rw [kinds]
    generalize b.field2Begun.transitionField = y at keeps raised still ⊢
    obtain ⟨rtu, links, chases, readers', run', et', cfg', pending', -, crosspoints, pendingCross, tx, -⟩ := keeps
    obtain ⟨length, head, sum⟩ := frame_bytes y.mixer true
    have line := send_tx y.mixer (y.mixer.frame true)
    rw [tx] at line
    refine ⟨rtu, fun e => ⟨?_, ?_⟩, ⟨y.mixer.frame true, length, head, sum, line⟩, links, chases, readers'.trans readers,
      run'.trans run, et'.trans et, cfg'.trans cfg, pending'.trans pending, fun quiet => ?_, fun free => ?_⟩
    · show y.mixer.crosspoints[e] = _
      rw [crosspoints]
      simp [field2Begun, onMixer, Mixer.adopt]
      rfl
    · show y.mixer.pendingCross[e] = _
      rw [pendingCross]
      simp [field2Begun, onMixer, Mixer.adopt]
    · rw [still quiet.1]
      rfl
    · rcases raised free with same | same
      · exact ⟨congrArg Iru.levels same, congrArg Iru.stack same, fun i _ => congrArg (Iru.isPending · i) same⟩
      · have others := raise_transition_others b.iru
        rw [show b.iru.raise .transition = y.iru from same.symm] at others
        exact others
  · rintro ⟨-, locked, low, high, made⟩
    rcases idle with st | st | early | late
    · exact st locked
    · rw [made] at st; cases st
    · omega
    · omega

end Sys2Proof.Machine
end

section
/-! PROOF. The timecode readers: what a word does by the reader's state, and the boundaries at which a reader coasts and is
lost (03 R43 to R48, R55). -/

namespace Sys2Proof.Machine

namespace Reader

/-- The counts after the drop flag of a word has been compared with the standard (03 R43). -/
def flagCounts (r : Reader) (std : Standard) (drop : Bool) : ReaderCounts :=
  if drop = decide (std = .std30d) then r.counts
  else { r.counts with flagMismatch := satSucc 65535 r.counts.flagMismatch }

theorem checkFlag_eq (std : Standard) (r : Reader) (drop : Bool) :
    checkFlag std r drop = { r with counts := r.flagCounts std drop } := by
  unfold checkFlag flagCounts
  split_ifs <;> rfl

theorem consistent_iff (std : Standard) (r : Reader) (i : Nat) : r.consistent std i = true ↔
    ∃ a, r.last = some a ∧ (wrap std.day ((i : Int) - a.index)).natAbs ≤ 2 + r.speed.natAbs / 512 := by
  unfold consistent
  cases r.last with
  | none => simp
  | some a => simp

end Reader

namespace State

variable {s : State} {n : Transport}

/-- A reader put in place after it has entered a state (03 R55). -/
theorem putReader_enter (configured : s.configured = true) (free : s.ptu.hold = none) {y : Reader} (st : ReaderState)
    (from_ : y.state = (s.reader n).state) (count : y.changeCount = (s.reader n).changeCount) :
    s.putReader n (y.enter st) =
      if (s.reader n).state = st then { s with readers := s.readers.set n y }
      else
        { s with
          readers := s.readers.set n
            { y with state := st, changeFlag := true, changeCount := wrapSucc 255 (s.reader n).changeCount }
          iru := s.iru.raise .reader } := by
  unfold Reader.enter
  rw [from_]
  split_ifs with same
  · exact putReader_same from_.symm
  · rw [putReader_moved configured free (by exact same), count]

/-- A word that the checks let through is taken by the reader's state (03 R43). -/
theorem tapeWord_legal (configured : s.configured = true) {bits w : BitVec 80} {d : Dir} (sync : orientWord bits = some (w, d))
    (digits : badDigit w = false) (legal : (readWord w d).label.legal s.standard = true) :
    s.tapeWord n bits = s.putReader n
      (Reader.takeIndex s.standard { s.reader n with counts := (s.reader n).flagCounts s.standard (readWord w d).drop }
        ((readWord w d).label.index s.standard) d s.rtu.phase) := by
  unfold tapeWord
  rw [if_pos configured, sync]
  simp only
  rw [digits, if_neg Bool.false_ne_true]
  unfold Reader.takeWord
  rw [if_pos legal, Reader.checkFlag_eq]
  rfl

theorem tapeWord_badDigit (configured : s.configured = true) {bits w : BitVec 80} {d : Dir}
    (sync : orientWord bits = some (w, d)) (digits : badDigit w = true) :
    s.tapeWord n bits = s.setReader n (s.reader n).badWord := by
  unfold tapeWord
  rw [if_pos configured, sync]
  exact if_pos digits

theorem tapeWord_badLabel (configured : s.configured = true) {bits w : BitVec 80} {d : Dir}
    (sync : orientWord bits = some (w, d)) (digits : badDigit w = false)
    (illegal : (readWord w d).label.legal s.standard = false) :
    s.tapeWord n bits = { s with readers := s.readers.set n (s.reader n).badLabel } := by
  unfold tapeWord
  rw [if_pos configured, sync]
  simp only
  rw [digits, if_neg Bool.false_ne_true]
  unfold Reader.takeWord
  rw [if_neg (by rw [illegal]; decide)]
  exact putReader_same rfl

end State

namespace Reader

theorem takeIndex_start {std : Standard} {r : Reader} (st : r.state = .silent ∨ r.state = .seeded ∨ r.state = .lost) (i : Nat)
    (d : Dir) (phase : Nat) : takeIndex std r i d phase = r.startAcquiring i d := by
  unfold takeIndex
  rcases st with st | st | st <;> rw [st]

theorem takeIndex_acquire {std : Standard} {r : Reader} (st : r.state = .acquiring) (i : Nat) (d : Dir) (phase : Nat) :
    takeIndex std r i d phase = acquire std r i d phase := by
  unfold takeIndex
  rw [st]

theorem takeIndex_follow {std : Standard} {r : Reader} (st : r.state = .reading ∨ r.state = .coasting) (i : Nat) (d : Dir)
    (phase : Nat) : takeIndex std r i d phase = followWord std r i d phase := by
  unfold takeIndex
  rcases st with st | st <;> rw [st]

/-- A word is near the last accepted one (03 R46). -/
def Near (std : Standard) (r : Reader) (i : Nat) : Prop :=
  ∃ a, r.last = some a ∧ (wrap std.day ((i : Int) - a.index)).natAbs ≤ 2 + r.speed.natAbs / 512

theorem followWord_near {std : Standard} {r : Reader} {i : Nat} (near : r.Near std i) (d : Dir) (phase : Nat) :
    followWord std r i d phase =
      ({ r.accept i d phase with jump := none, ring := if r.state = .coasting then [] else r.ring } : Reader).enter .reading :=
  if_pos ((consistent_iff ..).2 near)

theorem followWord_jump {std : Standard} {r : Reader} {i : Nat} {d : Dir} (far : ¬r.Near std i)
    (next : continues std r.jump i d = true) (phase : Nat) :
    followWord std r i d phase =
      ({ r.accept i d phase with
        ring := [], jump := none, speed := playSpeed d
        counts := { (r.accept i d phase).counts with jump := satSucc 65535 r.counts.jump } } : Reader).enter .reading :=
  (if_neg fun same => far ((consistent_iff ..).1 same)).trans (if_pos next)

theorem followWord_discard {std : Standard} {r : Reader} {i : Nat} {d : Dir} (far : ¬r.Near std i)
    (other : continues std r.jump i d ≠ true) (phase : Nat) :
    followWord std r i d phase =
      { r with jump := some ⟨i, d⟩, counts := { r.counts with discarded := satSucc 65535 r.counts.discarded } } :=
  (if_neg fun same => far ((consistent_iff ..).1 same)).trans (if_neg other)

end Reader

open State in
/-- Settles O47: the checks of a word, then the reader's state, then whether the word continues what it knows. -/
theorem timecodeWordsMoveTheReader : Obligations.TimecodeWordsMoveTheReader := by
  unfold Obligations.TimecodeWordsMoveTheReader
  intro n bits w d s configured free sync r x i c changed kept reading accepted follows playing near
  have counts : c = r.flagCounts s.standard x.drop := rfl
  have speed : Machine.playSpeed d = playing := by cases d <;> rfl
  refine ⟨fun digits => ?_, fun digits illegal => ?_, fun digits legal => ?_⟩
  · exact congrArg Host.Outcome.next (tapeWord_badDigit configured sync digits)
  · exact congrArg Host.Outcome.next (tapeWord_badLabel configured sync digits illegal)
  have taken : exec (.timecodeWord n bits) s =
      .next (s.putReader n (Reader.takeIndex s.standard { r with counts := c } i d s.rtu.phase)) :=
    congrArg Host.Outcome.next (tapeWord_legal configured sync digits legal)
  rw [taken]
  refine ⟨fun st => ?_, fun st => ⟨fun next => ?_, fun other => ?_⟩, fun st => ⟨fun close => ?_, fun far next => ?_, fun far other => ?_⟩⟩
  · have idle : r.state ≠ .acquiring := by rcases st with st | st | st <;> rw [st] <;> decide
    rw [Reader.takeIndex_start (by exact st)]
    exact congrArg Host.Outcome.next ((putReader_enter configured free .acquiring (by rfl) (by rfl)).trans (if_neg idle))
  · have waiting : r.state ≠ .reading := by rw [st]; decide
    rw [Reader.takeIndex_acquire (by exact st)]
    unfold Reader.acquire
    rw [if_pos ((continues_iff ..).2 next), speed]
    exact congrArg Host.Outcome.next ((putReader_enter configured free .reading (by rfl) (by rfl)).trans (if_neg waiting))
  · rw [Reader.takeIndex_acquire (by exact st)]
    unfold Reader.acquire
    rw [if_neg fun same => other ((continues_iff ..).1 same)]
    exact congrArg Host.Outcome.next (putReader_same rfl)
  · rw [Reader.takeIndex_follow (by exact st)]
    rw [Reader.followWord_near (by exact close)]
    exact congrArg Host.Outcome.next (putReader_enter configured free .reading (by rfl) (by rfl))
  · rw [Reader.takeIndex_follow (by exact st), Reader.followWord_jump (by exact far) (by exact (continues_iff ..).2 next), speed]
    exact congrArg Host.Outcome.next (putReader_enter configured free .reading (by rfl) (by rfl))
  · rw [Reader.takeIndex_follow (by exact st),
      Reader.followWord_discard (by exact far) (by exact fun same => other ((continues_iff ..).1 same))]
    exact congrArg Host.Outcome.next (putReader_same rfl)

namespace State

variable {s b : State} {n : Transport}

/-- A step of a frame boundary whose mark comes about is that boundary (log 11). -/
theorem exec_markedFrame {c : FrameCause} {m : Mark} {i : Instr} (row : exec i s = .next (s.markedFrame c m))
    (at_ : s.dropMarks.atBoundary c = some b) (marked : m ∈ (b.frameBoundary (s.shortens c)).marks) :
    exec i s = .next (b.frameBoundary (s.shortens c)) := by
  rw [row, markedFrame_at at_ marked]

/-- The work of a reader reads its own fields and the configuration alone. -/
theorem readerBoundary_same {y : State} (reader : y.reader n = b.reader n) (cfg : y.cfg = b.cfg) (len : Nat) :
    (y.reader n).boundary y.standard y.coastLimit len = (b.reader n).boundary b.standard b.coastLimit len := by
  unfold standard coastLimit
  rw [reader, cfg]

theorem coasting_mark (sh : Bool) (from_ : (b.reader n).state = .reading)
    (into : ((b.reader n).boundary b.standard b.coastLimit b.rtu.phase).state = .coasting) :
    Mark.readerCoasting n ∈ (b.frameBoundary sh).marks := by
  refine readerMark (n := n) b fun y reader cfg => ?_
  unfold readerBoundary
  simp only
  rw [readerBoundary_same reader cfg, reader, if_pos ⟨from_, into⟩]
  exact List.mem_append_right _ (List.mem_singleton_self _)

theorem lost_mark (sh : Bool) (from_ : (b.reader n).state ≠ .lost)
    (into : ((b.reader n).boundary b.standard b.coastLimit b.rtu.phase).state = .lost) :
    Mark.readerLost n ∈ (b.frameBoundary sh).marks := by
  refine readerMark (n := n) b fun y reader cfg => ?_
  unfold readerBoundary
  simp only
  rw [readerBoundary_same reader cfg, reader, if_neg (fun h => by rw [into] at h; cases h.2), if_pos ⟨from_, into⟩]
  exact List.mem_append_right _ (List.mem_singleton_self _)

end State

open State in
/-- Settles O48: a reader's quiet boundaries, as the boundary of the cause that marks them. -/
theorem readersCoastAndAreLost : Obligations.ReadersCoastAndAreLost := by
  unfold Obligations.ReadersCoastAndAreLost
  intro n c s b at_
  have configured := atBoundary_configured at_
  have reader := frameBoundary_reader (sh := s.shortens c) b n
  constructor
  · intro st quiet
    obtain ⟨state, position, count, flag, changes⟩ := coasting_eq (b.reader n) b.standard b.coastLimit b.rtu.phase st quiet
    have row := exec_markedFrame (i := .readerCoasting n c) rfl at_ (coasting_mark _ st state)
    refine ⟨_, row, frameBoundary_rtu, ?_⟩
    rw [reader]
    exact ⟨state, position, count, flag, changes,
      fun level => reader_raised b configured level (by rw [st, state]; decide)⟩
  · intro st late
    have lost := lost_eq (b.reader n) b.standard b.coastLimit b.rtu.phase st late
    have state := congrArg Reader.state lost
    have from_ : (b.reader n).state ≠ .lost := by rcases st with st | st <;> rw [st] <;> decide
    have row := exec_markedFrame (i := .readerLost n c) rfl at_ (lost_mark _ from_ state)
    exact ⟨_, row, frameBoundary_rtu, reader.trans lost,
      fun level => reader_raised b configured level (by rw [state]; exact from_)⟩

end Sys2Proof.Machine
end

section
/-! PROOF. The timers of a deck link: the end of a transmission, of a break, and of a probe interval (04 R65, R70, R80). -/

namespace Sys2Proof.Machine

namespace State

variable {s b : State} {n : Transport}

theorem transmitDone_sends {x : Transmission} {f : InFlight} (line : (s.link n).tx = some x) (flight : (s.link n).inFlight = some f)
    (sending : f.phase = .sending) :
    s.transmitDone n = { s with links := s.links.set n { s.link n with
      tx := none, inFlight := some { f with phase := .sent }
      replyTimer := some ((s.ctx n).replyTimeout * Config.msUnits) } } := by
  unfold transmitDone
  rw [line]
  unfold onLink
  simp only
  rw [flight]
  simp only
  rw [if_pos sending]
  rfl

/-- A link that is not UP, under no break and with nothing in flight, may probe (04 R65). -/
theorem canProbe_of {l : Link} (down : l.state ≠ .up) (whole : l.breakLeft = none) (idle : l.inFlight = none) :
    l.canProbe = true := by
  unfold Link.canProbe
  rw [whole, idle]
  simp [down]

theorem breakEnded_probes {k : Nat} (break_ : (s.link n).breakLeft = some k) (down : (s.link n).state ≠ .up)
    (idle : (s.link n).inFlight = none) (line : (s.link n).tx = none) :
    s.breakEnded n = { s with links := s.links.set n { (s.link n).probing with breakLeft := none } } := by
  unfold breakEnded
  rw [break_]
  unfold onLink Link.setupTaken
  simp only
  rw [if_pos (canProbe_of (by exact down) rfl (by exact idle)), probe_eq _ (by exact line)]
  rfl

theorem probeDue_of {l : Link} (down : l.state ≠ .up) (whole : l.breakLeft = none) (idle : l.inFlight = none)
    (due : 31 ≤ l.probeInterval) : l.probeDue = true := by
  unfold Link.probeDue
  rw [canProbe_of down whole idle, decide_eq_true due]
  rfl

/-- A link that is not UP stands through the rest of a frame boundary once its own work is done (02 R24). -/
theorem frameBoundary_link (sh : Bool) (down : ((b.link n).probeTick).state ≠ .up) :
    LinkStill (b.link n).probeTick ((b.frameBoundary sh).link n) := by
  rw [frameBoundary_parts]
  have rest := (runAndChase_tame (r := true) (s := linksDone b sh) (Transport.all.filter fun n => ((linksDone b sh).chase n).computes)
    (linksDone b sh).chases).then_ (fieldWork_tame (r := true) false)
  have still := rest.down rfl n
  rw [linksDone_link] at still
  exact still down

theorem probe_mark (sh : Bool) (due : (b.link n).probeDue = true) : Mark.probe n ∈ (b.frameBoundary sh).marks := by
  rw [frameBoundary_parts]
  exact (fieldWork_tame (r := true) _).marks rfl _ ((runAndChase_tame (r := true) _ _).marks rfl _ (linksDone_mark b n due))

end State

open State in
/-- Settles O49: each timer's end, and the probe as the mark of its boundary. -/
theorem linkTimersSendAndAwait : Obligations.LinkTimersSendAndAwait := by
  unfold Obligations.LinkTimersSendAndAwait
  intro n s
  refine ⟨fun x f line flight sending => ?_, fun k break_ down idle line => ?_, fun c b at_ down whole idle line interval => ?_⟩
  · exact congrArg Host.Outcome.next (transmitDone_sends line flight sending)
  · exact congrArg Host.Outcome.next (breakEnded_probes break_ down idle line)
  · have due := probeDue_of down whole idle interval
    have ticked : (b.link n).probeTick = (b.link n).probing := (if_pos due).trans (probe_eq _ line)
    have still := frameBoundary_link (b := b) (n := n) (s.shortens c) (by rw [ticked]; exact down)
    rw [ticked] at still
    have row := exec_markedFrame (i := .probeIntervalExpiry n c) rfl at_ (probe_mark _ due)
    exact ⟨_, row, frameBoundary_rtu, still.state, still.interval, still.probe _ rfl rfl, still.tx, still.nextSeq⟩

end Sys2Proof.Machine
end

section
/-! PROOF. A reply frame of any form, from the characters on the line to the reply that its link takes (04 R60, R62, R71, R73). -/

namespace Sys2Proof.Machine

namespace State

variable {s : State} {n : Transport} {l : Link} {c : Context} {k : Chase} {v : Iru}

/-- A byte received well. -/
def good (x : Byte) : RxChar := ⟨x, true, true⟩

theorem getD_one_append {bs : List Byte} (h : 2 ≤ bs.length) (xs : List Byte) : (bs ++ xs).getD 1 0 = bs.getD 1 0 := by
  match bs, h with
  | _ :: _ :: _, _ => rfl

/-- The payload bytes of a frame in assembly, all before its check byte. -/
theorem foldl_payload : ∀ (p : List Byte) (bs : List Byte) (l : Link), l.receiver = .frame bs → l.gapLeft = some Config.gapUnits →
    2 ≤ bs.length → (bs.getD 1 0).toNat % 16 ≤ 12 → bs.length + p.length = (bs.getD 1 0).toNat % 16 + 2 →
    (p.map good).foldl (receiveChar n) (s.port n l c k v) = s.port n { l with receiver := .frame (bs ++ p) } c k v
  | [], bs, l, receiver, _, _, _, _ => by
    rw [List.append_nil, ← receiver]
    rfl
  | x :: p, bs, l, receiver, gap, long, small, count => by
    have header := getD_one_append long [x]
    have more : (bs ++ [x]).length = bs.length + 1 := by simp
    rw [List.length_cons] at count
    have step : receiveChar n (s.port n l c k v) (good x) = s.port n { l with receiver := .frame (bs ++ [x]) } c k v := by
      rw [good, char_byte receiver, byte_more (by omega) (by rw [header]; omega), ← gap]
    show (p.map good).foldl (receiveChar n) (receiveChar n (s.port n l c k v) (good x)) = _
    rw [step, foldl_payload p (bs ++ [x]) { l with receiver := .frame (bs ++ [x]) } rfl gap (by omega)
      (by rw [header]; exact small) (by rw [header]; omega), List.append_assoc]
    rfl

/-- The bytes of a frame between its start byte and its check byte. -/
def frameInner (kind q : Nat) (p : List Byte) : List Byte := BitVec.ofNat 8 kind :: BitVec.ofNat 8 (16 * q + p.length) :: p

theorem frameInner_header (kind : Nat) {q : Nat} {p : List Byte} (seq : q ≤ 15) (size : p.length ≤ 12) :
    ((frameInner kind q p).getD 1 0).toNat = 16 * q + p.length := seqByte q p.length seq size

theorem receive_frame (configured : s.configured = true) (hunt : l.receiver = .hunt) (kind : Nat) {q : Nat} {p : List Byte}
    (seq : q ≤ 15) (size : p.length ≤ 12) :
    (s.port n l c k v).receive n (sentWell (frameOf kind q p)) =
      (s.port n { l with receiver := .frame (frameInner kind q p), gapLeft := some Config.gapUnits } c k v).frameReceived n
        (frameInner kind q p ++ [checkByte (frameInner kind q p)]) := by
  have chars : sentWell (frameOf kind q p) =
      good 0xC3 :: good (BitVec.ofNat 8 kind) :: good (BitVec.ofNat 8 (16 * q + p.length)) ::
        (p.map good ++ [good (checkByte (frameInner kind q p))]) := by
    simp [sentWell, frameOf, frameInner, good, startByte]
  have header := frameInner_header kind seq size
  have size16 : (16 * q + p.length) % 16 = p.length := by omega
  have lead : ([BitVec.ofNat 8 kind, BitVec.ofNat 8 (16 * q + p.length)] : List Byte).getD 1 0 = (frameInner kind q p).getD 1 0 := rfl
  unfold receive
  rw [if_pos (by exact configured), chars]
  simp only [List.foldl_cons, List.foldl_append, List.foldl_nil]
  rw [good, char_start hunt, good, char_byte rfl, byte_more (by simp) (by simp), good, char_byte rfl,
    byte_more (.inr (by
      show (([BitVec.ofNat 8 kind, BitVec.ofNat 8 (16 * q + p.length)] : List Byte).getD 1 0).toNat % 16 ≤ 12
      rw [lead, header]; omega)) (by
      show 2 ≠ (([BitVec.ofNat 8 kind, BitVec.ofNat 8 (16 * q + p.length)] : List Byte).getD 1 0).toNat % 16 + 3
      omega)]
  rw [foldl_payload p [BitVec.ofNat 8 kind, BitVec.ofNat 8 (16 * q + p.length)] _ rfl rfl (by simp)
    (by rw [lead, header]; omega) (by rw [lead, header, size16]; simp; omega)]
  rw [good, char_byte rfl]
  refine byte_last ?_ ?_
  · simp
  · show (frameInner kind q p ++ [_]).length = ((frameInner kind q p ++ [_]).getD 1 0).toNat % 16 + 3
    rw [getD_one_append (by simp [frameInner]), header, size16]
    simp [frameInner]

theorem ReplyKind.of_ofCode? {kind : Nat} {r : ReplyKind} (h : ReplyKind.ofCode? kind = some r) :
    (BitVec.ofNat 8 kind).toNat = kind ∧ kind ≠ noticeCode ∧ r.length ≤ 12 := by
  unfold ReplyKind.ofCode? at h
  split_ifs at h with ack nak sense
  · cases h; subst ack; decide
  · cases h; subst nak; decide
  · cases h; subst sense; decide

/-- A frame that passes the check and the form of a reply is one (04 R62, R73). -/
theorem frameReceived_reply {kind q : Nat} {p : List Byte} {r : ReplyKind} (kinds : ReplyKind.ofCode? kind = some r)
    (form : p.length = r.length) (seq : q ≤ 14) :
    s.frameReceived n (frameInner kind q p ++ [checkByte (frameInner kind q p)]) =
      (s.onLink n ({ · with receiver := .hunt, gapLeft := none })).replyFrame n r q p := by
  obtain ⟨code, notNotice, small⟩ := ReplyKind.of_ofCode? kinds
  have header := frameInner_header kind (q := q) (p := p) (by omega) (by omega)
  have first : ((frameInner kind q p ++ [checkByte (frameInner kind q p)]).getD 0 0).toNat = kind := code
  have second : ((frameInner kind q p ++ [checkByte (frameInner kind q p)]).getD 1 0).toNat = 16 * q + p.length := by
    rw [getD_one_append (by simp [frameInner]), header]
  have payload : ((frameInner kind q p ++ [checkByte (frameInner kind q p)]).drop 2).take p.length = p := by
    show (p ++ [checkByte (frameInner kind q p)]).take p.length = p
    simp
  have seqOf : (16 * q + p.length) / 16 = q := by omega
  have lenOf : (16 * q + p.length) % 16 = p.length := by omega
  unfold frameReceived
  simp only [first, second, seqOf, lenOf, payload, kinds]
  rw [if_neg (not_not_intro (check_sum _)), if_neg fun h => notNotice h.1, if_pos ⟨form, seq⟩]

/-- A reply frame that a hunting receiver hears is taken as a reply (04 R71 to R73). -/
theorem exec_reply (configured : s.configured = true) (hunt : (s.link n).receiver = .hunt) {kind q : Nat} {p : List Byte}
    {r : ReplyKind} (kinds : ReplyKind.ofCode? kind = some r) (form : p.length = r.length) (seq : q ≤ 14) :
    exec (.deckReply n (sentWell (frameOf kind q p))) s =
      .next ((s.port n { s.link n with receiver := .hunt, gapLeft := none } (s.ctx n) (s.chase n) s.iru).replyFrame n r q p) := by
  have small := (ReplyKind.of_ofCode? kinds).2.2
  have heard := receive_frame (s := s) (n := n) (c := s.ctx n) (k := s.chase n) (v := s.iru) configured hunt kind (q := q) (p := p)
    (by omega) (by omega)
  rw [← port_self, frameReceived_reply kinds form seq, onLink_port] at heard
  exact congrArg Host.Outcome.next heard

/-- A link with nothing else to send chooses nothing (04 R69). -/
theorem choose_nothing {l : Link} (queue : l.queue = []) (slot : l.slot = none) : l.choose = l := by
  unfold Link.choose
  rw [queue, slot]
  simp

/-- A link's frame answered, with nothing else to send. -/
theorem answered_eq {l : Link} (queue : l.queue = []) (slot : l.slot = none) :
    ({ ({ l with receiver := .hunt, gapLeft := none } : Link).idle with silence := 0 } : Link).choose = l.answered :=
  choose_nothing queue slot

/-- A reply to the frame in flight of a link with nothing else to send, by its sequence (04 R73). -/
theorem replyFrame_matched {f : InFlight} {q : Nat} (flight : l.inFlight = some f) (seq : f.seq = some q) (r : ReplyKind)
    (p : List Byte) : (s.port n l c k v).replyFrame n r q p = (s.port n l c k v).matched n f r p := by
  unfold replyFrame
  simp only [port_views]
  rw [flight]
  exact if_pos seq

theorem replyFrame_stale {q : Nat} (other : ∀ f, l.inFlight = some f → f.seq ≠ some q) (r : ReplyKind) (p : List Byte) :
    (s.port n l c k v).replyFrame n r q p = s.port n { l with stale := satSucc 65535 l.stale } c k v := by
  have stale := onLink_port (s := s) (n := n) (l := l) (c := c) (k := k) (v := v)
    fun l => { l with stale := satSucc 65535 l.stale }
  rw [← stale]
  unfold replyFrame
  simp only [port_views]
  cases flight : l.inFlight with
  | none => rfl
  | some f => exact if_neg (other f flight)

/-- A reply to a frame of a source that waits for it is routed to the source (04 R73, 05 R99). -/
theorem matched_routed {f : InFlight} (orphan : f.orphan = false) (source : f.entry.source ≠ .link) (queue : l.queue = [])
    (slot : l.slot = none) (r : ReplyKind) (p : List Byte) :
    (s.port n { l with receiver := .hunt, gapLeft := none } c k v).matched n f r p =
      (s.port n l.answered c k v).routeReply n f.entry f.seq r p := by
  unfold matched
  rw [if_neg (by rw [orphan]; decide), if_neg source, onLink_port, answered_eq queue slot]

/-- A reply to a frame of a source that waits for it, from the line to the source. -/
theorem exec_routed (configured : s.configured = true) (hunt : (s.link n).receiver = .hunt) {kind q : Nat} {p : List Byte}
    {r : ReplyKind} {f : InFlight} (kinds : ReplyKind.ofCode? kind = some r) (form : p.length = r.length) (seq : q ≤ 14)
    (flight : (s.link n).inFlight = some f) (own : f.seq = some q) (orphan : f.orphan = false) (source : f.entry.source ≠ .link)
    (queue : (s.link n).queue = []) (slot : (s.link n).slot = none) :
    exec (.deckReply n (sentWell (frameOf kind q p))) s =
      .next ((s.port n (s.link n).answered (s.ctx n) (s.chase n) s.iru).routeReply n f.entry (some q) r p) := by
  have matched := matched_routed (s := s) (n := n) (c := s.ctx n) (k := s.chase n) (v := s.iru) orphan source queue slot r p
  rw [exec_reply configured hunt kinds form seq, replyFrame_matched (by exact flight) own, matched, own]

theorem Context.acknowledged_fields (c : Context) (kind : LinkKind) (arg : Arg) :
    (c.acknowledged kind arg).fifo = c.fifo ∧ (c.acknowledged kind arg).delivered = c.delivered := by
  unfold Context.acknowledged
  split <;> exact ⟨rfl, rfl⟩

/-- The processor's entry completes with a reply: tracked, then offered to a reply FIFO with room (05 R86, R99, R101). -/
theorem routeReply_ack (configured : s.configured = true) (free : s.ptu.hold = none) {e : Entry} (source : e.source = .processor)
    (room : c.fifo.length < 3) (q : Option Nat) :
    (s.port n l c k v).routeReply n e q .ack [] =
      s.port n l
        { c.acknowledged e.kind e.arg with
          delivered := (c.acknowledged e.kind e.arg).delivered + 1
          fifo := (c.acknowledged e.kind e.arg).fifo ++ [⟨e.tag, .reply, some e.kind, some .ack, false, q, [], s.stamp⟩] } k
        (v.follow (.deck n) true) := by
  obtain ⟨fifo, -⟩ := Context.acknowledged_fields c e.kind e.arg
  unfold routeReply
  rw [source]
  show ((s.port n l c k v).onCtx n (·.acknowledged e.kind e.arg)).fifoOffer n _ = _
  rw [onCtx_port, fifoOffer_port configured free _ (by rw [fifo]; exact room)]
  rfl

/-- The link after its receiver has given up a frame and its error has been captured (04 R72, R78). -/
def failedFrame (s : State) (l : Link) (e : ErrKind) : Link :=
  { l with
    receiver := .hunt, gapLeft := none, additional := false, counts := l.counts.add e
    err := some ⟨e, l.inFlight.map (·.entry.kind), l.inFlight.bind (·.seq), l.inFlight.map (·.sends), s.stamp⟩ }

/-- A first error captured: the record, the context's mark and DECKn (04 R78). -/
theorem linkError_first (configured : s.configured = true) (free : s.ptu.hold = none) (err : l.err = none) (e : ErrKind) :
    (s.port n l c k v).linkError n e =
      s.port n
        { l with
          additional := false, counts := l.counts.add e
          err := some ⟨e, l.inFlight.map (·.entry.kind), l.inFlight.bind (·.seq), l.inFlight.map (·.sends), s.stamp⟩ }
        { c with errFrozen := true } k (v.follow (.deck n) true) := by
  have condition : ({ c with errFrozen := true } : Context).deckCondition = true := by simp [Context.deckCondition]
  rw [linkError_port configured free, if_neg (by rw [err]; decide), condition]
  unfold Link.addError
  rw [err]

theorem receiveError_first (configured : s.configured = true) (free : s.ptu.hold = none) (err : l.err = none) (e : ErrKind) :
    (s.port n l c k v).receiveError n e =
      (s.port n (s.failedFrame l e) { c with errFrozen := true } k (v.follow (.deck n) true)).unanswered n false := by
  unfold receiveError
  rw [onLink_port, linkError_first configured free (by exact err)]
  rfl

theorem unanswered_idle (idle : (s.link n).inFlight = none) (timer : Bool) : s.unanswered n timer = s := by
  unfold unanswered
  rw [idle]

/-- A receive error with nothing in flight is only recorded (04 R74). -/
theorem receiveError_idle (configured : s.configured = true) (free : s.ptu.hold = none) (err : (s.link n).err = none)
    (idle : (s.link n).inFlight = none) (e : ErrKind) :
    s.receiveError n e =
      { s with
        links := s.links.set n (s.failedFrame (s.link n) e)
        ctxs := s.ctxs.set n { s.ctx n with errFrozen := true }, iru := s.iru.follow (.deck n) true } := by
  conv_lhs => rw [port_self s n]
  rw [receiveError_first configured free err, unanswered_idle (by rw [port_views.1]; exact idle), port_ctx]

theorem gapExpired_error {left : Nat} (gap : (s.link n).gapLeft = some left) : s.gapExpired n = s.receiveError n .gap := by
  unfold gapExpired
  rw [gap]

end State

open State in
/-- Settles O50: an acknowledgement, a notice and a gap, each to the FIFO or to the error record. -/
theorem framesFromTheDeckAreTaken : Obligations.FramesFromTheDeckAreTaken := by
  unfold Obligations.FramesFromTheDeckAreTaken
  intro n s configured free
  refine ⟨fun hunt room => ⟨fun f q flight own seq orphan source queue slot => ?_, fun code owner => ?_⟩, fun gap left flight err => ?_⟩
  · rw [exec_routed configured hunt (r := .ack) rfl rfl seq flight own orphan (by rw [source]; decide) queue slot,
      routeReply_ack configured free source room]
    exact congrArg Host.Outcome.next (port_ctx ..).symm
  · have heard : s.receive n (noticeChars code) = (s.setLink n { s.link n with gapLeft := none }).noticeFrame n code :=
      receive_notice configured hunt code
    obtain ⟨fifo, own, -⟩ := Context.noticed_fields (s.ctx n) code
    have quiet : s.setLink n { s.link n with gapLeft := none } =
        s.port n { s.link n with gapLeft := none } (s.ctx n) (s.chase n) s.iru := by
      calc s.setLink n { s.link n with gapLeft := none }
          = (s.port n (s.link n) (s.ctx n) (s.chase n) s.iru).setLink n { s.link n with gapLeft := none } :=
            congrArg (State.setLink · n { s.link n with gapLeft := none }) (port_self s n)
        _ = _ := setLink_port _
    have noticed : (s.port n { s.link n with gapLeft := none } (s.ctx n) (s.chase n) s.iru).noticeFrame n code =
        s.port n { s.link n with gapLeft := none }
          { ((s.ctx n).noticed code) with
            noticesDelivered := ((s.ctx n).noticed code).noticesDelivered + 1
            fifo := ((s.ctx n).noticed code).fifo ++ [⟨none, .reply, none, none, true, some 15, [code], s.stamp⟩] } (s.chase n)
          (s.iru.follow (.deck n) true) := by
      unfold noticeFrame
      simp only
      rw [onCtx_port, fifoOffer_port configured free _ (by rw [fifo]; exact room)]
      refine if_neg ?_
      rw [port_views.2.1]
      exact fun run => owner (own.symm.trans run)
    rw [← quiet, ← heard, ← port_ctx] at noticed
    exact congrArg Host.Outcome.next noticed
  · refine congrArg Host.Outcome.next ?_
    rw [gapExpired_error left, receiveError_idle configured free err flight]
    have record : (some ⟨.gap, (s.link n).inFlight.map (·.entry.kind), (s.link n).inFlight.bind (·.seq),
        (s.link n).inFlight.map (·.sends), s.stamp⟩ : Option ErrCapture) = some ⟨.gap, none, none, none, s.stamp⟩ := by
      rw [flight]
      rfl
    unfold failedFrame
    rw [record]
    rfl

end Sys2Proof.Machine
end

section
/-! PROOF. A reply at its source: the orphan's, the probe's, the processor's and the chase context's (04 R66, R73, R81; 05 R86,
R87, R99; 06 R129). -/

namespace Sys2Proof.Machine

/-- The kind and the payload length of a reply frame (04 R62), and its kind code. -/
theorem ReplyKind.of_form {kind len : Nat} (form : kind = 0x20 ∧ len = 0 ∨ kind = 0x21 ∧ len = 1 ∨ kind = 0x22 ∧ len = 6) :
    ∃ r, ReplyKind.ofCode? kind = some r ∧ len = r.length ∧ (kind ≠ 0x22 → r ≠ .senseReply) := by
  rcases form with ⟨rfl, rfl⟩ | ⟨rfl, rfl⟩ | ⟨rfl, rfl⟩
  · exact ⟨.ack, rfl, rfl, by decide⟩
  · exact ⟨.nak, rfl, rfl, by decide⟩
  · exact ⟨.senseReply, rfl, rfl, by decide⟩

/-- A mode code of a SENSE_REPLY that says that nothing can be inserted (05 R87). -/
theorem DeckMode.ofCode_out (m : Byte) :
    (DeckMode.ofCode m.toNat = .noTape ∨ DeckMode.ofCode m.toNat = .standbyOff) ↔ m = 6 ∨ m = 7 := by
  revert m
  decide

namespace Context

variable (c : Context)

theorem refusedBy_eq (reason : Byte) :
    c.refusedBy reason = { c with
      mode := if reason = 2 then .noTape else if reason = 4 then .loc else c.mode
      insertMask := if reason = 2 then 0 else c.insertMask } := by
  unfold refusedBy
  split_ifs <;> rfl

/-- A refusal for another reason than NO_TAPE and LOCAL tells nothing (05 R86). -/
theorem refusedBy_other {reason : Byte} (tape : reason ≠ 2) (loc : reason ≠ 4) : c.refusedBy reason = c := by
  unfold refusedBy
  rw [if_neg tape, if_neg loc]

theorem sensed_eq (std : Standard) (mode flags hh mm ss ff : Byte) (stamp : Word) :
    c.sensed std [mode, flags, hh, mm, ss, ff] stamp = { c with
      mode := DeckMode.ofCode mode.toNat
      insertMask := if mode = 6 ∨ mode = 7 then 0 else c.insertMask
      sensedFlags := some (flags.setWidth 4), sensedAt := stamp
      sensedPos := if flags.getLsbD 3 && (⟨hh, mm, ss, ff⟩ : Label).legal std then
        some ((⟨hh, mm, ss, ff⟩ : Label).index std) else none } := by
  have mask : (if DeckMode.ofCode mode.toNat = .noTape ∨ DeckMode.ofCode mode.toNat = .standbyOff then 0 else c.insertMask) =
      if mode = 6 ∨ mode = 7 then 0 else c.insertMask := if_congr (DeckMode.ofCode_out mode) rfl rfl
  rw [← mask]
  rfl

end Context

namespace State

variable {s : State} {n : Transport} {l : Link} {c : Context} {k : Chase} {v : Iru}

/-- A link and a chase context replaced, as a port. -/
theorem port_chase (l : Link) (k : Chase) (v : Iru) :
    ({ s with links := s.links.set n l, chases := s.chases.set n k, iru := v } : State) = s.port n l (s.ctx n) k v := by
  unfold port
  rw [show s.ctxs.set n (s.ctx n) = s.ctxs from Six.set_get _ _]

/-- A link replaced, as a port. -/
theorem port_link (l : Link) : ({ s with links := s.links.set n l } : State) = s.port n l (s.ctx n) (s.chase n) s.iru :=
  (port_ctx l (s.ctx n) s.iru).symm ▸ by
    rw [show s.ctxs.set n (s.ctx n) = s.ctxs from Six.set_get _ _]

/-- The reply to a processor's orphan ends it, CANCELLED (04 R81). -/
theorem matched_orphan {f : InFlight} (orphan : f.orphan = true) (source : f.entry.source = .processor) (queue : l.queue = [])
    (slot : l.slot = none) (r : ReplyKind) (p : List Byte) :
    (s.port n { l with receiver := .hunt, gapLeft := none } c k v).matched n f r p =
      s.port n l.answered { c with cancelled := c.cancelled + 1 } k v := by
  unfold matched endOrphan
  rw [if_pos orphan, onLink_port, onLink_port, source, choose_nothing (by exact queue) (by exact slot)]
  exact onCtx_port fun c => { c with cancelled := c.cancelled + 1 }

/-- The reply to a probe brings the link UP (04 R66). -/
theorem matched_probe (configured : s.configured = true) (free : s.ptu.hold = none) {f : InFlight} (orphan : f.orphan = false)
    (source : f.entry.source = .link) (queue : l.queue = []) (slot : l.slot = none) {r : ReplyKind} (plain : r ≠ .senseReply)
    (p : List Byte) :
    (s.port n { l with receiver := .hunt, gapLeft := none } c k v).matched n f r p =
      s.port n { l.answered with state := .up, probeInterval := 0 } { c with linkChange := true } k
        (v.follow (.deck n) true) := by
  have condition : ({ c with linkChange := true } : Context).deckCondition = true := by simp [Context.deckCondition]
  unfold matched probeAnswered
  rw [if_neg (by rw [orphan]; decide), if_pos source]
  simp only
  rw [if_neg plain, onLink_port, choose_nothing (by exact queue) (by exact slot), changed_port configured free, condition]
  rfl

/-- A SENSE_REPLY taken while the reader reads its tape: the seed tells it nothing (05 R87, 03 R49). -/
theorem senseTaken_reading (reading : (s.reader n).state = .reading) (p : List Byte) :
    (s.port n l c k v).senseTaken n p = s.port n l (c.sensed s.standard p s.stamp) k v := by
  have seed (x : Label) : (s.port n l (c.sensed s.standard p s.stamp) k v).seedReader n x =
      s.port n l (c.sensed s.standard p s.stamp) k v := by
    have same : Reader.takeSeed s.standard (s.reader n) x = s.reader n := by
      unfold Reader.takeSeed
      rw [reading]
    have kept : s.readers.set n (s.reader n) = s.readers := Six.set_get _ _
    have put : (s.port n l (c.sensed s.standard p s.stamp) k v).putReader n (s.reader n) = _ := putReader_same rfl
    unfold seedReader
    refine (congrArg _ same).trans (put.trans ?_)
    unfold port
    rw [kept]
  unfold senseTaken
  rw [onCtx_port]
  simp only
  split
  · exact seed _
  · rfl

/-- The processor's entry completes with a reply that its context has taken (05 R99, R101). -/
theorem reply_offered (configured : s.configured = true) (free : s.ptu.hold = none) {e : Entry} (room : c.fifo.length < 3)
    (q : Option Nat) (r : ReplyKind) (p : List Byte) :
    (s.port n l c k v).fifoOffer n ((s.port n l c k v).completionEntry e q .reply (some r) p) =
      s.port n l
        { c with
          delivered := c.delivered + 1
          fifo := c.fifo ++ [⟨e.tag, .reply, some e.kind, some r, false, q, p, s.stamp⟩] } k
        (v.follow (.deck n) true) := by
  rw [fifoOffer_port configured free _ room]
  rfl

theorem routeReply_nak (configured : s.configured = true) (free : s.ptu.hold = none) {e : Entry} (source : e.source = .processor)
    (room : c.fifo.length < 3) (q : Option Nat) (reason : Byte) :
    (s.port n l c k v).routeReply n e q .nak [reason] =
      s.port n l
        { c.refusedBy reason with
          delivered := (c.refusedBy reason).delivered + 1
          fifo := (c.refusedBy reason).fifo ++ [⟨e.tag, .reply, some e.kind, some .nak, false, q, [reason], s.stamp⟩] } k
        (v.follow (.deck n) true) := by
  have fifo : (c.refusedBy reason).fifo.length < 3 := by rw [Context.refusedBy_eq]; exact room
  unfold routeReply track
  rw [source]
  simp only
  rw [onCtx_port]
  exact reply_offered configured free fifo q .nak [reason]

theorem routeReply_sense (configured : s.configured = true) (free : s.ptu.hold = none) {e : Entry} (source : e.source = .processor)
    (reading : (s.reader n).state = .reading) (room : c.fifo.length < 3) (q : Option Nat) (p : List Byte) :
    (s.port n l c k v).routeReply n e q .senseReply p =
      s.port n l
        { c.sensed s.standard p s.stamp with
          delivered := c.delivered + 1
          fifo := c.fifo ++ [⟨e.tag, .reply, some e.kind, some .senseReply, false, q, p, s.stamp⟩] } k
        (v.follow (.deck n) true) := by
  unfold routeReply track
  rw [source]
  simp only
  rw [senseTaken_reading reading]
  exact reply_offered (c := c.sensed s.standard p s.stamp) configured free room q .senseReply p

/-- An acknowledged speed clears the NAK run of a chase context that computes (06 R129). -/
theorem routeReply_chaseAck {e : Entry} {x : Int} (source : e.source = .chase) (kind : e.kind = .speed) (arg : e.arg = .speed x)
    (computes : k.computes = true) (q : Option Nat) :
    (s.port n l c k v).routeReply n e q .ack [] =
      s.port n l { c with mode := speedMode x, lastSpeed := x } { k with nakRun := 0 } v := by
  unfold routeReply track
  rw [source, kind, arg]
  simp only
  rw [onCtx_port]
  unfold chaseReply
  rw [port_views.2.2.1, computes]
  simp only [decide_true, Bool.and_self, if_true, reduceCtorEq, if_false]
  exact onChase_port _

/-- A refused speed, with a reason that tells the context nothing, reaches the NAK run alone (06 R129). -/
theorem routeReply_chaseNak {e : Entry} (source : e.source = .chase) (kind : e.kind = .speed) (computes : k.computes = true)
    {reason : Byte} (tape : reason ≠ 2) (loc : reason ≠ 4) (q : Option Nat) :
    (s.port n l c k v).routeReply n e q .nak [reason] =
      if 2 ≤ k.nakRun then (s.port n l c k v).failChase n .nak else s.port n l c { k with nakRun := k.nakRun + 1 } v := by
  have refused : c.refusedBy (([reason] : List Byte).getD 0 0) = c := c.refusedBy_other tape loc
  unfold routeReply track
  rw [source, kind]
  simp only
  rw [onCtx_port, refused]
  unfold chaseReply
  rw [port_views.2.2.1, computes, onChase_port]
  rfl

/-- A processor's chase context that computes enters FAULT with no speed waiting (06 R128). -/
theorem failChase_processor (configured : s.configured = true) (free : s.ptu.hold = none) (computes : k.computes = true)
    (origin : k.origin = .processor) (slot : l.slot = none) (cause : ChaseCause) :
    (s.port n l c k v).failChase n cause =
      s.port n l c
        { k with
          state := .fault, cause := some cause, changeFlag := true, changeCount := wrapSucc 255 k.changeCount
          slips := if k.state = .locked then satSucc 65535 k.slips else k.slips } (v.raise .chase) := by
  have waits (x : Chase) : (s.port n l c x v).withdrawSpeed n = s.port n l c x v := by
    unfold withdrawSpeed
    rw [port_views.1, slot]
  unfold failChase faultChase
  rw [port_views.2.2.1, if_pos computes]
  simp only
  rw [if_neg (by rw [origin]; decide), setChase_port, waits, raise_port configured free]
  split <;> rfl

end State

open State in
/-- Settles O51: each reply from the line to the source of the frame that it answers. -/
theorem repliesReachTheirSource : Obligations.RepliesReachTheirSource := by
  unfold Obligations.RepliesReachTheirSource
  intro n q s configured free hunt small
  refine ⟨fun f kind p flight own queue slot form => ?_, fun kind p form other => ?_, fun f flight own orphan queue slot => ⟨?_, ?_⟩⟩
  · obtain ⟨r, kinds, length, plain⟩ := ReplyKind.of_form form
    have taken := exec_reply configured hunt kinds length small
    rw [replyFrame_matched (by exact flight) own] at taken
    refine ⟨fun orphan source => ?_, fun orphan source notSense => ?_⟩
    · rw [taken, matched_orphan orphan source queue slot]
      exact congrArg Host.Outcome.next (port_ctx _ _ s.iru).symm
    · rw [taken, matched_probe configured free orphan source queue slot (plain notSense)]
      exact congrArg Host.Outcome.next (port_ctx ..).symm
  · obtain ⟨r, kinds, length, -⟩ := ReplyKind.of_form form
    rw [exec_reply configured hunt kinds length small, replyFrame_stale (by exact other)]
    exact congrArg Host.Outcome.next (port_link _).symm
  · intro source room
    have routed {kind : Nat} {p : List Byte} {r : ReplyKind} (kinds : ReplyKind.ofCode? kind = some r) (length : p.length = r.length) :=
      exec_routed configured hunt kinds length small flight own orphan (by rw [source]; decide) queue slot
    refine ⟨fun reason => ?_, fun mode flags hh mm ss ff reading => ?_⟩
    · rw [routed (r := .nak) rfl rfl, routeReply_nak configured free source room, Context.refusedBy_eq]
      exact congrArg Host.Outcome.next (port_ctx ..).symm
    · rw [routed (r := .senseReply) rfl rfl, routeReply_sense configured free source reading room, Context.sensed_eq]
      exact congrArg Host.Outcome.next (port_ctx ..).symm
  · intro x source kind arg notIdle notFault
    have computes : (s.chase n).computes = true := by simp [Chase.computes, notIdle, notFault]
    have routed {kind : Nat} {p : List Byte} {r : ReplyKind} (kinds : ReplyKind.ofCode? kind = some r) (length : p.length = r.length) :=
      exec_routed configured hunt kinds length small flight own orphan (by rw [source]; decide) queue slot
    refine ⟨?_, fun reason tape loc => ⟨fun few => ?_, fun third origin => ?_⟩⟩
    · rw [routed (r := .ack) rfl rfl, routeReply_chaseAck source kind arg computes]
      rfl
    · rw [routed (r := .nak) rfl rfl, routeReply_chaseNak source kind computes tape loc, if_neg (by omega)]
      exact congrArg Host.Outcome.next (port_chase _ _ s.iru).symm
    · rw [routed (r := .nak) rfl rfl, routeReply_chaseNak source kind computes tape loc, if_pos third,
        failChase_processor configured free computes origin (by exact slot)]
      exact congrArg Host.Outcome.next (port_chase ..).symm

end Sys2Proof.Machine
end

section
/-! PROOF. Replies to the run's commands: cues, inserts, refusals and the cue test (08 R156, R158, R159, R164, R170). -/

namespace Sys2Proof.Machine

/-- The run works no events in IDLE, ABORTING and FAULTED (08 R172). -/
theorem RunState.not_aborting {st : RunState} (active : st.active = true) : st ≠ .aborting := by
  rintro rfl
  exact absurd active (by decide)

namespace State

variable {s : State} {n : Transport} {l : Link} {c : Context} {k : Chase} {v : Iru} {a : Armed}

/-! ## Who is told -/

theorem runReply_still (still : s.run.state = .idle ∨ s.run.state = .faulted) (e : Entry) (r : ReplyKind) (p : List Byte) :
    s.runReply n e r p = s := by
  unfold runReply
  rcases still with state | state
  · rw [state]
    rfl
  · rw [state]
    rfl

theorem runReply_active (active : s.run.state.active = true) (names : s.et.names n = true) (e : Entry) (r : ReplyKind)
    (p : List Byte) : s.runReply n e r p = s.runReplyActive n e r p := by
  unfold runReply
  rw [if_neg (RunState.not_aborting active), if_pos (by rw [active, names]; rfl)]

theorem currentNames_of (current : s.et.current = some a) (member : a.names n = true) : s.et.currentNames n = true := by
  unfold EditTable.currentNames
  rw [current]
  exact member

/-- A fault on a transport of the current event is the run's own (08 R170). -/
theorem transportFault_current (active : s.run.state.active = true) (current : s.et.current = some a) (member : a.names n = true)
    (kind : FaultKind) :
    (s.transportFault kind n).RunFaulted
      ⟨kind, a.event, some n, if s.run.state.rolling = true then some s.run.clock else none, false⟩ := by
  have only : s.et.lookaheadOnly n = false := by
    unfold EditTable.lookaheadOnly
    rw [currentNames_of current member, Bool.not_true, Bool.and_false]
  unfold transportFault
  rw [only, Bool.and_false, if_neg Bool.false_ne_true]
  exact currentFault_faulted active current kind (some n)

theorem holdFault_first (first : s.run.pendingFault = none) (kind : FaultKind) (e : Fin 64) (m : Option Transport) :
    s.holdFault kind e m = s.onRun fun r =>
      { r with pendingFault := some ⟨kind, e, m, s.faultClock, true⟩, pendingExtra := 0, lookahead := .faultPending } := by
  unfold holdFault onRun
  simp only [first]

/-- The first fault on a transport that the look-ahead alone names is held back (08 R169). -/
theorem transportFault_ahead {b : Armed} (active : s.run.state.active = true) (ahead : s.et.lookahead = some b)
    (names : s.et.names n = true) (apart : s.et.currentNames n = false) (first : s.run.pendingFault = none) (kind : FaultKind) :
    (s.transportFault kind n).run =
      { s.run with
        pendingFault := some ⟨kind, b.event, some n, if s.run.state.rolling = true then some s.run.clock else none, true⟩
        pendingExtra := 0, lookahead := .faultPending } := by
  have only : s.et.lookaheadOnly n = true := by
    unfold EditTable.names at names
    rw [apart, Bool.false_or] at names
    unfold EditTable.lookaheadOnly
    rw [names, apart]
    rfl
  unfold transportFault lookaheadEvent
  rw [active, only, ahead]
  exact congrArg State.run (holdFault_first first kind b.event (some n))

/-! ## Acknowledgements -/

theorem runReplyActive_locate (locating : (s.run.cues.get n).progress = .locating) {e : Entry} (kind : e.kind = .locate)
    (p : List Byte) :
    s.runReplyActive n e .ack p =
      s.setCue n { s.run.cues.get n with progress := .waiting, polls := 0, senseOut := false } := by
  unfold runReplyActive runAcked locateAccepted
  rw [kind]
  exact if_pos locating

theorem runReplyActive_insertOn {e : Entry} (kind : e.kind = .insertOn) {m : Tracks} (arg : e.arg = .mask m) (p : List Byte) :
    s.runReplyActive n e .ack p = s.onRun fun r => { r with awaited := r.awaited.erase ⟨false, m⟩ } := by
  unfold runReplyActive runAcked insertAcked
  rw [kind, arg]
  rfl

theorem runReplyActive_insertOff {e : Entry} (kind : e.kind = .insertOff) {m : Tracks} (arg : e.arg = .mask m) (p : List Byte) :
    s.runReplyActive n e .ack p =
      s.onRun fun r => { r with awaited := r.awaited.erase ⟨true, m⟩, insertsOn := r.insertsOn &&& ~~~m } := by
  unfold runReplyActive runAcked insertAcked insertsOffAcked
  rw [kind, arg]
  rfl

/-- A refusal of a command other than a SENSE is a fault of its transport (08 R170). -/
theorem runReplyActive_nak {e : Entry} (kind : e.kind ≠ .sense) (p : List Byte) :
    s.runReplyActive n e .nak p = s.transportFault (.deckRefused (p.getD 0 0)) n := by
  unfold runReplyActive
  rw [if_neg kind]

/-! ## The cue test (08 R159) -/

/-- The SENSE_REPLY to a poll of a waiting cue is the test of its cue, no SENSE outstanding. -/
theorem runReplyActive_sense (active : s.run.state.active = true) (names : s.et.names n = true)
    (waiting : (s.run.cues.get n).progress = .waiting) {e : Entry} (kind : e.kind = .sense) (p : List Byte) :
    s.runReplyActive n e .senseReply p = (s.setCue n { s.run.cues.get n with senseOut := false }).cueTest n := by
  have ends : s.senseEnds n = s.setCue n { s.run.cues.get n with senseOut := false } := by
    unfold senseEnds
    rw [active, names]
    rfl
  have still : ((s.setCue n { s.run.cues.get n with senseOut := false }).run.cues.get n).progress = .waiting := by
    show ((s.run.cues.set n _).get n).progress = .waiting
    rw [Six.get_set_self]
    exact waiting
  unfold runReplyActive
  rw [if_pos kind, ends, kind]
  exact if_pos still

theorem cueEvent?_current (current : s.et.current = some a) (member : a.names n = true) : s.cueEvent? n = some a := by
  unfold cueEvent?
  rw [if_pos (currentNames_of current member), current]

theorem cueTarget?_current (current : s.et.current = some a) (member : a.names n = true) :
    s.cueTarget? n = a.cueTarget? s.standard n := by
  unfold cueTarget?
  rw [cueEvent?_current current member]
  rfl

theorem isProtected_current (current : s.et.current = some a) (member : a.names n = true) {flags : BitVec 4}
    (sensed : (s.ctx n).sensedFlags = some flags) : s.isProtected n = (decide (a.recorder = n) && flags.getLsbD 1) := by
  unfold isProtected
  rw [cueEvent?_current current member, sensed]

theorem cueMet_current (current : s.et.current = some a) (member : a.names n = true) {x p : Nat}
    (target : a.cueTarget? s.standard n = some x) (position : (s.ctx n).sensedPos = some p) :
    s.cueMet n = decide ((wrap s.standard.day ((p : Int) - x)).natAbs ≤ (s.ctx n).tolerance) := by
  unfold cueMet
  rw [cueTarget?_current current member, target, position]

/-- A cue set twice stands as the second. -/
theorem setCue_setCue (x y : CueState) : (s.setCue n x).setCue n y = s.setCue n y := by
  unfold setCue setRun
  simp only [Six.set_set]

/-- A cue that has been met: the run is READY when it was the last one to wait for (08 R159). -/
theorem setCue_checkReady (free : s.ptu.hold = none) (current : s.et.current = some a) (x : CueState) (met : x.progress = .cued) :
    (s.setCue n x).checkReady.run.cues = s.run.cues.set n x ∧
    (s.setCue n x).checkReady.run.state =
      if s.run.state = .cueing ∧ (a.transports.all fun m => m = n || (s.run.cues.get m).progress = .cued) = true
      then .ready else s.run.state := by
  have each (m : Transport) : decide (((s.run.cues.set n x).get m).progress = .cued) =
      (decide (m = n) || decide ((s.run.cues.get m).progress = .cued)) := by
    rw [Six.get_set]
    by_cases same : m = n
    · simp [same, met]
    · simp [same]
  have all : (s.setCue n x).allCued = a.transports.all fun m => m = n || (s.run.cues.get m).progress = .cued := by
    show s.currentTransports.all (fun m => decide (((s.run.cues.set n x).get m).progress = .cued)) = _
    unfold currentTransports
    rw [current]
    simp only [each]
  obtain ⟨u, entered⟩ := runEnter_as
    (s := (s.setCue n x).onRun fun r => { r with rollRequested := r.rollRequested || r.autoRoll }) free .ready
  have test : ((s.setCue n x).run.state = .cueing && (s.setCue n x).allCued) = true ↔
      s.run.state = .cueing ∧ (a.transports.all fun m => m = n || (s.run.cues.get m).progress = .cued) = true := by
    rw [all, Bool.and_eq_true, decide_eq_true_eq]
    exact Iff.rfl
  unfold checkReady
  by_cases ready : s.run.state = .cueing ∧ (a.transports.all fun m => m = n || (s.run.cues.get m).progress = .cued) = true
  · unfold enterReady
    rw [if_pos (test.mpr ready), if_pos ready, entered]
    exact ⟨rfl, rfl⟩
  · rw [if_neg (mt test.mp ready), if_neg ready]
    exact ⟨rfl, rfl⟩

/-- A cue begun on a link that is UP with nothing queued: its LOCATE is placed (08 R158). -/
theorem beginCue_placed (active : s.run.state.active = true) (current : s.et.current = some a) (member : a.names n = true) {x : Nat}
    (target : a.cueTarget? s.standard n = some x) (up : (s.link n).state = .up) (queue : (s.link n).queue = []) (count : Nat) :
    (s.beginCue n count).run =
      { s.run with
        cues := s.run.cues.set n { s.run.cues.get n with progress := .locating, locates := count, unplaced := false } } ∧
    ((s.beginCue n count).link n).holds (runEntry .locate (.label (Label.ofIndex s.standard x)) false false) := by
  have may : s.mayCue n = true := by
    unfold mayCue EditTable.lookaheadOnly
    rw [active, currentNames_of current member, Bool.not_true, Bool.and_false]
    rfl
  have placed (q : CueState) : ((s.setCue n q).offerEntry n
      (runEntry .locate (.label (Label.ofIndex s.standard x)) false false)) =
      (.placed, (s.setCue n q).placeEntry n [] (runEntry .locate (.label (Label.ofIndex s.standard x)) false false)) := by
    rw [offerEntry_room (by exact up) (by show (s.link n).queue.length < 4; rw [queue]; decide)]
    exact congrArg (fun es => (OfferAnswer.placed, (s.setCue n q).placeEntry n es _)) queue
  have aim (q : CueState) : (s.setCue n q).cueTarget? n = some x := (cueTarget?_current current member).trans target
  unfold beginCue offerLocate
  rw [if_pos may, aim]
  simp only
  rw [show (s.setCue n _).standard = s.standard from rfl, placed]
  refine ⟨?_, ?_⟩
  · show ({ s.run with cues := ((s.run.cues.set n _).set n { (s.run.cues.set n _).get n with unplaced := false }) } : Run) = _
    rw [Six.get_set_self, Six.set_set]
  · show (((s.setCue n _).placeEntry n [] _).link n).holds _
    unfold placeEntry onLink Link.holds
    rw [link_setLink, if_pos rfl, ← inFlight_entries]
    exact choose_keeps _ (List.mem_singleton.mpr rfl)

/-- What the test of a cue decides on: the state once the deck's answer has been taken and no SENSE is outstanding. -/
theorem cueTest_decides (free : s.ptu.hold = none) (active : s.run.state.active = true) (current : s.et.current = some a)
    (member : a.names n = true) {x p : Nat} (target : a.cueTarget? s.standard n = some x) {flags : BitVec 4}
    (sensed : (s.ctx n).sensedFlags = some flags) (position : (s.ctx n).sensedPos = some p) (stopped : (s.ctx n).mode = .stopped)
    (queue : (s.link n).queue = []) :
    let near := (wrap s.standard.day ((p : Int) - x)).natAbs ≤ (s.ctx n).tolerance
    let inhibited := s.run.mode = .record ∧ a.recorder = n ∧ flags.getLsbD 1 = true
    let clock := if s.run.state.rolling = true then some s.run.clock else none
    let cue := s.run.cues.get n
    (inhibited → (s.cueTest n).RunFaulted ⟨.deckProtected, a.event, some n, clock, false⟩) ∧
    (¬inhibited → near →
      (s.cueTest n).run.cues = s.run.cues.set n { cue with progress := .cued } ∧
      (s.cueTest n).run.state =
        if s.run.state = .cueing ∧ (a.transports.all fun m => m = n || (s.run.cues.get m).progress = .cued) = true
        then .ready else s.run.state) ∧
    (¬inhibited → ¬near → cue.locates = 1 → (s.link n).state = .up →
      (s.cueTest n).run =
        { s.run with cues := s.run.cues.set n { cue with progress := .locating, locates := 2, unplaced := false } } ∧
      ((s.cueTest n).link n).holds (runEntry .locate (.label (Label.ofIndex s.standard x)) false false)) ∧
    (¬inhibited → ¬near → cue.locates ≠ 1 → (s.cueTest n).RunFaulted ⟨.cueMissed, a.event, some n, clock, false⟩) := by
  intro near inhibited clock cue
  have guard : (s.run.mode = .record && s.isProtected n) = true ↔ inhibited := by
    rw [isProtected_current current member sensed]
    simp [inhibited]
  have met : s.cueMet n = true ↔ near := by
    rw [cueMet_current current member target position]
    exact decide_eq_true_iff
  unfold cueTest
  refine ⟨fun shut => ?_, fun open_ close => ?_, fun open_ far first up => ?_, fun open_ far again => ?_⟩
  · rw [if_pos (guard.mpr shut)]
    exact transportFault_current active current member _
  · rw [if_neg (mt guard.mp open_), if_pos stopped, if_pos (met.mpr close)]
    exact setCue_checkReady free current _ rfl
  · rw [if_neg (mt guard.mp open_), if_pos stopped, if_neg (mt met.mp far), if_pos first]
    exact beginCue_placed active current member target up queue 2
  · rw [if_neg (mt guard.mp open_), if_pos stopped, if_neg (mt met.mp far), if_neg again]
    exact transportFault_current active current member _

/-- A SENSE_REPLY taken reaches the context, and the readers and the Interrupt Unit through the seed (05 R87, 03 R49). -/
theorem senseTaken_readers (configured : s.configured = true) (free : s.ptu.hold = none) (p : List Byte) :
    ∃ rs u, (s.port n l c k v).senseTaken n p =
      ({ s with readers := rs } : State).port n l (c.sensed s.standard p s.stamp) k u := by
  unfold senseTaken
  rw [onCtx_port]
  simp only
  split
  · unfold seedReader
    by_cases same : ((s.port n l (c.sensed s.standard p s.stamp) k v).reader n).state =
        (Reader.takeSeed (s.port n l (c.sensed s.standard p s.stamp) k v).standard
          ((s.port n l (c.sensed s.standard p s.stamp) k v).reader n) (labelAt p 2)).state
    · exact ⟨_, _, putReader_same same⟩
    · exact ⟨_, _, putReader_moved (s := s.port n l (c.sensed s.standard p s.stamp) k v) configured free same⟩
  · exact ⟨_, _, rfl⟩

/-- A reply taken: its frame has left the link, and its context has learnt of it. -/
def repliedTo (s : State) (n : Transport) (c : Context) : State :=
  { s with links := s.links.set n (s.link n).answered, ctxs := s.ctxs.set n c }

theorem port_repliedTo (c : Context) : s.port n (s.link n).answered c (s.chase n) s.iru = s.repliedTo n c :=
  (port_ctx _ c s.iru).symm

/-- The answer to a poll taken: the context knows of it, the reader of its seed, and no SENSE is outstanding. -/
def polled (s : State) (n : Transport) (rs : Six Reader) (c : Context) (u : Iru) : State :=
  (({ s with readers := rs } : State).port n (s.link n).answered c (s.chase n) u).setCue n
    { s.run.cues.get n with senseOut := false }

@[simp] theorem polled_views (rs : Six Reader) (c : Context) (u : Iru) :
    (s.polled n rs c u).ctx n = c ∧ (s.polled n rs c u).link n = (s.link n).answered ∧
    (s.polled n rs c u).run.cues.get n = { s.run.cues.get n with senseOut := false } ∧
    ∀ x, (s.polled n rs c u).run.cues.set n x = s.run.cues.set n x :=
  ⟨Six.get_set_self .., Six.get_set_self .., Six.get_set_self .., fun _ => Six.set_set ..⟩

/-- The cues of the other transports are not the poll's. -/
theorem polled_others (rs : Six Reader) (c : Context) (u : Iru) (ts : List Transport) :
    (ts.all fun m => m = n || ((s.polled n rs c u).run.cues.get m).progress = .cued) =
      ts.all fun m => m = n || (s.run.cues.get m).progress = .cued := by
  congr 1
  funext m
  by_cases same : m = n
  · simp [same]
  · have other : (s.polled n rs c u).run.cues.get m = s.run.cues.get m := by
      show (s.run.cues.set n _).get m = _
      rw [Six.get_set, if_neg same]
    rw [other]

end State

open State in
/-- Settles O52: each reply to the run, and the test of a cue by what the deck has answered. -/
theorem repliesToTheRunMoveItsCuesAndInserts : Obligations.RepliesToTheRunMoveItsCuesAndInserts := by
  unfold Obligations.RepliesToTheRunMoveItsCuesAndInserts
  intro n q f s configured free hunt small flight own orphan source command queue slot
  have routed {kind : Nat} {p : List Byte} {r : ReplyKind} (kinds : ReplyKind.ofCode? kind = some r) (length : p.length = r.length) :
      exec (.deckReply n (sentWell (frameOf kind q p))) s =
        .next (((s.port n (s.link n).answered (s.ctx n) (s.chase n) s.iru).track n f.entry.kind f.entry.arg r p).runReply n f.entry r p) := by
    rw [exec_routed configured hunt kinds length small flight own orphan (by rw [source]; decide) queue slot]
    unfold routeReply
    rw [source]
  have acked : exec (.deckReply n (sentWell (frameOf 0x20 q []))) s =
      .next ((s.repliedTo n ((s.ctx n).acknowledged f.entry.kind f.entry.arg)).runReply n f.entry .ack []) := by
    rw [routed (r := .ack) rfl rfl, ← port_repliedTo]
    unfold track
    rw [onCtx_port]
  refine ⟨fun still => ?_, fun active names => ⟨fun kind locating => ?_, fun m arg => ⟨fun kind => ?_, fun kind => ?_⟩,
    fun reason kind => ?_,
    fun a p x flags hh mm ss ff current member target kind waiting valid legal index => ?_⟩⟩
  · rw [acked, runReply_still (s := s.repliedTo n _) still]
    exact ⟨_, rfl, rfl, Six.get_set_self .., Six.get_set_self ..⟩
  · rw [acked, runReply_active (s := s.repliedTo n _) active names, runReplyActive_locate (s := s.repliedTo n _) locating kind, kind]
    rfl
  · rw [acked, runReply_active (s := s.repliedTo n _) active names, runReplyActive_insertOn (s := s.repliedTo n _) kind arg, kind, arg]
    rfl
  · rw [acked, runReply_active (s := s.repliedTo n _) active names, runReplyActive_insertOff (s := s.repliedTo n _) kind arg, kind, arg]
    rfl
  · have refused : exec (.deckReply n (sentWell (frameOf 0x21 q [reason]))) s =
        .next ((s.repliedTo n ((s.ctx n).refusedBy reason)).transportFault (.deckRefused reason) n) := by
      rw [routed (r := .nak) rfl rfl, ← port_repliedTo]
      unfold track
      simp only
      rw [onCtx_port, runReply_active (by exact active) (by exact names), runReplyActive_nak kind]
      rfl
    refine ⟨fun a current member => ⟨_, refused, ?_⟩, fun b ahead apart first => ⟨_, refused, ?_⟩⟩
    · exact transportFault_current (s := s.repliedTo n _) active current member _
    · exact transportFault_ahead (s := s.repliedTo n _) active ahead names apart first _
  · obtain ⟨rs, u, sensed⟩ := senseTaken_readers (n := n) (l := (s.link n).answered) (c := s.ctx n) (k := s.chase n) (v := s.iru)
      configured free [1, flags, hh, mm, ss, ff]
    have replied : exec (.deckReply n (sentWell (frameOf 0x22 q [1, flags, hh, mm, ss, ff]))) s =
        .next ((s.polled n rs ((s.ctx n).sensed s.standard [1, flags, hh, mm, ss, ff] s.stamp) u).cueTest n) := by
      rw [routed (r := .senseReply) rfl rfl]
      unfold track
      simp only
      rw [sensed, runReply_active (by exact active) (by exact names), runReplyActive_sense (by exact active) (by exact names) (by exact waiting) kind]
      rfl
    obtain ⟨context, link, cue, cues⟩ := polled_views (s := s) (n := n) rs
      ((s.ctx n).sensed s.standard [1, flags, hh, mm, ss, ff] s.stamp) u
    have position : ((s.ctx n).sensed s.standard [1, flags, hh, mm, ss, ff] s.stamp).sensedPos = some p := by
      rw [Context.sensed_eq, valid, legal, index]
      rfl
    have inhibit : (flags.setWidth 4).getLsbD 1 = flags.getLsbD 1 := by simp
    have decides := cueTest_decides (s := s.polled n rs _ u) (n := n) free active current member target
      (by rw [context, Context.sensed_eq]) (by rw [context]; exact position) (by rw [context]; rfl) (by rw [link]; exact queue)
    simp only [context, link, cue, cues, inhibit, polled_others] at decides
    obtain ⟨shut, met, again, missed⟩ := decides
    exact ⟨fun h => ⟨_, replied, shut h⟩, fun h1 h2 => ⟨_, replied, met h1 h2⟩, fun h1 h2 h3 h4 => ⟨_, replied, again h1 h2 h3 h4⟩,
      fun h1 h2 h3 => ⟨_, replied, missed h1 h2 h3⟩⟩

end Sys2Proof.Machine
end

section
/-! PROOF. Frames that end without an answer (04 R66, R72, R74 to R78; 05 R99). -/

namespace Sys2Proof.Machine

/-- The request level formed again is the same (10 R194). -/
theorem Iru.reform_reform (u : Iru) : u.reform.reform = u.reform := by
  show ({ u with
    request := u.formed
    driven := if u.formed = 0 then u.reform.driven else u.reform.driven.set u.formed true } : Iru) = u.reform
  unfold reform
  split
  · rfl
  · rw [Vector.set_set]

/-- A reply kind and its payload length, by its kind code (04 R62). -/
theorem ReplyKind.form_of {kind : Nat} {r : ReplyKind} (h : ReplyKind.ofCode? kind = some r) :
    kind = 0x20 ∧ r.length = 0 ∨ kind = 0x21 ∧ r.length = 1 ∨ kind = 0x22 ∧ r.length = 6 := by
  unfold ReplyKind.ofCode? at h
  split_ifs at h with ack nak sense
  · cases h; exact .inl ⟨ack, rfl⟩
  · cases h; exact .inr (.inl ⟨nak, rfl⟩)
  · cases h; exact .inr (.inr ⟨sense, rfl⟩)

/-- A condition handed twice stands as handed once (10 R192). -/
theorem Iru.follow_follow (u : Iru) (i : Irq) (b : Bool) : (u.follow i b).follow i b = u.follow i b := by
  have pending : (u.pending.set i.num b).set i.num b = u.pending.set i.num b := Vector.set_set ..
  have again : (u.follow i b).follow i b = ((u.setPending i b).reform).reform := by
    show ({ (u.setPending i b).reform with pending := (u.pending.set i.num b).set i.num b } : Iru).reform = _
    rw [pending]
    rfl
  rw [again]
  exact reform_reform _

namespace State

variable {s : State} {n : Transport} {l : Link} {c : Context} {k : Chase} {v : Iru}

/-! ## What ends a frame in assembly with an error (04 R71, R72) -/

/-- Bytes that form a reply or a notice have a kind that the receiver knows (04 R62). -/
theorem frameReceived_format {bs : List Byte} (sum : bs.sum = 0)
    (form : ¬replyForm (bs.getD 0 0).toNat ((bs.getD 1 0).toNat / 16) ((bs.getD 1 0).toNat % 16)) :
    s.frameReceived n bs = s.receiveError n .format := by
  unfold replyForm at form
  obtain ⟨reply, notice⟩ := not_or.mp form
  unfold frameReceived
  simp only
  rw [if_neg (not_not_intro sum), if_neg (by exact notice)]
  cases kind : ReplyKind.ofCode? (bs.getD 0 0).toNat with
  | none => rfl
  | some r =>
    refine if_neg fun fits => reply ⟨?_, fits.2⟩
    have known := ReplyKind.form_of kind
    rwa [← fits.1] at known

theorem exec_receiveError (configured : s.configured = true) {e : ErrKind} {i : Instr} (error : s.ReceiveError n e i) :
    exec i s = .next (s.receiveError n e) := by
  have heard (x : RxChar) : exec (.deckReply n [x]) s = .next (receiveChar n s x) := by
    refine congrArg Host.Outcome.next ?_
    unfold receive
    rw [if_pos configured]
    rfl
  rcases error with ⟨bs, x, assembly, ⟨rfl, stop, rfl⟩ | ⟨rfl, rfl⟩ | ⟨rfl, cause⟩⟩ | ⟨rfl, rfl, gap⟩
  · rw [heard]
    unfold receiveChar
    rw [assembly]
    rfl
  · rw [heard]
    unfold receiveChar
    rw [assembly]
    rfl
  · have byte : receiveChar n s ⟨x, true, true⟩ = s.frameByte n (bs ++ [x]) := by
      unfold receiveChar
      rw [assembly]
      rfl
    rw [heard, byte]
    refine congrArg Host.Outcome.next ?_
    unfold frameByte
    rcases cause with ⟨rfl, one, long⟩ | ⟨whole, cause⟩
    · have header : (bs ++ [x]).getD 1 0 = x := by
        obtain ⟨y, rfl⟩ := List.length_eq_one_iff.mp one
        rfl
      exact if_pos ⟨by rw [List.length_append, one]; rfl, by rw [header]; exact long⟩
    · have long : 2 ≤ bs.length := by omega
      have header := getD_one_append long [x]
      have first : (bs ++ [x]).getD 0 0 = bs.getD 0 0 := by
        match bs, long with
        | _ :: _, _ => rfl
      have length : (bs ++ [x]).length = bs.length + 1 := by simp
      simp only
      rw [if_neg (by omega), if_pos (by rw [length, header]; omega)]
      rcases cause with ⟨rfl, sum⟩ | ⟨rfl, sum, form⟩
      · exact if_pos sum
      · exact frameReceived_format sum (by rw [header, first]; exact form)
  · obtain ⟨left, gapLeft⟩ := Option.isSome_iff_exists.mp gap
    exact congrArg Host.Outcome.next (gapExpired_error gapLeft)

/-! ## The frame in flight unanswered (04 R66, R74 to R77) -/

/-- A link whose error record has been captured, and the frame in flight with it (04 R78). -/
def recording (s : State) (e : ErrKind) (f : Option InFlight) (l : Link) : Link :=
  { l with
    additional := false, counts := l.counts.add e
    err := some ⟨e, f.map (·.entry.kind), f.bind (·.seq), f.map (·.sends), s.stamp⟩ }

theorem linkError_recorded (configured : s.configured = true) (free : s.ptu.hold = none) (err : l.err = none) {f : Option InFlight}
    (flight : l.inFlight = f) (e : ErrKind) :
    (s.port n l c k v).linkError n e =
      s.port n (s.recording e f l) { c with errFrozen := true } k (v.follow (.deck n) true) := by
  subst flight
  exact linkError_first configured free err e

theorem receiveError_recorded (configured : s.configured = true) (free : s.ptu.hold = none) (err : (s.link n).err = none)
    {f : Option InFlight} (flight : (s.link n).inFlight = f) (e : ErrKind) :
    s.receiveError n e =
      (s.port n (s.recording e f { s.link n with receiver := .hunt, gapLeft := none }) { s.ctx n with errFrozen := true }
        (s.chase n) (s.iru.follow (.deck n) true)).unanswered n false := by
  subst flight
  conv_lhs => rw [port_self s n]
  exact receiveError_first configured free err e

theorem exec_replyTimeout (timer : (s.link n).replyTimer.isSome = true) :
    exec (.replyTimeout n) s =
      .next ((s.port n { s.link n with replyTimer := none } (s.ctx n) (s.chase n) s.iru).unanswered n true) := by
  obtain ⟨left, running⟩ := Option.isSome_iff_exists.mp timer
  refine congrArg Host.Outcome.next ?_
  conv_lhs => rw [port_self s n]
  unfold replyTimedOut
  rw [port_views.1, running]
  simp only
  rw [onLink_port]

/-- The reply to a command or a speed in flight that is garbled (04 R74). -/
theorem unanswered_garbled {f : InFlight} (flight : l.inFlight = some f) (orphan : f.orphan = false) (source : f.entry.source ≠ .link) :
    (s.port n l c k v).unanswered n false =
      if f.entry.kind = .speed then (s.port n l c k v).missSpeed n f else (s.port n l c k v).missCommand n f := by
  unfold unanswered
  rw [port_views.1, flight]
  simp only
  rw [if_neg (by rw [orphan]; decide), if_neg source]
  rfl

/-- A command or a speed that times out: the error is recorded first (04 R75, R76). -/
theorem unanswered_timed (configured : s.configured = true) (free : s.ptu.hold = none) (err : l.err = none) {f : InFlight}
    (flight : l.inFlight = some f) (orphan : f.orphan = false) (source : f.entry.source ≠ .link) :
    (s.port n l c k v).unanswered n true =
      let t := s.port n (s.recording .timeout (some f) l) { c with errFrozen := true } k (v.follow (.deck n) true)
      if f.entry.kind = .speed then t.missSpeed n f else t.missCommand n f := by
  have recorded := linkError_recorded (n := n) (c := c) (k := k) (v := v) configured free err flight .timeout
  unfold unanswered
  rw [port_views.1, flight]
  simp only
  rw [if_neg (by rw [orphan]; decide), if_neg source, ← recorded]
  rfl

theorem unanswered_probe {f : InFlight} (flight : l.inFlight = some f) (orphan : f.orphan = false) (source : f.entry.source = .link)
    (timer : Bool) : (s.port n l c k v).unanswered n timer = (s.port n l c k v).missProbe n f := by
  unfold unanswered
  rw [port_views.1, flight]
  simp only
  rw [if_neg (by rw [orphan]; decide), if_pos source]

/-- A frame that has its sequence, sent again on a free transmitter (04 R75). -/
theorem resend_sending {f : InFlight} {q : Nat} (own : f.seq = some q) (tx : l.tx = none) (kind : f.entry.kind ≠ .speed) :
    l.resend f =
      { l with
        replyTimer := none, inFlight := some { f with sends := 2, phase := .sending }, lastSpeed := false
        tx := some ⟨f.entry.frame q, (f.entry.frame q).length * Config.deckByteUnits⟩ } := by
  unfold Link.resend Link.begin
  simp [own, tx, kind]

/-- The first sending of a command unanswered: it is sent again (04 R75). -/
theorem missCommand_first {f : InFlight} (first : f.sends = 1) :
    (s.port n l c k v).missCommand n f = s.port n (l.resend f) c k v := by
  unfold missCommand
  rw [if_pos (by omega)]
  exact onLink_port (Link.resend · f)

/-- The second miss of a probe fails an UNPROBED link (04 R66). -/
theorem missProbe_last (configured : s.configured = true) (free : s.ptu.hold = none) {f : InFlight} (last : f.sends = 2)
    (state : l.state = .unprobed) :
    (s.port n l c k v).missProbe n f =
      s.port n
        { l with
          state := .failed, inFlight := none, replyTimer := none, probeInterval := 0, probeMiss := satSucc 65535 l.probeMiss }
        { c with linkChange := true } k (v.follow (.deck n) true) := by
  have condition : ({ c with linkChange := true } : Context).deckCondition = true := by simp [Context.deckCondition]
  have again : ¬f.sends < 2 := by omega
  unfold missProbe
  simp only [onLink_port, port_views.1, Link.idle, again, state, if_false, if_true]
  rw [changed_port configured free, condition]

/-- A link with nothing queued leaves UP for FAILED (04 R77, 05 R89). -/
theorem failLink_bare (configured : s.configured = true) (free : s.ptu.hold = none) (quiet : s.RunQuiet) (rest : k.computes = false)
    (queue : l.queue = []) (slot : l.slot = none) :
    (s.port n l c k v).failLink n =
      s.port n { l with state := .failed, silence := 0, probeInterval := 0, lastSpeed := false }
        { c with linkChange := true, mode := .unknown } k (v.follow (.deck n) true) := by
  have condition : ({ c with linkChange := true, mode := .unknown } : Context).deckCondition = true := by
    simp [Context.deckCondition]
  unfold failLink
  simp only [port_views.1, queue, slot, List.foldl_nil]
  rw [setLink_port, departed_port configured free quiet rest, condition]

/-- A processor's entry that times out and fails its link (04 R75 to R77, 05 R99). -/
theorem failLink_processor (configured : s.configured = true) (free : s.ptu.hold = none) (quiet : s.RunQuiet)
    (rest : k.computes = false) {e : Entry} (source : e.source = .processor) (room : c.fifo.length < 3) (queue : l.queue = [])
    (slot : l.slot = none) (q : Option Nat) :
    ((s.port n l c k v).routeUnanswered n e q .timeout).failLink n =
      s.port n { l with state := .failed, silence := 0, probeInterval := 0, lastSpeed := false }
        { c with
          linkChange := true, mode := .unknown, delivered := c.delivered + 1
          fifo := c.fifo ++ [⟨e.tag, .timeout, some e.kind, none, false, q, [], s.stamp⟩] } k (v.follow (.deck n) true) := by
  unfold routeUnanswered
  rw [source]
  simp only
  rw [fifoOffer_port configured free _ room, failLink_bare configured free quiet rest queue slot, Iru.follow_follow]
  rfl

end State

open State in
/-- Settles O53: the frame again, the error alone, the link failed, the silence counted and the probe missed. -/
theorem unansweredFramesAreSentAgain : Obligations.UnansweredFramesAreSentAgain := by
  unfold Obligations.UnansweredFramesAreSentAgain
  intro n s configured free
  refine ⟨fun e i error err idle => ?_, fun f flight orphan => ⟨fun q source kind first own tx err => ⟨fun timer => ?_, fun e i error => ?_⟩,
    fun timer err queue slot => ⟨fun source up room quiet rest last => ?_, fun source kind few => ?_⟩,
    fun timer source last state => ?_⟩⟩
  · rw [exec_receiveError configured error, receiveError_recorded configured free err idle,
      unanswered_idle (by rw [port_views.1]; exact idle)]
    exact congrArg Host.Outcome.next (port_ctx ..).symm
  · rw [exec_replyTimeout timer, unanswered_timed configured free (by exact err) (by exact flight) orphan source]
    simp only
    rw [if_neg kind, missCommand_first first, resend_sending own (by exact tx) kind]
    exact congrArg Host.Outcome.next (port_ctx ..).symm
  · rw [exec_receiveError configured error, receiveError_recorded configured free err flight,
      unanswered_garbled (by exact flight) orphan source, if_neg kind, missCommand_first first,
      resend_sending own (by exact tx) kind]
    exact congrArg Host.Outcome.next (port_ctx ..).symm
  · rw [exec_replyTimeout timer,
      unanswered_timed configured free (by exact err) (by exact flight) orphan (by rw [source]; decide)]
    simp only
    have gone (silence : Nat) := failLink_processor (s := s) (n := n)
      (l := { (s.recording .timeout (some f) { s.link n with replyTimer := none }).idle with silence })
      (c := { s.ctx n with errFrozen := true }) (v := s.iru.follow (.deck n) true) configured free quiet rest source room
      queue slot f.seq
    rw [Iru.follow_follow] at gone
    rcases last with ⟨kind, second⟩ | ⟨kind, third⟩
    · unfold missCommand
      rw [if_neg kind, if_neg (by omega), onLink_port]
      exact congrArg Host.Outcome.next ((gone (s.link n).silence).trans (port_ctx ..).symm)
    · unfold missSpeed
      simp only [onLink_port, port_views.1]
      rw [if_pos kind, if_pos (by show 4 ≤ min 4 ((s.link n).silence + 1); omega)]
      exact congrArg Host.Outcome.next ((gone _).trans (port_ctx ..).symm)
  · rw [exec_replyTimeout timer,
      unanswered_timed configured free (by exact err) (by exact flight) orphan (by rw [source]; decide)]
    simp only
    have counted : min 4 ((s.link n).silence + 1) = (s.link n).silence + 1 := by omega
    unfold missSpeed routeUnanswered
    simp only [onLink_port, port_views.1]
    rw [if_pos kind, if_neg (by show ¬4 ≤ min 4 ((s.link n).silence + 1); omega),
      choose_nothing (by exact queue) (by exact slot), source, ← counted]
    exact congrArg Host.Outcome.next (port_ctx ..).symm
  · rw [exec_replyTimeout timer, unanswered_probe (by exact flight) orphan source]
    rw [missProbe_last configured free last (by exact state)]
    exact congrArg Host.Outcome.next (port_ctx ..).symm

end Sys2Proof.Machine
end

section
/-! PROOF. The ends of transitions and GPI pulses at a boundary, and the switcher line (09 R180, R183, R187, R189). -/

namespace Sys2Proof.Machine

/-- The bit times of characters sent with no gap, by character and bit (09 R180). -/
theorem charBits_at {b : Byte} {j : Nat} (short : j < 11) : ∀ {f : List Byte} {i : Nat}, f[i]? = some b →
    (f.flatMap charBits)[11 * i + j]? = (charBits b)[j]?
  | x :: f, 0, first => by
    obtain rfl : x = b := Option.some.inj first
    have here : 11 * 0 + j < (charBits x).length := by simpa [charBits] using short
    rw [List.flatMap_cons, List.getElem?_append_left here, Nat.mul_zero, Nat.zero_add]
  | x :: f, i + 1, later => by
    have past : (charBits x).length ≤ 11 * (i + 1) + j := by simp [charBits]; omega
    have rest : 11 * (i + 1) + j - (charBits x).length = 11 * i + j := by simp [charBits]; omega
    rw [List.flatMap_cons, List.getElem?_append_right past, rest]
    exact charBits_at short later

/-- A character: the start bit, the data bits from the least significant, the odd parity bit and the stop bit. -/
theorem charBits_bit (b : Byte) {j : Nat} (short : j < 11) :
    (charBits b)[j]? =
      some (if j = 0 then false else if j ≤ 8 then b.getLsbD (j - 1) else if j = 9 then oddParity b else true) := by
  interval_cases j <;> rfl

/-- With the parity bit the ones of a byte are odd in number. -/
theorem oddParity_odd (b : Byte) : ((List.range 8).countP b.getLsbD + if oddParity b then 1 else 0) % 2 = 1 := by
  unfold oddParity
  simp only [decide_eq_true_eq]
  split <;> omega

/-- The level of the switcher line in bit `j` of character `i` of the frame on it (09 R180). -/
theorem SwitcherTx.line_bit {f : List Byte} (w : Option (List Byte)) {left i j : Nat} {b : Byte} (size : f.length = 8)
    (char : f[i]? = some b) (short : j < 11) (point : left = Config.switcherFrameUnits - 625 * (11 * i + j)) :
    (SwitcherTx.sending f left w).line =
      if j = 0 then false else if j ≤ 8 then b.getLsbD (j - 1) else if j = 9 then oddParity b else true := by
  have bound : i < 8 := by
    rw [← size]
    exact (List.getElem?_eq_some_iff.mp char).1
  have units : Config.switcherFrameUnits = 55000 := rfl
  have bit : Config.switcherBitUnits = 625 := rfl
  have gone : (Config.switcherFrameUnits - left) / Config.switcherBitUnits = 11 * i + j := by
    rw [point, units, bit]
    omega
  show (f.flatMap charBits).getD ((Config.switcherFrameUnits - left) / Config.switcherBitUnits) true = _
  rw [gone, List.getD_eq_getElem?_getD, charBits_at short char, charBits_bit b short]
  rfl

namespace State

variable {s b : State}

/-- A step of a field boundary whose mark came about. -/
theorem exec_transitionEnd {c : FieldCause} (marked : Mark.transitionEnd ∈ (s.dropMarks.fieldCause c).marks) :
    exec (.transitionEnd c) s = .next (s.dropMarks.fieldCause c) :=
  congrArg Host.Outcome.next (if_pos marked)

/-- The field boundary of a cause while the run hands nothing is the field work on the mixer as it stood (09 R181). -/
theorem fieldCause_work {c : FieldCause} (at_ : s.atField c = some b) (quiet : b.RunQuiet) :
    ∃ (y : State) (p : Bool), s.fieldCause c = y.fieldWork p ∧ y.mixer = b.mixer ∧ y.configured = true ∧ y.iru.levels = b.iru.levels := by
  rcases fieldCause_at at_ with ⟨k, -, boundary, work⟩ | ⟨work, configured⟩
  · obtain ⟨y, done, mixer, -, configured, levels⟩ := beforeField (sh := s.shortens k) quiet
    exact ⟨y, false, work.trans done, mixer, configured.trans (atBoundary_configured boundary), levels⟩
  · exact ⟨b.dropMarks.onRtu ({ · with parity2 := true, field2Made := true }), true, work, rfl, configured, rfl⟩

/-- A frame boundary at which the run hands nothing counts every GPI timer down, and marks those that end (09 R181, R189). -/
theorem frameBoundary_timers (quiet : b.RunQuiet) (handed : b.mixer.handed = []) (sh : Bool) :
    (b.frameBoundary sh).mixer.timers = b.mixer.timers.map (· - 1) ∧ (b.frameBoundary sh).mixer.pulses = b.mixer.pulses ∧
    (b.frameBoundary sh).mixer.retriggers = b.mixer.retriggers ∧
    ∀ line : Fin 8, b.mixer.timers[line] = 1 → Mark.gpiPulseEnd line ∈ (b.frameBoundary sh).marks := by
  obtain ⟨y, done, mixer, -⟩ := beforeField (sh := sh) quiet
  obtain ⟨z, work, fields, -, -, marks⟩ := fieldWork_parts y false (.inr (by rw [mixer]; exact handed))
  obtain ⟨-, -, -, -, -, -, -, -, kept, -, -, -, timers, pulses, retriggers⟩ := transitionField_keeps z
  rw [done, work]
  refine ⟨?_, ?_, ?_, fun line ends => kept _ (marks rfl line (by rw [mixer]; exact ends))⟩
  · show z.transitionField.mixer.timers = _
    rw [timers, fields, mixer]
    rfl
  · show z.transitionField.mixer.pulses = _
    rw [pulses, fields, mixer]
    rfl
  · show z.transitionField.mixer.retriggers = _
    rw [retriggers, fields, mixer]
    rfl

/-- The switcher's frame has gone: its line alone goes on (09 R180). -/
theorem exec_switcherFrameSent {tx : SwitcherTx} (next : s.mixer.sent.tx = tx) :
    exec .switcherFrameSent s = .next { s with mixer := { s.mixer with tx } } := by
  subst next
  rfl

end State

open State in
/-- Settles O60: a transition past its last field, a timer at 1, and the switcher line bit by bit. -/
theorem theMixerEndsTransitionsAndPulses : Obligations.TheMixerEndsTransitionsAndPulses := by
  unfold Obligations.TheMixerEndsTransitionsAndPulses
  intro s
  refine ⟨fun cause b x at_ quiet handed running past => ?_, fun cause b line at_ quiet handed last => ?_, fun f left w sending => ?_,
    fun f left sending => ?_, rfl, fun f w left i j b size char short point => SwitcherTx.line_bit w size char short point, oddParity_odd⟩
  · obtain ⟨y, p, work, mixer, configured, levels⟩ := fieldCause_work at_ quiet
    obtain ⟨mark, transition, record, buses, pulses, raised⟩ := fieldWork_ends (p := p) configured
      (.inr (by rw [mixer]; exact handed)) (by rw [mixer]; exact running) past
    rw [← work, mixer] at buses pulses
    rw [← work] at mark transition record raised
    refine ⟨_, exec_transitionEnd mark, transition, record, buses, pulses, fun level => raised ?_⟩
    unfold Iru.level
    rw [levels]
    exact level
  · obtain ⟨timers, pulses, retriggers, marks⟩ := frameBoundary_timers quiet handed (s.shortens cause)
    refine ⟨_, exec_markedFrame (i := .gpiPulseEnd line cause) rfl at_ (marks line last), fun i => ?_, pulses, retriggers,
      frameBoundary_rtu⟩
    rw [timers]
    exact Vector.getElem_map ..
  · exact exec_switcherFrameSent (by unfold Mixer.sent; rw [sending])
  · exact exec_switcherFrameSent (by unfold Mixer.sent; rw [sending])

end Sys2Proof.Machine
end

section
/-! PROOF. Lock, slip and expiry of a chase context at a boundary (06 R119, R124, R127, R128). -/

namespace Sys2Proof.Machine

namespace Chase

/-- The error of a context against its target (06 R119). -/
def errorOf (c : Chase) (std : Standard) (P M : Nat) : Int :=
  wrap (64 * std.day) ((reduce (64 * std.day) ((M : Int) + 64 * c.offset) : Int) - P)

/-- The context once the window decision has been taken on its error (06 R119, R120). -/
def windowed (c : Chase) (std : Standard) (P M : Nat) : Chase :=
  ({ c with lastError := some (c.errorOf std P M, (c.errorOf std P M).tdiv 64) } : Chase).window
    ((c.errorOf std P M).tdiv 64).natAbs

/-- The context once its integrator and its correction have been computed (06 R122, R123). -/
def corrected (c : Chase) (coasting : Bool) (e : Int) : Chase :=
  { c.integrate coasting e with lastClamp := (c.integrate coasting e).clampEnd ((c.integrate coasting e).correction e) }

/-- A context outside its window offers the shuttle speed (06 R121). -/
theorem compute_far {c : Chase} {std : Standard} {P M : Nat} (far : (c.windowed std P M).state = .seek) (v : Int) (coasting : Bool) :
    c.compute std P M v coasting =
      ({ c.windowed std P M with lastClamp := .none },
        (c.windowed std P M).shuttle v ((c.errorOf std P M).tdiv 64)) := by
  unfold compute
  exact if_pos far

/-- A context inside its window offers the loop speed and takes the test for lock or slip (06 R122 to R124). -/
theorem compute_near {c : Chase} {std : Standard} {P M : Nat} (near : (c.windowed std P M).state ≠ .seek) (v : Int)
    (coasting : Bool) :
    c.compute std P M v coasting =
      (((c.windowed std P M).corrected coasting (c.errorOf std P M)).lockTest (c.errorOf std P M).natAbs,
        ((c.windowed std P M).integrate coasting (c.errorOf std P M)).loopSpeed v (c.errorOf std P M)) := by
  unfold compute
  exact if_neg near

/-- The window decision stands while the error is inside the window of the state (06 R120). -/
theorem window_stays {c : Chase} {ef : Nat} (state : c.state = .approach ∧ ef ≤ c.params.approachWindow + c.params.approachWindow / 4 ∨
    c.state = .locked ∧ ef ≤ c.params.approachWindow) : c.window ef = c := by
  unfold window
  rcases state with ⟨state, inside⟩ | ⟨state, inside⟩
  · rw [state]
    exact if_neg (by omega)
  · rw [state]
    exact if_neg (by omega)

/-- The last boundary of the lock count inside the lock window takes the context into LOCKED (06 R124). -/
theorem lockTest_locks {c : Chase} {e : Nat} (state : c.state = .approach) (inside : e ≤ c.params.lockWindow)
    (last : c.params.lockCount ≤ c.inRun + 1) : c.lockTest e = State.chaseChanged c.clearRuns .locked := by
  unfold lockTest
  rw [state]
  simp only
  rw [if_pos inside, if_pos last]

/-- The third boundary in a row outside four lock windows takes the context back to APPROACH (06 R124). -/
theorem lockTest_slips {c : Chase} {e : Nat} (state : c.state = .locked) (outside : 4 * c.params.lockWindow < e)
    (third : 2 ≤ c.outRun) : c.lockTest e = State.chaseChanged c.clearRuns.slipped .approach := by
  unfold lockTest
  rw [state]
  simp only
  rw [if_pos outside, if_pos (by omega)]

/-- A context with nothing pending adopts nothing (06 R108). -/
theorem adopt_none {c : Chase} (pending : c.pending = none) : c.adopt = c := by
  unfold adopt
  rw [pending]

end Chase

namespace State

variable {s b y : State} {n : Transport} {sh : Bool}

/-- A computation with both positions (06 R118). -/
theorem chaseBoundary_loop {P M : Nat} {v : Int} (computes : (y.chase n).computes = true)
    (input : ((y.reader n).position, y.masterOf (y.chase n).master) = (some P, some M, v)) :
    chaseBoundary n y = y.chaseLoop n P M v := by
  obtain ⟨position, master⟩ := Prod.mk.inj input
  unfold chaseBoundary
  rw [if_pos computes, position, master]

/-- A computation with a position missing (06 R118, R127). -/
theorem chaseBoundary_hold (computes : (y.chase n).computes = true)
    (missing : (y.reader n).position = none ∨ (y.masterOf (y.chase n).master).1 = none) : chaseBoundary n y = y.chaseHold n := by
  unfold chaseBoundary
  rw [if_pos computes]
  split
  · rename_i P M v position master
    rw [position, master] at missing
    simp at missing
  · rfl

/-- A speed that completes as CANCELLED reaches no chase context (05 R95). -/
theorem cancelledSpeed_chases (src : Source) : (s.cancelled n src .speed).chases = s.chases := by
  cases src with
  | processor => rfl
  | run => rfl
  | chase => rfl
  | link => rfl

/-- The waiting speed withdrawn leaves the slot empty and the chase contexts as they were (04 R68). -/
theorem withdrawSpeed_empties (s : State) (n : Transport) :
    ((s.withdrawSpeed n).link n).slot = none ∧ (s.withdrawSpeed n).chases = s.chases := by
  unfold withdrawSpeed
  cases slot : (s.link n).slot with
  | none => exact ⟨slot, rfl⟩
  | some x =>
    refine ⟨?_, ?_⟩
    · unfold State.link
      rw [cancelled_links]
      show ((s.onLink n ({ · with slot := none })).link n).slot = none
      unfold onLink
      rw [link_setLink, if_pos rfl]
    · exact cancelledSpeed_chases x.source

/-- A context enters FAULT: its speed withdrawn, CHASE raised (06 R126, R128). -/
theorem faultChase_fields (s : State) (n : Transport) (cause : ChaseCause) :
    (s.faultChase n cause).chase n =
      chaseChanged { (if (s.chase n).state = .locked then (s.chase n).slipped else s.chase n) with cause := some cause } .fault ∧
    ((s.faultChase n cause).link n).slot = none ∧
    (s.configured = true → s.iru.level .chase ≠ 0 → (s.faultChase n cause).iru.isPending .chase = true) := by
  let c := chaseChanged { (if (s.chase n).state = .locked then (s.chase n).slipped else s.chase n) with cause := some cause } .fault
  obtain ⟨slot, chases⟩ := withdrawSpeed_empties (s.setChase n c) n
  have tame := withdrawSpeed_tame (r := true) (s := s.setChase n c) n
  obtain ⟨-, -, -, -, -, -, links, kept, -⟩ := raise_keeps ((s.setChase n c).withdrawSpeed n) .chase
  have faulted : s.faultChase n cause = ((s.setChase n c).withdrawSpeed n).raise .chase := rfl
  rw [faulted]
  refine ⟨?_, ?_, fun configured level => raise_pending rfl ?_ ?_⟩
  · show (((s.setChase n c).withdrawSpeed n).raise .chase).chases.get n = c
    rw [kept, chases]
    exact Six.get_set_self ..
  · unfold State.link
    rw [links]
    exact slot
  · exact configured_of tame.cfg configured
  · unfold Iru.level
    rw [tame.levels]
    exact level

/-- A context that computes enters FAULT while no run works: nothing else is told (06 R128). -/
theorem failChase_quiet (quiet : s.RunQuiet) (computes : (s.chase n).computes = true) (cause : ChaseCause) :
    s.failChase n cause = s.faultChase n cause := by
  obtain ⟨inactive, notAborting⟩ := quiet_active quiet
  have run := (beside_faultChase (s := s) (n := n) cause).run
  have untold : (s.faultChase n cause).tellChaseFault n = s.faultChase n cause := by
    unfold tellChaseFault
    rw [run, inactive]
    simp [notAborting]
  unfold failChase
  rw [if_pos computes]
  simp only
  rw [untold, ite_self]

/-- A HOLD past its limit is FAULT (06 R127). -/
theorem chaseHold_expires (quiet : y.RunQuiet) (configured : y.configured = true) (state : (y.chase n).state = .hold)
    (expired : (y.chase n).params.holdLimit ≤ (y.chase n).holdCount) :
    ((y.chaseHold n).chase n).state = .fault ∧ ((y.chaseHold n).chase n).cause = some .holdExpired ∧
    ((y.chaseHold n).link n).slot = none ∧ ((y.chaseHold n).chase n).changeFlag = true ∧
    ((y.chaseHold n).chase n).changeCount = wrapSucc 255 (y.chase n).changeCount ∧
    (y.iru.level .chase ≠ 0 → (y.chaseHold n).iru.isPending .chase = true) ∧ Mark.holdExpired n ∈ (y.chaseHold n).marks := by
  have computes : (y.chase n).computes = true := by
    unfold Chase.computes
    rw [state]
    rfl
  have hold : y.chaseHold n = (y.mark (.holdExpired n)).faultChase n .holdExpired := by
    rw [← failChase_quiet (s := y.mark (.holdExpired n)) quiet computes]
    unfold chaseHold
    simp only
    rw [if_pos state, if_neg (by omega)]
  obtain ⟨chase, slot, raised⟩ := faultChase_fields (y.mark (.holdExpired n)) n .holdExpired
  have marks := (faultChase_tame (r := true) (s := y.mark (.holdExpired n)) n .holdExpired).marks rfl (.holdExpired n)
    (List.mem_append_right _ (List.mem_singleton_self _))
  have context : (y.mark (.holdExpired n)).chase n = y.chase n := rfl
  rw [context, if_neg (by rw [state]; decide)] at chase
  rw [hold, chase]
  exact ⟨rfl, rfl, slot, rfl, rfl, raised configured, marks⟩

/-- The marks of a context that locks and of one that slips (log 11). -/
theorem chaseMarks_lock (u : State) : Mark.chaseLock n ∈ (chaseMarks n .approach .locked u).marks :=
  List.mem_append_right _ (List.mem_singleton_self _)

theorem chaseMarks_slip (u : State) : Mark.chaseSlip n ∈ (chaseMarks n .locked .approach u).marks :=
  List.mem_append_right _ (List.mem_singleton_self _)

/-- A computation with both positions that changes the state of its context and leaves a mark, at the boundary of a cause. -/
theorem exec_chaseMoves {cause : FrameCause} (at_ : s.dropMarks.atBoundary cause = some b) (quiet : b.RunQuiet)
    (pending : (b.chase n).pending = none) {P M : Nat} {v : Int} (input : b.chaseInput n = (some P, some M, v))
    (up : (b.link n).state = .up) {i : Instr} {x : Mark} (row : exec i s = .next (s.markedFrame cause x)) {st : ChaseState}
    (notHold : (b.chase n).state ≠ .hold) (computes : (b.chase n).computes = true)
    (moves : ∀ coasting, ((b.chase n).compute b.standard P M v coasting).1.state = st ∧
      ((b.chase n).compute b.standard P M v coasting).1.changeCount = wrapSucc 255 (b.chase n).changeCount)
    (marked : ∀ u, x ∈ (chaseMarks n (b.chase n).state st u).marks) :
    ∃ t coasting, exec i s = .next t ∧
      t.chase n = { ((b.chase n).compute b.standard P M v coasting).1 with
        vPrev := ((b.chase n).compute b.standard P M v coasting).2 } ∧
      (b.iru.level .chase ≠ 0 → t.iru.isPending .chase = true) ∧ t.rtu = Rtu.next b.standard (s.shortens cause) b.rtu := by
  obtain ⟨y, -, configured, levels, chase, link, reads, -, standard, chaseAfter, -, marks, events⟩ :=
    frameBoundary_chase (sh := s.shortens cause) quiet (atBoundary_configured at_) computes
  rw [Chase.adopt_none pending] at chase
  rw [chaseBoundary_loop (by rw [chase]; exact computes) (by rw [chase, reads]; exact input)] at chaseAfter marks events
  obtain ⟨state, count⟩ := moves (decide ((y.reader n).state = .coasting))
  obtain ⟨after, mark, raised⟩ := chaseLoop_moves (P := P) (M := M) (v := v) configured (by rw [link, (Link.probeTick_keeps (b.link n)).2.2]; exact up)
    (by rw [chase]; exact notHold) (by rw [chase, standard]) (by rw [chase]; exact count) x
    (by rw [chase, state]; exact marked)
  refine ⟨_, decide ((y.reader n).state = .coasting), exec_markedFrame row at_ (marks _ mark), chaseAfter.trans after,
    fun level => events _ rfl (raised ?_), frameBoundary_rtu⟩
  unfold Iru.level
  rw [levels]
  exact level

end State

namespace Chase

/-- The computation at which a context in APPROACH locks (06 R119 to R124). -/
theorem compute_locks {c : Chase} {std : Standard} {P M : Nat} (state : c.state = .approach)
    (inside : ((c.errorOf std P M).tdiv 64).natAbs ≤ c.params.approachWindow + c.params.approachWindow / 4)
    (near : (c.errorOf std P M).natAbs ≤ c.params.lockWindow) (last : c.params.lockCount ≤ c.inRun + 1) (v : Int) (coasting : Bool) :
    ∃ d : Chase, (c.compute std P M v coasting).1 = State.chaseChanged d.clearRuns .locked ∧ d.slips = c.slips ∧
      d.lastError = some (c.errorOf std P M, (c.errorOf std P M).tdiv 64) ∧ d.changeCount = c.changeCount := by
  have windowed : c.windowed std P M = { c with lastError := some (c.errorOf std P M, (c.errorOf std P M).tdiv 64) } :=
    window_stays (.inl ⟨state, inside⟩)
  obtain ⟨state', inRun, -, params, slips, error, count, -⟩ := State.integrate_fields (c.windowed std P M) coasting (c.errorOf std P M)
  refine ⟨(c.windowed std P M).corrected coasting (c.errorOf std P M), ?_, ?_, ?_, ?_⟩
  · rw [compute_near (by rw [windowed]; show c.state ≠ _; rw [state]; decide)]
    refine lockTest_locks ?_ ?_ ?_
    · exact state'.trans (by rw [windowed]; exact state)
    · show _ ≤ ((c.windowed std P M).integrate _ _).params.lockWindow
      rw [params, windowed]
      exact near
    · show ((c.windowed std P M).integrate _ _).params.lockCount ≤ ((c.windowed std P M).integrate _ _).inRun + 1
      rw [params, inRun, windowed]
      exact last
  · exact slips.trans (by rw [windowed])
  · exact error.trans (by rw [windowed])
  · exact count.trans (by rw [windowed])

/-- The computation at which a LOCKED context goes back to APPROACH (06 R119 to R124). -/
theorem compute_slips {c : Chase} {std : Standard} {P M : Nat} (state : c.state = .locked)
    (inside : ((c.errorOf std P M).tdiv 64).natAbs ≤ c.params.approachWindow)
    (far : 4 * c.params.lockWindow < (c.errorOf std P M).natAbs) (third : 2 ≤ c.outRun) (v : Int) (coasting : Bool) :
    ∃ d : Chase, (c.compute std P M v coasting).1 = State.chaseChanged d.clearRuns.slipped .approach ∧ d.slips = c.slips ∧
      d.lastError = some (c.errorOf std P M, (c.errorOf std P M).tdiv 64) ∧ d.changeCount = c.changeCount := by
  have windowed : c.windowed std P M = { c with lastError := some (c.errorOf std P M, (c.errorOf std P M).tdiv 64) } :=
    window_stays (.inr ⟨state, inside⟩)
  obtain ⟨state', -, outRun, params, slips, error, count, -⟩ := State.integrate_fields (c.windowed std P M) coasting (c.errorOf std P M)
  refine ⟨(c.windowed std P M).corrected coasting (c.errorOf std P M), ?_, ?_, ?_, ?_⟩
  · rw [compute_near (by rw [windowed]; show c.state ≠ _; rw [state]; decide)]
    refine lockTest_slips ?_ ?_ ?_
    · exact state'.trans (by rw [windowed]; exact state)
    · show 4 * ((c.windowed std P M).integrate _ _).params.lockWindow < _
      rw [params, windowed]
      exact far
    · show 2 ≤ ((c.windowed std P M).integrate _ _).outRun
      rw [outRun, windowed]
      exact third
  · exact slips.trans (by rw [windowed])
  · exact error.trans (by rw [windowed])
  · exact count.trans (by rw [windowed])

end Chase

open State in
/-- Settles O54: the one computation of the context, and the mark of its step at the boundary. -/
theorem chasesLockSlipAndExpire : Obligations.ChasesLockSlipAndExpire := by
  unfold Obligations.ChasesLockSlipAndExpire
  intro n cause s b at_ quiet pending
  have configured := atBoundary_configured at_
  have found (computes : (b.chase n).computes = true) := frameBoundary_chase (sh := s.shortens cause) quiet configured computes
  refine ⟨fun P M v input up => ⟨fun state inside near last => ?_, fun state inside far third => ?_⟩, fun state missing expired => ?_⟩
  · have locks := Chase.compute_locks state inside near last v
    obtain ⟨t, coasting, run, chase, raised, rtu⟩ := exec_chaseMoves (i := .chaseLock n cause) (st := .locked) at_ quiet pending
      input up rfl (by rw [state]; decide) (by simp [Chase.computes, state])
      (fun coasting => by
        obtain ⟨d, after, -, -, count⟩ := locks coasting
        rw [after]
        exact ⟨rfl, congrArg (wrapSucc 255) count⟩)
      (by rw [state]; exact chaseMarks_lock)
    obtain ⟨d, after, slips, error, count⟩ := locks coasting
    rw [after] at chase
    exact ⟨t, run, by rw [chase]; rfl, by rw [chase]; rfl, by rw [chase]; rfl, by rw [chase]; exact error, by rw [chase]; exact slips,
      by rw [chase]; rfl, by rw [chase]; exact congrArg (wrapSucc 255) count, raised, rtu⟩
  · have slip := Chase.compute_slips state inside far third v
    obtain ⟨t, coasting, run, chase, raised, rtu⟩ := exec_chaseMoves (i := .chaseSlip n cause) (st := .approach) at_ quiet pending
      input up rfl (by rw [state]; decide) (by simp [Chase.computes, state])
      (fun coasting => by
        obtain ⟨d, after, -, -, count⟩ := slip coasting
        rw [after]
        exact ⟨rfl, congrArg (wrapSucc 255) count⟩)
      (by rw [state]; exact chaseMarks_slip)
    obtain ⟨d, after, slips, error, count⟩ := slip coasting
    rw [after] at chase
    exact ⟨t, run, by rw [chase]; rfl, by rw [chase]; rfl, by rw [chase]; rfl, by rw [chase]; exact error,
      by rw [chase]; exact congrArg (satSucc 65535) slips, by rw [chase]; rfl, by rw [chase]; exact congrArg (wrapSucc 255) count,
      raised, rtu⟩
  · have computes : (b.chase n).computes = true := by simp [Chase.computes, state]
    obtain ⟨y, quiet', configured', levels, chase, link, reads, -, standard, chaseAfter, linkAfter, marks, events⟩ := found computes
    rw [Chase.adopt_none pending] at chase
    have hold : chaseBoundary n y = y.chaseHold n :=
      chaseBoundary_hold (by rw [chase]; exact computes) (by rw [chase]; rw [← reads] at missing; exact missing)
    rw [hold] at chaseAfter linkAfter marks events
    obtain ⟨fault, why, slot, flag, count, raised, mark⟩ :=
      chaseHold_expires quiet' configured' (by rw [chase]; exact state) (by rw [chase]; exact expired)
    refine ⟨_, exec_markedFrame (i := .holdExpired n cause) rfl at_ (marks _ mark), ?_⟩
    rw [chaseAfter, linkAfter]
    refine ⟨fault, why, slot, flag, by rw [count, chase], fun level => events _ rfl (raised ?_), frameBoundary_rtu⟩
    unfold Iru.level
    rw [levels]
    exact level

end Sys2Proof.Machine
end

section
/-! PROOF. One computation of a chase context at a boundary: its parameters, its window, its speed (06 R108, R117 to R128). -/

namespace Sys2Proof.Machine

namespace Chase

variable {c : Chase} {std : Standard} {P M : Nat}

/-- The context with the parameter set that waits for it (06 R108). -/
theorem adopt_eq (c : Chase) : c.adopt = { c with params := c.pending.getD c.params, pending := none } := by
  unfold adopt
  cases pending : c.pending with
  | some p => rfl
  | none =>
    cases c
    simp only at pending
    subst pending
    rfl

/-- The context as a computation finds it: out of HOLD (06 R127). -/
def resumed (c : Chase) : Chase := if c.state = .hold then State.chaseChanged { c with holdCount := 0 } .approach else c

theorem resumed_keeps (c : Chase) : c.resumed.params = c.params ∧ c.resumed.pending = c.pending := by
  unfold resumed
  split <;> exact ⟨rfl, rfl⟩

theorem resumed_state (computes : c.computes = true) :
    c.resumed.state = .seek ∨ c.resumed.state = .approach ∨ c.resumed.state = .locked := by
  unfold resumed
  split
  case isTrue => exact .inr (.inl rfl)
  case isFalse notHold =>
    unfold Chase.computes at computes
    cases state : c.state with
    | seek => exact .inl rfl
    | approach => exact .inr (.inl rfl)
    | locked => exact .inr (.inr rfl)
    | idle | fault => simp [state] at computes
    | hold => exact absurd state notHold

/-! ## The window (06 R120) -/

/-- The error is outside the window of the state. -/
def outside (c : Chase) (ef : Nat) : Prop :=
  c.params.approachWindow + (if c.state = .approach then c.params.approachWindow / 4 else 0) < ef

/-- The context after the decision outside its window. -/
def left (c : Chase) : Chase :=
  if c.state = .seek then c
  else State.chaseChanged
    { c with inRun := 0, outRun := 0, slips := if c.state = .locked then satSucc 65535 c.slips else c.slips } .seek

/-- The context after the decision inside its window. -/
def entered (c : Chase) : Chase := if c.state = .seek then State.chaseChanged c.clearRuns .approach else c

theorem windowed_far (state : c.state = .seek ∨ c.state = .approach ∨ c.state = .locked)
    (far : c.outside ((c.errorOf std P M).tdiv 64).natAbs) :
    c.windowed std P M = { c.left with lastError := some (c.errorOf std P M, (c.errorOf std P M).tdiv 64) } := by
  unfold outside at far
  unfold windowed window left
  rcases state with state | state | state
  · simp only [state, reduceCtorEq, if_true, if_false, Nat.add_zero] at far ⊢
    exact if_neg (by omega)
  · simp only [state, reduceCtorEq, if_true, if_false] at far ⊢
    exact if_pos far
  · simp only [state, reduceCtorEq, if_true, if_false, Nat.add_zero] at far ⊢
    exact if_pos far

theorem windowed_near (state : c.state = .seek ∨ c.state = .approach ∨ c.state = .locked)
    (near : ¬c.outside ((c.errorOf std P M).tdiv 64).natAbs) :
    c.windowed std P M = { c.entered with lastError := some (c.errorOf std P M, (c.errorOf std P M).tdiv 64) } := by
  unfold outside at near
  unfold windowed window entered
  rcases state with state | state | state
  · simp only [state, reduceCtorEq, if_true, if_false, Nat.add_zero] at near ⊢
    exact if_pos (by omega)
  · simp only [state, reduceCtorEq, if_true, if_false] at near ⊢
    exact if_neg near
  · simp only [state, reduceCtorEq, if_false, Nat.add_zero] at near ⊢
    exact if_neg near

/-- What a computation outside the window leaves, and the shuttle speed (06 R121). -/
theorem compute_outside (state : c.state = .seek ∨ c.state = .approach ∨ c.state = .locked)
    (far : c.outside ((c.errorOf std P M).tdiv 64).natAbs) (v : Int) (coasting : Bool) :
    c.compute std P M v coasting =
      ({ c.left with lastError := some (c.errorOf std P M, (c.errorOf std P M).tdiv 64), lastClamp := .none },
        c.shuttle v ((c.errorOf std P M).tdiv 64)) := by
  have seek : c.left.state = .seek := by
    unfold left
    split
    · assumption
    · rfl
  have windowed := windowed_far state far
  have same : c.left.params = c.params := by
    unfold left
    split <;> rfl
  rw [compute_far (by rw [windowed]; exact seek), windowed]
  unfold shuttle
  simp only [same]

/-- The tests for lock and slip leave what the loop has computed (06 R124). -/
theorem lockTest_keeps (c : Chase) (e : Nat) :
    (c.lockTest e).acc = c.acc ∧ (c.lockTest e).lastClamp = c.lastClamp ∧ (c.lockTest e).vPrev = c.vPrev ∧
    (c.lockTest e).params = c.params ∧ (c.lockTest e).pending = c.pending ∧ (c.lockTest e).lastError = c.lastError := by
  unfold lockTest
  dsimp only
  split
  · split_ifs <;> exact ⟨rfl, rfl, rfl, rfl, rfl, rfl⟩
  · split_ifs <;> exact ⟨rfl, rfl, rfl, rfl, rfl, rfl⟩
  · exact ⟨rfl, rfl, rfl, rfl, rfl, rfl⟩

/-- A context in APPROACH outside its lock window begins its count again (06 R124). -/
theorem lockTest_again {e : Nat} (state : c.state = .approach) (outside : c.params.lockWindow < e) (count : 1 ≤ c.params.lockCount) :
    (c.lockTest e).state = .approach := by
  have out : ¬e ≤ c.params.lockWindow := by omega
  have counts : ¬c.params.lockCount ≤ 0 := by omega
  unfold lockTest
  rw [state]
  simp only
  rw [if_neg out, if_neg counts]

theorem entered_keeps (c : Chase) : c.entered.acc = c.acc ∧ c.entered.lastClamp = c.lastClamp ∧ c.entered.vPrev = c.vPrev ∧
    c.entered.params = c.params ∧ c.entered.pending = c.pending := by
  unfold entered
  split <;> exact ⟨rfl, rfl, rfl, rfl, rfl⟩

/-- What holds the integrator (06 R122). -/
def still (c : Chase) (coasting : Bool) (e : Int) : Prop :=
  coasting = true ∨ c.lastClamp = .plus ∧ 0 < e ∨ c.lastClamp = .minus ∧ e < 0

theorem heldIntegrator_iff (c : Chase) (coasting : Bool) (e : Int) : c.heldIntegrator coasting e = true ↔ c.still coasting e := by
  unfold heldIntegrator still
  simp only [Bool.or_eq_true, Bool.and_eq_true, decide_eq_true_eq, or_assoc]

/-- The integrator as one value, and what it leaves alone (06 R122). -/
theorem integrate_keeps (c : Chase) (coasting : Bool) (e : Int) :
    (c.still coasting e → (c.integrate coasting e).acc = c.acc) ∧
    (¬c.still coasting e → (c.integrate coasting e).acc = clampInt (-65535) 65535 (c.acc + e)) ∧
    (c.integrate coasting e).vPrev = c.vPrev ∧ (c.integrate coasting e).pending = c.pending := by
  rw [← heldIntegrator_iff]
  unfold integrate
  refine ⟨fun held => ?_, fun free => ?_, ?_⟩
  · rw [if_pos held]
  · rw [if_neg free]
  · split <;> exact ⟨rfl, rfl⟩

/-- What a computation inside the window leaves, and the loop speed (06 R122 to R124). -/
theorem compute_inside (state : c.state = .seek ∨ c.state = .approach ∨ c.state = .locked)
    (near : ¬c.outside ((c.errorOf std P M).tdiv 64).natAbs) (v : Int) (coasting : Bool) :
    let e := c.errorOf std P M
    let r := c.compute std P M v coasting
    let corr := ((c.params.kp : Int) * e + c.params.ki * r.1.acc).fdiv 256
    (c.still coasting e → r.1.acc = c.acc) ∧ (¬c.still coasting e → r.1.acc = clampInt (-65535) 65535 (c.acc + e)) ∧
    r.1.lastClamp =
      (if (c.params.corrLimit : Int) < corr then .plus else if corr < -(c.params.corrLimit : Int) then .minus else .none) ∧
    r.2 = clampInt (-32767) 32767 (clampInt (c.vPrev - c.params.slew) (c.vPrev + c.params.slew)
      (v + clampInt (-(c.params.corrLimit : Int)) c.params.corrLimit corr)) ∧
    (c.state = .seek → c.params.lockWindow < e.natAbs → 1 ≤ c.params.lockCount → r.1.state = .approach) := by
  have windowed := windowed_near state near
  obtain ⟨acc, clamp, prev, params, -⟩ := entered_keeps c
  have seeks : c.entered.state ≠ .seek := by
    unfold entered
    split
    · exact nofun
    · assumption
  intro e r corr
  have computed := compute_near (c := c) (std := std) (P := P) (M := M) (by rw [windowed]; exact seeks) v coasting
  obtain ⟨lockAcc, lockClamp, -⟩ := lockTest_keeps ((c.windowed std P M).corrected coasting e) e.natAbs
  obtain ⟨held, moved, kept, -⟩ := integrate_keeps (c.windowed std P M) coasting e
  obtain ⟨state', -, -, same, -⟩ := State.integrate_fields (c.windowed std P M) coasting e
  have first : r.1 = ((c.windowed std P M).corrected coasting e).lockTest e.natAbs := congrArg Prod.fst computed
  have second : r.2 = ((c.windowed std P M).integrate coasting e).loopSpeed v e := congrArg Prod.snd computed
  have sum : r.1.acc = ((c.windowed std P M).integrate coasting e).acc := (congrArg Chase.acc first).trans lockAcc
  have set_ : ((c.windowed std P M).integrate coasting e).params = c.params := same.trans (by rw [windowed]; exact params)
  have previous : ((c.windowed std P M).integrate coasting e).vPrev = c.vPrev := kept.trans (by rw [windowed]; exact prev)
  have before : (c.windowed std P M).acc = c.acc := by rw [windowed]; exact acc
  have holds : (c.windowed std P M).still coasting e ↔ c.still coasting e := by
    unfold still
    rw [windowed]
    show (_ ∨ c.entered.lastClamp = _ ∧ _ ∨ c.entered.lastClamp = _ ∧ _) ↔ _
    rw [clamp]
  have correction : ((c.windowed std P M).integrate coasting e).correction e = corr := by
    unfold Chase.correction
    rw [set_, ← sum]
  refine ⟨fun h => ?_, fun h => ?_, ?_, ?_, fun seek far count => ?_⟩
  · rw [sum, held (holds.mpr h), before]
  · rw [sum, moved (mt holds.mp h), before]
  · rw [first, lockClamp]
    show ((c.windowed std P M).integrate coasting e).clampEnd _ = _
    unfold clampEnd
    rw [correction, set_]
  · rw [second]
    unfold loopSpeed
    rw [correction, set_, previous]
  · rw [first]
    refine lockTest_again ?_ ?_ ?_
    · refine state'.trans ?_
      rw [windowed]
      show c.entered.state = _
      unfold entered
      rw [if_pos seek]
      rfl
    · show ((c.windowed std P M).integrate coasting e).params.lockWindow < _
      rw [set_]
      exact far
    · show 1 ≤ ((c.windowed std P M).integrate coasting e).params.lockCount
      rw [set_]
      exact count

/-- The tests for lock and slip leave a context at work (06 R124). -/
theorem lockTest_computes {e : Nat} (computes : c.computes = true) : (c.lockTest e).computes = true := by
  unfold lockTest
  dsimp only
  split
  · split_ifs
    exacts [rfl, computes, rfl, computes]
  · split_ifs
    exacts [rfl, computes, rfl, computes]
  · exact computes

/-- What a departure from LOCKED leaves of a context (06, opening table). -/
theorem slipped_keeps (c : Chase) :
    (if c.state = .locked then c.slipped else c).params = c.params ∧ (if c.state = .locked then c.slipped else c).pending = c.pending ∧
    (if c.state = .locked then c.slipped else c).lastError = c.lastError ∧
    (if c.state = .locked then c.slipped else c).vPrev = c.vPrev := by
  split <;> exact ⟨rfl, rfl, rfl, rfl⟩

theorem computes_of (state : c.state = .seek ∨ c.state = .approach ∨ c.state = .locked) : c.computes = true := by
  unfold computes
  rcases state with state | state | state <;> rw [state] <;> rfl

/-- What every computation leaves of a context (06 R108, R119). -/
theorem compute_keeps (state : c.state = .seek ∨ c.state = .approach ∨ c.state = .locked) (v : Int) (coasting : Bool) :
    let r := c.compute std P M v coasting
    r.1.params = c.params ∧ r.1.pending = c.pending ∧ r.1.vPrev = c.vPrev ∧
    r.1.lastError = some (c.errorOf std P M, (c.errorOf std P M).tdiv 64) ∧ r.1.computes = true := by
  intro r
  by_cases far : c.outside ((c.errorOf std P M).tdiv 64).natAbs
  · have first : r.1 = _ := congrArg Prod.fst (compute_outside state far v coasting)
    rw [first]
    unfold left
    split
    · exact ⟨rfl, rfl, rfl, rfl, computes_of (.inl ‹_›)⟩
    · exact ⟨rfl, rfl, rfl, rfl, rfl⟩
  · have windowed := windowed_near state far
    have works : c.entered.computes = true ∧ c.entered.state ≠ .seek := by
      unfold entered
      split
      · exact ⟨rfl, nofun⟩
      · exact ⟨computes_of state, ‹_›⟩
    have first : r.1 = ((c.windowed std P M).corrected coasting (c.errorOf std P M)).lockTest (c.errorOf std P M).natAbs :=
      congrArg Prod.fst (compute_near (by rw [windowed]; exact works.2) v coasting)
    obtain ⟨-, -, prev, params, pending, error⟩ :=
      lockTest_keeps ((c.windowed std P M).corrected coasting (c.errorOf std P M)) (c.errorOf std P M).natAbs
    obtain ⟨-, -, prev', pending'⟩ := integrate_keeps (c.windowed std P M) coasting (c.errorOf std P M)
    obtain ⟨state', -, -, params', -, error', -⟩ := State.integrate_fields (c.windowed std P M) coasting (c.errorOf std P M)
    obtain ⟨-, -, prev'', params'', pending''⟩ := entered_keeps c
    rw [windowed] at prev' pending' state' params' error'
    rw [first]
    refine ⟨params.trans ?_, pending.trans ?_, prev.trans ?_, error.trans ?_, lockTest_computes ?_⟩
    all_goals rw [windowed]
    · exact params'.trans params''
    · exact pending'.trans pending''
    · exact prev'.trans prev''
    · exact error'
    · unfold computes at works ⊢
      exact (congrArg (fun st => st != ChaseState.idle && st != .fault) state').trans works.1

end Chase

namespace State

variable {s b y : State} {n : Transport} {sh : Bool}

/-- A speed in the slot stays there, or is put in flight by the arbiter's choice (04 R69). -/
theorem choose_speed {l : Link} {v : SlotSpeed} (slot : l.slot = some v) :
    l.choose.slot = some v ∨ l.choose.inFlight.map (·.entry) = some v.entry := by
  unfold Link.choose
  split_ifs
  · rw [slot]
    cases l.queue with
    | nil => exact .inr (launch_keeps _ v.entry).2
    | cons e rest =>
      simp only
      split_ifs
      · exact .inl (Link.launch_keeps _ e).2.1
      · exact .inr (launch_keeps _ v.entry).2
  · exact .inl slot

/-- A chase's speed offered to a link that is UP is the previous speed, and is in the slot or in flight (06 R125). -/
theorem offerChaseSpeed_taken (up : (y.link n).state = .up) (w : Int) :
    (((y.offerChaseSpeed n w).link n).slot = some ⟨w, .chase, none⟩ ∨
      ((y.offerChaseSpeed n w).link n).inFlight.map (·.entry) = some (⟨w, .chase, none⟩ : SlotSpeed).entry) := by
  have placed (f : Link → Link) (slot : (f (y.link n)).slot = some ⟨w, .chase, none⟩) (z : State)
      (links : z.links = (y.onLink n fun l => (f l).choose).links) :
      ((z.link n).slot = some ⟨w, .chase, none⟩ ∨ (z.link n).inFlight.map (·.entry) = some (⟨w, .chase, none⟩ : SlotSpeed).entry) := by
    have link : z.link n = (f (y.link n)).choose := by
      unfold State.link
      rw [links]
      exact Six.get_set_self ..
    rw [link]
    exact choose_speed slot
  unfold offerChaseSpeed
  cases slot : (y.link n).slot with
  | none =>
    rw [offerSpeed_empty up slot]
    exact placed (fun l => { l with slot := some ⟨w, .chase, none⟩ }) rfl _ rfl
  | some old =>
    rw [offerSpeed_replaces up slot]
    exact placed (fun l => { l with slot := some ⟨w, .chase, none⟩, superseded := satSucc 65535 l.superseded }) rfl _
      (cancelled_links ..)

/-- A chase's speed that a link refuses is a fault of cause LINK (06 R125). -/
theorem offerChaseSpeed_refused (down : (y.link n).state ≠ .up) (w : Int) : y.offerChaseSpeed n w = y.failChase n .link := by
  unfold offerChaseSpeed
  rw [offerSpeed_down down]
  rfl

/-- The context of a computation put in place, its changes marked: the links and the run stand. -/
theorem putChase_keeps (c : Chase) (x z : ChaseState) :
    (chaseMarks n x z (y.putChase n c)).chase n = c ∧ (chaseMarks n x z (y.putChase n c)).links = y.links ∧
    (chaseMarks n x z (y.putChase n c)).run = y.run := by
  have marks (u : State) : (chaseMarks n x z u).chases = u.chases ∧ (chaseMarks n x z u).links = u.links ∧
      (chaseMarks n x z u).run = u.run := by
    unfold chaseMarks
    split_ifs <;> exact ⟨rfl, rfl, rfl⟩
  obtain ⟨chases, links, run⟩ := marks (y.putChase n c)
  have put : (y.putChase n c).chases = y.chases.set n c ∧ (y.putChase n c).links = y.links ∧ (y.putChase n c).run = y.run := by
    obtain ⟨-, -, -, -, -, -, links, chases, -, run, -⟩ := raise_keeps (y.setChase n c) .chase
    unfold putChase
    split_ifs
    · exact ⟨rfl, rfl, rfl⟩
    · exact ⟨chases, links, run⟩
  refine ⟨?_, links.trans put.2.1, run.trans put.2.2⟩
  unfold State.chase
  rw [chases, put.1]
  exact Six.get_set_self ..

/-- A computation on a link that is UP: its speed is the previous speed, and is offered (06 R125). -/
theorem chaseLoop_up (up : (y.link n).state = .up) (P M : Nat) (v : Int) :
    let r := (y.chase n).resumed.compute y.standard P M v (decide ((y.reader n).state = .coasting))
    (y.chaseLoop n P M v).chase n = { r.1 with vPrev := r.2 } ∧
    (((y.chaseLoop n P M v).link n).slot = some ⟨r.2, .chase, none⟩ ∨
      ((y.chaseLoop n P M v).link n).inFlight.map (·.entry) = some ⟨.chase, .speed, .speed r.2, none, false, false⟩) := by
  intro r
  obtain ⟨chase, links, -⟩ := putChase_keeps (y := y) (n := n) r.1 (y.chase n).resumed.state r.1.state
  have up' : ((chaseMarks n (y.chase n).resumed.state r.1.state (y.putChase n r.1)).link n).state = .up := by
    unfold State.link
    rw [links]
    exact up
  obtain ⟨after, -⟩ := offerChaseSpeed_up (v := r.2) up'
  rw [chase] at after
  exact ⟨after, offerChaseSpeed_taken up' r.2⟩

/-- A computation on a link that is not UP is FAULT with cause LINK (06 R125). -/
theorem chaseLoop_down (quiet : y.RunQuiet) (down : (y.link n).state ≠ .up) (P M : Nat) (v : Int) :
    let r := (y.chase n).resumed.compute y.standard P M v (decide ((y.reader n).state = .coasting))
    r.1.computes = true →
    (y.chaseLoop n P M v).chase n =
      chaseChanged { (if r.1.state = .locked then r.1.slipped else r.1) with cause := some .link } .fault := by
  intro r computes
  obtain ⟨chase, links, run⟩ := putChase_keeps (y := y) (n := n) r.1 (y.chase n).resumed.state r.1.state
  have down' : ((chaseMarks n (y.chase n).resumed.state r.1.state (y.putChase n r.1)).link n).state ≠ .up := by
    unfold State.link
    rw [links]
    exact down
  have quiet' : (chaseMarks n (y.chase n).resumed.state r.1.state (y.putChase n r.1)).RunQuiet := by
    unfold RunQuiet
    rw [run]
    exact quiet
  have loop : y.chaseLoop n P M v = (chaseMarks n (y.chase n).resumed.state r.1.state (y.putChase n r.1)).faultChase n .link := by
    rw [← failChase_quiet quiet' (by rw [chase]; exact computes), ← offerChaseSpeed_refused down' r.2]
    rfl
  rw [loop, (faultChase_fields _ n .link).1, chase]

end State

open State in
/-- Settles O55: the context as the boundary finds it, and the computation of its window and speed. -/
theorem chasesComputeTheirWindowAndSpeed : Obligations.ChasesComputeTheirWindowAndSpeed := by
  unfold Obligations.ChasesComputeTheirWindowAndSpeed
  intro n cause s b P M v at_ quiet input notIdle notFault
  have computes : (b.chase n).computes = true := by simp [Chase.computes, notIdle, notFault]
  obtain ⟨y, quiet', -, -, chase, link, reads, reader, standard, chaseAfter, linkAfter, -, -⟩ :=
    frameBoundary_chase (sh := s.shortens cause) quiet (atBoundary_configured at_) computes
  rw [Chase.adopt_eq] at chase
  rw [chaseBoundary_loop (by rw [chase]; exact computes) (by rw [chase]; exact reads.trans input)] at chaseAfter linkAfter
  have upLink : (y.link n).state = (b.link n).state := by rw [link, (Link.probeTick_keeps (b.link n)).2.2]
  intro params changed held c day e ef far offered
  have state := Chase.resumed_state (c := held) computes
  obtain ⟨params', pending'⟩ := Chase.resumed_keeps held
  obtain ⟨set_, unset, prev, error, works⟩ := Chase.compute_keeps (c := c) (std := b.standard) (P := P) (M := M) state v
    (decide (((b.readersDone false).reader n).state = .coasting))
  have outside : c.outside ef.natAbs ↔ far := by
    unfold Chase.outside
    rw [show c.params = params from params']
  refine ⟨_, exec_atBoundary at_, ?_⟩
  rw [chaseAfter]
  by_cases up : (b.link n).state = .up
  · obtain ⟨after, taken⟩ := chaseLoop_up (upLink.trans up) P M v
    rw [chase, standard, reader] at after taken
    rw [← linkAfter] at taken
    rw [after]
    refine ⟨set_.trans params', unset.trans pending', error, fun down => absurd up down, fun _ out => ?_, fun _ near => ?_⟩
    · have computed := Chase.compute_outside (c := c) (std := b.standard) (P := P) (M := M) state (outside.mpr out) v
        (decide (((b.readersDone false).reader n).state = .coasting))
      intro w slips
      have speed : c.shuttle v ef = w := by
        unfold Chase.shuttle
        rw [show c.params = params from params']
      rw [← speed]
      exact ⟨congrArg (fun r : Chase × Int => { r.1 with vPrev := r.2 }) computed,
        (congrArg (fun r : Chase × Int => offered (b.frameBoundary (s.shortens cause)) r.2) computed).mp taken⟩
    · obtain ⟨stays, moves, clamp, speed, enters⟩ := Chase.compute_inside (c := c) (std := b.standard) (P := P) (M := M) state
        (mt outside.mp near) v (decide (((b.readersDone false).reader n).state = .coasting))
      have holds : c.still (decide (((b.readersDone false).reader n).state = .coasting)) e ↔
          ((b.readersDone false).reader n).state = .coasting ∨ c.lastClamp = .plus ∧ 0 < e ∨ c.lastClamp = .minus ∧ e < 0 := by
        unfold Chase.still
        rw [decide_eq_true_eq]
      rw [show c.params = params from params'] at clamp speed enters
      intro still corr limit w
      refine ⟨?_, clamp, speed, (congrArg (offered (b.frameBoundary (s.shortens cause))) speed).mp taken, enters⟩
      by_cases h : still
      · rw [if_pos h]
        exact stays (holds.mpr h)
      · rw [if_neg h]
        exact moves (mt holds.mp h)
  · have after := chaseLoop_down quiet' (by rw [upLink]; exact up) P M v
    rw [chase, standard, reader] at after
    obtain ⟨kept, kept', kept'', kept'''⟩ := Chase.slipped_keeps
      (c.compute b.standard P M v (decide (((b.readersDone false).reader n).state = .coasting))).1
    rw [after works]
    exact ⟨kept.trans (set_.trans params'), kept'.trans (unset.trans pending'), kept''.trans error,
      fun _ => ⟨rfl, rfl, kept'''.trans prev⟩, fun up' => absurd up' up, fun up' => absurd up' up⟩

end Sys2Proof.Machine
end

section
/-! PROOF. Polls and time-outs of cues, at a boundary at which no chase computes (08 R155, R158, R159, R169). -/

namespace Sys2Proof.Machine

namespace State

variable {s b : State} {n : Transport} {sh : Bool} {a l : Armed}

/-! ## A poll (08 R158) -/

/-- An entry placed at a link waits there or is in flight (04 R67, R69). -/
theorem placeEntry_holds (s : State) (n : Transport) (q : List Entry) (e : Entry) : ((s.placeEntry n q e).link n).holds e := by
  have placed : e ∈ Link.place q e := by
    unfold Link.place
    split <;> simp
  unfold placeEntry onLink Link.holds
  rw [link_setLink, if_pos rfl, ← inFlight_entries]
  exact choose_keeps _ placed

/-- A poll that falls due with room at its link places a SENSE. -/
theorem pollDue_placed (may : s.mayCue n = true) (out : (s.run.cues.get n).senseOut = false) (up : (s.link n).state = .up)
    (room : (s.link n).queue.length < 4) :
    (s.pollDue n).run = { s.run with cues := s.run.cues.set n { s.run.cues.get n with polls := 0, senseOut := true } } ∧
    ((s.pollDue n).link n).holds (runEntry .sense .none false false) ∧ Mark.sensePoll n ∈ (s.pollDue n).marks := by
  have placed (q : CueState) : (s.setCue n q).offerEntry n (runEntry .sense .none false false) =
      (.placed, (s.setCue n q).placeEntry n (s.link n).queue (runEntry .sense .none false false)) :=
    offerEntry_room (s := s.setCue n q) up room
  have cue (q : CueState) : (s.setCue n q).run.cues.get n = q := Six.get_set_self ..
  unfold pollDue
  simp only [cue, placed]
  rw [if_neg (by rw [out, show (s.setCue n _).mayCue n = true from may]; decide), if_pos trivial]
  refine ⟨?_, ?_, List.mem_append_right _ (List.mem_singleton_self _)⟩
  · show ({ s.run with cues := (s.run.cues.set n _).set n { (s.run.cues.set n _).get n with senseOut := true } } : Run) = _
    rw [Six.get_set_self, Six.set_set]
  · exact placeEntry_holds (s.setCue n _) n (s.link n).queue _

/-- A poll that may not be offered only begins its count again. -/
theorem pollDue_barred (may : s.mayCue n = false) : s.pollDue n = s.setCue n { s.run.cues.get n with polls := 0 } := by
  unfold pollDue
  simp only
  rw [if_pos (by rw [show (s.setCue n _).mayCue n = false from may]; exact Bool.or_true _)]

theorem mayCue_current (active : s.run.state.active = true) (current : s.et.current = some a) (member : a.names n = true) :
    s.mayCue n = true := by
  unfold mayCue EditTable.lookaheadOnly
  rw [active, currentNames_of current member, Bool.not_true, Bool.and_false]
  rfl

/-- With no look-ahead there is no pre-cue to count (08 R169). -/
theorem countLookahead_none (ahead : s.et.lookahead = none) : s.countLookahead = s := by
  have empty : Transport.all.filter s.et.lookaheadOnly = [] := by
    rw [List.filter_eq_nil_iff]
    intro m _
    unfold EditTable.lookaheadOnly EditTable.lookaheadNames
    rw [ahead]
    exact nofun
  unfold countLookahead
  rw [empty]
  rfl

/-- A run that works no events counts no pre-cue. -/
theorem countLookahead_quiet (quiet : s.run.state.active = false) : s.countLookahead = s := by
  unfold countLookahead
  split
  · rw [if_neg (by rw [quiet]; exact nofun)]
  · rfl

theorem armedTransports_nodup (s : State) : s.armedTransports.Nodup := List.Nodup.filter _ (by decide)

theorem mem_armedTransports (names : s.et.names n = true) : n ∈ s.armedTransports :=
  List.mem_filter.mpr ⟨Transport.mem_all n, names⟩

theorem names_of_current (current : s.et.current = some a) (member : a.names n = true) : s.et.names n = true := by
  unfold EditTable.names
  rw [currentNames_of current member]
  rfl

/-- A cue the count of which has not passed its limit (08 R159). -/
theorem countCueing_within (within : s.run.cueCount + 1 ≤ s.run.cueLimit) :
    s.countCueing = s.onRun fun r => { r with cueCount := r.cueCount + 1 } := by
  unfold countCueing
  exact if_neg (by show ¬s.run.cueLimit < s.run.cueCount + 1; omega)

/-- The eighth boundary of a waiting cue, while no other has work. -/
theorem clockAndState_polls (state : s.run.state = .cueing) (ahead : s.et.lookahead = none) (current : s.et.current = some a)
    (member : a.names n = true) (within : s.run.cueCount + 1 ≤ s.run.cueLimit)
    (others : ∀ m, m ≠ n → (s.run.cues.get m).progress = .none ∨ (s.run.cues.get m).progress = .cued)
    (waiting : (s.run.cues.get n).progress = .waiting) (eighth : 7 ≤ (s.run.cues.get n).polls)
    (out : (s.run.cues.get n).senseOut = false) (up : (s.link n).state = .up) (room : (s.link n).queue.length < 4) :
    s.clockAndState.run =
      { s.run with
        cueCount := s.run.cueCount + 1
        cues := s.run.cues.set n { s.run.cues.get n with polls := 0, senseOut := true } } ∧
    (s.clockAndState.link n).holds (runEntry .sense .none false false) ∧ Mark.sensePoll n ∈ s.clockAndState.marks := by
  let counted := s.onRun fun r => { r with cueCount := r.cueCount + 1 }
  have active : counted.run.state.active = true := by
    show s.run.state.active = true
    rw [state]
    rfl
  obtain ⟨run, link, mark⟩ := pollDue_placed (s := counted) (n := n) (mayCue_current active current member) out up room
  have work : cueWork n counted = counted.pollDue n := by
    unfold cueWork
    simp only
    rw [if_neg (by rw [active]; exact nofun), show (counted.run.cues.get n).progress = .waiting from waiting]
    exact if_pos eighth
  have whole : s.clockAndState = counted.pollDue n := by
    unfold clockAndState advanceRun
    rw [state]
    simp only
    rw [countCueing_within within, countLookahead_none (by exact ahead)]
    refine cueWorks_one (s := counted) (n := n) others work (fun m other => ?_) _ (armedTransports_nodup _)
      (mem_armedTransports (names_of_current current member))
    rw [run]
    show (s.run.cues.set n _).get m = _
    rw [Six.get_set, if_neg other]
    rfl
  rw [whole]
  exact ⟨run, link, mark⟩

/-! ## A cue past its limit (08 R159) -/

theorem runFaulted_stops {t : State} {f : FaultRecord} (faulted : t.RunFaulted f) :
    t.run.state.active = false ∧ t.run.state.rolling = false := by
  obtain ⟨-, -, ⟨state, -⟩ | ⟨state, -⟩⟩ := faulted
  · rw [state]
    exact ⟨rfl, rfl⟩
  · rw [state]
    exact ⟨rfl, rfl⟩

/-- The cue count past its limit is a fault of the transport that is not CUED. -/
theorem clockAndState_timesOut (state : s.run.state = .cueing) (current : s.et.current = some a) (member : a.names n = true)
    (waiting : (s.run.cues.get n).progress ≠ .cued) (others : ∀ m, m ≠ n → a.names m = true → (s.run.cues.get m).progress = .cued)
    (past : s.run.cueLimit < s.run.cueCount + 1) :
    s.clockAndState.RunFaulted ⟨.cueTimeout, a.event, some n, none, false⟩ ∧ Mark.cueTimeout ∈ s.clockAndState.marks := by
  let counted := (s.onRun fun r => { r with cueCount := r.cueCount + 1 }).mark .cueTimeout
  have first : (s.onRun fun r => { r with cueCount := r.cueCount + 1 }).firstUncued
      (s.onRun fun r => { r with cueCount := r.cueCount + 1 }).currentTransports = some n := by
    unfold currentTransports
    rw [show (s.onRun _).et.current = some a from current]
    exact firstUncued_one (names_transports a |>.mpr member) waiting fun m among other =>
      others m other (names_transports a |>.mp among)
  have fault : s.countCueing = counted.currentFault .cueTimeout (some n) := by
    unfold countCueing
    simp only
    rw [first]
    exact if_pos past
  have active : counted.run.state.active = true := by
    show s.run.state.active = true
    rw [state]
    rfl
  have faulted := currentFault_faulted (s := counted) active current .cueTimeout (some n)
  rw [show counted.run.state = .cueing from state] at faulted
  have marks := (currentFault_tame (r := true) (s := counted) .cueTimeout (some n)).marks rfl .cueTimeout
    (List.mem_append_right _ (List.mem_singleton_self _))
  have whole : s.clockAndState = counted.currentFault .cueTimeout (some n) := by
    obtain ⟨stopped, -⟩ := runFaulted_stops faulted
    unfold clockAndState advanceRun
    rw [state]
    simp only
    rw [fault, countLookahead_quiet stopped]
    exact cueWorks_quiet stopped _
  rw [whole]
  exact ⟨faulted, marks⟩

/-! ## A pre-cue past its limit (08 R169) -/

/-- The pre-cue count at its limit is held back as the look-ahead's fault. -/
theorem countLookahead_passes (active : s.run.state.active = true) (ahead : s.et.lookahead = some l) (member : l.names n = true)
    (apart : s.et.currentNames n = false) (waiting : (s.run.cues.get n).progress ≠ .cued)
    (others : ∀ m, m ≠ n → l.names m = true → s.et.currentNames m = false → (s.run.cues.get m).progress = .cued)
    (limit : s.run.laCueCount = s.run.cueLimit) (free : s.run.pendingFault = none) :
    s.countLookahead = ((s.onRun fun r => { r with laCueCount := satSucc 10000 r.laCueCount }).mark .lookaheadCueTimeout).onRun
      fun r => { r with
        pendingFault := some ⟨.cueTimeout, l.event, some n, s.faultClock, true⟩, pendingExtra := 0, lookahead := .faultPending } := by
  have only (m : Transport) : s.et.lookaheadOnly m = (l.names m && !s.et.currentNames m) := by
    unfold EditTable.lookaheadOnly EditTable.lookaheadNames
    rw [ahead]
  have first : s.firstUncued (Transport.all.filter s.et.lookaheadOnly) = some n := by
    refine firstUncued_one (List.mem_filter.mpr ⟨Transport.mem_all n, ?_⟩) waiting fun m among other => ?_
    · rw [only, member, apart]
      rfl
    · obtain ⟨-, among⟩ := List.mem_filter.mp among
      rw [only, Bool.and_eq_true, Bool.not_eq_true'] at among
      exact others m other among.1 among.2
  unfold countLookahead
  rw [first]
  simp only
  rw [if_pos active, if_pos limit, holdFault_first (by exact free)]
  unfold lookaheadEvent
  rw [show ((s.onRun fun r => { r with laCueCount := satSucc 10000 r.laCueCount })).et.lookahead = some l from ahead]
  rfl

/-- A waiting pre-cue of a look-ahead that is not armed only counts its polls. -/
theorem cueWork_barred (active : s.run.state.active = true) (waiting : (s.run.cues.get n).progress = .waiting)
    (may : s.mayCue n = false) : ∃ q, cueWork n s = s.setCue n q := by
  unfold cueWork
  simp only
  rw [if_neg (by rw [active]; exact nofun), waiting]
  simp only
  split
  · exact ⟨_, pollDue_barred may⟩
  · exact ⟨_, rfl⟩

/-- The clock of a rolling run, whose last pre-cue passes its limit. -/
theorem clockAndState_precue (state : s.run.state = .edit ∨ s.run.state = .postroll) (current : s.et.current = some a)
    (ahead : s.et.lookahead = some l) (member : l.names n = true) (apart : a.names n = false)
    (waiting : (s.run.cues.get n).progress = .waiting)
    (others : ∀ m, m ≠ n → (s.run.cues.get m).progress = .none ∨ (s.run.cues.get m).progress = .cued)
    (cued : ∀ m, m ≠ n → l.names m = true → a.names m = false → (s.run.cues.get m).progress = .cued)
    (limit : s.run.laCueCount = s.run.cueLimit) (free : s.run.pendingFault = none) :
    ∃ cues count, s.clockAndState.run =
        { s.run with
          clock := s.run.clock + 1, laCueCount := count, pendingExtra := 0, lookahead := .faultPending, cues
          pendingFault := some ⟨.cueTimeout, l.event, some n, some (s.run.clock + 1), true⟩ } ∧
      s.clockAndState.et = s.et ∧ Mark.lookaheadCueTimeout ∈ s.clockAndState.marks := by
  let ticked := s.onRun fun r => { r with clock := r.clock + 1 }
  have works : s.run.state.active = true ∧ s.run.state.rolling = true := by
    rcases state with state | state
    · rw [state]; exact ⟨rfl, rfl⟩
    · rw [state]; exact ⟨rfl, rfl⟩
  have advanced : s.advanceRun = ticked := by
    unfold advanceRun
    rcases state with state | state
    · rw [state]
    · rw [state]
  have names (m : Transport) : s.et.currentNames m = a.names m := by
    unfold EditTable.currentNames
    rw [current]
  have counted := countLookahead_passes (s := ticked) (n := n) works.1 ahead member ((names n).trans apart)
    (by show (s.run.cues.get n).progress ≠ .cued; rw [waiting]; decide)
    (fun m other among outside => cued m other among ((names m).symm.trans outside)) limit free
  have clock : ticked.faultClock = some (s.run.clock + 1) := if_pos works.2
  rw [clock] at counted
  obtain ⟨q, work⟩ := cueWork_barred (s := ticked.countLookahead) (n := n) (by rw [counted]; exact works.1)
    (by rw [counted]; exact waiting) (by
      unfold mayCue EditTable.lookaheadOnly EditTable.lookaheadNames
      rw [counted]
      show (s.run.state.active && (!((match s.et.lookahead with | some a => a.names n | none => false) && !s.et.currentNames n) ||
        decide (Lookahead.faultPending = .armed))) = false
      rw [ahead, names, apart, works.1]
      simp [member])
  have whole : s.clockAndState = ticked.countLookahead.setCue n q := by
    unfold clockAndState
    rw [advanced]
    refine cueWorks_one (n := n) (fun m other => by rw [counted]; exact others m other) work (fun m other => ?_) _
      (armedTransports_nodup _) (mem_armedTransports ?_)
    · show (ticked.countLookahead.run.cues.set n q).get m = _
      rw [Six.get_set, if_neg other]
    · rw [counted]
      show (s.et.currentNames n || s.et.lookaheadNames n) = true
      unfold EditTable.lookaheadNames
      rw [ahead, Bool.or_eq_true]
      exact .inr member
  rw [whole, counted]
  exact ⟨_, _, rfl, rfl, List.mem_append_right _ (List.mem_singleton_self _)⟩

/-! ## The rest of the boundary (08 R161, R163) -/

/-- In PREVIEW no timed action falls due at a clock value that is none of the event's points. -/
theorem timedActions_none (current : s.et.current = some a) (preview : s.run.mode = .preview) (start : s.run.clock ≠ 0)
    (end_ : s.run.clock ≠ a.duration) (last : s.run.clock ≠ (a.duration : Int) + a.postroll)
    (cues : ∀ q ∈ a.cues, q.offset ≠ s.run.clock) (transition : a.kind = .none ∨ s.run.clock ≠ a.t0) : s.timedActions = s := by
  have none_due : a.cues.filter (·.offset = s.run.clock) = [] := by
    rw [List.filter_eq_nil_iff]
    intro q among
    simpa using cues q among
  have early : s.earlyActions a s.run.clock = s := by
    have still : (a.kind ≠ .none && s.run.clock = a.t0) = false := by
      rcases transition with kind | time
      · simp [kind]
      · simp [time]
    unfold earlyActions whileRolling
    rw [none_due]
    simp only [preview, still, start, List.foldl_nil, reduceCtorEq, decide_false, Bool.false_and, if_false, Bool.false_eq_true]
  have late : s.lateActions a s.run.clock = s := by
    unfold lateActions whileRolling
    simp only [preview, end_, last, reduceCtorEq, decide_false, Bool.false_and, if_false, Bool.false_eq_true, false_and]
  unfold timedActions
  rw [current]
  simp only
  rw [early, late, ite_self]

/-- A count taken once for each of a list of transports. -/
theorem foldl_lockLosses : ∀ (ts : List Transport) (s : State),
    ts.foldl (fun s _ => s.onRun fun r => { r with lockLosses := satSucc 65535 r.lockLosses }) s =
      s.setRun { s.run with lockLosses := (satSucc 65535)^[ts.length] s.run.lockLosses }
  | [], _ => rfl
  | _ :: ts, s => foldl_lockLosses ts (s.onRun fun r => { r with lockLosses := satSucc 65535 r.lockLosses })

/-- The lock watch of a PREVIEW run counts the locks lost since the boundary before (08 R163). -/
theorem lockWatch_preview (preview : s.run.mode = .preview) (ts : List Transport) (before : Six Chase) :
    s.lockWatch ts before = s.setRun { s.run with
      lockLosses := (satSucc 65535)^[((s.unlocked ts).filter fun n => (before.get n).state = .locked).length]
        s.run.lockLosses } := by
  rw [← foldl_lockLosses]
  unfold lockWatch
  rw [preview]

/-- Past the sync check a PREVIEW run only counts the locks lost (08 R163). -/
theorem chaseStates_preview (current : s.et.current = some a) (preview : s.run.mode = .preview) (positive : 0 < s.run.clock)
    (before : Six Chase) : ∃ lost, s.chaseStates before = s.setRun { s.run with lockLosses := lost } := by
  have same : ∃ lost, s = s.setRun { s.run with lockLosses := lost } := ⟨_, rfl⟩
  unfold chaseStates
  rw [current]
  simp only
  split
  · rw [if_neg (by omega)]
    split
    · exact ⟨_, lockWatch_preview preview a.transports before⟩
    · exact same
  · exact same

end State

open State in
/-- Settles O59: one poll, one cue past its limit, one pre-cue past its limit. -/
theorem cuesArePolledAndTimeOut : Obligations.CuesArePolledAndTimeOut := by
  unfold Obligations.CuesArePolledAndTimeOut
  intro n cause a s b at_ hold rest awaited current others waiting
  obtain ⟨run, -, et, -, -, -, -⟩ := linksDone_keeps (sh := s.shortens cause) b
  have link := linksDone_link (sh := s.shortens cause) b n
  obtain ⟨-, queue, up'⟩ := Link.probeTick_keeps (b.link n)
  refine ⟨fun state ahead member within eighth out up room => ?_, fun state ahead member cued past => ?_,
    fun l ahead member apart preview state limit free cued positive notEnd notLast cues transition => ?_⟩
  · obtain ⟨after, holds, mark⟩ := clockAndState_polls (s := linksDone b (s.shortens cause)) (n := n) (a := a) (by rw [run]; exact state)
      (by rw [et]; exact ahead) (by rw [et]; exact current) member (by rw [run]; exact within) (by rw [run]; exact others)
      (by rw [run]; exact waiting) (by rw [run]; exact eighth) (by rw [run]; exact out) (by rw [link, up']; exact up)
      (by rw [link, queue]; exact room)
    obtain ⟨done, links, marks⟩ := frameBoundary_waiting (sh := s.shortens cause) hold rest awaited rfl
      (by rw [after, run]; show b.run.state.rolling = false; rw [state]; rfl)
    refine ⟨_, exec_markedFrame (i := .sensePoll n cause) rfl at_ (marks _ mark), ?_, ?_, frameBoundary_rtu⟩
    · rw [done, after, run]
    · unfold State.link
      rw [links]
      exact holds
  · obtain ⟨faulted, mark⟩ := clockAndState_timesOut (s := linksDone b (s.shortens cause)) (n := n) (a := a) (by rw [run]; exact state)
      (by rw [et]; exact current) member (by rw [run, waiting]; decide) (by rw [run]; exact cued) (by rw [run]; exact past)
    obtain ⟨done, -, marks⟩ := frameBoundary_waiting (sh := s.shortens cause) hold rest awaited rfl (runFaulted_stops faulted).2
    obtain ⟨fault, why, stopped⟩ := faulted
    refine ⟨_, exec_markedFrame (i := .cueTimeout cause) rfl at_ (marks _ mark), ?_⟩
    rw [done]
    exact ⟨fault, why, stopped.imp And.left id, frameBoundary_rtu⟩
  · obtain ⟨cues', count, after, table, mark⟩ := clockAndState_precue (s := linksDone b (s.shortens cause)) (n := n) (a := a) (l := l)
      (by rw [run]; exact state) (by rw [et]; exact current) (by rw [et]; exact ahead) member apart (by rw [run]; exact waiting)
      (by rw [run]; exact others) (by rw [run]; exact cued) (by rw [run]; exact limit) (by rw [run]; exact free)
    obtain ⟨k, before, done⟩ := frameBoundary_calm (sh := s.shortens cause) hold rest awaited rfl
    rw [run] at after
    rw [et] at table
    generalize (linksDone b (s.shortens cause)).clockAndState = y at after table mark done
    have idle := timedActions_none (s := { y with free := k }) (a := a) (by show y.et.current = _; rw [table]; exact current)
      (by show y.run.mode = _; rw [after]; exact preview) (by show y.run.clock ≠ _; rw [after]; exact positive.ne')
      (by show y.run.clock ≠ _; rw [after]; exact notEnd) (by show y.run.clock ≠ _; rw [after]; exact notLast)
      (by show ∀ q ∈ a.cues, q.offset ≠ y.run.clock; rw [after]; exact cues)
      (by show a.kind = .none ∨ y.run.clock ≠ _; rw [after]; exact transition)
    obtain ⟨lost, watched⟩ := chaseStates_preview (s := { y with free := k }) (a := a) (by show y.et.current = _; rw [table]; exact current)
      (by show y.run.mode = _; rw [after]; exact preview) (by show 0 < y.run.clock; rw [after]; exact positive) before
    rw [idle, watched] at done
    have rest' := mixerOnly_fieldWork (s := ({ y with free := k } : State).setRun { y.run with lockLosses := lost }) false
    have marks := (fieldWork_tame (r := true) (s := ({ y with free := k } : State).setRun { y.run with lockLosses := lost }) false).marks
      rfl _ mark
    have final : (b.frameBoundary (s.shortens cause)).run = { y.run with lockLosses := lost } := by
      rw [done]
      exact rest'.run
    refine ⟨_, exec_markedFrame (i := .lookaheadCueTimeout cause) rfl at_ (by rw [done]; exact marks), ?_⟩
    rw [final, after]
    refine ⟨rfl, rfl, rfl, rfl, rfl, ?_, frameBoundary_rtu⟩
    rw [done]
    exact rest'.et.trans table

end Sys2Proof.Machine
end

section
/-! PROOF. The timed actions of a rolling run and its watch on the chases (08 R161 to R164). -/

namespace Sys2Proof.Machine

namespace State

variable {s t u : State} {n : Transport} {a : Armed}

/-! ## What an action leaves alone -/

/-- From `s` to `t` the run's state, its awaited inserts and the inserts on became those given, and the mixer was handed the
list given; the run's cues and the links may have changed, and nothing else of the run's business. -/
structure Timed (s t : State) (st : RunState) (due : List Awaited) (on : Tracks) (handed : List Handed) : Prop where
  run : t.run = { s.run with state := st, awaited := due, insertsOn := on, cues := t.run.cues }
  et : t.et = s.et
  chases : t.chases = s.chases
  handed : t.mixer.handed = handed

theorem Timed.refl (s : State) : Timed s s s.run.state s.run.awaited s.run.insertsOn s.mixer.handed := ⟨rfl, rfl, rfl, rfl⟩

theorem Timed.trans {st st' : RunState} {due due' : List Awaited} {on on' : Tracks} {h h' : List Handed} (first : Timed s t st due on h)
    (second : Timed t u st' due' on' h') : Timed s u st' due' on' h' where
  run := by
    have run := second.run
    rw [first.run] at run
    exact run
  et := second.et.trans first.et
  chases := second.chases.trans first.chases
  handed := second.handed

/-- From `s` to `t` a link stays UP, keeps its entries, and takes at most `k` more into its queue. -/
structure Roomy (n : Transport) (k : Nat) (s t : State) : Prop where
  up : (s.link n).state = .up → (t.link n).state = .up
  entries : ∀ e, (s.link n).holds e → (t.link n).holds e
  queue : (t.link n).queue.length ≤ (s.link n).queue.length + k

theorem Roomy.trans {j k : Nat} (first : Roomy n j s t) (second : Roomy n k t u) : Roomy n (j + k) s u where
  up h := second.up (first.up h)
  entries e h := second.entries e (first.entries e h)
  queue := by
    have := first.queue
    have := second.queue
    omega

theorem Roomy.of_links (links : t.links = s.links) : Roomy n 0 s t := by
  have link : t.link n = s.link n := by
    unfold State.link
    rw [links]
  refine ⟨fun h => ?_, fun e h => ?_, ?_⟩
  · rw [link]
    exact h
  · rw [link]
    exact h
  · rw [link]
    exact Nat.le_refl _

/-! ## Each action -/

theorem offerEntry_keeps (s : State) (n : Transport) (e : Entry) :
    (s.offerEntry n e).2.run = { s.run with cues := (s.offerEntry n e).2.run.cues } ∧ (s.offerEntry n e).2.et = s.et ∧
    (s.offerEntry n e).2.chases = s.chases ∧ (s.offerEntry n e).2.mixer = s.mixer := by
  have gone (y : State) (src : Source) (kind : LinkKind) : (y.cancelled n src kind).run = { y.run with cues := (y.cancelled n src kind).run.cues } ∧
      (y.cancelled n src kind).et = y.et ∧ (y.cancelled n src kind).chases = y.chases ∧ (y.cancelled n src kind).mixer = y.mixer := by
    unfold cancelled senseEnds
    cases src with
    | run => split_ifs <;> exact ⟨rfl, rfl, rfl, rfl⟩
    | processor | chase | link => exact ⟨rfl, rfl, rfl, rfl⟩
  unfold offerEntry
  simp only
  split_ifs
  · exact ⟨rfl, rfl, rfl, rfl⟩
  · exact ⟨rfl, rfl, rfl, rfl⟩
  · split
    · exact gone (s.onLink n _) _ _
    · exact ⟨rfl, rfl, rfl, rfl⟩
  · exact ⟨rfl, rfl, rfl, rfl⟩

/-- An entry that waits at a link, and its queue, once one more has been placed (04 R67, R69). -/
theorem placeEntry_roomy (s : State) (n : Transport) (e : Entry) : Roomy n 1 s (s.placeEntry n (s.link n).queue e) := by
  have placed (x : Entry) (waits : x ∈ (s.link n).queue) : x ∈ Link.place (s.link n).queue e := by
    unfold Link.place
    split
    · rw [← List.takeWhile_append_dropWhile (p := (·.urgent)) (l := (s.link n).queue), List.mem_append] at waits
      rw [List.mem_append, List.mem_cons]
      exact waits.imp id .inr
    · exact List.mem_append_left _ waits
  have long : (Link.place (s.link n).queue e).length = (s.link n).queue.length + 1 := by
    unfold Link.place
    split
    · have whole := congrArg List.length (List.takeWhile_append_dropWhile (p := (·.urgent)) (l := (s.link n).queue))
      rw [List.length_append] at whole ⊢
      rw [List.length_cons]
      omega
    · simp
  have link : (s.placeEntry n (s.link n).queue e).link n =
      ({ s.link n with queue := Link.place (s.link n).queue e } : Link).choose := by
    unfold placeEntry onLink
    rw [link_setLink, if_pos rfl]
  refine ⟨fun up => ?_, fun x holds => ?_, ?_⟩
  · rw [link, Link.choose_state]
    exact up
  · rw [link]
    unfold Link.holds at holds ⊢
    rw [List.mem_append] at holds
    rcases holds with waits | flies
    · rw [← inFlight_entries]
      exact choose_keeps _ (placed x waits)
    · have busy : (s.link n).inFlight.isNone = false := by
        cases flight : (s.link n).inFlight with
        | none => rw [flight] at flies; cases flies
        | some f => rfl
      have waits : ({ s.link n with queue := Link.place (s.link n).queue e } : Link).choose =
          { s.link n with queue := Link.place (s.link n).queue e } := by
        unfold Link.choose
        rw [if_neg (by rw [busy, Bool.and_false]; exact nofun)]
      rw [waits]
      exact List.mem_append_right _ flies
  · rw [link]
    refine (Link.choose_queue _).trans ?_
    exact long.le

/-- The action of a timed insert (08 R164). -/
theorem timedInsert_timed (s : State) (n : Transport) (off : Bool) (m : Tracks) :
    Timed s (s.timedInsert n off m) s.run.state (s.run.awaited ++ [⟨off, m⟩])
      (if off then s.run.insertsOn else s.run.insertsOn ||| m) s.mixer.handed := by
  obtain ⟨run, et, chases, mixer⟩ := offerEntry_keeps s n (runEntry (if off then .insertOff else .insertOn) (.mask m) true false)
  refine ⟨?_, et, chases, congrArg Mixer.handed mixer⟩
  unfold timedInsert onRun
  simp only
  rw [run]
  rfl

/-- A timed insert for a link with room is placed. -/
theorem timedInsert_placed (up : (s.link n).state = .up) (room : (s.link n).queue.length < 4) (off : Bool) (m : Tracks) :
    Roomy n 1 s (s.timedInsert n off m) ∧
    ((s.timedInsert n off m).link n).holds (runEntry (if off then .insertOff else .insertOn) (.mask m) true false) := by
  have links : (s.timedInsert n off m).link n =
      (s.placeEntry n (s.link n).queue (runEntry (if off then .insertOff else .insertOn) (.mask m) true false)).link n := by
    unfold timedInsert
    rw [offerEntry_room up room]
    rfl
  obtain ⟨up', entries, queue⟩ := placeEntry_roomy s n (runEntry (if off then .insertOff else .insertOn) (.mask m) true false)
  rw [← links] at up' entries queue
  exact ⟨⟨up', entries, queue⟩, by rw [links]; exact placeEntry_holds ..⟩

theorem hand_timed (s : State) (x : Handed) :
    Timed s (s.hand x) s.run.state s.run.awaited s.run.insertsOn (s.mixer.handed ++ [x]) := ⟨rfl, rfl, rfl, rfl⟩

/-- The cues due are handed to the mixer in order (08 R161, row 1). -/
theorem hands_timed {α : Type} (f : α → Handed) : ∀ (xs : List α) (s : State),
    Timed s (xs.foldl (fun s x => s.hand (f x)) s) s.run.state s.run.awaited s.run.insertsOn (s.mixer.handed ++ xs.map f) ∧
    (xs.foldl (fun s x => s.hand (f x)) s).links = s.links
  | [], s => ⟨by rw [List.map_nil, List.append_nil]; exact .refl s, rfl⟩
  | x :: xs, s => by
    obtain ⟨timed, links⟩ := hands_timed f xs (s.hand (f x))
    refine ⟨?_, links⟩
    have whole := (hand_timed s (f x)).trans timed
    have handed : (s.hand (f x)).mixer.handed ++ xs.map f = s.mixer.handed ++ (x :: xs).map f := by
      show (s.mixer.handed ++ [f x]) ++ xs.map f = _
      rw [List.map_cons, List.append_assoc]
      rfl
    rw [handed] at whole
    exact whole

/-- A change of the run's state is the run's alone (08 R155). -/
theorem runEnter_timed (s : State) (st : RunState) :
    Timed s (s.runEnter st) st s.run.awaited s.run.insertsOn s.mixer.handed ∧ (s.runEnter st).links = s.links := by
  have apart := runEnter_apart (s := s) st
  refine ⟨⟨?_, apart.et, apart.chases, congrArg Mixer.handed apart.mixer⟩, apart.links⟩
  rw [apart.run]
  rfl

/-- A look-ahead that has been armed or that nothing follows is left alone at edit-in (08 R168). -/
theorem armLookahead_rest (rest : s.run.lookahead ≠ .notYet ∨ s.run.successor = none) : s.armLookahead = s := by
  unfold armLookahead
  split
  · rename_i later successor
    rw [later, successor] at rest
    simp at rest
  · rfl

/-! ## The actions in order, while the run rolls -/

section

variable {st : RunState} {due : List Awaited} {on : Tracks} {h : List Handed} {b : Bool} {P : Prop} [Decidable P]

namespace Timed

theorem state (timed : Timed s t st due on h) : t.run.state = st := by rw [timed.run]

theorem awaited (timed : Timed s t st due on h) : t.run.awaited = due := by rw [timed.run]

theorem insertsOn (timed : Timed s t st due on h) : t.run.insertsOn = on := by rw [timed.run]

/-- An insert that is made where its time has come (08 R164). -/
theorem insert (timed : Timed s t st due on h) (rolling : st.rolling = true) (now : b = true ↔ P) (n : Transport) (m : Tracks) :
    Timed s (t.whileRolling b (·.timedInsert n false m)) st (due ++ if P then [⟨false, m⟩] else [])
      (on ||| if P then m else 0) h := by
  have step := timed.trans (timedInsert_timed t n false m)
  rw [timed.state, timed.awaited, timed.insertsOn, timed.handed] at step
  unfold whileRolling
  rw [timed.state, rolling, Bool.and_true]
  by_cases p : P
  · rw [if_pos (now.mpr p), if_pos p, if_pos p]
    exact step
  · rw [if_neg (mt now.mp p), if_neg p, if_neg p, List.append_nil, show on ||| 0 = on from BitVec.or_zero]
    exact timed

/-- The inserts on are ended where their time has come (08 R164). -/
theorem remove (timed : Timed s t st due on h) (rolling : st.rolling = true) (now : b = true ↔ P) (n : Transport) :
    Timed s (t.whileRolling b fun s => s.timedInsert n true s.run.insertsOn) st (due ++ if P then [⟨true, on⟩] else []) on h := by
  have step := timed.trans (timedInsert_timed t n true t.run.insertsOn)
  rw [timed.state, timed.awaited, timed.insertsOn, timed.handed] at step
  unfold whileRolling
  rw [timed.state, rolling, Bool.and_true]
  by_cases p : P
  · rw [if_pos (now.mpr p), if_pos p]
    show Timed s (t.timedInsert n true t.run.insertsOn) _ _ _ _
    rw [timed.insertsOn]
    exact step
  · rw [if_neg (mt now.mp p), if_neg p, List.append_nil]
    exact timed

/-- The run's next state is entered where its time has come (08 R161). -/
theorem enter (timed : Timed s t st due on h) (rolling : st.rolling = true) (now : b = true ↔ P) (st' : RunState) :
    Timed s (t.whileRolling b (·.runEnter st')) (if P then st' else st) due on h ∧
    (t.whileRolling b (·.runEnter st')).links = t.links := by
  obtain ⟨entered, links⟩ := runEnter_timed t st'
  have step := timed.trans entered
  rw [timed.awaited, timed.insertsOn, timed.handed] at step
  unfold whileRolling
  rw [timed.state, rolling, Bool.and_true]
  by_cases p : P
  · rw [if_pos (now.mpr p), if_pos p]
    exact ⟨step, links⟩
  · rw [if_neg (mt now.mp p), if_neg p]
    exact ⟨timed, rfl⟩

/-- The transition is handed to the mixer where its time has come (08 R161). -/
theorem start (timed : Timed s t st due on h) (rolling : st.rolling = true) (now : b = true ↔ P) (f : MixSource → Handed)
    (source : Option MixSource) :
    Timed s (t.whileRolling b fun s => match source with | some x => s.hand (f x) | none => s) st due on
      (h ++ if P then source.toList.map f else []) ∧
    (t.whileRolling b fun s => match source with | some x => s.hand (f x) | none => s).links = t.links := by
  unfold whileRolling
  rw [timed.state, rolling, Bool.and_true]
  by_cases p : P
  · rw [if_pos (now.mpr p), if_pos p]
    cases source with
    | none =>
      rw [Option.toList_none, List.map_nil, List.append_nil]
      exact ⟨timed, rfl⟩
    | some x =>
      have step := timed.trans (hand_timed t (f x))
      rw [timed.state, timed.awaited, timed.insertsOn, timed.handed] at step
      exact ⟨step, rfl⟩
  · rw [if_neg (mt now.mp p), if_neg p, List.append_nil]
    exact ⟨timed, rfl⟩

end Timed

/-- An insert whose time has come is placed at a link with room (08 R164). -/
theorem whileRolling_placed (up : (t.link n).state = .up) (room : (t.link n).queue.length < 4) (rolling : t.run.state.rolling = true)
    (now : b = true ↔ P) {off : Bool} {m : Tracks} {f : State → State} (action : f t = t.timedInsert n off m) :
    Roomy n 1 t (t.whileRolling b f) ∧
    (P → ((t.whileRolling b f).link n).holds (runEntry (if off then .insertOff else .insertOn) (.mask m) true false)) := by
  obtain ⟨placed, holds⟩ := timedInsert_placed up room off m
  unfold whileRolling
  rw [rolling, Bool.and_true, action]
  by_cases p : P
  · rw [if_pos (now.mpr p)]
    exact ⟨placed, fun _ => holds⟩
  · rw [if_neg (mt now.mp p)]
    exact ⟨⟨id, fun _ => id, by omega⟩, fun h => absurd h p⟩

end

/-- The edit-in of a run whose look-ahead is not armed now leaves it in EDIT (08 R161, R168). -/
theorem whileRolling_editIn {b : Bool} (rest : b = true → t.run.lookahead ≠ .notYet ∨ t.run.successor = none) :
    (t.whileRolling b fun s => (s.runEnter .edit).armLookahead) = t.whileRolling b (·.runEnter .edit) := by
  unfold whileRolling
  cases now : b with
  | false => rfl
  | true =>
    have entered := (runEnter_timed t .edit).1
    have still : (t.runEnter .edit).armLookahead = t.runEnter .edit := by
      refine armLookahead_rest ?_
      rw [entered.run]
      exact rest now
    show (if _ then (t.runEnter .edit).armLookahead else t) = _
    rw [still]

/-- The cues and the inserts due at a clock value: the first three rows of the table of 08 R161. -/
def cuesAndInserts (s : State) (a : Armed) (c : Int) : State :=
  (((a.cues.filter (·.offset = c)).foldl (fun s q => s.hand (.pulse q.line q.width)) s).whileRolling
      ((s.run.mode = .record && s.run.syncPassed) && c = -((a.latency : Int) + 1))
      (·.timedInsert a.recorder false (firstGroup a))).whileRolling
    ((s.run.mode = .record && s.run.syncPassed) && (splitOf a).any fun x => c = x - ((a.latency : Int) + 1))
    (·.timedInsert a.recorder false (a.mask &&& 0b0110))

/-- The first group's insert is due (08 R164). -/
abbrev FirstDue (s : State) (a : Armed) (c : Int) : Prop :=
  s.run.mode = .record ∧ s.run.syncPassed = true ∧ c = -((a.latency : Int) + 1)

/-- The second group's insert is due (08 R164). -/
abbrev SecondDue (s : State) (a : Armed) (c : Int) : Prop :=
  s.run.mode = .record ∧ s.run.syncPassed = true ∧ (splitOf a).any (fun x => c = x - ((a.latency : Int) + 1)) = true

theorem earlyActions_eq (s : State) (a : Armed) (c : Int) :
    s.earlyActions a c =
      ((s.cuesAndInserts a c).whileRolling (c = 0) fun s => (s.runEnter .edit).armLookahead).whileRolling
        (a.kind ≠ .none && c = a.t0) fun s =>
          match a.sourceB with
          | some b => s.hand (.start a.kind a.curve a.length a.pattern b)
          | none => s := rfl

theorem cuesAndInserts_timed (rolling : s.run.state.rolling = true) (c : Int) :
    Timed s (s.cuesAndInserts a c) s.run.state
      (s.run.awaited ++ (if s.FirstDue a c then [⟨false, firstGroup a⟩] else []) ++
        (if s.SecondDue a c then [⟨false, a.mask &&& 0b0110⟩] else []))
      (s.run.insertsOn ||| (if s.FirstDue a c then firstGroup a else 0) ||| (if s.SecondDue a c then a.mask &&& 0b0110 else 0))
      (s.mixer.handed ++ (a.cues.filter (·.offset = c)).map fun q => .pulse q.line q.width) ∧
    ((s.link a.recorder).state = .up → (s.link a.recorder).queue.length < 2 →
      Roomy a.recorder 2 s (s.cuesAndInserts a c) ∧
      (s.FirstDue a c → ((s.cuesAndInserts a c).link a.recorder).holds (runEntry .insertOn (.mask (firstGroup a)) true false)) ∧
      (s.SecondDue a c →
        ((s.cuesAndInserts a c).link a.recorder).holds (runEntry .insertOn (.mask (a.mask &&& 0b0110)) true false))) := by
  have nowFirst : (((s.run.mode = .record && s.run.syncPassed) && c = -((a.latency : Int) + 1)) = true) ↔ s.FirstDue a c := by
    simp [FirstDue, and_assoc]
  have nowSecond : (((s.run.mode = .record && s.run.syncPassed) &&
      (splitOf a).any fun x => c = x - ((a.latency : Int) + 1)) = true) ↔ s.SecondDue a c := by
    simp only [SecondDue, Bool.and_eq_true, decide_eq_true_eq, and_assoc]
  obtain ⟨cued, links⟩ := hands_timed (fun q : Cue => Handed.pulse q.line q.width) (a.cues.filter (·.offset = c)) s
  have one := cued.insert rolling nowFirst a.recorder (firstGroup a)
  refine ⟨one.insert rolling nowSecond a.recorder (a.mask &&& 0b0110), fun up room => ?_⟩
  have same := Roomy.of_links (n := a.recorder) links
  have short := same.queue
  obtain ⟨roomy, first⟩ := whileRolling_placed (same.up up) (by omega) (by rw [cued.state]; exact rolling) nowFirst
    (off := false) (m := firstGroup a) (f := (·.timedInsert a.recorder false (firstGroup a))) rfl
  have longer := roomy.queue
  obtain ⟨roomy', second⟩ := whileRolling_placed (roomy.up (same.up up)) (by omega) (by rw [one.state]; exact rolling) nowSecond
    (off := false) (m := a.mask &&& 0b0110) (f := (·.timedInsert a.recorder false (a.mask &&& 0b0110))) rfl
  exact ⟨(same.trans roomy).trans roomy', fun due => roomy'.entries _ (first due), second⟩

/-- Edit-out and the removal of the inserts of an event that is not complete: the last rows of the table of 08 R161. -/
theorem lateActions_eq (c : Int) (going : c ≠ (a.duration : Int) + a.postroll) :
    t.lateActions a c =
      (t.whileRolling (t.run.mode = .record && c = (a.duration : Int) - ((a.latency : Int) + 1)) fun s =>
        s.timedInsert a.recorder true s.run.insertsOn).whileRolling (c = a.duration) (·.runEnter .postroll) := by
  have last : (decide (c = (a.duration : Int) + a.postroll)) = false := decide_eq_false going
  unfold lateActions
  simp only
  rw [if_neg (fun h => going (by rw [h.1, h.2]; simp)), last]
  unfold whileRolling
  rfl

/-- The inserts on are due to be removed (08 R164). -/
abbrev RemovalDue (s : State) (a : Armed) (c : Int) : Prop :=
  s.run.mode = .record ∧ c = (a.duration : Int) - ((a.latency : Int) + 1)

/-- The actions due at a clock value at which the event is not complete and no look-ahead is armed. -/
theorem timedActions_timed (current : s.et.current = some a) (rolling : s.run.state.rolling = true)
    (going : s.run.clock ≠ (a.duration : Int) + a.postroll)
    (rest : s.run.clock = 0 → s.run.lookahead ≠ .notYet ∨ s.run.successor = none) :
    let c := s.run.clock
    let on := s.run.insertsOn ||| (if s.FirstDue a c then firstGroup a else 0) ||| (if s.SecondDue a c then a.mask &&& 0b0110 else 0)
    Timed s s.timedActions (if c = a.duration then .postroll else if c = 0 then .edit else s.run.state)
      (s.run.awaited ++ (if s.FirstDue a c then [⟨false, firstGroup a⟩] else []) ++
        (if s.SecondDue a c then [⟨false, a.mask &&& 0b0110⟩] else []) ++ (if s.RemovalDue a c then [⟨true, on⟩] else [])) on
      (s.mixer.handed ++ ((a.cues.filter (·.offset = c)).map fun q => .pulse q.line q.width) ++
        (if a.kind ≠ .none ∧ c = a.t0 then a.sourceB.toList.map (.start a.kind a.curve a.length a.pattern ·) else [])) ∧
    ((s.link a.recorder).state = .up → (s.link a.recorder).queue.length < 2 →
      (s.FirstDue a c → (s.timedActions.link a.recorder).holds (runEntry .insertOn (.mask (firstGroup a)) true false)) ∧
      (s.SecondDue a c → (s.timedActions.link a.recorder).holds (runEntry .insertOn (.mask (a.mask &&& 0b0110)) true false)) ∧
      (s.RemovalDue a c → (s.timedActions.link a.recorder).holds (runEntry .insertOff (.mask on) true false))) := by
  intro c on
  obtain ⟨inserts, placed⟩ := cuesAndInserts_timed (a := a) rolling c
  have editRest : decide (c = 0) = true → (s.cuesAndInserts a c).run.lookahead ≠ .notYet ∨ (s.cuesAndInserts a c).run.successor = none := by
    intro zero
    rw [inserts.run]
    exact rest (of_decide_eq_true zero)
  obtain ⟨edited, editLinks⟩ := inserts.enter rolling (b := decide (c = 0)) decide_eq_true_iff .edit
  have rolls : (if c = 0 then RunState.edit else s.run.state).rolling = true := by
    split
    · rfl
    · exact rolling
  obtain ⟨started, startLinks⟩ := edited.start rolls (b := a.kind ≠ .none && c = a.t0) (P := a.kind ≠ .none ∧ c = a.t0) (by simp)
    (.start a.kind a.curve a.length a.pattern ·) a.sourceB
  rw [← whileRolling_editIn editRest, ← earlyActions_eq] at started startLinks
  rw [← whileRolling_editIn editRest] at editLinks
  have nowRemoval : ((s.earlyActions a c).run.mode = .record && c = (a.duration : Int) - ((a.latency : Int) + 1)) = true ↔
      s.RemovalDue a c := by
    rw [started.run]
    simp [RemovalDue]
  have removed := started.remove rolls nowRemoval a.recorder
  obtain ⟨left_, leftLinks⟩ := removed.enter rolls (b := decide (c = a.duration)) decide_eq_true_iff .postroll
  rw [← lateActions_eq c going] at left_ leftLinks
  have whole : s.timedActions = (s.earlyActions a c).lateActions a c := by
    unfold timedActions
    rw [current]
    exact if_pos rolling
  rw [whole]
  refine ⟨left_, fun up room => ?_⟩
  obtain ⟨roomy, first, second⟩ := placed up room
  have same := Roomy.of_links (n := a.recorder) (startLinks.trans editLinks)
  have short := (roomy.trans same).queue
  obtain ⟨roomy', removal⟩ := whileRolling_placed (same.up (roomy.up up)) (by omega) (by rw [started.state]; exact rolls) nowRemoval
    (off := true) (m := (s.earlyActions a c).run.insertsOn) (f := fun s => s.timedInsert a.recorder true s.run.insertsOn) rfl
  have last := Roomy.of_links (n := a.recorder) leftLinks
  rw [started.insertsOn] at removal
  exact ⟨fun due => last.entries _ (roomy'.entries _ (same.entries _ (first due))),
    fun due => last.entries _ (roomy'.entries _ (same.entries _ (second due))), fun due => last.entries _ (removal due)⟩

/-! ## The watch on the chases (08 R162, R163) -/

/-- A chase of the event out of LOCKED is the current event's fault (08 R162, R163). -/
theorem currentFault_rolling (current : s.et.current = some a) (rolling : s.run.state.rolling = true) (kind : FaultKind)
    (n : Transport) : (s.currentFault kind (some n)).RunFaulted ⟨kind, a.event, some n, some s.run.clock, false⟩ := by
  have active : s.run.state.active = true := by
    revert rolling
    cases s.run.state <;> decide
  have faulted := currentFault_faulted active current kind (some n)
  rw [if_pos rolling] at faulted
  exact faulted

theorem chaseStates_eq (current : s.et.current = some a) (rolling : s.run.state.rolling = true) (before : Six Chase) :
    s.chaseStates before =
      if s.run.clock = -(a.margin : Int) then s.syncCheck a.transports
      else if -(a.margin : Int) < s.run.clock ∧ s.run.clock < a.duration then s.lockWatch a.transports before
      else s := by
  unfold chaseStates
  rw [current]
  exact if_pos rolling

end State

open State in
/-- Settles O57: the actions due one after another, and the watch that follows them. -/
theorem timedActionsHappenAtTheirClock : Obligations.TimedActionsHappenAtTheirClock := by
  unfold Obligations.TimedActionsHappenAtTheirClock
  intro s a current rolling
  refine ⟨fun going rest => ?_, fun before => ⟨fun sync => ⟨fun all => ?_, fun n tail some_ => ?_⟩, fun after inside => ⟨fun record n tail some_ => ?_,
    fun record all => ?_, fun preview => ?_⟩, fun outside => ?_⟩⟩
  · obtain ⟨timed, placed⟩ := timedActions_timed current rolling going rest
    exact ⟨timed.state, timed.awaited, timed.insertsOn, by rw [timed.run], by rw [timed.run], timed.et, timed.chases, timed.handed,
      placed⟩
  · rw [chaseStates_eq current rolling, if_pos sync]
    unfold syncCheck
    rw [show s.unlocked a.transports = [] from all]
    rfl
  · rw [chaseStates_eq current rolling, if_pos sync]
    unfold syncCheck
    rw [show s.unlocked a.transports = n :: tail from some_]
    exact currentFault_rolling current rolling _ n
  · rw [chaseStates_eq current rolling, if_neg (by omega), if_pos ⟨after, inside⟩]
    unfold lockWatch
    rw [record, show s.unlocked a.transports = n :: tail from some_]
    exact currentFault_rolling current rolling _ n
  · rw [chaseStates_eq current rolling, if_neg (by omega), if_pos ⟨after, inside⟩]
    unfold lockWatch
    rw [record, show s.unlocked a.transports = [] from all]
  · have mode : s.run.mode = .preview := by
      revert preview
      cases s.run.mode <;> simp
    rw [chaseStates_eq current rolling, if_neg (by omega), if_pos ⟨after, inside⟩]
    exact lockWatch_preview mode a.transports before
  · rw [chaseStates_eq current rolling, if_neg (by omega), if_neg (by omega)]

end Sys2Proof.Machine
end

section
/-! PROOF. The four steps of a run's boundary, and the roll (08 R155, R160). -/

namespace Sys2Proof.Machine

theorem RunState.rolling_iff (st : RunState) : st.rolling = true ↔ st = .preroll ∨ st = .edit ∨ st = .postroll := by
  cases st <;> decide

/-- Work that leaves each transport of a list alone (08 R155). -/
theorem forTransports_rest {f : Transport → State → State} {s : State} : ∀ {ts : List Transport}, (∀ n ∈ ts, f n s = s) →
    forTransports ts f s = s
  | [], _ => rfl
  | n :: ts, rest => by
    show forTransports ts f (f n s) = s
    rw [rest n List.mem_cons_self]
    exact forTransports_rest fun m among => rest m (List.mem_cons_of_mem n among)

/-- A transport with an in-point is one of the event's. -/
theorem Armed.names_of_inPoint {a : Armed} {n : Transport} {p : Nat} (inPoint : a.inPoint? n = some p) : a.names n = true := by
  unfold Armed.inPoint? at inPoint
  unfold Armed.names
  split_ifs at inPoint with recorder first second
  · simp [recorder]
  · simp [first]
  · simp [second]

/-- The speed from which a context starts, as a choice (06 R112). -/
theorem Chase.startSpeed_eq (c : Context) :
    Chase.startSpeed c = if c.mode = .stopped then 0 else if c.mode = .playing then 1024 else c.lastSpeed := by
  unfold Chase.startSpeed
  cases c.mode <;> rfl

namespace State

variable {s b t : State} {n : Transport} {a : Armed}

/-! ## Steps 1 and 2 -/

theorem runAndChase_eq (s : State) (ts : List Transport) (before : Six Chase) :
    let r := s.lateInserts.clockAndState
    s.runAndChase ts before =
      (forTransports (ts.filter fun n => !(r.early ts).contains n) chaseBoundary
        (forTransports (r.early ts) chaseBoundary
          { r with free := if r.run.state.rolling then r.free + 1 else r.free }).timedActions).chaseStates before := rfl

theorem lateInserts_fault (late : s.run.awaited ≠ []) (current : s.et.current = some a) (active : s.run.state.active = true) :
    s.lateInserts = s.currentFault .lateInsert (some a.recorder) := by
  unfold lateInserts
  cases awaited : s.run.awaited with
  | nil => exact absurd awaited late
  | cons x xs =>
    rw [current]
    exact if_pos active

/-- The clock of a rolling run whose cues have no work. -/
theorem clockAndState_ticks (ahead : s.et.lookahead = none) (rolling : s.run.state.rolling = true)
    (cues : ∀ n, (s.run.cues.get n).progress = .none ∨ (s.run.cues.get n).progress = .cued) :
    s.clockAndState = { s with run := { s.run with clock := s.run.clock + 1 } } := by
  have ticks : s.advanceRun = s.onRun fun r => { r with clock := r.clock + 1 } := by
    unfold advanceRun
    rcases (RunState.rolling_iff _).mp rolling with state | state | state
    · rw [state]
    · rw [state]
    · rw [state]
  unfold clockAndState
  rw [ticks, countLookahead_none (by exact ahead)]
  exact forTransports_rest fun n _ => cueWork_rest (cues n)

/-! ## The roll (08 R160) -/

/-- The cues of a list of transports gone. -/
theorem zeroCues : ∀ (ts : List Transport) (s : State), ∃ cues,
    forTransports ts (fun n s => s.setCue n .zero) s = s.setRun { s.run with cues } ∧
    ∀ m, cues.get m = if m ∈ ts then .zero else s.run.cues.get m
  | [], s => ⟨s.run.cues, rfl, fun _ => by simp⟩
  | n :: ts, s => by
    obtain ⟨cues, done, each⟩ := zeroCues ts (s.setCue n .zero)
    refine ⟨cues, done, fun m => ?_⟩
    rw [each m]
    show (if m ∈ ts then _ else (s.run.cues.set n .zero).get m) = _
    rw [Six.get_set]
    by_cases same : m = n
    · simp [same]
    · simp [same]

/-- A chase context of the run, just started (06 R112, R115). -/
def rolledChase (k : Chase) (c : Context) (p : Nat) : Chase :=
  { k with
    state := .seek, origin := .run, master := .editClock, offset := p, acc := 0
    vPrev := if c.mode = .stopped then 0 else if c.mode = .playing then 1024 else c.lastSpeed
    lastClamp := .none, inRun := 0, outRun := 0, nakRun := 0, holdCount := 0, slips := 0, cause := none
    lastError := none, changeFlag := true, changeCount := wrapSucc 255 k.changeCount }

/-- The start of a run's chase is its context's, CHASE raised (06 R115). -/
theorem startRunChase_keeps (s : State) (n : Transport) (p : Nat) :
    (s.startRunChase n p).chases = s.chases.set n (rolledChase (s.chase n) (s.ctx n) p) ∧ (s.startRunChase n p).run = s.run ∧
    (s.startRunChase n p).et = s.et ∧ (s.startRunChase n p).links = s.links ∧ (s.startRunChase n p).mixer = s.mixer ∧
    (s.startRunChase n p).rtu = s.rtu ∧ ∀ m, ∃ b, (s.startRunChase n p).ctx m = { s.ctx m with linkChange := b } := by
  obtain ⟨-, -, -, -, rtu, -, links, chases, et, run, mixer⟩ := raise_keeps (s.setChase n (chaseChanged
    { ({ s.chase n with origin := .run, master := .editClock, offset := p } : Chase).cleared with
      vPrev := Chase.startSpeed (s.ctx n) } .seek)) .chase
  refine ⟨?_, run, et, links, mixer, rtu, fun m => raise_ctx .chase m⟩
  refine chases.trans (congrArg (s.chases.set n) ?_)
  unfold rolledChase
  rw [← Chase.startSpeed_eq]
  rfl

/-- One transport's part of the roll: its chase, where the event gives it an in-point. -/
def startAt (a : Armed) (n : Transport) (s : State) : State :=
  match a.inPoint? n with
  | some p => s.startRunChase n p
  | none => s

/-- The chase context of a transport after the roll. -/
def chaseAt (a : Armed) (n : Transport) (k : Chase) (c : Context) : Chase :=
  match a.inPoint? n with
  | some p => rolledChase k c p
  | none => k

theorem startAt_keeps (a : Armed) (n : Transport) (s : State) :
    (startAt a n s).run = s.run ∧ (startAt a n s).et = s.et ∧ (startAt a n s).links = s.links ∧ (startAt a n s).mixer = s.mixer ∧
    (startAt a n s).rtu = s.rtu ∧ (∀ m, ∃ b, (startAt a n s).ctx m = { s.ctx m with linkChange := b }) ∧
    (startAt a n s).chases = s.chases.set n (chaseAt a n (s.chase n) (s.ctx n)) := by
  unfold startAt chaseAt
  cases a.inPoint? n with
  | none => exact ⟨rfl, rfl, rfl, rfl, rfl, fun m => ⟨_, rfl⟩, (Six.set_get _ _).symm⟩
  | some p =>
    obtain ⟨chases, run, et, links, mixer, rtu, ctx⟩ := startRunChase_keeps s n p
    exact ⟨run, et, links, mixer, rtu, ctx, chases⟩

theorem chaseAt_ctx (a : Armed) (n : Transport) (k : Chase) (c : Context) (b : Bool) :
    chaseAt a n k { c with linkChange := b } = chaseAt a n k c := rfl

/-- The run's chases started from their in-points (08 R160). -/
theorem startsAt_keep (a : Armed) : ∀ (ts : List Transport) (s : State), ts.Nodup →
    (forTransports ts (startAt a) s).run = s.run ∧ (forTransports ts (startAt a) s).et = s.et ∧
    (forTransports ts (startAt a) s).links = s.links ∧ (forTransports ts (startAt a) s).mixer = s.mixer ∧
    (forTransports ts (startAt a) s).rtu = s.rtu ∧
    ∀ m, (forTransports ts (startAt a) s).chase m = if m ∈ ts then chaseAt a m (s.chase m) (s.ctx m) else s.chase m
  | [], _, _ => ⟨rfl, rfl, rfl, rfl, rfl, fun _ => (if_neg List.not_mem_nil).symm⟩
  | n :: ts, s, distinct => by
    obtain ⟨fresh, rest⟩ := List.nodup_cons.mp distinct
    obtain ⟨run, et, links, mixer, rtu, ctx, chases⟩ := startAt_keeps a n s
    obtain ⟨run', et', links', mixer', rtu', each⟩ := startsAt_keep a ts (startAt a n s) rest
    refine ⟨run'.trans run, et'.trans et, links'.trans links, mixer'.trans mixer, rtu'.trans rtu, fun m => (each m).trans ?_⟩
    have chase : (startAt a n s).chase m = if m = n then chaseAt a n (s.chase n) (s.ctx n) else s.chase m := by
      unfold State.chase
      rw [chases, Six.get_set]
      rfl
    obtain ⟨b, ctx⟩ := ctx m
    rw [chase, ctx, chaseAt_ctx]
    by_cases same : m = n
    · subst same
      rw [if_neg fresh, if_pos rfl, if_pos List.mem_cons_self]
    · rw [if_neg same]
      simp only [List.mem_cons, same, false_or]

/-- A run's entry into a state raises RUN_PHASE (08 R155, 10 R192). -/
theorem runEnter_raises (configured : s.configured = true) {st : RunState} (moves : s.run.state ≠ st)
    (level : s.iru.level .runPhase ≠ 0) : (s.runEnter st).iru.isPending .runPhase = true := by
  unfold runEnter
  rw [if_neg moves]
  exact (syncRunFault_tame (r := true)).events .runPhase rfl (raise_pending rfl configured level)

theorem startAt_tame (a : Armed) (n : Transport) (s : State) : Tame true s (startAt a n s) := by
  unfold startAt
  split
  · exact startRunChase_tame n _
  · exact .refl s

/-- A transport that the event does not name gets no chase. -/
theorem chaseAt_unnamed {a : Armed} {n : Transport} (apart : n ∉ a.transports) (k : Chase) (c : Context) : chaseAt a n k c = k := by
  unfold chaseAt
  cases inPoint : a.inPoint? n with
  | none => rfl
  | some p => exact absurd ((names_transports a).mpr (Armed.names_of_inPoint inPoint)) apart

/-- The run's own words as a roll sets them, its state apart (08 R160). -/
def rolledRun (a : Armed) (r : Run) (cues : Six CueState) : Run :=
  { r with rollRequested := false, clock := -(a.preroll : Int), syncPassed := false, insertsOn := 0, awaited := [], cues }

/-- The roll of an event, its reference test apart (08 R160). -/
theorem rollEvent_keeps (a : Armed) (s : State) (state : s.run.state = .ready) :
    (s.rollEvent a).run = { s.run with
      state := .preroll, rollRequested := false, clock := -(a.preroll : Int), syncPassed := false, insertsOn := 0
      awaited := [], cues := (s.rollEvent a).run.cues } ∧
    (∀ n, (s.rollEvent a).run.cues.get n = if a.names n then .zero else s.run.cues.get n) ∧
    (s.rollEvent a).mixer = { s.mixer with handed := s.mixer.handed ++ [.take a.sourceA] } ∧ (s.rollEvent a).et = s.et ∧
    (s.rollEvent a).links = s.links ∧ (s.rollEvent a).rtu = s.rtu ∧
    (∀ n, (s.rollEvent a).chase n = chaseAt a n (s.chase n) (s.ctx n)) ∧
    (s.configured = true → s.iru.level .runPhase ≠ 0 → (s.rollEvent a).iru.isPending .runPhase = true) := by
  obtain ⟨cues, zeroed, each⟩ := zeroCues a.transports (s.onRun ({ · with rollRequested := false }))
  have apart := runEnter_apart (s := s.setRun (rolledRun a s.run cues)) .preroll
  obtain ⟨run, et, links, mixer, rtu, chase⟩ := startsAt_keep a a.transports
    (((s.setRun (rolledRun a s.run cues)).runEnter .preroll).hand (.take a.sourceA)) (List.Nodup.filter _ (by decide))
  have whole : s.rollEvent a = forTransports a.transports (startAt a)
      (((s.setRun (rolledRun a s.run cues)).runEnter .preroll).hand (.take a.sourceA)) := by
    unfold rollEvent
    simp only
    rw [zeroed]
    rfl
  have runs : (s.rollEvent a).run = { rolledRun a s.run cues with state := .preroll } := by
    rw [whole, run]
    exact apart.run
  have events := (Tame.forTransports (startAt_tame a) a.transports
    (((s.setRun (rolledRun a s.run cues)).runEnter .preroll).hand (.take a.sourceA))).events .runPhase rfl
  refine ⟨by rw [runs]; rfl, fun n => ?_, ?_, ?_, ?_, ?_, fun n => ?_, fun configured level => ?_⟩
  · rw [runs]
    refine (each n).trans ?_
    simp only [names_transports]
    rfl
  · rw [whole, mixer]
    exact congrArg (fun m : Mixer => { m with handed := m.handed ++ [Handed.take a.sourceA] }) apart.mixer
  · rw [whole, et]
    exact apart.et
  · rw [whole, links]
    exact apart.links
  · rw [whole, rtu]
    exact apart.rtu
  · have stood : (((s.setRun (rolledRun a s.run cues)).runEnter .preroll).hand (.take a.sourceA)).chase n = s.chase n :=
      congrArg (Six.get · n) apart.chases
    obtain ⟨b, ctx⟩ := runEnter_ctx (s := s.setRun (rolledRun a s.run cues)) .preroll n
    have context : (((s.setRun (rolledRun a s.run cues)).runEnter .preroll).hand (.take a.sourceA)).ctx n =
        { s.ctx n with linkChange := b } := ctx
    rw [whole, chase n, stood, context, chaseAt_ctx]
    by_cases among : n ∈ a.transports
    · rw [if_pos among]
    · rw [if_neg among, chaseAt_unnamed among]
  · rw [whole]
    exact events (runEnter_raises (s := s.setRun (rolledRun a s.run cues)) configured
      (by show s.run.state ≠ .preroll; rw [state]; decide) level)

/-- A READY run that has been asked to roll, with no look-ahead: the roll alone (08 R155, R160). -/
theorem clockAndState_rolls (ahead : s.et.lookahead = none) (current : s.et.current = some a) (state : s.run.state = .ready)
    (asked : s.run.rollRequested = true) :
    let refused := s.run.mode = .record ∧ s.run.requireReference = true ∧ s.rtu.state ≠ .locked
    (refused → s.clockAndState = (s.rollEvent a).currentFault .refLost none ∧
      s.clockAndState.RunFaulted ⟨.refLost, a.event, none, some (-(a.preroll : Int)), false⟩) ∧
    (¬refused → s.clockAndState = s.rollEvent a) := by
  intro refused
  obtain ⟨run, cues, -, et, -, rtu, -, -⟩ := rollEvent_keeps a s state
  have test : ((s.rollEvent a).run.mode = .record && (s.rollEvent a).run.requireReference && (s.rollEvent a).rtu.state != .locked) =
      true ↔ refused := by
    rw [run, rtu]
    simp [refused, and_assoc]
  have advanced : s.advanceRun = if (s.rollEvent a).run.mode = .record && (s.rollEvent a).run.requireReference &&
      (s.rollEvent a).rtu.state != .locked then (s.rollEvent a).currentFault .refLost none else s.rollEvent a := by
    unfold advanceRun roll
    rw [state, current]
    exact if_pos asked
  refine ⟨fun bad => ?_, fun good => ?_⟩
  · rw [if_pos (test.mpr bad)] at advanced
    have faulted := currentFault_faulted (s := s.rollEvent a) (by rw [run]; rfl) (by rw [et]; exact current) .refLost none
    have rolls : (s.rollEvent a).run.state.rolling = true ∧ (s.rollEvent a).run.clock = -(a.preroll : Int) := by
      rw [run]
      exact ⟨rfl, rfl⟩
    rw [if_pos rolls.1, rolls.2] at faulted
    obtain ⟨stopped, -⟩ := runFaulted_stops faulted
    have whole : s.clockAndState = (s.rollEvent a).currentFault .refLost none := by
      unfold clockAndState
      rw [advanced, countLookahead_quiet stopped]
      exact cueWorks_quiet stopped _
    rw [whole]
    exact ⟨rfl, faulted⟩
  · rw [if_neg (mt test.mp good)] at advanced
    unfold clockAndState
    rw [advanced, countLookahead_none (by rw [et]; exact ahead)]
    refine forTransports_rest fun n among => cueWork_rest (.inl ?_)
    obtain ⟨-, named⟩ := List.mem_filter.mp among
    have member : a.names n = true := by
      unfold EditTable.names EditTable.currentNames EditTable.lookaheadNames at named
      rw [et, current, ahead] at named
      simpa using named
    rw [cues n, if_pos member]
    rfl

end State

open State in
/-- Settles O56: the boundary cut at the run's steps, and the first two steps. -/
theorem aRunsBoundaryIsItsFourSteps : Obligations.ARunsBoundaryIsItsFourSteps := by
  unfold Obligations.ARunsBoundaryIsItsFourSteps
  refine ⟨fun s b cause at_ => ?_, fun s => ⟨lateInserts_none, fun a late current active => ?_, fun ahead => ⟨clockAndState_ticks ahead,
    fun a current state asked => ?_⟩⟩⟩
  · obtain ⟨run, -, et, -⟩ := linksDone_keeps (sh := s.shortens cause) b
    intro d r ts
    refine ⟨run, et, r.early ts, ?_, fun still => ?_, ?_⟩
    · unfold early
      split
      · exact List.filter_sublist
      · exact List.nil_sublist _
    · unfold early
      rw [still]
      rfl
    · rw [exec_atBoundary at_, frameBoundary_parts, runAndChase_eq]
  · rw [lateInserts_fault late current active]
    exact currentFault_faulted active current .lateInsert (some a.recorder)
  · obtain ⟨bad, good⟩ := clockAndState_rolls ahead current state asked
    refine ⟨fun refused => (bad refused).2, fun held => ?_⟩
    rw [good held]
    obtain ⟨run, cues, mixer, et, links, -, chase, raised⟩ := rollEvent_keeps a s state
    exact ⟨run, cues, mixer, et, links, chase, raised⟩

end Sys2Proof.Machine
end

section
/-! PROOF. The look-ahead armed at edit-in, and the completion of an event and what follows it (08 R167, R168). -/

namespace Sys2Proof.Machine

namespace State

variable {s t u : State} {n : Transport} {a b : Armed} {ts : List Transport}

/-! ## The seat of a transport -/

/-- What the run's work on a transport rests on: its owner, its cue and its link. -/
structure Seat where
  owner : Owner
  cue : CueState
  link : Link

def seat (s : State) (n : Transport) : Seat := ⟨(s.ctx n).owner, s.run.cues.get n, s.link n⟩

/-- From `s` to `t` the seats of `ts` changed by the rule `R`, and no other seat, no latency and no part of the
configuration did. -/
structure Reseats (ts : List Transport) (R : Seat → Seat → Prop) (s t : State) : Prop where
  cfg : t.cfg = s.cfg
  latency : ∀ n, (t.ctx n).latency = (s.ctx n).latency
  on : ∀ n ∈ ts, R (s.seat n) (t.seat n)
  off : ∀ n, n ∉ ts → t.seat n = s.seat n

/-- The same, of work that leaves the armed places and the rest of the run alone. -/
structure Seats (ts : List Transport) (R : Seat → Seat → Prop) (s t : State) : Prop extends Reseats ts R s t where
  run : t.run = { s.run with cues := t.run.cues }
  et : t.et = s.et

section

variable {R Q S : Seat → Seat → Prop}

namespace Reseats

/-- One rule after another on the same seats. -/
theorem then_ (first : Reseats ts R s t) (second : Reseats ts Q t u) (both : ∀ x y z, R x y → Q y z → S x z) : Reseats ts S s u where
  cfg := second.cfg.trans first.cfg
  latency n := (second.latency n).trans (first.latency n)
  on n among := both _ _ _ (first.on n among) (second.on n among)
  off n apart := (second.off n apart).trans (first.off n apart)

theorem mono (h : Reseats ts R s t) (weaker : ∀ x y, R x y → S x y) : Reseats ts S s t :=
  { h with on := fun n among => weaker _ _ (h.on n among) }

/-- A rule that lets a seat stand holds of more seats. -/
theorem widen {more : List Transport} (h : Reseats ts R s t) (sub : ∀ n ∈ ts, n ∈ more) (stands : ∀ x, R x x) : Reseats more R s t :=
  { h with
    on := fun n _ => by
      by_cases among : n ∈ ts
      · exact h.on n among
      · rw [h.off n among]
        exact stands _
    off := fun n apart => h.off n fun among => apart (sub n among) }

/-- Before or after work that reaches no seat. -/
theorem still_then (first : Reseats [] Q s t) (second : Reseats ts R t u) : Reseats ts R s u where
  cfg := second.cfg.trans first.cfg
  latency n := (second.latency n).trans (first.latency n)
  on n among := by
    have change := second.on n among
    rw [first.off n List.not_mem_nil] at change
    exact change
  off n apart := (second.off n apart).trans (first.off n List.not_mem_nil)

theorem then_still (first : Reseats ts R s t) (second : Reseats [] Q t u) : Reseats ts R s u where
  cfg := second.cfg.trans first.cfg
  latency n := (second.latency n).trans (first.latency n)
  on n among := by
    rw [second.off n List.not_mem_nil]
    exact first.on n among
  off n apart := (second.off n List.not_mem_nil).trans (first.off n apart)

end Reseats

namespace Seats

theorem then_ (first : Seats ts R s t) (second : Seats ts Q t u) (both : ∀ x y z, R x y → Q y z → S x z) : Seats ts S s u where
  toReseats := first.toReseats.then_ second.toReseats both
  run := by
    have run := second.run
    rw [first.run] at run
    exact run
  et := second.et.trans first.et

theorem mono (h : Seats ts R s t) (weaker : ∀ x y, R x y → S x y) : Seats ts S s t := ⟨h.toReseats.mono weaker, h.run, h.et⟩

theorem refl (stands : ∀ x, R x x) (s : State) : Seats ts R s s := ⟨⟨rfl, fun _ => rfl, fun _ _ => stands _, fun _ _ => rfl⟩, rfl, rfl⟩

theorem ite {c : Prop} [Decidable c] {x y : State} (yes : c → Seats ts R s x) (no : ¬c → Seats ts R s y) :
    Seats ts R s (if c then x else y) := by
  split_ifs with h
  · exact yes h
  · exact no h

/-- Work on a list of different transports, where what it rests on is untouched by the work on one. -/
theorem forTransports {f : Transport → State → State} {P : State → Prop} {Q : Seat → Prop}
    (kept : ∀ s t, P s → t.run = { s.run with cues := t.run.cues } → t.et = s.et → P t)
    (each : ∀ n s, P s → Q (s.seat n) → Seats [n] R s (f n s)) :
    ∀ (ts : List Transport), ts.Nodup → ∀ s, P s → (∀ n ∈ ts, Q (s.seat n)) → Seats ts R s (forTransports ts f s)
  | [], _, s, _, _ => ⟨⟨rfl, fun _ => rfl, nofun, fun _ _ => rfl⟩, rfl, rfl⟩
  | n :: ts, different, s, holds, ready => by
    obtain ⟨apart, rest⟩ := List.nodup_cons.mp different
    have first := each n s holds (ready n List.mem_cons_self)
    have other {m : Transport} (h : m ≠ n) : (f n s).seat m = s.seat m := first.off m (by rw [List.mem_singleton]; exact h)
    have second := Seats.forTransports kept each ts rest (f n s) (kept _ _ holds first.run first.et) (by
      intro m among
      rw [other (fun e => apart (e ▸ among))]
      exact ready m (List.mem_cons_of_mem n among))
    refine ⟨⟨second.cfg.trans first.cfg, fun m => (second.latency m).trans (first.latency m), fun m among => ?_, fun m out => ?_⟩,
      ?_, second.et.trans first.et⟩
    · by_cases e : m = n
      · subst e
        show R _ ((Machine.forTransports ts f (f m s)).seat m)
        rw [second.off m apart]
        exact first.on m (List.mem_singleton_self m)
      · have change := second.on m ((List.mem_cons.mp among).resolve_left e)
        rw [other e] at change
        exact change
    · rw [List.mem_cons, not_or] at out
      exact (second.off m out.2).trans (other out.1)
    · have run := second.run
      rw [first.run] at run
      exact run

/-- The same, where the work rests on nothing. -/
theorem forTransports_all {f : Transport → State → State} (each : ∀ n s, Seats [n] R s (f n s)) (different : ts.Nodup) (s : State) :
    Seats ts R s (Machine.forTransports ts f s) :=
  forTransports (P := fun _ => True) (Q := fun _ => True) (fun _ _ _ _ _ => trivial) (fun n s _ _ => each n s) ts different s trivial
    fun _ _ => trivial

end Seats

end

theorem nodup_transports (a : Armed) : a.transports.Nodup := List.Nodup.filter _ (by decide)

/-! ## What each operation does to the seat of its transport -/

/-- The owner, the cue and the link's state stand, and the queue has no more entries (06 R115, 05 R85). -/
structure Stopped (x y : Seat) : Prop where
  owner : y.owner = x.owner
  cue : y.cue = x.cue
  link : y.link.state = x.link.state
  queue : y.link.queue.length ≤ x.link.queue.length

/-- An entry was offered: the owner and the way of the cue stand, and the queue has at most one more. -/
structure Offered (x y : Seat) : Prop where
  owner : y.owner = x.owner
  progress : y.cue.progress = x.cue.progress
  locates : y.cue.locates = x.cue.locates
  link : y.link.state = x.link.state
  queue : y.link.queue.length ≤ x.link.queue.length + 1

/-- A HALT was offered, and the transport released (08 R167). -/
structure Halted (x y : Seat) : Prop where
  owner : y.owner ≠ .run
  cue : y.cue = .zero
  link : y.link.state = x.link.state
  halt : x.link.state = .up → x.link.queue.length < 4 → y.link.holds (runEntry .halt .none false false)

/-- The run took the transport (05 R85). -/
structure Taken (x y : Seat) : Prop where
  owner : y.owner = .run
  cue : y.cue = x.cue
  link : y.link.state = x.link.state

/-- A first cue began (08 R158). -/
structure Begun (x y : Seat) : Prop where
  owner : y.owner = x.owner
  link : y.link.state = x.link.state
  progress : y.cue.progress = .locating
  locates : y.cue.locates = 1

theorem Stopped.refl (x : Seat) : Stopped x x := ⟨rfl, rfl, rfl, le_refl _⟩

theorem Stopped.trans {x y z : Seat} (first : Stopped x y) (second : Stopped y z) : Stopped x z :=
  ⟨second.owner.trans first.owner, second.cue.trans first.cue, second.link.trans first.link, second.queue.trans first.queue⟩

theorem Offered.refl (x : Seat) : Offered x x := ⟨rfl, rfl, rfl, rfl, by omega⟩

/-- Two offers in a row, where no more than one entry remains. -/
theorem Offered.trans {x y z : Seat} (first : Offered x y) (second : Offered y z)
    (queue : z.link.queue.length ≤ x.link.queue.length + 1) : Offered x z :=
  ⟨second.owner.trans first.owner, second.progress.trans first.progress, second.locates.trans first.locates,
    second.link.trans first.link, queue⟩

/-- A chase stopped after an offer leaves it one offer. -/
theorem Offered.stopped {x y z : Seat} (first : Offered x y) (second : Stopped y z) : Offered x z :=
  ⟨second.owner.trans first.owner, (congrArg CueState.progress second.cue).trans first.progress,
    (congrArg CueState.locates second.cue).trans first.locates, second.link.trans first.link, second.queue.trans first.queue⟩

section

variable {R : Seat → Seat → Prop}

/-- A change of one link alone. -/
theorem seats_onLink {f : Link → Link} (rule : R (s.seat n) { s.seat n with link := f (s.link n) }) : Seats [n] R s (s.onLink n f) := by
  refine ⟨⟨rfl, fun _ => rfl, fun m among => ?_, fun m apart => ?_⟩, rfl, rfl⟩ <;> rw [List.mem_singleton] at *
  · subst among
    unfold seat onLink at *
    rw [link_setLink, if_pos rfl]
    exact rule
  · unfold seat onLink
    rw [link_setLink, if_neg apart]
    rfl

/-- A change of one context that leaves its latency alone. -/
theorem seats_onCtx {f : Context → Context} (latency : (f (s.ctx n)).latency = (s.ctx n).latency)
    (rule : R (s.seat n) { s.seat n with owner := (f (s.ctx n)).owner }) : Seats [n] R s (s.onCtx n f) := by
  refine ⟨⟨rfl, fun m => ?_, fun m among => ?_, fun m apart => ?_⟩, rfl, rfl⟩
  · unfold onCtx
    rw [ctx_setCtx]
    split_ifs with h
    · rw [h]
      exact latency
    · rfl
  · rw [List.mem_singleton] at among
    subst among
    unfold seat onCtx at *
    rw [ctx_setCtx, if_pos rfl]
    exact rule
  · rw [List.mem_singleton] at apart
    unfold seat onCtx
    rw [ctx_setCtx, if_neg apart]
    rfl

/-- A change of one cue. -/
theorem seats_setCue {c : CueState} (rule : R (s.seat n) { s.seat n with cue := c }) : Seats [n] R s (s.setCue n c) := by
  refine ⟨⟨rfl, fun _ => rfl, fun m among => ?_, fun m apart => ?_⟩, rfl, rfl⟩ <;> rw [List.mem_singleton] at *
  · subst among
    show R _ (⟨_, (s.run.cues.set m c).get m, _⟩ : Seat)
    rw [Six.get_set_self]
    exact rule
  · show (⟨_, (s.run.cues.set n c).get m, _⟩ : Seat) = _
    rw [Six.get_set, if_neg apart]
    rfl

end

/-- A raise reaches no seat. -/
theorem seats_raise (i : Irq) : Seats ts Stopped s (s.raise i) := by
  have apart := raise_apart (s := s) i
  have seat (m : Transport) : (s.raise i).seat m = s.seat m := by
    obtain ⟨b, ctx⟩ := raise_ctx (s := s) i m
    unfold State.seat link
    rw [ctx, apart.run, apart.links]
  refine ⟨⟨apart.cfg, fun m => ?_, fun m _ => ?_, fun m _ => seat m⟩, by rw [apart.run], apart.et⟩
  · obtain ⟨b, ctx⟩ := raise_ctx (s := s) i m
    rw [ctx]
  · rw [seat m]
    exact .refl _

/-- The run's entry into a state reaches no seat. -/
theorem runEnter_reseats (st : RunState) : Reseats [] Eq s (s.runEnter st) := by
  have apart := runEnter_apart (s := s) st
  refine ⟨apart.cfg, fun m => ?_, nofun, fun m _ => ?_⟩
  · obtain ⟨b, ctx⟩ := runEnter_ctx (s := s) st m
    rw [ctx]
  · obtain ⟨b, ctx⟩ := runEnter_ctx (s := s) st m
    unfold State.seat link
    rw [ctx, apart.run, apart.links]
    rfl

/-- An entry that completes as CANCELLED ends at most the cue's outstanding SENSE (08 R170). -/
theorem seats_cancelled (src : Source) (kind : LinkKind) : Seats [n] (fun x y => Offered x y ∧ y.link = x.link) s (s.cancelled n src kind) := by
  have still : Seats [n] (fun x y => Offered x y ∧ y.link = x.link) s s := .refl (fun x => ⟨.refl x, rfl⟩) s
  cases src with
  | processor => exact seats_onCtx (f := fun c => { c with cancelled := c.cancelled + 1 }) rfl ⟨.refl _, rfl⟩
  | run => exact .ite (fun _ => .ite (fun _ => seats_setCue ⟨⟨rfl, rfl, rfl, rfl, Nat.le_succ _⟩, rfl⟩) fun _ => still) fun _ => still
  | chase | link => exact still

theorem seats_cancelAll : ∀ (es : List Entry) (s : State), (∀ e ∈ es, e.source = .processor) → Seats [n] Stopped s (s.cancelAll n es)
  | [], s, _ => .refl .refl s
  | e :: es, s, mine => by
    have first : Seats [n] Stopped s (s.cancelled n e.source e.kind) := by
      rw [mine e List.mem_cons_self]
      exact seats_onCtx (f := fun c => { c with cancelled := c.cancelled + 1 }) rfl (.refl _)
    exact first.then_ (seats_cancelAll es _ fun e among => mine e (List.mem_cons_of_mem _ among)) fun _ _ _ => .trans

/-- The entries of the processor are cancelled (05 R85). -/
theorem seats_cancelProcessor : Seats [n] Stopped s (s.cancelSource n .processor) := by
  unfold cancelSource
  refine Seats.then_ (R := Stopped) (Q := Stopped) (seats_onLink ⟨rfl, rfl, rfl, ?_⟩) (seats_cancelAll _ _ ?_) fun _ _ _ => .trans
  · exact List.length_filter_le ..
  · intro e among
    simpa using (List.mem_filter.mp among).2

/-- A speed withdrawn leaves the queue (04 R68). -/
theorem seats_withdrawSpeed : Seats [n] Stopped s (s.withdrawSpeed n) := by
  unfold withdrawSpeed
  split
  · rename_i v _
    refine Seats.then_ (R := Stopped) (Q := Stopped) (seats_onLink (f := ({ · with slot := none })) ⟨rfl, rfl, rfl, le_refl _⟩) ?_
      fun _ _ _ => .trans
    cases v.source with
    | processor => exact seats_onCtx (f := fun c => { c with cancelled := c.cancelled + 1 }) rfl (.refl _)
    | run | chase | link => exact .refl .refl _
  · exact .refl .refl s

theorem seats_idleChase : Seats [n] Stopped s (s.idleChase n) := by
  unfold idleChase
  have chase : Seats [n] Stopped s (s.onChase n (chaseChanged · .idle)) :=
    ⟨⟨rfl, fun _ => rfl, fun _ _ => .refl _, fun _ _ => rfl⟩, rfl, rfl⟩
  exact (chase.then_ seats_withdrawSpeed fun _ _ _ => .trans).then_ (seats_raise _) fun _ _ _ => .trans

theorem seats_stopRunChase : Seats [n] Stopped s (s.stopRunChase n) := .ite (fun _ => seats_idleChase) fun _ => .refl .refl s

/-- The run's take of a transport (05 R85). -/
theorem seats_runTake : Seats [n] Taken s (s.runTake n) := by
  unfold runTake
  by_cases mine : (s.ctx n).owner = .run
  · rw [if_pos mine]
    refine ⟨⟨rfl, fun _ => rfl, fun m among => ?_, fun _ _ => rfl⟩, rfl, rfl⟩
    rw [List.mem_singleton.mp among]
    exact ⟨mine, rfl, rfl⟩
  · rw [if_neg mine]
    simp only
    have stop : Seats [n] Stopped s (if (s.ctx n).owner = .chase then s.stopProcessorChase n else s) :=
      .ite (fun _ => .ite (fun _ => seats_idleChase) fun _ => .refl .refl s) fun _ => .refl .refl s
    have withdraw (y : State) : Seats [n] Stopped y (y.withdrawProcessorSpeed n) := by
      unfold withdrawProcessorSpeed
      split
      · exact .ite (fun _ => seats_withdrawSpeed) fun _ => .refl .refl y
      · exact .refl .refl y
    have cancelled := stop.then_ (S := Stopped) seats_cancelProcessor fun _ _ _ => .trans
    have free := cancelled.then_ (S := Stopped) (withdraw _) fun _ _ _ => .trans
    exact free.then_ (Q := fun x y => y = { x with owner := .run }) (seats_onCtx (f := ({ · with owner := .run })) rfl rfl) (by
      rintro x y z kept rfl
      exact ⟨rfl, kept.cue, kept.link⟩)

theorem length_place (q : List Entry) (e : Entry) : (Link.place q e).length = q.length + 1 := by
  unfold Link.place
  split
  · have whole := congrArg List.length (List.takeWhile_append_dropWhile (p := (·.urgent)) (l := q))
    rw [List.length_append] at whole ⊢
    rw [List.length_cons]
    omega
  · simp

theorem length_displace : ∀ {q q' : List Entry} {d : Entry}, Link.displace q = some (d, q') → q.length = q'.length + 1
  | [], _, _, h => by cases h
  | e :: rest, q', d, h => by
    unfold Link.displace at h
    cases later : Link.displace rest with
    | some x =>
      rw [later] at h
      cases h
      rw [List.length_cons, List.length_cons, length_displace (d := x.1) (q' := x.2) later]
    | none =>
      rw [later] at h
      simp only at h
      split_ifs at h
      cases h
      rfl

theorem seats_placeEntry (q : List Entry) (e : Entry) (room : q.length ≤ (s.link n).queue.length) : Seats [n] Offered s (s.placeEntry n q e) := by
  unfold placeEntry
  refine seats_onLink ⟨rfl, rfl, rfl, Link.choose_state _, ?_⟩
  exact ((Link.choose_queue _).trans (length_place q e).le).trans (Nat.succ_le_succ room)

/-- An offer of an entry reaches the seat of its transport alone (04 R67). -/
theorem seats_offerEntry (e : Entry) : Seats [n] Offered s (s.offerEntry n e).2 := by
  unfold offerEntry
  simp only
  split_ifs
  · exact .refl .refl s
  · exact seats_placeEntry _ _ (le_refl _)
  · split
    · rename_i d q displaced
      have gone : Seats [n] (fun x y => Offered x y ∧ y.link.queue.length + 1 ≤ x.link.queue.length) s (s.onLink n ({ · with queue := q })) := by
        have shorter := length_displace displaced
        exact seats_onLink ⟨⟨rfl, rfl, rfl, rfl, by show q.length ≤ (s.link n).queue.length + 1; omega⟩, shorter.ge⟩
      have cancelled := seats_cancelled (s := s.onLink n ({ · with queue := q })) (n := n) d.source d.kind
      have link : ((s.onLink n ({ · with queue := q })).cancelled n d.source d.kind).link n = (s.onLink n ({ · with queue := q })).link n :=
        (cancelled.on n (List.mem_singleton_self n)).2
      have placed := seats_placeEntry (s := (s.onLink n ({ · with queue := q })).cancelled n d.source d.kind) (n := n) q e (by
        rw [link]
        unfold onLink
        rw [link_setLink, if_pos rfl])
      refine (gone.then_ (S := fun x y => Offered x y ∧ y.link.queue.length + 1 ≤ x.link.queue.length) cancelled ?_).then_ placed ?_
      · rintro x y z ⟨first, short⟩ ⟨second, same⟩
        have short' : z.link.queue.length + 1 ≤ x.link.queue.length := by rw [same]; exact short
        exact ⟨first.trans second (by omega), short'⟩
      · rintro x y z ⟨first, short⟩ second
        have long := second.queue
        exact first.trans second (by omega)
    · exact .refl .refl s
  · exact .refl .refl s

/-- The HALT of a transport of a completed event, and its release (08 R167). -/
theorem seats_haltAndRelease : Seats [n] Halted s (haltAndRelease n s) := by
  have offered := seats_offerEntry (s := s) (n := n) (runEntry .halt .none false false)
  have waits : (s.link n).state = .up → (s.link n).queue.length < 4 →
      ((s.offerEntry n (runEntry .halt .none false false)).2.link n).holds (runEntry .halt .none false false) := by
    intro up room
    rw [offerEntry_room up room]
    exact placeEntry_holds ..
  unfold haltAndRelease
  generalize (s.offerEntry n (runEntry .halt .none false false)).2 = y at *
  have free : Seats [n] (fun a b => b.owner ≠ .run ∧ b.link = a.link) y
      (if (y.ctx n).owner = .run then y.setOwner n .free else y) := by
    split_ifs with mine
    · exact seats_onCtx (f := ({ · with owner := .free })) rfl ⟨nofun, rfl⟩
    · refine ⟨⟨rfl, fun _ => rfl, fun m among => ?_, fun _ _ => rfl⟩, rfl, rfl⟩
      rw [List.mem_singleton.mp among]
      exact ⟨mine, rfl⟩
  have released : Seats [n] (fun a b => b.owner ≠ .run ∧ b.cue = .zero ∧ b.link = a.link) y (y.runRelease n) := by
    refine free.then_ (Q := fun a b => b = { a with cue := .zero }) (seats_setCue rfl) ?_
    rintro a b c ⟨owner, link⟩ rfl
    exact ⟨owner, rfl, link⟩
  have whole : Seats [n] (fun a b => b.link.state = a.link.state) s (y.runRelease n) := offered.then_ released (by
    rintro a b c first ⟨-, -, link⟩
    rw [link]
    exact first.link)
  refine { whole with on := fun m among => ?_ }
  have state := whole.on m among
  rw [List.mem_singleton.mp among] at state ⊢
  obtain ⟨owner, cue, link⟩ := released.on n (List.mem_singleton_self n)
  exact ⟨owner, cue, state, fun up room => by rw [link]; exact waits up room⟩

theorem seats_haltAndReleases (different : ts.Nodup) (s : State) : Seats ts Halted s (forTransports ts haltAndRelease s) :=
  .forTransports_all (fun n s => seats_haltAndRelease (s := s) (n := n)) different s

/-- The LOCATE of a cue at a link that is UP (08 R158). -/
theorem seats_offerLocate (up : (s.link n).state = .up) : Seats [n] Offered s (s.offerLocate n) := by
  unfold offerLocate
  split
  · rename_i target _
    have offered := seats_offerEntry (s := s) (n := n) (runEntry .locate (.label (Label.ofIndex s.standard target)) false false)
    have marked (y : State) (x : Bool) : Seats [n] (fun a b => b = { a with cue := { a.cue with unplaced := x } }) y
        (y.setCue n { y.run.cues.get n with unplaced := x }) := seats_setCue rfl
    have settled {y : State} (h : Seats [n] Offered s y) (x : Bool) : Seats [n] Offered s (y.setCue n { y.run.cues.get n with unplaced := x }) :=
      h.then_ (marked y x) (by
        rintro a b c first rfl
        exact ⟨first.owner, first.progress, first.locates, first.link, first.queue⟩)
    by_cases room : (s.link n).queue.length < 4
    · rw [offerEntry_room up room] at offered ⊢
      exact settled offered false
    · rw [offerEntry_full up room rfl] at offered ⊢
      exact settled offered true
  · exact .refl .refl s

/-- A first cue that may be offered at a link that is UP. -/
theorem seats_beginCue (may : s.mayCue n = true) (up : (s.link n).state = .up) : Seats [n] Begun s (s.beginCue n 1) := by
  unfold beginCue
  rw [if_pos may]
  have begun : Seats [n] Begun s (s.setCue n { s.run.cues.get n with progress := .locating, locates := 1, unplaced := false }) :=
    seats_setCue ⟨rfl, rfl, rfl, rfl⟩
  refine begun.then_ (seats_offerLocate (by exact up)) ?_
  intro x y z first second
  exact ⟨second.owner.trans first.owner, second.link.trans first.link, second.progress.trans first.progress, second.locates.trans first.locates⟩

/-! ## The cues of an event -/

/-- The owner stands, and the state of the link. -/
structure Steady (x y : Seat) : Prop where
  owner : y.owner = x.owner
  link : y.link.state = x.link.state

/-- The transport is the run's, and its first cue has begun. -/
structure PreCued (x y : Seat) : Prop where
  owner : y.owner = .run
  link : y.link.state = x.link.state
  progress : y.cue.progress = .locating
  locates : y.cue.locates = 1

theorem mayCue_kept (may : ∀ n, s.mayCue n = true) (run : t.run = { s.run with cues := t.run.cues }) (et : t.et = s.et) (n : Transport) :
    t.mayCue n = true := by
  have stays := may n
  unfold mayCue at stays ⊢
  rw [run, et]
  exact stays

/-- With no look-ahead, or with one that is armed, every cue of a run at work may be offered (08 R169). -/
theorem mayCue_all (active : s.run.state.active = true) (ahead : s.et.lookahead = none ∨ s.run.lookahead = .armed) (n : Transport) :
    s.mayCue n = true := by
  unfold mayCue EditTable.lookaheadOnly EditTable.lookaheadNames
  rw [active]
  rcases ahead with absent | armed
  · rw [absent]
    rfl
  · rw [armed, Bool.true_and, Bool.or_eq_true]
    exact .inr rfl

/-- The first cues of some transports of an event, their links UP. -/
theorem seats_beginCues (may : ∀ n, s.mayCue n = true) (different : ts.Nodup) (up : ∀ n ∈ ts, (s.link n).state = .up)
    (now : State → Transport → Prop) [∀ s n, Decidable (now s n)] :
    Seats ts Steady s (forTransports ts (fun n s => if now s n then s.beginCue n 1 else s) s) :=
  .forTransports (P := fun s => ∀ n, s.mayCue n = true) (Q := fun x => x.link.state = .up) (fun _ _ may run et => mayCue_kept may run et)
    (fun _ s may up => .ite (fun _ => (seats_beginCue (may _) up).mono fun _ _ begun => ⟨begun.owner, begun.link⟩)
      fun _ => .refl (fun _ => ⟨rfl, rfl⟩) s)
    ts different s may up

/-- The pre-cues of a look-ahead: each transport is taken and its cue begun (08 R168). -/
theorem seats_preCues (may : ∀ n, s.mayCue n = true) (different : ts.Nodup) (up : ∀ n ∈ ts, (s.link n).state = .up) :
    Seats ts PreCued s (forTransports ts (fun n s => (s.runTake n).beginCue n 1) s) := by
  refine .forTransports (P := fun s => ∀ n, s.mayCue n = true) (Q := fun x => x.link.state = .up)
    (fun _ _ may run et => mayCue_kept may run et) (fun n s may up => ?_) ts different s may up
  have taken := seats_runTake (s := s) (n := n)
  have still : ((s.runTake n).link n).state = .up := (taken.on n (List.mem_singleton_self n)).link.trans up
  refine taken.then_ (seats_beginCue (mayCue_kept may taken.run taken.et n) still) ?_
  intro x y z first second
  exact ⟨second.owner.trans first.owner, second.link.trans first.link, second.progress, second.locates⟩

/-- How an event's start leaves the run (08 R157, R167, step 7). -/
structure Started (s t : State) (b : Armed) : Prop where
  et : t.et = s.et
  fault : t.run.fault = s.run.fault
  successor : t.run.successor = b.link
  lookahead : t.run.lookahead = if b.noLookahead = true ∨ b.link = none then .none else .notYet
  cueCount : t.run.cueCount = 0

theorem adoptEvent_started (s : State) (b : Armed) : Started s (s.adoptEvent b) b := ⟨rfl, rfl, rfl, startStatus_eq b, rfl⟩

/-- A change of the run's state, of its cues or of a requested roll leaves the start as it is. -/
theorem Started.kept (h : Started s t b) {st : RunState} {roll : Bool}
    (run : u.run = { t.run with state := st, rollRequested := roll, cues := u.run.cues }) (et : u.et = t.et) :
    Started s u b where
  et := et.trans h.et
  fault := by
    rw [run]
    exact h.fault
  successor := by
    rw [run]
    exact h.successor
  lookahead := by
    rw [run]
    exact h.lookahead
  cueCount := by
    rw [run]
    exact h.cueCount

/-- The run enters READY: no seat changes. -/
theorem enterReady_keeps (s : State) : Reseats [] Eq s s.enterReady ∧ s.enterReady.et = s.et ∧
    s.enterReady.run = { s.run with state := .ready, rollRequested := s.run.rollRequested || s.run.autoRoll } := by
  have apart := runEnter_apart (s := s.onRun fun r => { r with rollRequested := r.rollRequested || r.autoRoll }) .ready
  have seats := runEnter_reseats (s := s.onRun fun r => { r with rollRequested := r.rollRequested || r.autoRoll }) .ready
  exact ⟨{ seats with }, apart.et, apart.run⟩

/-- Step 7 of 08 R167. -/
theorem continueRun_continues (current : s.et.current = some b) (ahead : s.et.lookahead = none) (up : ∀ n, (s.link n).state = .up) :
    Started s (s.continueRun b) b ∧ Reseats b.transports Steady s (s.continueRun b) ∧
    (s.continueRun b).run.state =
      if (b.transports.all fun n => (s.run.cues.get n).progress = .cued) = true then .ready else .cueing := by
  have all : (s.adoptEvent b).allCued = b.transports.all fun n => (s.run.cues.get n).progress = .cued := by
    unfold allCued currentTransports
    rw [show (s.adoptEvent b).et = s.et from rfl, current]
    rfl
  have adopted := adoptEvent_started s b
  have same : Reseats [] Eq s (s.adoptEvent b) := ⟨rfl, fun _ => rfl, nofun, fun _ _ => rfl⟩
  unfold continueRun
  simp only
  rw [all]
  split_ifs with cued
  · obtain ⟨seats, et, run⟩ := enterReady_keeps (s.adoptEvent b)
    have kept : Started s (s.adoptEvent b).enterReady b := adopted.kept (st := .ready) (by rw [run]) et
    refine ⟨kept, ((same.still_then seats).widen nofun fun _ => rfl).mono ?_, by rw [run]⟩
    rintro x y rfl
    exact ⟨rfl, rfl⟩
  · have entered := runEnter_apart (s := s.adoptEvent b) .cueing
    have seats := runEnter_reseats (s := s.adoptEvent b) .cueing
    have link (n : Transport) : ((s.adoptEvent b).runEnter .cueing).link n = s.link n := congrArg Seat.link (seats.off n List.not_mem_nil)
    have begun := seats_beginCues (s := (s.adoptEvent b).runEnter .cueing) (ts := b.transports)
      (mayCue_all (by rw [entered.run]; rfl) (.inl (by rw [entered.et]; exact ahead))) (nodup_transports b)
      (fun n _ => by rw [link]; exact up n) (fun s n => (s.run.cues.get n).progress = .none)
    have run := begun.run
    rw [entered.run] at run
    refine ⟨adopted.kept (st := .cueing) (roll := s.run.rollRequested) run (begun.et.trans entered.et),
      (same.still_then seats).still_then begun.toReseats, ?_⟩
    rw [run]
    rfl

/-- The links are UP after work that leaves those of `ts` in their state. -/
theorem Reseats.up {R : Seat → Seat → Prop} (h : Reseats ts R s t) (keeps : ∀ x y, R x y → y.link.state = x.link.state)
    (up : ∀ n, (s.link n).state = .up) (n : Transport) : (t.link n).state = .up := by
  by_cases among : n ∈ ts
  · exact (keeps _ _ (h.on n among)).trans (up n)
  · exact (congrArg (·.link.state) (h.off n among)).trans (up n)

theorem mem_leftOver : n ∈ leftOver ts (some b) ↔ n ∈ ts ∧ b.names n = false := by
  unfold leftOver
  rw [List.mem_filter]
  simp

/-- Steps 6 and 7 of 08 R167 for the event that is now current. -/
theorem chainEvent_chains (current : s.et.current = some b) (ahead : s.et.lookahead = none) (active : s.run.state.active = true)
    (up : ∀ n, (s.link n).state = .up) (different : ts.Nodup) :
    Started s (s.chainEvent ts b) b ∧
    (s.chainEvent ts b).run.state =
      (if (b.transports.all fun n => (s.run.cues.get n).progress = .cued) = true then .ready else .cueing) ∧
    (∀ n, b.names n = true → ((s.chainEvent ts b).ctx n).owner = (s.ctx n).owner) ∧
    ∀ n ∈ ts, b.names n = false → Halted (s.seat n) ((s.chainEvent ts b).seat n) := by
  have halted := seats_haltAndReleases (ts := leftOver ts (some b)) (different.filter _) s
  unfold chainEvent
  simp only
  generalize forTransports (leftOver ts (some b)) haltAndRelease s = y at halted ⊢
  have works : y.run.state.active = true := by
    rw [halted.run]
    exact active
  obtain ⟨started, seats, state⟩ := continueRun_continues (s := y) (halted.et ▸ current) (halted.et ▸ ahead)
    (halted.toReseats.up (fun _ _ h => h.link) up)
  have mine {n : Transport} (named : b.names n = true) : y.seat n = s.seat n := halted.off n (by
    rw [mem_leftOver, named]
    exact nofun)
  rw [if_pos works]
  refine ⟨⟨started.et.trans halted.et, started.fault.trans ?_, started.successor, started.lookahead, started.cueCount⟩, ?_, ?_, ?_⟩
  · rw [halted.run]
  · have same : (b.transports.all fun n => decide ((y.run.cues.get n).progress = .cued)) =
        b.transports.all fun n => decide ((s.run.cues.get n).progress = .cued) := by
      rw [Bool.eq_iff_iff, List.all_eq_true, List.all_eq_true]
      refine forall₂_congr fun n among => ?_
      rw [show y.run.cues.get n = s.run.cues.get n from congrArg Seat.cue (mine ((names_transports b).mp among))]
    rw [state, same]
  · intro n named
    have owner := (seats.on n ((names_transports b).mpr named)).owner
    rw [mine named] at owner
    exact owner
  · intro n among other
    rw [seats.off n (by rw [names_transports, other]; exact nofun)]
    exact halted.on n (mem_leftOver.mpr ⟨among, other⟩)

/-! ## The completion of the current event (08 R167, steps 1 and 2) -/

/-- Steps 1 and 2 of 08 R167: the event's chases stopped, and the event DONE. -/
def retired (s : State) (a : Armed) : State := (forTransports a.transports (fun n s => s.stopRunChase n) s).completeEvent

theorem completeEvent_eq (current : s.et.current = some a) :
    s.completeEvent = s.setEt ⟨s.et.states.set a.event .done, s.et.lookahead, none⟩ := by
  unfold completeEvent leavePlace
  simp only [current]
  rfl

theorem completeRunEvent_pending {f : FaultRecord} (pending : (s.retired a).run.pendingFault = some f) :
    s.completeRunEvent a =
      (forTransports (leftOver a.transports (s.retired a).et.current) haltAndRelease (s.retired a)).promotePending f := by
  unfold completeRunEvent
  simp only
  rw [← retired, pending]

theorem completeRunEvent_last (pending : (s.retired a).run.pendingFault = none)
    (last : (s.retired a).run.successor = none ∨ (s.retired a).run.stopRequested = true) :
    s.completeRunEvent a = (forTransports a.transports haltAndRelease (s.retired a)).finishRun := by
  unfold completeRunEvent
  simp only
  rw [← retired, pending]
  simp only
  split
  · rename_i e successor
    rw [successor] at last
    rw [if_pos (last.resolve_left nofun)]
  · rfl

theorem completeRunEvent_next {e : Fin 64} (pending : (s.retired a).run.pendingFault = none)
    (successor : (s.retired a).run.successor = some e) (goes : (s.retired a).run.stopRequested = false) :
    s.completeRunEvent a = (s.retired a).nextEvent a.transports e := by
  unfold completeRunEvent
  simp only
  rw [← retired, pending]
  simp only
  rw [successor]
  simp only
  rw [if_neg (by rw [goes]; decide)]

/-- What the completion of an event finds, its chases stopped and its state DONE. -/
structure Retired (R : Seat → Seat → Prop) (s t : State) (a : Armed) : Prop where
  seats : Reseats a.transports R s t
  run : t.run = { s.run with awaited := t.run.awaited, insertsOn := t.run.insertsOn, cues := t.run.cues }
  et : t.et = ⟨s.et.states.set a.event .done, s.et.lookahead, none⟩
  chase : ∀ n, a.names n = true → t.ChaseFree n

theorem hands_reseats {α : Type} (f : α → Handed) : ∀ (xs : List α) (s : State),
    Reseats [] Eq s (xs.foldl (fun s x => s.hand (f x)) s)
  | [], s => ⟨rfl, fun _ => rfl, nofun, fun _ _ => rfl⟩
  | x :: xs, s => by
    have first : Reseats [] Eq s (s.hand (f x)) := ⟨rfl, fun _ => rfl, nofun, fun _ _ => rfl⟩
    exact first.then_still (hands_reseats f xs _)

theorem timedInsert_reseats (off : Bool) (m : Tracks) : Reseats [n] Offered s (s.timedInsert n off m) :=
  { (seats_offerEntry (runEntry (if off then .insertOff else .insertOn) (.mask m) true false)).toReseats with }

theorem whileRolling_never (s : State) (f : State → State) : s.whileRolling false f = s := rfl

theorem whileRolling_now (rolling : s.run.state.rolling = true) (f : State → State) : s.whileRolling true f = f s := by
  unfold whileRolling
  rw [rolling]
  rfl

theorem whileRolling_reseats {R : Seat → Seat → Prop} (stands : ∀ x, R x x) (b : Bool) {f : State → State}
    (h : Reseats ts R s (f s)) : Reseats ts R s (s.whileRolling b f) := by
  unfold whileRolling
  split_ifs
  · exact h
  · exact ⟨rfl, fun _ => rfl, fun _ _ => stands _, fun _ _ => rfl⟩

/-- The cues and the inserts of a clock value from edit-in on reach the recorder's seat alone. -/
theorem cuesAndInserts_reseats {c : Int} (late : 0 ≤ c) : Reseats [a.recorder] Offered s (s.cuesAndInserts a c) := by
  have first : decide (c = -((a.latency : Int) + 1)) = false := decide_eq_false (by omega)
  unfold cuesAndInserts
  rw [first, Bool.and_false]
  exact (hands_reseats (fun q : Cue => Handed.pulse q.line q.width) _ s).still_then
    (whileRolling_reseats .refl _ (timedInsert_reseats false _))

/-- The start of the transition is handed to the mixer alone. -/
theorem start_reseats (b : Bool) (f : MixSource → Handed) (source : Option MixSource) :
    Reseats [] Eq s (s.whileRolling b fun s => match source with | some x => s.hand (f x) | none => s) := by
  refine whileRolling_reseats (fun _ => rfl) b ?_
  cases source <;> exact ⟨rfl, fun _ => rfl, nofun, fun _ _ => rfl⟩

/-- The event's chases are stopped, and the event is DONE. -/
theorem retired_retires (current : s.et.current = some a) : Retired Stopped s (s.retired a) a := by
  have stopped : Seats a.transports Stopped s (forTransports a.transports (fun n s => s.stopRunChase n) s) :=
    .forTransports_all (fun n s => seats_stopRunChase (s := s) (n := n)) (nodup_transports a) s
  have free := stopRunChases_free a.transports s
  unfold retired
  generalize forTransports a.transports (fun n s => s.stopRunChase n) s = y at stopped free ⊢
  rw [completeEvent_eq (stopped.et ▸ current)]
  refine ⟨{ stopped.toReseats with }, ?_, ?_, fun n named => free n ((names_transports a).mpr named)⟩
  · show y.run = { s.run with awaited := y.run.awaited, insertsOn := y.run.insertsOn, cues := y.run.cues }
    rw [stopped.run]
  · show (⟨y.et.states.set a.event .done, y.et.lookahead, none⟩ : EditTable) = _
    rw [stopped.et]

theorem earlyActions_retires (current : s.et.current = some a) (rolling : s.run.state.rolling = true) {c : Int} (late : 0 < c) :
    Retired Offered s ((s.earlyActions a c).retired a) a ∧ (s.earlyActions a c).run.state.rolling = true := by
  obtain ⟨inserts, -⟩ := cuesAndInserts_timed (a := a) rolling c
  have seats := cuesAndInserts_reseats (s := s) (a := a) late.le
  obtain ⟨started, -⟩ := inserts.start rolling (b := a.kind ≠ .none && c = a.t0) (P := a.kind ≠ .none ∧ c = a.t0) (by simp)
    (.start a.kind a.curve a.length a.pattern ·) a.sourceB
  have startSeats := start_reseats (s := s.cuesAndInserts a c) (a.kind ≠ .none && c = a.t0) (.start a.kind a.curve a.length a.pattern ·) a.sourceB
  have noEdit : (s.cuesAndInserts a c).whileRolling (decide (c = 0)) (fun s => (s.runEnter .edit).armLookahead) = s.cuesAndInserts a c := by
    rw [decide_eq_false (by omega), whileRolling_never]
  rw [earlyActions_eq, noEdit]
  generalize (s.cuesAndInserts a c).whileRolling _ _ = y at started startSeats ⊢
  have retires := retired_retires (s := y) (a := a) (started.et ▸ current)
  refine ⟨⟨?_, ?_, ?_, retires.chase⟩, by rw [started.state]; exact rolling⟩
  · have wide := (seats.then_still startSeats).widen (more := a.transports) (fun n h => by
      rw [names_transports, List.mem_singleton.mp h]
      simp [Armed.names]) .refl
    exact wide.then_ retires.seats fun _ _ _ => .stopped
  · rw [retires.run, started.run]
  · rw [retires.et, started.et]

theorem timedActions_completes (current : s.et.current = some a) (rolling : s.run.state.rolling = true) (lasts : 1 ≤ a.duration)
    (ends : s.run.clock = (a.duration : Int) + a.postroll) :
    ∃ y : State, s.timedActions = y.completeRunEvent a ∧ Retired Offered s (y.retired a) a := by
  have late : 0 < s.run.clock := by omega
  obtain ⟨retires, rolls⟩ := earlyActions_retires current rolling late
  refine ⟨s.earlyActions a s.run.clock, ?_, retires⟩
  have acts : s.timedActions = (s.earlyActions a s.run.clock).lateActions a s.run.clock := by
    unfold timedActions
    rw [current]
    simp only
    rw [if_pos rolling]
  rw [acts]
  generalize s.earlyActions a s.run.clock = y at rolls ⊢
  have noRemoval : decide (s.run.clock = (a.duration : Int) - (a.latency + 1)) = false := decide_eq_false (by omega)
  unfold lateActions
  simp only
  rw [noRemoval, Bool.and_false, whileRolling_never]
  by_cases instant : s.run.clock = a.duration ∧ a.postroll = 0
  · rw [if_pos instant, whileRolling_now rolls]
  · have beyond : decide (s.run.clock = a.duration) = false := decide_eq_false fun h => instant ⟨h, by omega⟩
    rw [if_neg instant, beyond, whileRolling_never, decide_eq_true ends, whileRolling_now rolls]

/-! ## What follows the completed event (08 R167, steps 3 to 7) -/

/-- A held look-ahead fault becomes the run's (08 R167, step 3). -/
theorem promotePending_faults (active : s.run.state.active = true) (f : FaultRecord) :
    (s.promotePending f).RunFaulted f ∧ (s.promotePending f).run.faultExtra = s.run.pendingExtra ∧
    (s.promotePending f).run.pendingFault = none ∧ (s.promotePending f).run.lookahead = .none := by
  refine ⟨runFault_faulted (by exact active) f, ?_⟩
  unfold promotePending runFault
  rw [if_pos (by exact active)]
  have aborted := abortPath_aborted (s := (s.onRun fun r => { r with pendingFault := none, pendingExtra := 0, faultExtra := r.pendingExtra }).onRun
    ({ · with fault := some f })) .fault
  exact ⟨aborted.extra (by decide), aborted.pending, aborted.look⟩

theorem releasePlace_empty (current : s.et.current = none) (ahead : s.et.lookahead = none) (p : Place) : s.releasePlace p = s := by
  unfold releasePlace leavePlace
  cases p with
  | current => simp only [current]
  | lookahead => simp only [ahead]

/-- The release of what the run still owns leaves the links, and the cues of the rest (08 R174, step 1). -/
theorem releaseAll_seats (s : State) :
    Seats Transport.all (fun x y => y.link = x.link ∧ (x.owner ≠ .run → y.cue = x.cue)) s s.releaseAll := by
  refine .forTransports_all (fun n s => ?_) (by decide) s
  by_cases mine : (s.ctx n).owner = .run
  · rw [if_pos mine]
    unfold runRelease
    rw [if_pos mine]
    have free : Seats [n] (fun x y => x.owner = .run ∧ y.link = x.link) s (s.setOwner n .free) :=
      seats_onCtx (f := ({ · with owner := .free })) rfl ⟨mine, rfl⟩
    refine free.then_ (Q := fun x y => y = { x with cue := .zero }) (seats_setCue rfl) ?_
    rintro x y z ⟨owner, link⟩ rfl
    exact ⟨link, fun other => absurd owner other⟩
  · rw [if_neg mine]
    exact .refl (fun _ => ⟨rfl, fun _ => rfl⟩) s

theorem releaseMixer_keeps (s : State) : s.releaseMixer.mixer.owner ≠ .run ∧ ∃ m, s.releaseMixer = s.setMixer m := by
  unfold releaseMixer
  split_ifs with mine
  · exact ⟨nofun, _, rfl⟩
  · exact ⟨mine, s.mixer, rfl⟩

/-- The end of a run that has no event in a place: the mixer and the table, and each seat (08 R174). -/
theorem finishRun_finishes (current : s.et.current = none) (ahead : s.et.lookahead = none) :
    s.finishRun.et = s.et ∧ s.finishRun.mixer.owner ≠ .run ∧
    Reseats Transport.all (fun x y => y.link = x.link ∧ (x.owner ≠ .run → y.cue = x.cue)) s s.finishRun := by
  have released := releaseAll_seats s
  unfold finishRun endRun
  simp only
  generalize s.releaseAll = y at released ⊢
  have placeless : ∀ p, y.releasePlace p = y := releasePlace_empty (released.et ▸ current) (released.et ▸ ahead)
  rw [placeless, placeless]
  obtain ⟨owner, m, mixer⟩ := releaseMixer_keeps y
  rw [mixer] at owner ⊢
  generalize (if s.run.stopRequested then EndCause.stopped else .completed) = cause
  have entered := runEnter_apart (s := (y.setMixer m).onRun ({ · with endCause := cause })) .idle
  have seats := runEnter_reseats (s := (y.setMixer m).onRun ({ · with endCause := cause })) .idle
  refine ⟨entered.et.trans released.et, by rw [entered.mixer]; exact owner, ?_⟩
  exact released.toReseats.then_still (Q := Eq) { seats with }

theorem finishRun_ended (s : State) : Ended s s.finishRun .idle (if s.run.stopRequested then .stopped else .completed) := endRun_ended ..

theorem active_of_rolling {st : RunState} (rolling : st.rolling = true) : st.active = true := by
  revert rolling
  cases st <;> decide

section

variable {y : State} {e : Fin 64}

/-- What the completion leaves of the run, where only its cues and its inserts have changed. -/
theorem Retired.halted (h : Retired Offered s y a) (different : ts.Nodup) :
    Seats ts Halted y (forTransports ts haltAndRelease y) ∧
    (forTransports ts haltAndRelease y).run = { s.run with
      awaited := y.run.awaited, insertsOn := y.run.insertsOn, cues := (forTransports ts haltAndRelease y).run.cues } := by
  have halted := seats_haltAndReleases different y
  refine ⟨halted, ?_⟩
  rw [halted.run, h.run]

/-- A HALT that waits at the transport of the completed event. -/
theorem Retired.halt (h : Retired Offered s y a) (named : a.names n = true) {x : Seat} (halted : Halted (y.seat n) x)
    (up : (s.link n).state = .up) (room : (s.link n).queue.length < 3) : x.link.holds (runEntry .halt .none false false) := by
  have offered := h.seats.on n ((names_transports a).mpr named)
  have queue := offered.queue
  exact halted.halt (offered.link.trans up) (lt_of_le_of_lt queue (Nat.succ_lt_succ room))

/-- The run ends after its last event (08 R167, step 4, R174). -/
theorem finish_ends (h : Retired Offered s y a) (ahead : s.et.lookahead = none) :
    let t := (forTransports a.transports haltAndRelease y).finishRun
    t.run.state = .idle ∧ t.run.endCause = (if s.run.stopRequested then .stopped else .completed) ∧ t.run.fault = s.run.fault ∧
    t.et = ⟨s.et.states.set a.event .done, none, none⟩ ∧ t.mixer.owner ≠ .run ∧ (∀ n, (t.ctx n).owner ≠ .run) ∧
    ∀ n, a.names n = true →
      t.ChaseFree n ∧ t.run.cues.get n = .zero ∧
      ((s.link n).state = .up → (s.link n).queue.length < 3 → (t.link n).holds (runEntry .halt .none false false)) := by
  obtain ⟨halted, run⟩ := h.halted (nodup_transports a)
  have calm : Calm y (forTransports a.transports haltAndRelease y) :=
    .forTransports (fun n s => (calm_offerEntry (n := n) (s := s) _).trans calm_runRelease) a.transports y
  have places : (forTransports a.transports haltAndRelease y).et = ⟨s.et.states.set a.event .done, none, none⟩ := by
    rw [halted.et, h.et, ahead]
  generalize forTransports a.transports haltAndRelease y = z at halted run calm places ⊢
  obtain ⟨et, mixer, seats⟩ := finishRun_finishes (s := z) (by rw [places]) (by rw [places])
  have ended := finishRun_ended z
  have endRun := ended.run
  rw [run] at endRun
  generalize z.finishRun = t at et mixer seats ended endRun ⊢
  refine ⟨by rw [endRun], by rw [endRun], by rw [endRun], et.trans places, mixer, ended.owner, fun n named => ?_⟩
  have halt := halted.on n ((names_transports a).mpr named)
  obtain ⟨link, cue⟩ := seats.on n (Transport.mem_all n)
  refine ⟨ended.chase n (calm.chaseFree (h.chase n named)), (cue halt.owner).trans halt.cue, fun up room => ?_⟩
  have waits := h.halt named halt up room
  rw [← link] at waits
  exact waits

theorem Retired.progress (h : Retired Offered s y a) (n : Transport) : (y.run.cues.get n).progress = (s.run.cues.get n).progress := by
  by_cases among : n ∈ a.transports
  · exact (h.seats.on n among).progress
  · exact congrArg (·.cue.progress) (h.seats.off n among)

theorem Retired.active (h : Retired Offered s y a) (rolling : s.run.state.rolling = true) : y.run.state.active = true := by
  rw [h.run]
  exact active_of_rolling rolling

/-- The event armed ahead becomes current (08 R167, steps 5 to 7). -/
theorem next_chains {l : Armed} (h : Retired Offered s y a) (look : s.run.lookahead = .armed) (ahead : s.et.lookahead = some l)
    (rolling : s.run.state.rolling = true) (up : ∀ n, (s.link n).state = .up) :
    let t := y.nextEvent a.transports e
    t.et = ⟨s.et.states.set a.event .done, some l, none⟩ ∧ t.run.successor = l.link ∧
    t.run.lookahead = (if l.noLookahead = true ∨ l.link = none then .none else .notYet) ∧ t.run.fault = s.run.fault ∧
    t.run.cueCount = 0 ∧
    t.run.state = (if (l.transports.all fun n => (s.run.cues.get n).progress = .cued) = true then .ready else .cueing) ∧
    ∀ n, a.names n = true → l.names n = false →
      (t.ctx n).owner ≠ .run ∧ t.run.cues.get n = .zero ∧
      ((s.link n).queue.length < 3 → (t.link n).holds (runEntry .halt .none false false)) := by
  have places : y.et = ⟨s.et.states.set a.event .done, some l, none⟩ := by rw [h.et, ahead]
  have next : y.nextEvent a.transports e = y.chainEvent a.transports l := by
    unfold nextEvent
    rw [h.run, places]
    simp only
    rw [if_neg (by rw [look]; exact nofun)]
  obtain ⟨started, state, -, halted⟩ := chainEvent_chains (s := y) (b := l) (ts := a.transports) (by rw [places]) (by rw [places])
    (h.active rolling) (h.seats.up (fun _ _ offered => offered.link) up) (nodup_transports a)
  rw [← next] at started state halted
  simp only [h.progress] at state
  have fault : y.run.fault = s.run.fault := by rw [h.run]
  generalize y.nextEvent a.transports e = t at started state halted ⊢
  refine ⟨started.et.trans places, started.successor, started.lookahead, started.fault.trans fault, started.cueCount, state, ?_⟩
  intro n named other
  have halt := halted n ((names_transports a).mpr named) other
  exact ⟨halt.owner, halt.cue, h.halt named halt (up n)⟩

/-! ## The answers to an arming request, of a state with the same stores (07 R137) -/

/-- Why an event would not be armed. -/
def RefusedFor (s : State) (e : Fin 64) (k : FaultKind) : Prop :=
  (s.et.states[e] = .empty ∨ s.et.states[e] = .draft) ∧ k = .eventNotLoaded ∨
    s.et.states[e] = .loaded ∧
      ∃ r, (s.fieldsOf e).check s.standard s.run.margin (fun n => (s.ctx n).latency) = .error r ∧ k = .eventInvalid r

/-- The two states would arm an event alike. -/
structure ArmsAlike (s t : State) (e : Fin 64) : Prop where
  cfg : t.cfg = s.cfg
  latency : ∀ n, (t.ctx n).latency = (s.ctx n).latency
  margin : t.run.margin = s.run.margin
  state : t.et.states[e] = s.et.states[e]

theorem ArmsAlike.check (h : ArmsAlike s t e) :
    (t.fieldsOf e).check t.standard t.run.margin (fun n => (t.ctx n).latency) =
      (s.fieldsOf e).check s.standard s.run.margin (fun n => (s.ctx n).latency) := by
  unfold fieldsOf standard
  rw [h.cfg, h.margin]
  simp only [h.latency]

theorem ArmsAlike.refused (h : ArmsAlike s t e) {k : FaultKind} (refused : s.RefusedFor e k) (p : Place) (m : RunMode) :
    t.arm e p m t.run.margin = .error k := by
  rcases refused with ⟨unready, rfl⟩ | ⟨loaded, r, bad, rfl⟩
  · refine arm_refused ?_
    unfold eventState
    rw [h.state]
    rcases unready with st | st <;> rw [st] <;> rfl
  · refine arm_invalid ?_ (h.check.trans bad)
    unfold eventState
    rw [h.state, loaded]
    rfl

theorem ArmsAlike.armed (h : ArmsAlike s t e) (loaded : s.et.states[e] = .loaded) {codes : EventCodes}
    (good : (s.fieldsOf e).check s.standard s.run.margin (fun n => (s.ctx n).latency) = .ok codes) (p : Place) (m : RunMode) :
    let l := (s.fieldsOf e).armed codes e p s.standard s.run.margin (s.ctx codes.recorder).latency
    t.arm e p m t.run.margin = .ok (l, t.placeArmed p l) := by
  have answer := arm_armed (p := p) (m := m) (s := t) (e := e) (by unfold eventState; rw [h.state, loaded]; rfl) (h.check.trans good)
  unfold fieldsOf standard at answer ⊢
  rw [h.latency] at answer
  simp only [h.cfg, h.margin] at answer ⊢
  exact answer

/-- The run takes the transports of its new event, and begins their cues (08 R157). -/
theorem takeCurrent_takes (ahead : s.et.lookahead = none) (up : ∀ n, (s.link n).state = .up) :
    let t := (s.takeCurrent b).checkReady
    t.et = s.et ∧ t.run.fault = s.run.fault ∧ (t.run.state = .cueing ∨ t.run.state = .ready) ∧
    Reseats b.transports (fun x y => y.owner = .run ∧ y.link.state = x.link.state) s t := by
  have apart := runEnter_apart (s := (s.adoptEvent b).onRun ({ · with syncPassed := false })) .cueing
  have seats : Reseats [] Eq s (((s.adoptEvent b).onRun ({ · with syncPassed := false })).runEnter .cueing) :=
    { runEnter_reseats (s := (s.adoptEvent b).onRun ({ · with syncPassed := false })) .cueing with }
  have fault : (((s.adoptEvent b).onRun ({ · with syncPassed := false })).runEnter .cueing).run.fault = s.run.fault := by rw [apart.run]; rfl
  have cueing : (((s.adoptEvent b).onRun ({ · with syncPassed := false })).runEnter .cueing).run.state = .cueing := by rw [apart.run]; rfl
  have et : (((s.adoptEvent b).onRun ({ · with syncPassed := false })).runEnter .cueing).et = s.et := apart.et
  have cues (y : State) : forTransports b.transports (fun n s => if (s.run.cues.get n).progress = .cued then s else s.beginCue n 1) y =
      forTransports b.transports (fun n s => if ¬(s.run.cues.get n).progress = .cued then s.beginCue n 1 else s) y :=
    congrArg (forTransports b.transports · y) (by funext n s; rw [ite_not])
  unfold takeCurrent
  simp only
  rw [cues]
  generalize ((s.adoptEvent b).onRun ({ · with syncPassed := false })).runEnter .cueing = y at seats fault cueing et ⊢
  have taken : Seats b.transports Taken y (forTransports b.transports (fun n s => s.runTake n) y) :=
    .forTransports_all (fun n s => seats_runTake (s := s) (n := n)) (nodup_transports b) y
  generalize forTransports b.transports (fun n s => s.runTake n) y = z at taken ⊢
  have active : z.run.state.active = true := by rw [taken.run, cueing]; rfl
  have begun := seats_beginCues (s := z) (ts := b.transports) (mayCue_all active (.inl (by rw [taken.et, et]; exact ahead))) (nodup_transports b)
    (fun n _ => taken.toReseats.up (fun _ _ h => h.link) (seats.up (by rintro x y rfl; rfl) up) n)
    (fun s n => ¬(s.run.cues.get n).progress = .cued)
  have whole := taken.then_ (S := fun x y => y.owner = .run ∧ y.link.state = x.link.state) begun
    (fun x y z first second => ⟨second.owner.trans first.owner, second.link.trans first.link⟩)
  generalize forTransports b.transports (fun n s => if ¬(s.run.cues.get n).progress = .cued then s.beginCue n 1 else s) z = w at whole ⊢
  have base : w.et = s.et := whole.et.trans et
  have same : w.run.fault = s.run.fault := by rw [whole.run]; exact fault
  have still := seats.still_then whole.toReseats
  unfold checkReady
  split_ifs
  · obtain ⟨ready, readyEt, readyRun⟩ := enterReady_keeps w
    exact ⟨readyEt.trans base, by rw [readyRun]; exact same, .inr (by rw [readyRun]), still.then_still ready⟩
  · exact ⟨base, same, .inl (by rw [whole.run]; exact cueing), still⟩

theorem Retired.armsAlike (h : Retired Offered s y a) (other : e ≠ a.event) : ArmsAlike s y e where
  cfg := h.seats.cfg
  latency := h.seats.latency
  margin := by rw [h.run]
  state := by
    have apart : (a.event : Nat) ≠ e := fun same => other (Fin.ext same.symm)
    rw [h.et]
    exact Vector.getElem_set_ne a.event.isLt e.isLt apart

theorem nextEvent_of_refusal {k : FaultKind} (look : y.run.lookahead = .none) (refused : y.armCurrent e = .error k) :
    y.nextEvent ts e = (forTransports ts haltAndRelease y).armFault k e := by
  unfold nextEvent
  rw [if_pos look, refused]

theorem nextEvent_of_armed (look : y.run.lookahead = .none) (armed : y.armCurrent e = .ok (b, t)) :
    y.nextEvent ts e = t.chainEvent ts b := by
  unfold nextEvent
  rw [if_pos look, armed]

/-- A successor that is refused is the run's fault (08 R157, R167). -/
theorem next_refused (h : Retired Offered s y a) (look : s.run.lookahead = .none) (other : e ≠ a.event)
    (rolling : s.run.state.rolling = true) {k : FaultKind} (refused : s.RefusedFor e k) :
    (y.nextEvent a.transports e).RunFaulted ⟨k, e, none, none, false⟩ := by
  have answer := armCurrent_of_refusal ((h.armsAlike other).refused refused .current y.run.mode)
  have next := nextEvent_of_refusal (ts := a.transports) (by rw [h.run]; exact look) answer
  obtain ⟨-, run⟩ := h.halted (nodup_transports a)
  rw [next]
  refine runFault_faulted ?_ _
  rw [run]
  exact active_of_rolling rolling

/-- An event armed at the completion is taken up and becomes current (08 R157, R167, steps 6 and 7). -/
theorem armed_chains (h : Retired Offered s y a) (ahead : s.et.lookahead = none) (up : ∀ n, (s.link n).state = .up) (l : Armed) :
    let t := ((y.placeArmed .current l).takeCurrent l).checkReady.chainEvent a.transports l
    t.et = ⟨(s.et.states.set a.event .done).set l.event .armed, some l, none⟩ ∧ t.run.successor = l.link ∧
    (t.run.state = .cueing ∨ t.run.state = .ready) ∧ t.run.fault = s.run.fault ∧ ∀ n, l.names n = true → (t.ctx n).owner = .run := by
  have places : (y.placeArmed .current l).et = ⟨(s.et.states.set a.event .done).set l.event .armed, some l, none⟩ := by
    show (⟨y.et.states.set l.event .armed, some l, y.et.lookahead⟩ : EditTable) = _
    rw [h.et, ahead]
  have seats : Reseats [] Eq y (y.placeArmed .current l) := ⟨rfl, fun _ => rfl, nofun, fun _ _ => rfl⟩
  have links : ∀ n, ((y.placeArmed .current l).link n).state = .up := h.seats.up (fun _ _ offered => offered.link) up
  have fault : (y.placeArmed .current l).run.fault = s.run.fault := by
    show y.run.fault = _
    rw [h.run]
  generalize y.placeArmed .current l = z at places seats fault links ⊢
  obtain ⟨et, fault', state, taken⟩ := takeCurrent_takes (s := z) (b := l) (by rw [places]) links
  generalize (z.takeCurrent l).checkReady = w at et fault' state taken ⊢
  have active : w.run.state.active = true := by rcases state with st | st <;> rw [st] <;> rfl
  obtain ⟨started, chained, owner, -⟩ := chainEvent_chains (s := w) (b := l) (ts := a.transports) (by rw [et, places]) (by rw [et, places])
    active (taken.up (fun _ _ h => h.2) links) (nodup_transports a)
  refine ⟨started.et.trans (et.trans places), started.successor, ?_, started.fault.trans (fault'.trans fault), fun n named => ?_⟩
  · rw [chained]
    split_ifs
    · exact .inr rfl
    · exact .inl rfl
  · exact (owner n named).trans (taken.on n ((names_transports l).mpr named)).1

/-- A successor that is armed now becomes current (08 R167, steps 5 to 7). -/
theorem next_armed (h : Retired Offered s y a) (look : s.run.lookahead = .none) (ahead : s.et.lookahead = none) (other : e ≠ a.event)
    (up : ∀ n, (s.link n).state = .up) (loaded : s.et.states[e] = .loaded) {codes : EventCodes}
    (good : (s.fieldsOf e).check s.standard s.run.margin (fun n => (s.ctx n).latency) = .ok codes) :
    let l := (s.fieldsOf e).armed codes e .current s.standard s.run.margin (s.ctx codes.recorder).latency
    let t := y.nextEvent a.transports e
    t.et = ⟨(s.et.states.set a.event .done).set e .armed, some l, none⟩ ∧ t.run.successor = l.link ∧
    (t.run.state = .cueing ∨ t.run.state = .ready) ∧ t.run.fault = s.run.fault ∧ ∀ n, l.names n = true → (t.ctx n).owner = .run := by
  have answer := armCurrent_of_arm ((h.armsAlike other).armed loaded good .current y.run.mode)
  have next := nextEvent_of_armed (ts := a.transports) (by rw [h.run]; exact look) answer
  rw [next]
  exact armed_chains h ahead up _

/-- A held fault of the look-ahead stops the run at the completion (08 R167, step 3). -/
theorem pending_faults (h : Retired Offered s y a) (rolling : s.run.state.rolling = true) (f : FaultRecord) (different : ts.Nodup) :
    let t := (forTransports ts haltAndRelease y).promotePending f
    t.RunFaulted f ∧ t.run.faultExtra = s.run.pendingExtra ∧ t.run.pendingFault = none ∧ t.run.lookahead = .none := by
  obtain ⟨-, run⟩ := h.halted different
  obtain ⟨faulted, extra, rest⟩ := promotePending_faults (s := forTransports ts haltAndRelease y)
    (by rw [run]; exact active_of_rolling rolling) f
  refine ⟨faulted, extra.trans ?_, rest⟩
  rw [run]

end

/-! ## The look-ahead armed at edit-in (08 R168) -/

/-- The run once its look-ahead is armed, its pre-cues yet to begin. -/
def aheadArmed (s : State) : State := s.onRun ({ · with lookahead := .armed, laCueCount := 0 })

section

variable {e : Fin 64}

theorem armLookahead_of_refusal {k : FaultKind} (look : s.run.lookahead = .notYet) (successor : s.run.successor = some e)
    (refused : s.arm e .lookahead s.run.mode s.run.margin = .error k) : s.armLookahead = s.holdFault k e none := by
  unfold armLookahead
  rw [look, successor]
  simp only
  rw [refused]

theorem armLookahead_of_armed (look : s.run.lookahead = .notYet) (successor : s.run.successor = some e)
    (armed : s.arm e .lookahead s.run.mode s.run.margin = .ok (b, t)) :
    s.armLookahead =
      forTransports (b.transports.filter t.aheadArmed.et.lookaheadOnly) (fun n s => (s.runTake n).beginCue n 1) t.aheadArmed := by
  unfold armLookahead
  rw [look, successor]
  simp only
  rw [armed]
  rfl

/-- The actions before the look-ahead is armed at edit-in (08 R161). -/
def editedIn (s : State) (a : Armed) : State := (s.cuesAndInserts a 0).runEnter .edit

/-- The actions after it. -/
def afterEditIn (s : State) (a : Armed) : State :=
  (s.whileRolling (a.kind ≠ .none && (0 : Int) = a.t0) fun s =>
    match a.sourceB with
    | some b => s.hand (.start a.kind a.curve a.length a.pattern b)
    | none => s).lateActions a 0

theorem timedActions_editIn (current : s.et.current = some a) (rolling : s.run.state.rolling = true) (zero : s.run.clock = 0) :
    s.timedActions = (s.editedIn a).armLookahead.afterEditIn a := by
  have rolls : (s.cuesAndInserts a 0).run.state.rolling = true := by
    rw [(cuesAndInserts_timed rolling 0).1.state]
    exact rolling
  unfold timedActions
  rw [current]
  simp only
  rw [if_pos rolling, zero, earlyActions_eq, decide_eq_true rfl, whileRolling_now rolls]
  rfl

theorem editedIn_edits (rolling : s.run.state.rolling = true) :
    (∃ due on h, Timed s (s.editedIn a) .edit due on h) ∧ Reseats [a.recorder] Offered s (s.editedIn a) :=
  ⟨⟨_, _, _, (cuesAndInserts_timed rolling 0).1.trans (runEnter_timed _ .edit).1⟩,
    (cuesAndInserts_reseats (le_refl 0)).then_still (runEnter_reseats .edit)⟩

theorem afterEditIn_rests (lasts : 1 ≤ a.duration) (rolling : s.run.state.rolling = true) :
    (∃ due on h, Timed s (s.afterEditIn a) s.run.state due on h) ∧ Reseats [a.recorder] Offered s (s.afterEditIn a) := by
  obtain ⟨started, -⟩ := (Timed.refl s).start rolling (b := a.kind ≠ .none && (0 : Int) = a.t0) (P := a.kind ≠ .none ∧ (0 : Int) = a.t0)
    (by simp) (.start a.kind a.curve a.length a.pattern ·) a.sourceB
  have seats := start_reseats (s := s) (a.kind ≠ .none && (0 : Int) = a.t0) (.start a.kind a.curve a.length a.pattern ·) a.sourceB
  have going : decide ((0 : Int) = a.duration) = false := decide_eq_false (by omega)
  unfold afterEditIn
  rw [lateActions_eq 0 (by omega), going, whileRolling_never]
  generalize s.whileRolling _ _ = y at started seats ⊢
  exact ⟨⟨_, _, _, started.remove rolling Iff.rfl a.recorder⟩,
    seats.still_then (whileRolling_reseats .refl _ (timedInsert_reseats true _))⟩

theorem editedIn_armsAlike (rolling : s.run.state.rolling = true) (e : Fin 64) : ArmsAlike s (s.editedIn a) e := by
  obtain ⟨⟨due, on, h, timed⟩, seats⟩ := editedIn_edits (a := a) rolling
  exact ⟨seats.cfg, seats.latency, by rw [timed.run], by rw [timed.et]⟩

/-- A refusal of the look-ahead at edit-in is held back (08 R168). -/
theorem editIn_refused (current : s.et.current = some a) (rolling : s.run.state.rolling = true) (lasts : 1 ≤ a.duration)
    (zero : s.run.clock = 0) (look : s.run.lookahead = .notYet) (successor : s.run.successor = some e) (free : s.run.pendingFault = none)
    {k : FaultKind} (refused : s.RefusedFor e k) :
    s.timedActions.run.state = .edit ∧ s.timedActions.run.lookahead = .faultPending ∧
    s.timedActions.run.pendingFault = some ⟨k, e, none, some 0, true⟩ ∧ s.timedActions.et = s.et := by
  rw [timedActions_editIn current rolling zero]
  have answer := (editedIn_armsAlike (a := a) rolling e).refused refused .lookahead (s.editedIn a).run.mode
  obtain ⟨⟨due, on, h, edited⟩, -⟩ := editedIn_edits (a := a) rolling
  generalize s.editedIn a = w at answer edited ⊢
  have clock : w.faultClock = some 0 := by
    unfold faultClock
    rw [edited.run]
    exact congrArg some zero
  rw [armLookahead_of_refusal (by rw [edited.run]; exact look) (by rw [edited.run]; exact successor) answer,
    holdFault_first (by rw [edited.run]; exact free), clock]
  obtain ⟨⟨due', on', h', after⟩, -⟩ := afterEditIn_rests (s := w.onRun fun r =>
    { r with pendingFault := some ⟨k, e, none, some 0, true⟩, pendingExtra := 0, lookahead := .faultPending }) lasts
    (by show w.run.state.rolling = true; rw [edited.state]; rfl)
  rw [after.run, after.et]
  exact ⟨edited.state, rfl, rfl, edited.et⟩

/-- An event placed as the look-ahead of a run at work: the transports it alone names are taken, and their cues begun. -/
theorem placeAhead_preCues (active : s.run.state.active = true) (up : ∀ n, (s.link n).state = .up) (l : Armed) :
    let u := (s.placeArmed .lookahead l).aheadArmed
    let t := forTransports (l.transports.filter u.et.lookaheadOnly) (fun n s => (s.runTake n).beginCue n 1) u
    t.et = ⟨s.et.states.set l.event .armed, s.et.current, some l⟩ ∧
    t.run = { s.run with lookahead := .armed, laCueCount := 0, cues := t.run.cues } ∧
    ∀ n, l.names n = true → s.et.currentNames n = false → PreCued (s.seat n) (t.seat n) := by
  intro u
  have cued := seats_preCues (s := u) (ts := l.transports.filter u.et.lookaheadOnly) (mayCue_all (by exact active) (.inr rfl))
    ((nodup_transports l).filter _) fun n _ => up n
  refine ⟨cued.et, cued.run, fun n named other => ?_⟩
  have only : u.et.lookaheadOnly n = true := by
    show (l.names n && !s.et.currentNames n) = true
    rw [named, other]
    rfl
  exact cued.on n (List.mem_filter.mpr ⟨(names_transports l).mpr named, only⟩)

/-- The look-ahead is armed at edit-in, and its pre-cues begin (08 R168). -/
theorem editIn_armed (current : s.et.current = some a) (rolling : s.run.state.rolling = true) (lasts : 1 ≤ a.duration)
    (zero : s.run.clock = 0) (look : s.run.lookahead = .notYet) (successor : s.run.successor = some e) (free : s.run.pendingFault = none)
    (loaded : s.et.states[e] = .loaded) {codes : EventCodes}
    (good : (s.fieldsOf e).check s.standard s.run.margin (fun n => (s.ctx n).latency) = .ok codes) (up : ∀ n, (s.link n).state = .up) :
    let l := (s.fieldsOf e).armed codes e .lookahead s.standard s.run.margin (s.ctx codes.recorder).latency
    let t := s.timedActions
    t.run.state = .edit ∧ t.run.lookahead = .armed ∧ t.run.laCueCount = 0 ∧ t.run.pendingFault = none ∧
    t.et = ⟨s.et.states.set e .armed, some a, some l⟩ ∧
    ∀ n, l.names n = true → a.names n = false →
      (t.ctx n).owner = .run ∧ (t.run.cues.get n).progress = .locating ∧ (t.run.cues.get n).locates = 1 := by
  intro l
  have answer := (editedIn_armsAlike (a := a) rolling e).armed loaded good .lookahead (s.editedIn a).run.mode
  rw [timedActions_editIn current rolling zero]
  obtain ⟨⟨due, on, h, edited⟩, seats⟩ := editedIn_edits (a := a) rolling
  generalize s.editedIn a = w at answer edited seats ⊢
  rw [armLookahead_of_armed (by rw [edited.run]; exact look) (by rw [edited.run]; exact successor) answer]
  obtain ⟨et, run, cued⟩ := placeAhead_preCues (s := w) (by rw [edited.state]; rfl) (seats.up (fun _ _ offered => offered.link) up) l
  generalize forTransports _ _ _ = x at et run cued ⊢
  obtain ⟨⟨due', on', h', after⟩, rest⟩ := afterEditIn_rests (s := x) (a := a) lasts (by rw [run, edited.state]; rfl)
  have apart {n : Transport} (other : a.names n = false) : (x.afterEditIn a).seat n = x.seat n := rest.off n fun among => by
    rw [List.mem_singleton.mp among] at other
    simp [Armed.names] at other
  have currentNames (n : Transport) : w.et.currentNames n = a.names n := by
    unfold EditTable.currentNames
    rw [edited.et, current]
  generalize x.afterEditIn a = t at after apart ⊢
  refine ⟨after.state.trans ?_, ?_, ?_, ?_, after.et.trans (et.trans ?_), fun n named other => ?_⟩
  · rw [run, edited.run]
  · rw [after.run, run]
  · rw [after.run, run]
  · rw [after.run, run, edited.run]
    exact free
  · rw [edited.et, current]
    rfl
  · have seat := cued n named ((currentNames n).trans other)
    rw [← apart other] at seat
    exact ⟨seat.owner, seat.progress, seat.locates⟩

end

end State

open State in
/-- Settles O58: the work on each transport reaches its own seat alone, so that what the completion finds at a transport is what
the boundary began with, less the chase that was stopped; the successor is armed from the same stores. -/
theorem eventsCompleteAndChain : Obligations.EventsCompleteAndChain := by
  unfold Obligations.EventsCompleteAndChain
  intro s a current rolling lasts
  refine ⟨fun e zero look successor free => ⟨fun k refused => editIn_refused current rolling lasts zero look successor free refused,
    fun codes loaded good up => editIn_armed current rolling lasts zero look successor free loaded good up⟩, fun ends => ?_⟩
  obtain ⟨y, completes, retires⟩ := timedActions_completes current rolling lasts ends
  have pending : (y.retired a).run.pendingFault = s.run.pendingFault := by rw [retires.run]
  have successor : (y.retired a).run.successor = s.run.successor := by rw [retires.run]
  have stop : (y.retired a).run.stopRequested = s.run.stopRequested := by rw [retires.run]
  simp only
  rw [completes]
  refine ⟨fun f held => ?_, fun free ahead last => ?_, fun e l free next goes look ahead up => ?_, fun e free next goes look ahead other => ?_⟩
  · rw [completeRunEvent_pending (pending.trans held)]
    exact pending_faults retires rolling f ((nodup_transports a).filter _)
  · rw [completeRunEvent_last (pending.trans free) (by rw [successor, stop]; exact last)]
    exact finish_ends retires ahead
  · rw [completeRunEvent_next (pending.trans free) (successor.trans next) (stop.trans goes)]
    exact next_chains retires look ahead rolling up
  · rw [completeRunEvent_next (pending.trans free) (successor.trans next) (stop.trans goes)]
    exact ⟨fun k refused => next_refused retires look other rolling refused,
      fun codes loaded good up => next_armed retires look ahead other up loaded good⟩

end Sys2Proof.Machine
end
